-- ==== Sys2Proof/Word.lean ====
section
/-! DEFINITION. The words of the T418: link words, times, samples (00_scope.md, Conventions). -/

namespace Sys2Proof

/-- A word of the link or of a flash sector (R168, R171). -/
abbrev Word32 := BitVec 32

/-- A 48-bit wrapping time: a local count or a house time (R1, R2). -/
abbrev Time := BitVec 48

/-- One sample word of Sample Memory: 24 bits, read as signed (R35, R62). -/
abbrev Sample := BitVec 24

end Sys2Proof
end

