-- ==== Sys2Proof/Syntax.lean ====
section
/-! DEFINITION. The commands of the T418: one constructor for each row of spec/opcode_table.json. -/

namespace Sys2Proof

/-- The moments of a link frame (R50, R51, R70, R71): select-fall; bits clocked in, completing the words given and
leaving `tail` bits of a word not yet complete; select-rise (log 2). -/
inductive LinkStage where
  | fall
  | shift (words : List Word32) (tail : Nat)
  | rise
  deriving DecidableEq, Repr

/-- The stages of a CONTROL frame that belong to no single record (R50, R57, R149): its moments on the link, and the
interpreter going on by itself, past a record of wrong length or to the placing of the reply (log 4). -/
inductive ControlStage where
  | link (stage : LinkStage)
  | proceed
  deriving DecidableEq, Repr

/-- The two parts of a sample strobe (R113): the Renderer's work for each slot; then the mix, once all of the
Renderer's work for the strobe is done (log 5). -/
inductive StrobeStage where
  | render
  | mix
  deriving DecidableEq, Repr

/-- The commands. The operands of command records are the fields of spec 11.2, at their full width (R168). -/
inductive Instr where
  /-- LINE_RESET (R160). -/
  | lineReset
  /-- IMAGE_READ_END (R160): the 23 words of sector 0 that start-up reads (R171). -/
  | imageReadEnd (words : Vector Word32 23)
  /-- BOOT_PRESET_READ_END (R161): the 17 words of the preset sector. -/
  | bootPresetReadEnd (words : Vector Word32 17)
  /-- AUDIO (R58). -/
  | audio (stage : LinkStage)
  /-- CONT (R66). -/
  | cont (stage : LinkStage)
  /-- BEACON (R56). -/
  | beacon (stage : LinkStage)
  /-- READ (R70). -/
  | read (stage : LinkStage)
  /-- EDGE_RISE (R8). -/
  | edgeRise
  /-- SILENCE_TIMER (R24). -/
  | silenceTimer
  /-- HOLDOVER_TIMER (R25). -/
  | holdoverTimer
  /-- SAMPLE_STROBE (R113). -/
  | sampleStrobe (stage : StrobeStage)
  /-- STREAM_STARTED (R96). -/
  | streamStarted (slot : Fin 8)
  /-- STREAM_RESUMED (R107). -/
  | streamResumed (slot : Fin 8)
  /-- STARVE_LIMIT (R108). -/
  | starveLimit (slot : Fin 8)
  /-- STREAM_DRAINED (R109). -/
  | streamDrained (slot : Fin 8)
  /-- CORRECTION_POINT (R101). -/
  | correctionPoint (slot : Fin 8)
  /-- SPAN_LIMIT (R95, R105). -/
  | spanLimit (slot : Fin 8)
  /-- CUE_FIRE (R129). -/
  | cueFire
  /-- STATUS_POLL (R158): the flash's report, busy or not, suspended or not. -/
  | statusPoll (busy suspended : Bool)
  /-- FLASH_WAIT_TIMEOUT (R158). -/
  | flashWaitTimeout
  /-- SECTOR_WRITE_END (R164): the words of the read-back. -/
  | sectorWriteEnd (readBack : List Word32)
  /-- PRESET_READ_END (R165): the 17 words of the preset sector. -/
  | presetReadEnd (words : Vector Word32 17)
  /-- IDENTIFY (R154). -/
  | identify
  /-- SNAPSHOT (R155). -/
  | snapshot
  /-- RESTART (R157). -/
  | restart
  /-- OPEN (R37, R38). -/
  | openSlot (slot : BitVec 16) (streamId format priority ringSize : BitVec 8) (trim : Word32) (starveLimit : BitVec 16)
  /-- CLOSE (R40). -/
  | closeSlot (slot : BitVec 16)
  /-- END (R41). -/
  | endStream (slot : BitVec 16)
  /-- CUT (R43). -/
  | cut (slot : BitVec 16)
  /-- CLEAR (R44). -/
  | clear (slot : BitVec 16)
  /-- TRIM (R46). -/
  | trim (slot : BitVec 16) (value : Word32)
  /-- PARTITION (R36). -/
  | partition (mode : BitVec 16)
  /-- ROUTE_PUT (R115). -/
  | routePut (index : BitVec 16) (entry : Word32)
  /-- ROUTE_DROP (R116). -/
  | routeDrop (index : BitVec 16)
  /-- ROUTE_RECALL (R117). -/
  | routeRecall (preset : BitVec 16)
  /-- DUCK_SET (R121). -/
  | duckSet (lane : BitVec 16) (level : Word32)
  /-- OUTPUT_SET (R112). -/
  | outputSet (rate ko rt : Word32)
  /-- CUE_ADD (R132). -/
  | cueAdd (cueId : BitVec 16) (fireTime : Time) (action target : BitVec 8) (argument : BitVec 16)
  /-- CUE_CANCEL (R133). -/
  | cueCancel (cueId : BitVec 16)
  /-- CLOCK_SET (R5). -/
  | clockSet (masterId : BitVec 16) (source : BitVec 8) (holdoverLimit linkLatency edgeLatency : BitVec 16) (gate window : Word32)
  /-- CLOCK_HISTORY (R16). -/
  | clockHistory
  /-- CLASS_SET (R138). -/
  | classSet (kind cls : BitVec 8)
  /-- ACK (R146). -/
  | ack (slot sequence : BitVec 8)
  /-- SAVE (R162). -/
  | save (tag : BitVec 16) (bootPreset : BitVec 8)
  /-- PRESET_PUT (R163). -/
  | presetPut (preset : BitVec 16)
  /-- UNKNOWN (R151): a record whose code names no command, with its length. -/
  | unknown (code length : BitVec 8)
  /-- MALFORMED (R150): a record whose bounds cannot be trusted; code 0 where the frame has run out of words. -/
  | malformed (code : BitVec 8)
  /-- CONTROL (R57, R149). -/
  | control (stage : ControlStage)
  /-- UNKNOWN_KIND_FRAME (R54). -/
  | unknownKindFrame (stage : LinkStage)
  deriving DecidableEq, Repr

end Sys2Proof
end

