-- ==== Sys2Proof/WellFormed.lean ====
section
/-! DEFINITION. Which commands are well formed: operands stand within what the link or the flash can deliver. -/

namespace Sys2Proof

/-- Bits clocked in leave fewer than a word of bits over. -/
def LinkStage.wellFormed : LinkStage → Bool
  | .fall => true
  | .shift _ tail => decide (tail < 32)
  | .rise => true

/-- The codes of the 23 commands (R169, spec 11.2). -/
def commandCodes : List (BitVec 8) :=
  [0x01, 0x02, 0x03, 0x10, 0x11, 0x12, 0x13, 0x14, 0x15, 0x16, 0x20, 0x21, 0x22, 0x23, 0x24,
   0x30, 0x31, 0x40, 0x41, 0x50, 0x51, 0x60, 0x61]

/-- The five kinds of frame the part takes (R54): AUDIO, CONT, BEACON, CONTROL, READ. -/
def inboundKinds : List (BitVec 8) := [0x01, 0x02, 0x03, 0x04, 0x05]

/-- A well-formed command. -/
def Instr.wellFormed : Instr → Bool
  | .audio stage => stage.wellFormed
  | .cont stage => stage.wellFormed
  | .beacon stage => stage.wellFormed
  | .control (.link stage) => stage.wellFormed
  | .read stage => stage.wellFormed
  | .unknownKindFrame stage => stage.wellFormed
  | .unknown code length => !commandCodes.contains code && length != 0
  | .sectorWriteEnd ws => ws.length == 23 || ws.length == 17
  | .lineReset => true
  | .imageReadEnd _ => true
  | .bootPresetReadEnd _ => true
  | .edgeRise => true
  | .silenceTimer => true
  | .holdoverTimer => true
  | .sampleStrobe _ => true
  | .streamStarted _ => true
  | .streamResumed _ => true
  | .starveLimit _ => true
  | .streamDrained _ => true
  | .correctionPoint _ => true
  | .spanLimit _ => true
  | .cueFire => true
  | .statusPoll _ _ => true
  | .flashWaitTimeout => true
  | .presetReadEnd _ => true
  | .identify => true
  | .snapshot => true
  | .restart => true
  | .openSlot _ _ _ _ _ _ _ => true
  | .closeSlot _ => true
  | .endStream _ => true
  | .cut _ => true
  | .clear _ => true
  | .trim _ _ => true
  | .partition _ => true
  | .routePut _ _ => true
  | .routeDrop _ => true
  | .routeRecall _ => true
  | .duckSet _ _ => true
  | .outputSet _ _ _ => true
  | .cueAdd _ _ _ _ _ => true
  | .cueCancel _ => true
  | .clockSet _ _ _ _ _ _ _ => true
  | .clockHistory => true
  | .classSet _ _ => true
  | .ack _ _ => true
  | .save _ _ => true
  | .presetPut _ => true
  | .malformed _ => true
  | .control .proceed => true

end Sys2Proof
end

