-- ==== Sys2Proof/Decode.lean ====
section
/-! DEFINITION. Reading commands from words. The opcode table gives no row any bits, so no word spells a row
(log 30). Command records inside a CONTROL frame are read here at the bit positions of spec 11.2 (R150, R151, R168, R169). -/

namespace Sys2Proof

/-- The command that a word spells by the table's bits. No row of spec/opcode_table.json gives bits, so there is
none (log 30). -/
def decodeTableWord (_nbits _w : Nat) : Option Instr := none

namespace Decode

/-- `len` bits of a word from bit `lo` up, as numbered in chapter 11 (bit 0 least significant). -/
def field (w : Word32) (lo len : Nat) : BitVec len := w.extractLsb' lo len

/-- A 48-bit time from its two words; bits 31..16 of the first are ignored (R168). -/
def time48 (hi lo : Word32) : Time := (hi.extractLsb' 0 16) ++ lo

/-- The length in words a command requires, header included (R151, spec 11.2). -/
def commandLength (code : BitVec 8) : Option Nat :=
  match code.toNat with
  | 0x01 => some 1 | 0x02 => some 1 | 0x03 => some 1
  | 0x10 => some 4 | 0x11 => some 1 | 0x12 => some 1 | 0x13 => some 1 | 0x14 => some 1 | 0x15 => some 2 | 0x16 => some 1
  | 0x20 => some 2 | 0x21 => some 1 | 0x22 => some 1 | 0x23 => some 2 | 0x24 => some 4
  | 0x30 => some 4 | 0x31 => some 1
  | 0x40 => some 5 | 0x41 => some 1
  | 0x50 => some 1 | 0x51 => some 1
  | 0x60 => some 2 | 0x61 => some 1
  | _ => none

/-- The command a record of right length spells: its code, its argument and the words after its header. -/
def commandOf (code : BitVec 8) (arg : BitVec 16) (w1 w2 w3 w4 : Word32) : Option Instr :=
  match code.toNat with
  | 0x01 => some .identify
  | 0x02 => some .snapshot
  | 0x03 => some .restart
  | 0x10 => some (.openSlot arg (field w1 24 8) (field w1 16 8) (field w1 8 8) (field w1 0 8) w2 (field w3 0 16))
  | 0x11 => some (.closeSlot arg)
  | 0x12 => some (.endStream arg)
  | 0x13 => some (.cut arg)
  | 0x14 => some (.clear arg)
  | 0x15 => some (.trim arg w1)
  | 0x16 => some (.partition arg)
  | 0x20 => some (.routePut arg w1)
  | 0x21 => some (.routeDrop arg)
  | 0x22 => some (.routeRecall arg)
  | 0x23 => some (.duckSet arg w1)
  | 0x24 => some (.outputSet w1 w2 w3)
  | 0x30 => some (.cueAdd arg (time48 w1 w2) (field w3 24 8) (field w3 16 8) (field w3 0 16))
  | 0x31 => some (.cueCancel arg)
  | 0x40 => some (.clockSet arg (field w1 24 8) (field w1 0 16) (field w2 16 16) (field w2 0 16) w3 w4)
  | 0x41 => some .clockHistory
  | 0x50 => some (.classSet (arg.extractLsb' 8 8) (arg.extractLsb' 0 8))
  | 0x51 => some (.ack (arg.extractLsb' 8 8) (arg.extractLsb' 0 8))
  | 0x60 => some (.save arg (field w1 0 8))
  | 0x61 => some (.presetPut arg)
  | _ => none

/-- What stands next in a control frame (R149 to R151). -/
inductive Next where
  /-- the records the count names have all been dealt with -/
  | finished
  /-- a record for its owner, or one answered UNKNOWN or MALFORMED -/
  | record (i : Instr)
  /-- a record of a known command whose length is not that command's: REFUSED BADARG (R151) -/
  | wrongLength (code : BitVec 8)
  deriving DecidableEq, Repr

/-- The next record of a frame of which `remaining` records and `words` are left (R149, R150, R151). -/
def next (remaining : Nat) (words : List Word32) : Next :=
  if remaining = 0 then .finished
  else
    match words with
    | [] => .record (.malformed 0)
    | h :: rest =>
      let code := field h 24 8
      let len := (field h 16 8).toNat
      if len = 0 ∨ words.length < len then .record (.malformed code)
      else
        match commandLength code with
        | none => .record (.unknown code (field h 16 8))
        | some n =>
          if len ≠ n then .wrongLength code
          else
            match commandOf code (field h 0 16) (rest.getD 0 0) (rest.getD 1 0) (rest.getD 2 0) (rest.getD 3 0) with
            | some i => .record i
            | none => .record (.unknown code (field h 16 8))

end Decode

end Sys2Proof
end

