-- ==== Sys2Proof/Config.lean ====
section
/-! DEFINITION. What is fixed for the part, and the free values of the model. -/

namespace Sys2Proof.Config

/-- The value an address of Sample Memory holds while nothing has been written to it since line reset.
R35: "At line reset its value is unknown". A free value: nothing constrains it (log 9). -/
opaque unwrittenSample : Nat → Sample

/-- The control sequence of the reply to a RESTART that is commanded with no frame in hand: no frame carried one.
A free value: nothing constrains it (log 4). -/
opaque loneSequence : BitVec 16

/-- Two seconds in ticks: the silence timer (R24) and every flash wait (R158). -/
def twoSeconds : Int := 49152000

/-- One second in ticks (00_scope.md). -/
def oneSecond : Int := 24576000

/-- The clamp of the drift word, 300 parts per million of 2^32 (R20). -/
def driftLimit : Int := 1288490

/-- The largest lead a chunk may have, eight seconds (R83). -/
def farLead : Int := 196608000

/-- The span limit of a stream (R95, R105). -/
def spanLimit : Int := 2 ^ 46

/-- Words the Link Port holds of one frame, and words of an outbound frame (R52, R70). -/
def frameWords : Nat := 384

/-- The part code IDENTIFY returns (R154). -/
def partCode : Word32 := 0x0418

/-- The revision this manual describes (R154). -/
def revision : Word32 := 1

end Sys2Proof.Config
end

