-- ==== Sys2Proof/Machine/State.lean ====
section
/-! DEFINITION. The state of the T418 as plain data, block by block, and the state after a line reset. -/

namespace Sys2Proof.Machine

/-- Why a step stops with a fault. -/
inductive Fault where
  /-- Raised by the select-rise of AUDIO and CONT and by SAMPLE_STROBE when an open slot's ring does not lie in the 128 blocks of Sample
  Memory (R34): the access would be to a word that does not exist. Safe; no state the rules build reaches it (log 16). -/
  | noSampleWord
  deriving DecidableEq, Repr

/-- Why a step has no meaning. -/
inductive Refusal where
  /-- Raised by an arm of `exec` whose command has no meaning yet. Safe. No arm raises it. -/
  | notModelled (mnemonic : String)
  deriving DecidableEq, Repr

/-! ## The Time Base (01_house_time.md) -/

/-- The clock states (1.2). -/
inductive ClockState where
  | free | acquiring | locked | holdover
  deriving DecidableEq, Repr

/-- A local count and the house time it is taken to correspond to (1.2). -/
structure Anchor where
  lc : Time
  ht : Time
  deriving DecidableEq, Repr

/-- The capture source setting (R4). -/
inductive CaptureSource where
  | link | edge
  deriving DecidableEq, Repr

/-- The seven clock settings (R4): latencies in ticks, `gate` is G, `window` is W, `holdoverLimit` in seconds. -/
structure ClockSettings where
  masterId      : BitVec 16
  source        : CaptureSource
  linkLatency   : BitVec 16
  edgeLatency   : BitVec 16
  gate          : Nat
  window        : Nat
  holdoverLimit : Nat
  deriving DecidableEq, Repr

/-- The edge latch, with the count it holds (R8). -/
inductive EdgeLatch where
  | empty
  | held (count : Time)
  | overrun (count : Time)
  deriving DecidableEq, Repr

/-- The verdicts on a beacon (1.5). -/
inductive Verdict where
  | accepted | outlier | foreign | stale | unpaired
  deriving DecidableEq, Repr

/-- One record of the capture window (R15). -/
structure CaptureRecord where
  verdict  : Verdict
  master   : BitVec 16
  sequence : BitVec 16
  lc       : Option Time
  ht       : Time
  error    : Option Int
  deriving DecidableEq, Repr

/-- What the Time Base holds beside the local count (1.2, R4, R8, R15). -/
structure TimeBase where
  state         : ClockState
  anchor        : Option Anchor
  epsilon       : Int
  lockRun       : Nat
  outlierRun    : Nat
  settle        : Nat
  lastSequence  : Option (BitVec 16)
  adopted       : Option (BitVec 16)
  silenceStart  : Time
  holdoverStart : Time
  settings      : ClockSettings
  nominalDrift  : Int
  latch         : EdgeLatch
  window        : List CaptureRecord
  deriving DecidableEq, Repr

/-! ## The Stream Table and what other blocks keep for a slot (02_streams.md, 04, 05) -/

/-- The states of a slot (2.1). -/
inductive SlotState where
  | closed | priming | playing | starved | draining | frozen
  deriving DecidableEq, Repr

/-- The five source rates (R30). -/
inductive Rate where
  | r32000 | r44100 | r48000 | r88200 | r96000
  deriving DecidableEq, Repr

/-- One channel or two (R30). -/
inductive Channels where
  | mono | stereo
  deriving DecidableEq, Repr

/-- The payload width on the link (R30). -/
inductive Width where
  | w16 | w24
  deriving DecidableEq, Repr

/-- The context of an open stream (R30): `ringSize` in blocks, `trim` in house ticks, `starveLimit` in milliseconds. -/
structure Context where
  streamId    : BitVec 8
  rate        : Rate
  channels    : Channels
  width       : Width
  priority    : Fin 4
  ringSize    : Nat
  trim        : Int
  starveLimit : Nat
  deriving DecidableEq, Repr

/-- A chunk record of a playout queue (R73). -/
structure ChunkRecord where
  start    : Int
  count    : Nat
  sequence : BitVec 16
  bad      : Bool
  trace    : Bool
  deriving DecidableEq, Repr

/-- A continuation run: the sequence, start index and frame count of its newest frame (R65). -/
structure Run where
  sequence : BitVec 16
  start    : Int
  count    : Nat
  deriving DecidableEq, Repr

/-- One slot: what the Stream Table, Playout Queues, Renderer, Frame Parser and Report Unit keep for it (R31).
`readPos` is F and `step` the step, both in units of 2^-28 sample (R92). `correctionDue` is the model's own (log 5). -/
structure Slot where
  state         : SlotState
  context       : Option Context
  blocks        : List Nat
  queue         : List ChunkRecord
  origin        : Option Time
  readPos       : Option Int
  step          : Int
  phase         : Nat
  starveCount   : Nat
  realigns      : List Time
  run           : Option Run
  traceFlag     : Bool
  faultPending  : Bool
  faultSequence : BitVec 8
  correctionDue : Bool
  deriving DecidableEq, Repr

/-- A CLOSED slot whose fault sequence is `n` (R31, R39). The fields with no meaning while CLOSED are 0 (log 10). -/
def Slot.closedWith (n : BitVec 8) : Slot :=
  { state := .closed, context := none, blocks := [], queue := [], origin := none, readPos := none, step := 0,
    phase := 0, starveCount := 0, realigns := [], run := none, traceFlag := false, faultPending := false,
    faultSequence := n, correctionDue := false }

/-- The partition mode: one, two or four regions (R32). -/
inductive PartitionMode where
  | one | two | four
  deriving DecidableEq, Repr

/-- Sample Memory as written since line reset: addresses strictly rising, below 65,536. An address not listed
has no value (R35, log 9). -/
abbrev Memory := List (Nat × Sample)

/-! ## The Lane Mixer and Output Port (06_lanes_and_mixing.md) -/

/-- The output rates (R111). -/
inductive OutputRate where
  | r48000 | r96000
  deriving DecidableEq, Repr

/-- The output settings: rate, delay compensation Ko and resync threshold Rt in house ticks (R111). -/
structure OutputSettings where
  rate : OutputRate
  ko   : Nat
  rt   : Nat
  deriving DecidableEq, Repr

/-- A used route entry (R114). -/
structure Route where
  slot    : Fin 8
  channel : Fin 2
  lane    : Fin 4
  gain    : BitVec 16
  deriving DecidableEq, Repr

/-- Sixteen route entries; an unused one is `none` (R114). -/
abbrev RouteTable := Vector (Option Route) 16

/-- One output lane: duck level, gain and ceiling (R119 to R121), the value formed at the last strobe (R122) and
the value in the serial frame being sent (R123). -/
structure Lane where
  level   : Nat
  gain    : Nat
  ceiling : Option (Fin 4)
  value   : Int
  sending : Int
  deriving DecidableEq, Repr

/-- What the mixer reads of a slot at a strobe: the state the Renderer's work left it in, the priority and channel
count of its stream, and the values it handed, if any (R99, R113). -/
structure Contribution where
  state    : SlotState
  priority : Fin 4
  channels : Nat
  values   : Option (List Int)
  deriving DecidableEq, Repr

/-! ## The Cue Unit (07_cues.md) -/

/-- A MARK cue's argument (R128). -/
inductive MarkLevel where
  | low | high | toggle
  deriving DecidableEq, Repr

/-- A strobe's pass through the cue table (R129): the acoustic time formed at it, and the ids of the entries it found
due, in table order, that it has yet to come to (log 12). -/
structure CuePass where
  acoustic : Time
  due      : List (BitVec 8)
  deriving DecidableEq, Repr

/-- A cue's action with its target and argument (R125 to R128). -/
inductive CueAction where
  | cut (slot : Fin 8)
  | ending (slot : Fin 8)
  | gain (index : Fin 16) (gain : BitVec 16)
  | duck (lane : Fin 4) (level : Nat)
  | recall (preset : Fin 8)
  | mute (assert : Bool)
  | mark (level : MarkLevel)
  deriving DecidableEq, Repr

/-- A cue entry (R125). -/
structure Cue where
  id       : BitVec 8
  fireTime : Time
  action   : CueAction
  late     : Bool
  deriving DecidableEq, Repr

/-- The staged route table; its contents are in use only when READY (R134). -/
inductive Staged where
  | free
  | filling
  | ready (entries : RouteTable)
  deriving DecidableEq, Repr

/-! ## The Report Unit (08_faults_and_reports.md) -/

/-- The 32 event kinds (R137). -/
inductive EventKind where
  | lockGained | lockLost | holdoverEntered | clockFree | beaconOutlier | beaconForeign | beaconStale | beaconUnpaired
  | edgeOverrun | driftLimit | reanchor | streamStarted | streamStarved | streamResumed | starveLimit | realign
  | realignStorm | chunkLate | chunkRefused | chunkBad | runBroken | formatMismatch | spanLimit | streamDrained
  | chunkTrace | cueFired | cueLate | cueVoid | frameDiscarded | flashDone | flashFailed | imageStatus
  deriving DecidableEq, Repr

/-- The class of an event kind (R137). -/
inductive EventClass where
  | ignore | note | fault
  deriving DecidableEq, Repr

/-- The action code and cue id that word 0 of a cue event's report carries (R170). -/
structure CueTag where
  action : BitVec 4
  id     : BitVec 8
  deriving DecidableEq, Repr

/-- A report record (R140). `isFault` is its class, FAULT or NOTE; `cue` is present for the three cue events (R170). -/
structure Report where
  kind          : EventKind
  isFault       : Bool
  slot          : Option (Fin 8)
  localCount    : Time
  houseTime     : Option Time
  detail        : Word32
  cue           : Option CueTag
  lost          : Bool
  faultSequence : Option (BitVec 8)
  frozen        : Bool
  deriving DecidableEq, Repr

/-! ## Commands and replies (09_commands.md, 11.3) -/

/-- The statuses of a reply record (9.1). -/
inductive Status where
  | done | accepted | busy | refused | unknown | malformed
  deriving DecidableEq, Repr

/-- The reasons that go with REFUSED (9.1). -/
inductive Reason where
  | badarg | state | nospace | duplicate | notfound | full | far | badregion
  deriving DecidableEq, Repr

/-- An owner's answer to a command record: status, reason for REFUSED only, result words (R151). -/
structure Answer where
  status  : Status
  reason  : Option Reason
  results : List Word32
  deriving DecidableEq, Repr

/-- A reply record: the echoed code and the answer (9.1). -/
structure ReplyRecord where
  code   : BitVec 8
  answer : Answer
  deriving DecidableEq, Repr

/-- A reply: the control sequence and its reply records in order (R149). -/
structure Reply where
  sequence : BitVec 16
  records  : List ReplyRecord
  deriving DecidableEq, Repr

/-- The reply buffer (R68). -/
inductive ReplyBuffer where
  | empty
  | reserved
  | full (reply : Reply)
  deriving DecidableEq, Repr

/-- The control frame in the interpreter's hand: how many records its count still names, its words from the next
record on, and the reply so far (R149). -/
structure Interp where
  sequence  : BitVec 16
  remaining : Nat
  words     : List Word32
  records   : List ReplyRecord
  deriving DecidableEq, Repr

/-- The link frame between its select-fall and its select-rise (R50): the arrival count latched (R7), whether the rest
of it is ignored, the words held, how many words have been clocked in whole, and the bits of the one not yet whole. -/
structure LinkFrame where
  arrival : Time
  ignored : Bool
  words   : List Word32
  count   : Nat
  tail    : Nat
  deriving DecidableEq, Repr

/-- What a READ carries outward (R70): the reply, a REPORT of so many records, or an EMPTY frame. -/
inductive OutContent where
  | reply
  | report (count : Nat)
  | empty
  deriving DecidableEq, Repr

/-- The outbound frame being shifted, with its words (R70). -/
structure Outbound where
  content : OutContent
  words   : List Word32
  deriving DecidableEq, Repr

/-! ## The Image Port (10_stored_image_and_start_up.md) -/

/-- STARTING or RUNNING (R160, R161). -/
inductive RunState where
  | starting | running
  deriving DecidableEq, Repr

/-- The image status (R160). -/
inductive ImageStatus where
  | loaded | defaulted
  deriving DecidableEq, Repr

/-- Causes of a bad sector or a failed flash operation (R159, R164, R168). -/
inductive Cause where
  | magic | version | length | check | range | timeout | verify | content
  deriving DecidableEq, Repr

/-- The operations the part issues to the flash (10.1). -/
inductive FlashOp where
  | read (address bytes : Nat)
  | writeEnable
  | sectorErase (address : Nat)
  | pageProgram (address : Nat) (words : List Word32)
  | statusPoll
  | suspend
  | resume
  deriving DecidableEq, Repr

/-- Who asked for a preset read (R165): ROUTE-RECALL for the live table, a RECALL cue for the staged one. -/
inductive ReadDest where
  | live | staged
  deriving DecidableEq, Repr

/-- A preset read (R165). -/
structure PresetRead where
  preset : Fin 8
  dest   : ReadDest
  deriving DecidableEq, Repr

/-- What a sector write writes (R162, R163). -/
inductive WriteJob where
  | save
  | presetPut (preset : Fin 8)
  deriving DecidableEq, Repr

/-- Where a sector write stands (R158, R164): the wait before the erase's write-enable, the wait after the erase,
the wait before the program's write-enable, the wait after the page-program, the wait before the read-back, and
the read-back itself. -/
inductive WriteStep where
  | beforeErase | erasing | beforeProgram | programming | beforeReadBack | readBack
  deriving DecidableEq, Repr

/-- A sector write: what, with what content, its step, and when its wait began (R158, R164). -/
structure SectorWrite where
  job     : WriteJob
  content : List Word32
  step    : WriteStep
  since   : Time
  deriving DecidableEq, Repr

/-- A read's two phases: the wait before it, since a local count, or the read being clocked (R158). `resumed`
marks start-up's wait after it has issued resume (R167). -/
inductive ReadPhase where
  | waiting (resumed : Bool) (since : Time)
  | clocking
  deriving DecidableEq, Repr

/-- The phases of a read made in SUSPENDED (R166): waiting for the report that decides whether to suspend, waiting
for the flash to report suspended, or the read being clocked. -/
inductive SuspendPhase where
  | deciding (since : Time)
  | suspending (since : Time)
  | clocking
  deriving DecidableEq, Repr

/-- The Image Port (R158): start-up's reads, IDLE, READING, WRITING, or SUSPENDED. In SUSPENDED it keeps the
write beneath, how much of the write's own wait had passed, and whether suspend was issued (R166). -/
inductive Port where
  | startImage (phase : ReadPhase)
  | startPreset (preset : Fin 8) (phase : ReadPhase)
  | idle
  | reading (read : PresetRead) (phase : ReadPhase)
  | writing (write : SectorWrite)
  | suspended (write : SectorWrite) (elapsed : Int) (issued : Bool) (read : PresetRead) (phase : SuspendPhase)
  deriving DecidableEq, Repr

/-! ## The whole part -/

/-- The state of the T418 and the queue of waiting commands. INVENTORY.md names the rule behind each field. -/
structure State where
  pending       : List Instr
  run           : RunState
  localCount    : Time
  clock         : TimeBase
  deviceTag     : BitVec 16
  imageStatus   : ImageStatus
  defaultCause  : Option Cause
  bootPreset    : Option (Fin 8)
  partition     : PartitionMode
  freeLists     : Vector (List Nat) 4
  slots         : Vector Slot 8
  memory        : Memory
  output        : OutputSettings
  strobeRate    : OutputRate
  routes        : RouteTable
  lanes         : Vector Lane 4
  contributions : Vector Contribution 8
  cues          : List Cue
  staged        : Staged
  mute          : Bool
  mark          : Bool
  classes       : Vector EventClass 32
  reports       : List Report
  lostMark      : Bool
  replyBuffer   : ReplyBuffer
  inbound       : Option LinkFrame
  outbound      : Option Outbound
  interp        : Option Interp
  port          : Port
  flashOut      : List FlashOp
  strobed       : Option Time
  mixDue        : Bool
  cuePass       : Option CuePass
  deriving DecidableEq, Repr

/-- The default clock settings (R4). -/
def ClockSettings.default : ClockSettings :=
  { masterId := 0, source := .link, linkLatency := 0, edgeLatency := 0, gate := 2458, window := 246, holdoverLimit := 30 }

/-- The Time Base after a reset, before an image is taken (R27, R160). -/
def TimeBase.reset : TimeBase :=
  { state := .free, anchor := none, epsilon := 0, lockRun := 0, outlierRun := 0, settle := 0, lastSequence := none,
    adopted := none, silenceStart := 0, holdoverStart := 0, settings := ClockSettings.default, nominalDrift := 0,
    latch := .empty, window := [] }

/-- The default output settings (R111). -/
def OutputSettings.default : OutputSettings := { rate := .r48000, ko := 0, rt := 98304 }

/-- A lane after a reset (R124). -/
def Lane.reset : Lane := { level := 4096, gain := 16384, ceiling := none, value := 0, sending := 0 }

/-- No contribution: a CLOSED slot that handed nothing (R99). -/
def Contribution.none : Contribution := { state := .closed, priority := 0, channels := 0, values := .none }

/-- The default event classes, kinds 0 to 31 in order (R137). -/
def defaultClasses : Vector EventClass 32 :=
  #v[.note, .note, .note, .note, .ignore, .ignore, .ignore, .ignore,
     .note, .note, .note, .note, .note, .note, .fault, .note,
     .fault, .ignore, .ignore, .note, .note, .fault, .note, .note,
     .note, .ignore, .note, .note, .ignore, .note, .note, .note]

/-- Every block of Sample Memory, region by region, in increasing order (R33). -/
def fullFreeLists : PartitionMode → Vector (List Nat) 4
  | .one => #v[List.range 128, [], [], []]
  | .two => #v[List.range 64, List.range' 64 64, [], []]
  | .four => #v[List.range 32, List.range' 32 32, List.range' 64 32, List.range' 96 32]

/-- The part right after a line reset: STARTING, every block in its reset state, every image setting at its default
(R160 and the reset tables R27, R49, R72, R124, R136, R147). Start-up's wait before the image read begins (R158). -/
def State.reset : State :=
  { pending := [], run := .starting, localCount := 0, clock := TimeBase.reset, deviceTag := 0xFFFE,
    imageStatus := .defaulted, defaultCause := none, bootPreset := none, partition := .one,
    freeLists := fullFreeLists .one, slots := Vector.replicate 8 (Slot.closedWith 0), memory := [],
    output := OutputSettings.default, strobeRate := .r48000, routes := Vector.replicate 16 none, lanes := Vector.replicate 4 Lane.reset,
    contributions := Vector.replicate 8 Contribution.none, cues := [], staged := .free, mute := true, mark := false,
    classes := defaultClasses, reports := [], lostMark := false, replyBuffer := .empty, inbound := none, outbound := none, interp := none,
    port := .startImage (.waiting false 0), flashOut := [.statusPoll], strobed := none, mixDue := false, cuePass := none }

end Sys2Proof.Machine
end

