-- ==== Sys2Proof/Machine/Ops.lean ====
section
/-! DEFINITION. Shared operations: wrapping times and translation, rounding, Sample Memory and its rings, slots. -/

namespace Sys2Proof.Machine

/-! ## Times (R2, R3) -/

/-- The signed difference of `a` from `b`: `a - b` modulo 2^48, read in -2^47..2^47 - 1 (R2). -/
def sdiff (a b : Time) : Int := (a - b).toInt

/-- A signed span added to a time, modulo 2^48 (R2). -/
def addSpan (t : Time) (d : Int) : Time := t + BitVec.ofInt 48 d

/-- The translation of a local count through an anchor and a drift word (R3). -/
def throughAnchor (a : Anchor) (epsilon : Int) (lc : Time) : Time :=
  addSpan a.ht (sdiff lc a.lc + (sdiff lc a.lc * epsilon).tdiv (2 ^ 32))

/-- The house time of a local count, none in FREE (R3). -/
def translate (c : TimeBase) (lc : Time) : Option Time :=
  if c.state = .free then none else c.anchor.map (fun a => throughAnchor a c.epsilon lc)

/-- The current house time (R3). -/
def State.houseTime (s : State) : Option Time := translate s.clock s.localCount

/-- The strobe divider, which is one output sample period in ticks (R113). -/
def OutputRate.divider : OutputRate → Nat
  | .r48000 => 512
  | .r96000 => 256

/-- The acoustic time of the present local count: its translation plus Ko (R129, R132). -/
def State.acousticTime (s : State) : Option Time := s.houseTime.map (fun t => addSpan t s.output.ko)

/-! ## Numbers -/

/-- Round half up: half the (even, positive) divisor added, then the floor (00_scope.md). -/
def roundHalfUp (n d : Int) : Int := (n + d / 2) / d

/-- `x` held within `lo..hi`. -/
def clampTo (lo hi x : Int) : Int := max lo (min hi x)

/-- A value clamped to -2^31..2^31 - 1, as a detail carries it (R13, R96, R103). -/
def clamp32 (x : Int) : Word32 := BitVec.ofInt 32 (clampTo (-2147483648) 2147483647 x)

/-- A signed value as a 32-bit word (R168). -/
def signedWord (x : Int) : Word32 := BitVec.ofInt 32 x

/-- A count as a 32-bit word. -/
def natWord (n : Nat) : Word32 := BitVec.ofNat 32 n

/-- `n` as an index below `k`, if it is one. -/
def indexBelow (k n : Nat) : Option (Fin k) := if h : n < k then some ⟨n, h⟩ else none

/-- A source rate in Hz (R30). -/
def Rate.hz : Rate → Int
  | .r32000 => 32000
  | .r44100 => 44100
  | .r48000 => 48000
  | .r88200 => 88200
  | .r96000 => 96000

/-- An output rate in Hz (R111). -/
def OutputRate.hz : OutputRate → Int
  | .r48000 => 48000
  | .r96000 => 96000

/-- A channel count (R30). -/
def Channels.count : Channels → Nat
  | .mono => 1
  | .stereo => 2

/-- The number of regions (R32). -/
def PartitionMode.regions : PartitionMode → Nat
  | .one => 1
  | .two => 2
  | .four => 4

/-- The nominal step N, in units of 2^-28 sample, rounded to the nearest integer (R93). -/
def nominalStep (fs : Rate) (fo : OutputRate) : Int := roundHalfUp (fs.hz * 2 ^ 28) fo.hz

/-- The ones' complement sum of two 16-bit numbers: a carry out of bit 15 is added back into bit 0 (R63). -/
def onesAdd (a b : Nat) : Nat := (a + b) % 65536 + (a + b) / 65536

/-- The 16-bit ones' complement sum of every half of every word, high half first (R63). -/
def onesSum (ws : List Word32) : Nat :=
  ws.foldl (fun acc w => onesAdd (onesAdd acc (w.extractLsb' 16 16).toNat) (w.extractLsb' 0 16).toNat) 0

/-! ## Sample Memory (R34, R35) -/

/-- The number of sample words. -/
def memoryWords : Nat := 65536

/-- The value of a sample word, if anything has been written to it since line reset (R35). -/
def readWord : Memory → Nat → Option Sample
  | [], _ => none
  | (b, v) :: rest, a => if a = b then some v else readWord rest a

/-- A write into a list of rising addresses. -/
def insertWord : Memory → Nat → Sample → Memory
  | [], a, v => [(a, v)]
  | (b, w) :: rest, a, v =>
    if a < b then (a, v) :: (b, w) :: rest
    else if a = b then (a, v) :: rest
    else (b, w) :: insertWord rest a v

/-- A write of one sample word (R35); no word stands at or above address 65,536. -/
def writeWord (m : Memory) (a : Nat) (v : Sample) : Memory :=
  if a < memoryWords then insertWord m a v else m

/-- The canonical form: addresses strictly rising and below 65,536. -/
def memoryWf : Memory → Bool
  | [] => true
  | [(a, _)] => decide (a < memoryWords)
  | (a, _) :: (b, w) :: rest => decide (a < b) && memoryWf ((b, w) :: rest)

/-- The sample the Renderer gets from a word: as written, or the free value while it is unwritten (R35, log 9). -/
def sampleAt (m : Memory) (a : Nat) : Int := ((readWord m a).getD (Config.unwrittenSample a)).toInt

/-- The ring frames of a stream: its words divided by its channel count (R34). -/
def ringFrames (c : Context) : Nat := c.ringSize * 512 / c.channels.count

/-- The ring word of channel `ch` of index `k` (R34). -/
def ringWord (c : Context) (k : Int) (ch : Nat) : Nat := (k % (ringFrames c : Int)).toNat * c.channels.count + ch

/-- The address of a ring word: word `w` modulo 512 of the block at position `w / 512` of the block list (R34).
A position past the block list gives an address that does not exist. -/
def ringAddress (blocks : List Nat) (w : Nat) : Nat := blocks.getD (w / 512) 128 * 512 + w % 512

/-- Every open slot's ring has its reserved number of blocks, all of them among the 128 (R33). -/
def State.ringsLocated (s : State) : Bool :=
  (List.finRange 8).all fun i =>
    match (s.slots[i.val]).context with
    | none => true
    | some c => decide ((s.slots[i.val]).blocks.length = c.ringSize) && (s.slots[i.val]).blocks.all (fun b => decide (b < 128))

/-! ## Slots (R28 to R31) -/

/-- The slot `i`. -/
def State.slot (s : State) (i : Fin 8) : Slot := s.slots[i.val]

/-- The state with slot `i` replaced. -/
def State.setSlot (s : State) (i : Fin 8) (v : Slot) : State := { s with slots := s.slots.set i.val v i.isLt }

/-- The state with the Time Base replaced. -/
def State.setClock (s : State) (c : TimeBase) : State := { s with clock := c }

/-- The nominal step of the stream open in a slot; 0 where none is. -/
def State.nominalOf (s : State) (v : Slot) : Int :=
  match v.context with
  | some c => nominalStep c.rate s.output.rate
  | none => 0

/-- The running state a cut and CLEAR leave, and the state PRIMING (R31). -/
def primed (v : Slot) (n : Int) : Slot :=
  { v with
    state := .priming, queue := [], origin := none, readPos := none, step := n, phase := 0, starveCount := 0,
    realigns := [], run := none, traceFlag := false, correctionDue := false }

/-- Cutting a slot (R42): fault pending flag and fault sequence kept. -/
def cutSlot (i : Fin 8) (s : State) : State := s.setSlot i (primed (s.slot i) (s.nominalOf (s.slot i)))

/-- A freeze asked for a slot, applied from PRIMING, PLAYING, STARVED and DRAINING and dropped otherwise (R45, R48). -/
def freezeSlot (i : Fin 8) (s : State) : State :=
  match (s.slot i).state with
  | .priming | .playing | .starved | .draining => s.setSlot i { s.slot i with state := .frozen, run := none }
  | .closed | .frozen => s

/-! ## Regions and free lists (R32, R33) -/

/-- The blocks of one region (R32). -/
def regionBlocks (m : PartitionMode) : Nat := 128 / m.regions

/-- The region of a stream id (R32). -/
def regionOf (m : PartitionMode) (streamId : BitVec 8) : Fin 4 :=
  match m with
  | .one => 0
  | .two => ⟨streamId.toNat / 128, by have := streamId.isLt; omega⟩
  | .four => ⟨streamId.toNat / 64, by have := streamId.isLt; omega⟩

/-- A block put into a free list kept in increasing order (R33). -/
def insertBlock : Nat → List Nat → List Nat
  | b, [] => [b]
  | b, x :: xs => if b ≤ x then b :: x :: xs else x :: insertBlock b xs

/-- Blocks returned to a free list (R33). -/
def returnBlocks (bs : List Nat) (free : List Nat) : List Nat := bs.foldl (fun acc b => insertBlock b acc) free

/-- Closing a slot (R39): its blocks go back to its region, everything but the fault sequence is cleared. -/
def releaseSlot (i : Fin 8) (s : State) : State :=
  match (s.slot i).context with
  | none => s.setSlot i (Slot.closedWith (s.slot i).faultSequence)
  | some c =>
    let r := regionOf s.partition c.streamId
    { s.setSlot i (Slot.closedWith (s.slot i).faultSequence) with
      freeLists := s.freeLists.set r.val (returnBlocks (s.slot i).blocks s.freeLists[r.val]) r.isLt }

end Sys2Proof.Machine
end

