-- ==== Sys2Proof/Machine/Operands.lean ====
section
/-! DEFINITION. Operand forms: the codes of chapter 11 read into values, and values written as codes and words. -/

namespace Sys2Proof.Machine

open Sys2Proof.Decode (field time48)

/-! ## Codes read (R168) -/

/-- A source rate code (R168). -/
def rateOfCode (n : Nat) : Option Rate :=
  match n with
  | 1 => some .r32000
  | 2 => some .r44100
  | 3 => some .r48000
  | 4 => some .r88200
  | 5 => some .r96000
  | _ => none

/-- An output rate code: 3 or 5 only (R168). -/
def outputRateOfCode (n : Nat) : Option OutputRate :=
  match n with
  | 3 => some .r48000
  | 5 => some .r96000
  | _ => none

/-- A channel code (R168). -/
def channelsOfCode (n : Nat) : Option Channels :=
  match n with
  | 1 => some .mono
  | 2 => some .stereo
  | _ => none

/-- A width code (R168). -/
def widthOfCode (n : Nat) : Option Width :=
  match n with
  | 1 => some .w16
  | 2 => some .w24
  | _ => none

/-- The format byte: rate in bits 7..4, channels in 3..2, width in 1..0 (R168). -/
def formatOf (b : BitVec 8) : Option (Rate × Channels × Width) :=
  match rateOfCode (b.toNat / 16), channelsOfCode (b.toNat / 4 % 4), widthOfCode (b.toNat % 4) with
  | some r, some c, some w => some (r, c, w)
  | _, _, _ => none

/-- A capture source code (R168). -/
def sourceOfCode (n : Nat) : Option CaptureSource :=
  match n with
  | 0 => some .link
  | 1 => some .edge
  | _ => none

/-- A class code (R168). -/
def classOfCode (n : Nat) : Option EventClass :=
  match n with
  | 0 => some .ignore
  | 1 => some .note
  | 2 => some .fault
  | _ => none

/-- A partition mode (R32). -/
def modeOfCode (n : Nat) : Option PartitionMode :=
  match n with
  | 1 => some .one
  | 2 => some .two
  | 4 => some .four
  | _ => none

/-- The slot, channel, lane and gain of a route entry word, its bit 31 aside; none where a field is out of range
(R114, R168). Bits 30..28 are not looked at, DESIGN CHOICE (log 17). -/
def routeOfWord (w : Word32) : Option Route :=
  match indexBelow 8 (field w 24 4).toNat, indexBelow 2 (field w 20 4).toNat, indexBelow 4 (field w 16 4).toNat with
  | some sl, some ch, some ln => some { slot := sl, channel := ch, lane := ln, gain := field w 0 16 }
  | _, _, _ => none

/-- A signed word held to a range. -/
def signedIn (lo hi : Int) (w : Word32) : Option Int := if lo ≤ w.toInt ∧ w.toInt ≤ hi then some w.toInt else none

/-- An unsigned number held to a range. -/
def natIn (lo hi n : Nat) : Option Nat := if lo ≤ n ∧ n ≤ hi then some n else none

/-- A trim, within 100 ms either way (R30, R46). -/
def trimOf (w : Word32) : Option Int := signedIn (-2457600) 2457600 w

/-- A cue's action code, target and argument; none where R132's first check refuses (R125 to R128, R169). -/
def cueActionOf (action target : BitVec 8) (argument : BitVec 16) : Option CueAction :=
  match action.toNat with
  | 1 => (indexBelow 8 target.toNat).map .cut
  | 2 => (indexBelow 8 target.toNat).map .ending
  | 3 => (indexBelow 16 target.toNat).map (fun e => .gain e argument)
  | 4 =>
    match indexBelow 4 target.toNat, natIn 0 16384 argument.toNat with
    | some l, some v => some (.duck l v)
    | _, _ => none
  | 5 => (indexBelow 8 argument.toNat).map .recall
  | 6 =>
    match argument.toNat with
    | 0 => some (.mute false)
    | 1 => some (.mute true)
    | _ => none
  | 7 =>
    match argument.toNat with
    | 0 => some (.mark .low)
    | 1 => some (.mark .high)
    | 2 => some (.mark .toggle)
    | _ => none
  | _ => none

/-- The seven clock settings of a CLOCK-SET or an image; none where one is out of range (R4, R5). -/
def clockSettingsOf (masterId : BitVec 16) (source : BitVec 8) (limit link edge : BitVec 16) (gate window : Word32) :
    Option ClockSettings :=
  match sourceOfCode source.toNat, natIn 1 600 limit.toNat, natIn 246 245760 gate.toNat, natIn 25 24576 window.toNat with
  | some src, some h, some g, some w =>
    some { masterId := masterId, source := src, linkLatency := link, edgeLatency := edge, gate := g, window := w,
           holdoverLimit := h }
  | _, _, _, _ => none

/-- The three output settings; none where one is out of range (R111, R112). -/
def outputSettingsOf (rate ko rt : Word32) : Option OutputSettings :=
  match outputRateOfCode rate.toNat, natIn 0 245760 ko.toNat, natIn 2458 983040 rt.toNat with
  | some r, some k, some t => some { rate := r, ko := k, rt := t }
  | _, _, _ => none

/-! ## Codes written (R168, R170) -/

/-- The code of a source rate. -/
def Rate.code : Rate → Nat
  | .r32000 => 1
  | .r44100 => 2
  | .r48000 => 3
  | .r88200 => 4
  | .r96000 => 5

/-- The code of an output rate. -/
def OutputRate.code : OutputRate → Nat
  | .r48000 => 3
  | .r96000 => 5

/-- The code of a width. -/
def Width.code : Width → Nat
  | .w16 => 1
  | .w24 => 2

/-- The format byte of a context. -/
def Context.formatByte (c : Context) : Nat := c.rate.code * 16 + c.channels.count * 4 + c.width.code

/-- The code of a slot state. -/
def SlotState.code : SlotState → Nat
  | .closed => 0
  | .priming => 1
  | .playing => 2
  | .starved => 3
  | .draining => 4
  | .frozen => 5

/-- The code of a clock state. -/
def ClockState.code : ClockState → Nat
  | .free => 0
  | .acquiring => 1
  | .locked => 2
  | .holdover => 3

/-- The code of a verdict. -/
def Verdict.code : Verdict → Nat
  | .accepted => 1
  | .outlier => 2
  | .foreign => 3
  | .stale => 4
  | .unpaired => 5

/-- The code of an edge latch state. -/
def EdgeLatch.code : EdgeLatch → Nat
  | .empty => 0
  | .held _ => 1
  | .overrun _ => 2

/-- The code of a capture source. -/
def CaptureSource.code : CaptureSource → Nat
  | .link => 0
  | .edge => 1

/-- The code of a class. -/
def EventClass.code : EventClass → Nat
  | .ignore => 0
  | .note => 1
  | .fault => 2

/-- The code of an image status. -/
def ImageStatus.code : ImageStatus → Nat
  | .loaded => 1
  | .defaulted => 2

/-- The code of a cause. -/
def Cause.code : Cause → Nat
  | .magic => 1
  | .version => 2
  | .length => 3
  | .check => 4
  | .range => 5
  | .timeout => 6
  | .verify => 7
  | .content => 8

/-- The code of a status. -/
def Status.code : Status → Nat
  | .done => 0
  | .accepted => 1
  | .busy => 2
  | .refused => 3
  | .unknown => 4
  | .malformed => 5

/-- The code of a reason, 0 where there is none. -/
def reasonCode : Option Reason → Nat
  | none => 0
  | some .badarg => 1
  | some .state => 2
  | some .nospace => 3
  | some .duplicate => 4
  | some .notfound => 5
  | some .full => 6
  | some .far => 7
  | some .badregion => 8

/-- The code of a cue action. -/
def CueAction.code : CueAction → Nat
  | .cut _ => 1
  | .ending _ => 2
  | .gain _ _ => 3
  | .duck _ _ => 4
  | .recall _ => 5
  | .mute _ => 6
  | .mark _ => 7

/-- The number of an event kind (R137). -/
def EventKind.number : EventKind → Fin 32
  | .lockGained => 0
  | .lockLost => 1
  | .holdoverEntered => 2
  | .clockFree => 3
  | .beaconOutlier => 4
  | .beaconForeign => 5
  | .beaconStale => 6
  | .beaconUnpaired => 7
  | .edgeOverrun => 8
  | .driftLimit => 9
  | .reanchor => 10
  | .streamStarted => 11
  | .streamStarved => 12
  | .streamResumed => 13
  | .starveLimit => 14
  | .realign => 15
  | .realignStorm => 16
  | .chunkLate => 17
  | .chunkRefused => 18
  | .chunkBad => 19
  | .runBroken => 20
  | .formatMismatch => 21
  | .spanLimit => 22
  | .streamDrained => 23
  | .chunkTrace => 24
  | .cueFired => 25
  | .cueLate => 26
  | .cueVoid => 27
  | .frameDiscarded => 28
  | .flashDone => 29
  | .flashFailed => 30
  | .imageStatus => 31

/-! ## Words written (R168, R170) -/

/-- Four bytes, the first in bits 31..24. -/
def bytesWord (b3 b2 b1 b0 : Nat) : Word32 := natWord (b3 % 256 * 16777216 + b2 % 256 * 65536 + b1 % 256 * 256 + b0 % 256)

/-- Two halves, the first in bits 31..16. -/
def halvesWord (hi lo : Nat) : Word32 := natWord (hi % 65536 * 65536 + lo % 65536)

/-- A 48-bit time sent as two words, bits 31..16 of the first zero (R168). -/
def timeWords (t : Time) : List Word32 := [(t.extractLsb' 32 16).setWidth 32, t.extractLsb' 0 32]

/-- An optional time, zero words when absent (R170). -/
def optTimeWords (t : Option Time) : List Word32 := timeWords (t.getD 0)

/-- A signed 48-bit value as two words, bits 31..16 of the first its sign (R168). -/
def signedWords (x : Int) : List Word32 :=
  let b := BitVec.ofInt 64 x
  [b.extractLsb' 32 32, b.extractLsb' 0 32]

/-- A flag as a bit of the given weight. -/
def flagBit (b : Bool) (weight : Nat) : Nat := if b then weight else 0

/-- The word of a route entry, 0 for an unused one (R168). -/
def routeWord : Option Route → Word32
  | none => 0
  | some r => natWord (2147483648 + r.slot.val * 16777216 + r.channel.val * 1048576 + r.lane.val * 65536 + r.gain.toNat)

end Sys2Proof.Machine
end

