-- ==== Sys2Proof/Machine/Flags.lean ====
section
/-! DEFINITION. The flags and the reports: READY, the event classes, the report queue with its lost mark, and the
fault pending flag and fault sequence of each slot (chapter 8). -/

namespace Sys2Proof.Machine

/-- The READY line (R69). -/
def State.ready (s : State) : Bool :=
  decide (s.run = .running) && ((match s.replyBuffer with | .full _ => true | _ => false) || !s.reports.isEmpty)

/-- The class an event kind holds (R137, R139). -/
def State.classOf (s : State) (k : EventKind) : EventClass := s.classes[k.number.val]

/-- A record put at the newest end, carrying the lost mark, which is then cleared (R141). -/
def joinReport (r : Report) (s : State) : State :=
  { s with reports := s.reports ++ [{ r with lost := s.lostMark }], lostMark := false }

/-- A NOTE offered to the queue (R141). -/
def queueNote (r : Report) (s : State) : State :=
  if s.reports.length < 16 then joinReport r s else { s with lostMark := true }

/-- A list of records without its newest NOTE; none when it holds no NOTE (R142). -/
def dropNewestNote : List Report → Option (List Report)
  | [] => none
  | r :: rs =>
    match dropNewestNote rs with
    | some rs' => some (r :: rs')
    | none => if r.isFault then none else some rs

/-- A fault record offered to the queue (R142): to a full queue it joins in place of the newest NOTE of positions
9 to 16, or is dropped where all of those are fault records. -/
def queueFault (r : Report) (s : State) : State :=
  if s.reports.length < 16 then joinReport r s
  else
    match dropNewestNote (s.reports.drop 8) with
    | some rest => joinReport r { s with reports := s.reports.take 8 ++ rest, lostMark := true }
    | none => { s with lostMark := true }

/-- The record of an event offered now (R140). -/
def reportOf (k : EventKind) (slot : Option (Fin 8)) (detail : Word32) (cue : Option CueTag) (s : State) : Report :=
  { kind := k, isFault := false, slot := slot, localCount := s.localCount, houseTime := s.houseTime, detail := detail,
    cue := cue, lost := false, faultSequence := none, frozen := false }

/-- A first fault: the sequence counts up, the flag is set, and the record carries the new sequence (R143). -/
def firstFault (r : Report) (i : Fin 8) (s : State) : State :=
  let n := (s.slot i).faultSequence + 1
  queueFault { r with isFault := true, faultSequence := some n }
    (s.setSlot i { s.slot i with faultSequence := n, faultPending := true })

/-- A second fault: the freeze is asked for and the record carries the pending sequence, marked frozen if the slot
is then FROZEN (R144). -/
def secondFault (r : Report) (i : Fin 8) (s : State) : State :=
  let s1 := freezeSlot i s
  queueFault { r with isFault := true, faultSequence := some (s.slot i).faultSequence,
                      frozen := decide ((s1.slot i).state = .frozen) } s1

/-- A FAULT-class offer bound to a slot: NOTE when the slot is CLOSED (R145), else a first or a second fault. -/
def takeFault (r : Report) (i : Fin 8) (s : State) : State :=
  if (s.slot i).state = .closed then queueNote r s
  else if (s.slot i).faultPending then secondFault r i s
  else firstFault r i s

/-- An offer taken by the Report Unit (R139). A FAULT class on a part event acts as NOTE. -/
def takeOffer (r : Report) (s : State) : State :=
  match s.classOf r.kind with
  | .ignore => s
  | .note => queueNote r s
  | .fault =>
    match r.slot with
    | none => queueNote r s
    | some i => takeFault r i s

/-- A part event offered now (R137). -/
def offerPart (k : EventKind) (detail : Word32) (s : State) : State := takeOffer (reportOf k none detail none s) s

/-- A stream-bound event offered now (R137). -/
def offerSlot (k : EventKind) (i : Fin 8) (detail : Word32) (s : State) : State :=
  takeOffer (reportOf k (some i) detail none s) s

/-- A cue event offered now, with the action code and cue id its word 0 carries (R129, R170). -/
def offerCue (k : EventKind) (c : Cue) (detail : Word32) (s : State) : State :=
  takeOffer (reportOf k none detail (some { action := BitVec.ofNat 4 c.action.code, id := c.id }) s) s

/-- Several part events offered in order (R15, R139). -/
def offerAll (es : List (EventKind × Word32)) (s : State) : State := es.foldl (fun acc e => offerPart e.1 e.2 acc) s

/-- One event kind offered for a slot with each detail in order (R88, R90). -/
def offerEach (k : EventKind) (i : Fin 8) (ds : List Word32) (s : State) : State :=
  ds.foldl (fun acc d => offerSlot k i d acc) s

/-! ## Report records as words (R170) -/

/-- The six words of a report record. -/
def Report.words (r : Report) : List Word32 :=
  let slotBits := match r.cue with | some t => t.action.toNat | none => (r.slot.map (·.val)).getD 0
  let lowBits := match r.cue with | some t => t.id.toNat | none => (r.faultSequence.map (·.toNat)).getD 0
  let flags := flagBit r.slot.isSome 8 + flagBit r.houseTime.isSome 4 + flagBit r.lost 2 + flagBit r.frozen 1
  bytesWord r.kind.number.val (if r.isFault then 2 else 1) (slotBits * 16 + flags) lowBits
    :: timeWords r.localCount ++ optTimeWords r.houseTime ++ [r.detail]

/-! ## Details with several parts (R170) -/

/-- Why a frame is discarded (R55). -/
inductive DiscardReason where
  | ragged | tooLong | kind | version | option | length | orphan | overrun
  deriving DecidableEq, Repr

/-- The code of a discard reason. -/
def DiscardReason.code : DiscardReason → Nat
  | .ragged => 1
  | .tooLong => 2
  | .kind => 3
  | .version => 4
  | .option => 5
  | .length => 6
  | .orphan => 7
  | .overrun => 8

/-- FRAME_DISCARDED with its reason, the frame's kind code and the slot concerned, 0 where none is (R55, R170). -/
def discardFrame (r : DiscardReason) (kind : BitVec 8) (slot : Nat) (s : State) : State :=
  offerPart .frameDiscarded (bytesWord r.code kind.toNat 0 slot) s

end Sys2Proof.Machine
end

