-- ==== Sys2Proof/Machine/Handing.lean ====
section
/-! DEFINITION. The Command Interpreter's side of every command record (chapter 9): the record in hand, the test for
reply room, the owner's answer copied into the reply, the place moved on, the reply placed. -/

namespace Sys2Proof.Machine

/-! ## Answers (9.1) -/

/-- DONE with result words. -/
def done (ws : List Word32) : Answer := { status := .done, reason := none, results := ws }

/-- ACCEPTED with result words. -/
def acceptedWith (ws : List Word32) : Answer := { status := .accepted, reason := none, results := ws }

/-- BUSY. -/
def busyAnswer : Answer := { status := .busy, reason := none, results := [] }

/-- REFUSED for a reason, with result words. -/
def refusedWith (r : Reason) (ws : List Word32) : Answer := { status := .refused, reason := some r, results := ws }

/-- REFUSED for a reason, with no result words. -/
def refusal (r : Reason) : Answer := refusedWith r []

/-- UNKNOWN (R151). -/
def unknownAnswer : Answer := { status := .unknown, reason := none, results := [] }

/-- MALFORMED (R150). -/
def malformedAnswer : Answer := { status := .malformed, reason := none, results := [] }

/-! ## Codes and sizes of the records (spec 11.2) -/

/-- The code and the largest reply record, header included, of a command record (R152, R169). UNKNOWN answers in one
word. Commands that are no records have none. -/
def recordShape : Instr → Option (BitVec 8 × Nat)
  | .identify => some (0x01, 5)
  | .snapshot => some (0x02, 55)
  | .restart => some (0x03, 1)
  | .openSlot _ _ _ _ _ _ _ => some (0x10, 3)
  | .closeSlot _ => some (0x11, 2)
  | .endStream _ => some (0x12, 2)
  | .cut _ => some (0x13, 2)
  | .clear _ => some (0x14, 1)
  | .trim _ _ => some (0x15, 2)
  | .partition _ => some (0x16, 2)
  | .routePut _ _ => some (0x20, 2)
  | .routeDrop _ => some (0x21, 2)
  | .routeRecall _ => some (0x22, 1)
  | .duckSet _ _ => some (0x23, 3)
  | .outputSet _ _ _ => some (0x24, 4)
  | .cueAdd _ _ _ _ _ => some (0x30, 2)
  | .cueCancel _ => some (0x31, 4)
  | .clockSet _ _ _ _ _ _ _ => some (0x40, 1)
  | .clockHistory => some (0x41, 73)
  | .classSet _ _ => some (0x50, 2)
  | .ack _ _ => some (0x51, 3)
  | .save _ _ => some (0x60, 1)
  | .presetPut _ => some (0x61, 1)
  | .unknown code _ => some (code, 1)
  | .malformed code => some (code, 1)
  | .lineReset | .imageReadEnd _ | .bootPresetReadEnd _ | .audio _ | .cont _ | .beacon _ | .read _ | .edgeRise
  | .silenceTimer | .holdoverTimer | .sampleStrobe _ | .streamStarted _ | .streamResumed _ | .starveLimit _
  | .streamDrained _ | .correctionPoint _ | .spanLimit _ | .cueFire | .statusPoll _ _ | .flashWaitTimeout
  | .sectorWriteEnd _ | .presetReadEnd _ | .control _ | .unknownKindFrame _ => none

/-! ## The reply under construction -/

/-- The words a reply record takes: its header and its result words (R170). -/
def ReplyRecord.size (r : ReplyRecord) : Nat := 1 + r.answer.results.length

/-- The reply words used so far, of the 382 there are (R152). -/
def Interp.used (p : Interp) : Nat := (p.records.map ReplyRecord.size).sum

/-- Whether a largest reply of `largest` words, plus one word, still fits (R152). -/
def Interp.hasRoom (p : Interp) (largest : Nat) : Bool := decide (p.used + largest + 1 ≤ 382)

/-- What stands next in the frame in hand (R149 to R151). -/
def Interp.next (p : Interp) : Decode.Next := Decode.next p.remaining p.words

/-- A reply record appended and the place moved on by the record's length to the next record (R149). -/
def Interp.answered (p : Interp) (code : BitVec 8) (a : Answer) : Interp :=
  { p with
    remaining := p.remaining - 1
    words := p.words.drop ((p.words.head?.map (fun h => (Decode.field h 16 8).toNat)).getD 0)
    records := p.records ++ [{ code := code, answer := a }] }

/-- A last reply record appended; processing of the frame stops (R150, R152, R157). -/
def Interp.stopped (p : Interp) (code : BitVec 8) (a : Answer) : Interp :=
  { p with remaining := 0, words := [], records := p.records ++ [{ code := code, answer := a }] }

/-- The record in the interpreter's hand is `i`. -/
def State.handing (s : State) (i : Instr) : Bool :=
  match s.interp with
  | none => false
  | some p => decide (p.next = .record i)

/-- The reply record for a record answered `a`, put into the reply under construction. -/
def State.reply (s : State) (code : BitVec 8) (a : Answer) : State :=
  { s with interp := s.interp.map (fun p => p.answered code a) }

/-- The reply record that ends the processing of the frame. -/
def State.lastReply (s : State) (code : BitVec 8) (a : Answer) : State :=
  { s with interp := s.interp.map (fun p => p.stopped code a) }

/-- Whether the reply under construction has room for a record whose largest reply is `largest` (R152). -/
def State.replyRoom (s : State) (largest : Nat) : Bool :=
  match s.interp with
  | none => false
  | some p => p.hasRoom largest

/-- A record commanded while the part is RUNNING and no frame is in hand stands for a control frame of that one
record: its owner carries it out and no reply is formed (log 4). -/
def State.standsAlone (s : State) : Bool := decide (s.run = .running) && s.interp.isNone

/-- A record handed to its owner (R151), where it is the record in hand: REFUSED FULL, with nothing carried out, where
its largest reply does not fit (R152); else the owner's work and its answer. A record that is not the next of the frame
in hand changes nothing (log 4). -/
def handOver (i : Instr) (owner : State → State × Answer) (s : State) : State :=
  if s.handing i then
    match recordShape i with
    | none => s
    | some (code, largest) =>
      if s.replyRoom largest then ((owner s).1).reply code (owner s).2
      else s.lastReply code (refusal .full)
  else if s.standsAlone then (owner s).1
  else s

/-- The reply placed in the buffer, the interpreter's hand empty again (R149, R68). -/
def placeReply (s : State) : State :=
  match s.interp with
  | none => s
  | some p => { s with interp := none, replyBuffer := .full { sequence := p.sequence, records := p.records } }

/-- The interpreter going on by itself (R149, R151, R152): past a record of wrong length, or to the placing of the
reply once it has stopped. A record for an owner waits for its own command. -/
def proceed (s : State) : State :=
  match s.interp with
  | none => s
  | some p =>
    match p.next with
    | .finished => placeReply s
    | .wrongLength code => if p.hasRoom 1 then s.reply code (refusal .badarg) else s.lastReply code (refusal .full)
    | .record _ => s

end Sys2Proof.Machine
end

