-- ==== Sys2Proof/Machine/Streams.lean ====
section
/-! DEFINITION. The Stream Table (chapter 2): lookup, OPEN, CLOSE, END, CUT, CLEAR, TRIM, PARTITION, and what an
entry to FREE does to the slots. -/

namespace Sys2Proof.Machine

/-! ## Lookup (R29) -/

/-- Whether slot `i` is open and holds the stream id. -/
def State.holdsId (s : State) (id : BitVec 8) (i : Fin 8) : Bool :=
  decide ((s.slot i).state ≠ .closed) && ((s.slot i).context.map (·.streamId) == some id)

/-- The slot that is not CLOSED and holds a stream id (R29). -/
def lookupSlot (s : State) (id : BitVec 8) : Option (Fin 8) := (List.finRange 8).find? (s.holdsId id)

/-! ## OPEN (R37, R38) -/

/-- The context an OPEN names; none where a field is outside its values (R30, R37). -/
def openContext (streamId format priority ringSize : BitVec 8) (trim : Word32) (starveLimit : BitVec 16) : Option Context :=
  match formatOf format, indexBelow 4 priority.toNat, natIn 1 64 ringSize.toNat, trimOf trim, natIn 10 10000 starveLimit.toNat with
  | some (r, c, w), some p, some n, some t, some l =>
    some { streamId := streamId, rate := r, channels := c, width := w, priority := p, ringSize := n, trim := t, starveLimit := l }
  | _, _, _, _, _ => none

/-- The reserved words of a region: 512 for each block missing from its free list (R33). -/
def reservedWords (s : State) (r : Fin 4) : Nat := 512 * (regionBlocks s.partition - s.freeLists[r.val].length)

/-- A slot opened with context `c` on the given blocks; the fault sequence is kept (R31, R38). -/
def openedSlot (c : Context) (blocks : List Nat) (step : Int) (faultSequence : BitVec 8) : Slot :=
  { state := .priming, context := some c, blocks := blocks, queue := [], origin := none, readPos := none, step := step,
    phase := 0, starveCount := 0, realigns := [], run := none, traceFlag := false, faultPending := false,
    faultSequence := faultSequence, correctionDue := false }

/-- The opening itself: the lowest-numbered free blocks of the region become the ring (R33, R38). -/
def openIn (i : Fin 8) (c : Context) (s : State) : State :=
  let r := regionOf s.partition c.streamId
  { s.setSlot i (openedSlot c (s.freeLists[r.val].take c.ringSize) (nominalStep c.rate s.output.rate) (s.slot i).faultSequence) with
    freeLists := s.freeLists.set r.val (s.freeLists[r.val].drop c.ringSize) r.isLt }

/-- OPEN by the Stream Table: the checks of R37 in order, then the opening (R38). -/
def openOwner (slot : BitVec 16) (streamId format priority ringSize : BitVec 8) (trim : Word32) (starveLimit : BitVec 16)
    (s : State) : State × Answer :=
  match indexBelow 8 slot.toNat, openContext streamId format priority ringSize trim starveLimit with
  | some i, some c =>
    let r := regionOf s.partition c.streamId
    if (s.slot i).state ≠ .closed then (s, refusal .state)
    else if (lookupSlot s c.streamId).isSome then (s, refusal .duplicate)
    else if regionBlocks s.partition < c.ringSize then (s, refusal .badregion)
    else if s.freeLists[r.val].length < c.ringSize then (s, refusal .nospace)
    else (openIn i c s, done [natWord r.val, natWord (reservedWords (openIn i c s) r)])
  | _, _ => (s, refusal .badarg)

/-! ## CLOSE, END, CUT, CLEAR, TRIM, PARTITION -/

/-- The work of a command that names a slot: REFUSED BADARG outside 0..7 (R40, R41, R43, R44). -/
def onSlot (slot : BitVec 16) (work : Fin 8 → State × Answer) (s : State) : State × Answer :=
  match indexBelow 8 slot.toNat with
  | none => (s, refusal .badarg)
  | some i => work i

/-- The result word of a slot state (log 14). -/
def stateWord (x : SlotState) : Word32 := natWord x.code

/-- CLOSE (R40). -/
def closeOwner (slot : BitVec 16) (s : State) : State × Answer :=
  onSlot slot (fun i =>
    if (s.slot i).state = .closed then (s, refusal .state)
    else (releaseSlot i s, done [stateWord (s.slot i).state])) s

/-- Ending the stream of a slot: closed from PRIMING, DRAINING from PLAYING and STARVED (R41). -/
def endSlot (i : Fin 8) (s : State) : State :=
  match (s.slot i).state with
  | .priming => releaseSlot i s
  | .playing | .starved => s.setSlot i { s.slot i with state := .draining }
  | .closed | .draining | .frozen => s

/-- END (R41). -/
def endOwner (slot : BitVec 16) (s : State) : State × Answer :=
  onSlot slot (fun i =>
    match (s.slot i).state with
    | .closed | .frozen => (s, refusal .state)
    | .priming => (endSlot i s, done [stateWord .closed])
    | .playing | .starved | .draining => (endSlot i s, done [stateWord .draining])) s

/-- CUT (R43). -/
def cutOwner (slot : BitVec 16) (s : State) : State × Answer :=
  onSlot slot (fun i =>
    match (s.slot i).state with
    | .closed | .frozen => (s, refusal .state)
    | .priming | .playing | .starved | .draining => (cutSlot i s, done [stateWord (s.slot i).state])) s

/-- Clearing a FROZEN slot: as a cut, and the fault pending flag cleared (R44). -/
def clearSlot (i : Fin 8) (s : State) : State :=
  s.setSlot i { primed (s.slot i) (s.nominalOf (s.slot i)) with faultPending := false }

/-- CLEAR (R44). -/
def clearOwner (slot : BitVec 16) (s : State) : State × Answer :=
  onSlot slot (fun i => if (s.slot i).state = .frozen then (clearSlot i s, done []) else (s, refusal .state)) s

/-- A slot whose context holds a new trim (R46). -/
def Slot.withTrim (v : Slot) (t : Int) : Slot := { v with context := v.context.map (fun c => { c with trim := t }) }

/-- TRIM (R46). -/
def trimOwner (slot : BitVec 16) (value : Word32) (s : State) : State × Answer :=
  onSlot slot (fun i =>
    match trimOf value with
    | none => (s, refusal .badarg)
    | some t =>
      match (s.slot i).state, (s.slot i).context with
      | .closed, _ => (s, refusal .state)
      | _, none => (s, refusal .state)
      | _, some c => (s.setSlot i ((s.slot i).withTrim t), done [signedWord c.trim])) s

/-- Whether every slot is CLOSED (R36, R112). -/
def State.allClosed (s : State) : Bool := (List.finRange 8).all fun i => decide ((s.slot i).state = .closed)

/-- PARTITION (R36). -/
def partitionOwner (mode : BitVec 16) (s : State) : State × Answer :=
  match modeOfCode mode.toNat with
  | none => (s, refusal .badarg)
  | some m =>
    if s.allClosed then ({ s with partition := m, freeLists := fullFreeLists m }, done [natWord s.partition.regions])
    else (s, refusal .state)

/-! ## When the clock enters FREE (R47) -/

/-- The detail of the Stream Table's CLOCK_FREE: slot and outcome, CUT 1 or CLOSED 2 (R170). -/
def slotFreeDetail (i : Fin 8) (outcome : Nat) : Word32 := bytesWord 0 0 i.val outcome

/-- What the entry to FREE does to one slot: PLAYING and STARVED are cut, DRAINING is closed, and CLOCK_FREE is
offered for each (R47). -/
def slotOnFree (i : Fin 8) (s : State) : State :=
  match (s.slot i).state with
  | .playing | .starved => offerPart .clockFree (slotFreeDetail i 1) (cutSlot i s)
  | .draining => offerPart .clockFree (slotFreeDetail i 2) (releaseSlot i s)
  | .closed | .priming | .frozen => s

/-- Every slot in order, 0 to 7 (R47). -/
def slotsOnFree (s : State) : State := (List.finRange 8).foldl (fun acc i => slotOnFree i acc) s

/-! ## The records' meanings -/

/-- OPEN handed to the Stream Table. -/
def openRecord (slot : BitVec 16) (streamId format priority ringSize : BitVec 8) (trim : Word32) (starveLimit : BitVec 16)
    (s : State) : State :=
  handOver (.openSlot slot streamId format priority ringSize trim starveLimit)
    (openOwner slot streamId format priority ringSize trim starveLimit) s

/-- CLOSE handed to the Stream Table. -/
def closeRecord (slot : BitVec 16) (s : State) : State := handOver (.closeSlot slot) (closeOwner slot) s

/-- END handed to the Stream Table. -/
def endRecord (slot : BitVec 16) (s : State) : State := handOver (.endStream slot) (endOwner slot) s

/-- CUT handed to the Stream Table. -/
def cutRecord (slot : BitVec 16) (s : State) : State := handOver (.cut slot) (cutOwner slot) s

/-- CLEAR handed to the Stream Table. -/
def clearRecord (slot : BitVec 16) (s : State) : State := handOver (.clear slot) (clearOwner slot) s

/-- TRIM handed to the Stream Table. -/
def trimRecord (slot : BitVec 16) (value : Word32) (s : State) : State := handOver (.trim slot value) (trimOwner slot value) s

/-- PARTITION handed to the Stream Table. -/
def partitionRecord (mode : BitVec 16) (s : State) : State := handOver (.partition mode) (partitionOwner mode) s

/-- OPEN (R37, R38). -/
def execOpenSlot (slot : BitVec 16) (streamId format priority ringSize : BitVec 8) (trim : Word32) (starveLimit : BitVec 16)
    (s : State) : Host.Outcome State Fault Refusal :=
  .next (openRecord slot streamId format priority ringSize trim starveLimit s)

/-- CLOSE (R40). -/
def execCloseSlot (slot : BitVec 16) (s : State) : Host.Outcome State Fault Refusal := .next (closeRecord slot s)

/-- END (R41). -/
def execEndStream (slot : BitVec 16) (s : State) : Host.Outcome State Fault Refusal := .next (endRecord slot s)

/-- CUT (R43). -/
def execCut (slot : BitVec 16) (s : State) : Host.Outcome State Fault Refusal := .next (cutRecord slot s)

/-- CLEAR (R44). -/
def execClear (slot : BitVec 16) (s : State) : Host.Outcome State Fault Refusal := .next (clearRecord slot s)

/-- TRIM (R46). -/
def execTrim (slot : BitVec 16) (value : Word32) (s : State) : Host.Outcome State Fault Refusal := .next (trimRecord slot value s)

/-- PARTITION (R36). -/
def execPartition (mode : BitVec 16) (s : State) : Host.Outcome State Fault Refusal := .next (partitionRecord mode s)

end Sys2Proof.Machine
end

