-- ==== Sys2Proof/Machine/Clock.lean ====
section
/-! DEFINITION. The Time Base (chapter 1): the edge latch, the judging of beacons, the update of the model, the two
timers, the entry to FREE, CLOCK-SET and CLOCK-HISTORY. -/

namespace Sys2Proof.Machine

/-- An event and its detail. -/
abbrev Event := EventKind × Word32

/-- A beacon as the Time Base has it: master id, sequence, HT_b, and LC_b unless it is unpaired (1.5). -/
structure Heard where
  master   : BitVec 16
  sequence : BitVec 16
  ht       : Time
  lc       : Option Time
  deriving DecidableEq, Repr

/-! ## Capture (R7 to R9) -/

/-- LC_b of a beacon: under LINK its arrival count less the link latency (R7); under EDGE the latch's count less
the edge latency, if the latch is HELD (R9). -/
def captured (c : TimeBase) (arrival : Time) : Option Time :=
  match c.settings.source with
  | .link => some (arrival - c.settings.linkLatency.setWidth 48)
  | .edge =>
    match c.latch with
    | .held n => some (n - c.settings.edgeLatency.setWidth 48)
    | .empty | .overrun _ => none

/-- Under EDGE every beacon handed over empties the latch (R9). -/
def latchMet (c : TimeBase) : TimeBase :=
  match c.settings.source with
  | .link => c
  | .edge => { c with latch := .empty }

/-- A rising edge while RUNNING under EDGE (R8). -/
def latchEdge (s : State) : State :=
  match s.clock.latch with
  | .empty => s.setClock { s.clock with latch := .held s.localCount }
  | .held _ | .overrun _ => offerPart .edgeOverrun 0 (s.setClock { s.clock with latch := .overrun s.localCount })

/-! ## Judging (R10 to R15) -/

/-- The master in force (R10). -/
def masterInForce (c : TimeBase) : Option (BitVec 16) :=
  if c.settings.masterId = 0 then c.adopted else some c.settings.masterId

/-- The adoption made before the FOREIGN check (R10). -/
def adoptMaster (m : BitVec 16) (c : TimeBase) : TimeBase :=
  if c.settings.masterId = 0 ∧ c.adopted = none then { c with adopted := some m } else c

/-- Whether a sequence is not after the last one (R11). -/
def isStale (c : TimeBase) (sequence : BitVec 16) : Bool :=
  match c.lastSequence with
  | none => false
  | some l => decide ((sequence - l).toInt ≤ 0)

/-- Whether the outlier gate applies (R13). -/
def gateApplies (c : TimeBase) : Bool :=
  match c.state with
  | .locked => true
  | .acquiring => decide (c.settle = 2)
  | .free | .holdover => false

/-- The frequency reading: e × 2^32 / ΔLC, truncated (R19). -/
def frequencyReading (e dLC : Int) : Int := (e * 2 ^ 32).tdiv dLC

/-- What the model notes of every beacon it takes: the anchor, the sequence and the silence start (1.2). -/
def takeBeacon (c : TimeBase) (a : Anchor) (sequence : BitVec 16) (now : Time) : TimeBase :=
  { c with anchor := some a, lastSequence := some sequence, silenceStart := now }

/-- The drift word after a frequency step of e / ΔLC divided by `gain`, and whether it was clamped; the step is
skipped when ΔLC lies outside 245,760..2^31 (R19, R20). -/
def driftAfter (epsilon e dLC gain : Int) : Int × Bool :=
  if dLC < 245760 ∨ 2 ^ 31 < dLC then (epsilon, false)
  else
    let x := epsilon + (frequencyReading e dLC).tdiv gain
    (clampTo (-Config.driftLimit) Config.driftLimit x, decide (x < -Config.driftLimit ∨ Config.driftLimit < x))

/-- The update of phase and frequency, with LOCKED or ACQUIRING gains (R19); the events are DRIFT_LIMIT or none (R20). The
settle count rises by 1 if below 2 on every update, as R19 has it, on one beyond the window while ACQUIRING too, where R21
says that the count keeps its value, DESIGN CHOICE (log 32). -/
def updateModel (lockedGains : Bool) (c : TimeBase) (a : Anchor) (b : Heard) (lc p : Time) (e : Int) (now : Time) :
    TimeBase × List Event :=
  let d := driftAfter c.epsilon e (sdiff lc a.lc) (if lockedGains then 16 else 2)
  let ht := if lockedGains then addSpan p (e.tdiv 4) else b.ht
  ({ takeBeacon c { lc := lc, ht := ht } b.sequence now with epsilon := d.1, settle := min 2 (c.settle + 1) },
    if d.2 then [(.driftLimit, signedWord d.1)] else [])

/-- The model begins a run on a beacon: full phase step, ε kept, ACQUIRING, lock run 1, settle count 1 (1.2). -/
def beginRun (c : TimeBase) (b : Heard) (lc now : Time) : TimeBase :=
  { takeBeacon c { lc := lc, ht := b.ht } b.sequence now with
    state := .acquiring, lockRun := 1, outlierRun := 0, settle := 1 }

/-- REANCHOR, where the error exceeds the gate (R18, R23). -/
def reanchorIfBeyond (c : TimeBase) (e : Int) : List Event :=
  if (c.settings.gate : Int) < |e| then [(.reanchor, clamp32 e)] else []

/-- An outlier: counted, and on the third in a row the model re-anchors (R13, R14). -/
def judgeOutlier (c : TimeBase) (b : Heard) (lc now : Time) (e : Int) : TimeBase × List Event :=
  if c.outlierRun + 1 < 3 then ({ c with outlierRun := c.outlierRun + 1 }, [(.beaconOutlier, clamp32 e)])
  else
    (beginRun c b lc now,
      [(.beaconOutlier, clamp32 e), (.reanchor, clamp32 e)] ++ (if c.state = .locked then [(.lockLost, 0)] else []))

/-- A beacon accepted while ACQUIRING (R18, R21). -/
def acceptAcquiring (c : TimeBase) (a : Anchor) (b : Heard) (lc p : Time) (e : Int) (now : Time) : TimeBase × List Event :=
  if c.lockRun = 0 then (beginRun c b lc now, reanchorIfBeyond c e)
  else
    let n := if |e| ≤ c.settings.window then c.lockRun + 1 else 1
    if 4 ≤ n then
      let u := updateModel true { c with state := .locked, lockRun := 4, outlierRun := 0 } a b lc p e now
      (u.1, u.2 ++ [(.lockGained, 0)])
    else updateModel false { c with lockRun := n, outlierRun := 0 } a b lc p e now

/-- A beacon accepted while LOCKED (R22). -/
def acceptLocked (c : TimeBase) (a : Anchor) (b : Heard) (lc p : Time) (e : Int) (now : Time) : TimeBase × List Event :=
  if 4 * (c.settings.window : Int) < |e| then
    let u := updateModel false { c with state := .acquiring, lockRun := 1, outlierRun := 0 } a b lc p e now
    (u.1, u.2 ++ [(.lockLost, clamp32 e)])
  else updateModel true { c with outlierRun := 0 } a b lc p e now

/-- The first beacon of a HOLDOVER that passes the first three checks (R23). -/
def acceptHoldover (c : TimeBase) (a : Anchor) (b : Heard) (lc p : Time) (e : Int) (now : Time) : TimeBase × List Event :=
  if |e| ≤ c.settings.window then
    let u := updateModel true { c with state := .locked, outlierRun := 0 } a b lc p e now
    (u.1, u.2 ++ [(.lockGained, 0)])
  else (beginRun c b lc now, reanchorIfBeyond c e)

/-- What a beacon with an LC_b does that is neither FOREIGN nor STALE: the model after it, its verdict, its error,
the events (1.6). -/
def judgeTimed (c : TimeBase) (b : Heard) (lc now : Time) : TimeBase × Verdict × Option Int × List Event :=
  match c.state, c.anchor with
  | .free, _ | _, none => (beginRun c b lc now, .accepted, none, [])
  | st, some a =>
    let p := throughAnchor a c.epsilon lc
    let e := sdiff b.ht p
    if gateApplies c ∧ (c.settings.gate : Int) < |e| then
      let r := judgeOutlier c b lc now e
      (r.1, .outlier, some e, r.2)
    else
      let r := match st with
        | .holdover => acceptHoldover c a b lc p e now
        | .locked => acceptLocked c a b lc p e now
        | .acquiring | .free => acceptAcquiring c a b lc p e now
      (r.1, .accepted, some e, r.2)

/-- The verdict on a beacon, by the checks of 1.5 in order, on a model that has made its adoption. -/
def judge (c : TimeBase) (b : Heard) (now : Time) : TimeBase × Verdict × Option Int × List Event :=
  if masterInForce c ≠ some b.master then (c, .foreign, none, [(.beaconForeign, b.master.setWidth 32)])
  else if isStale c b.sequence then (c, .stale, none, [(.beaconStale, b.sequence.setWidth 32)])
  else
    match b.lc with
    | none => (c, .unpaired, none, [(.beaconUnpaired, b.sequence.setWidth 32)])
    | some lc => judgeTimed c b lc now

/-- A record joining the capture window, which holds the eight newest (R15). -/
def joinWindow (w : List CaptureRecord) (r : CaptureRecord) : List CaptureRecord := (w ++ [r]).drop (w.length + 1 - 8)

/-- The Time Base after a beacon handed to it, and the events to offer: pairing (R7, R9), adoption (R10), judgement,
and the window's record (R15). -/
def hearBeacon (c : TimeBase) (arrival now : Time) (master sequence : BitVec 16) (ht : Time) : TimeBase × List Event :=
  let b : Heard := { master := master, sequence := sequence, ht := ht, lc := captured c arrival }
  let j := judge (adoptMaster master (latchMet c)) b now
  let r : CaptureRecord := { verdict := j.2.1, master := master, sequence := sequence, lc := b.lc, ht := ht, error := j.2.2.1 }
  ({ j.1 with window := joinWindow j.1.window r }, j.2.2.2)

/-- A beacon handed to the Time Base: the record is written before any event is offered (R15). -/
def clockBeacon (arrival : Time) (master sequence : BitVec 16) (ht : Time) (s : State) : State :=
  let h := hearBeacon s.clock arrival s.localCount master sequence ht
  offerAll h.2 (s.setClock h.1)

/-! ## FREE and the timers (R24 to R26) -/

/-- The Time Base's own part of an entry to FREE (R26). -/
def freedClock (c : TimeBase) : TimeBase :=
  { c with
    state := .free, anchor := none, epsilon := c.nominalDrift, lockRun := 0, outlierRun := 0, settle := 0,
    lastSequence := none, window := [], adopted := if c.settings.masterId = 0 then none else c.adopted }

/-- The detail of the Time Base's CLOCK_FREE: cause SILENCE 1 or HOLDOVER_LIMIT 2, and 0xFF where a slot would be (R170). -/
def clockFreeDetail (cause : Nat) : Word32 := bytesWord cause 0 0xFF 0

/-- Entry to FREE: the Time Base's state, CLOCK_FREE, then the slots (R26, R47). -/
def enterFree (cause : Nat) (s : State) : State :=
  slotsOnFree (offerPart .clockFree (clockFreeDetail cause) (s.setClock (freedClock s.clock)))

/-- The silence timer has expired: it runs in ACQUIRING and LOCKED (R24). -/
def State.silenceExpired (s : State) : Bool :=
  match s.clock.state with
  | .acquiring | .locked => decide (Config.twoSeconds ≤ sdiff s.localCount s.clock.silenceStart)
  | .free | .holdover => false

/-- The silence timer's expiry (R24). -/
def silenceExpiry (s : State) : State :=
  match s.clock.state with
  | .locked => offerPart .holdoverEntered 0 (s.setClock { s.clock with state := .holdover, holdoverStart := s.localCount })
  | .acquiring => enterFree 1 s
  | .free | .holdover => s

/-- The holdover limit in ticks (R25). -/
def ClockSettings.limitTicks (x : ClockSettings) : Int := x.holdoverLimit * 24576000

/-- The holdover timer has expired: it runs in HOLDOVER (R25). -/
def State.holdoverExpired (s : State) : Bool :=
  decide (s.clock.state = .holdover) && decide (s.clock.settings.limitTicks ≤ sdiff s.localCount s.clock.holdoverStart)

/-! ## CLOCK-SET (R5, R6) -/

/-- What a change of master id or capture source does to a model that is not FREE (R6). -/
def restartAcquisition (c : TimeBase) (now : Time) : TimeBase :=
  { c with state := .acquiring, lockRun := 0, outlierRun := 0, settle := 0, lastSequence := none, silenceStart := now }

/-- The settings replaced, the adopted master and the latch treated as R5 and R6 say. -/
def withSettings (c : TimeBase) (x : ClockSettings) : TimeBase :=
  { c with
    settings := x
    adopted := if x.masterId = c.settings.masterId then c.adopted else none
    latch := if x.source = c.settings.source then c.latch else .empty }

/-- A CLOCK-SET taken (R5, R6): on a change of master or source a model that is not FREE acquires afresh; otherwise
a HOLDOVER that has already lasted longer than the new limit ends (R25). -/
def takeSettings (x : ClockSettings) (s : State) : State :=
  let s1 := s.setClock (withSettings s.clock x)
  if x.masterId = s.clock.settings.masterId ∧ x.source = s.clock.settings.source then
    if s.clock.state = .holdover ∧ x.limitTicks < sdiff s.localCount s.clock.holdoverStart then enterFree 2 s1 else s1
  else
    match s.clock.state with
    | .free => s1
    | .locked => offerPart .lockLost 0 (s1.setClock (restartAcquisition s1.clock s.localCount))
    | .acquiring | .holdover => s1.setClock (restartAcquisition s1.clock s.localCount)

/-- CLOCK-SET (R5). -/
def clockSetOwner (masterId : BitVec 16) (source : BitVec 8) (limit link edge : BitVec 16) (gate window : Word32) (s : State) :
    State × Answer :=
  match clockSettingsOf masterId source limit link edge gate window with
  | none => (s, refusal .badarg)
  | some x => (takeSettings x s, done [])

/-! ## CLOCK-HISTORY (R16, R170) -/

/-- The eight words of a capture record (R170). -/
def CaptureRecord.words (r : CaptureRecord) : List Word32 :=
  [natWord (r.verdict.code * 16777216 + flagBit r.lc.isSome 131072 + flagBit r.error.isSome 65536 + r.master.toNat),
   natWord r.sequence.toNat] ++ optTimeWords r.lc ++ timeWords r.ht ++ signedWords (r.error.getD 0)

/-- The 72 result words of CLOCK-HISTORY (R16, R170). -/
def historyWords (c : TimeBase) : List Word32 :=
  [bytesWord c.state.code c.latch.code c.window.length
     (flagBit (masterInForce c).isSome 4 + flagBit c.lastSequence.isSome 2 + flagBit c.anchor.isSome 1),
   halvesWord ((masterInForce c).getD 0).toNat (c.lastSequence.getD 0).toNat,
   bytesWord 0 c.lockRun c.outlierRun c.settle,
   signedWord c.epsilon]
  ++ optTimeWords (c.anchor.map (·.lc)) ++ optTimeWords (c.anchor.map (·.ht))
  ++ (c.window.flatMap CaptureRecord.words ++ List.replicate 64 0).take 64

/-- CLOCK-HISTORY (R16). -/
def clockHistoryOwner (s : State) : State × Answer := (s, done (historyWords s.clock))

/-! ## The meanings -/

/-- EDGE_RISE: ignored while STARTING and under LINK (R8). -/
def execEdgeRise (s : State) : Host.Outcome State Fault Refusal :=
  .next (if s.run = .running ∧ s.clock.settings.source = .edge then latchEdge s else s)

/-- SILENCE_TIMER: the expiry, if the timer has expired (R24). -/
def execSilenceTimer (s : State) : Host.Outcome State Fault Refusal := .next (if s.silenceExpired then silenceExpiry s else s)

/-- HOLDOVER_TIMER: the expiry, if the timer has expired (R25). -/
def execHoldoverTimer (s : State) : Host.Outcome State Fault Refusal := .next (if s.holdoverExpired then enterFree 2 s else s)

/-- CLOCK-SET handed to the Time Base. -/
def clockSetRecord (masterId : BitVec 16) (source : BitVec 8) (limit link edge : BitVec 16) (gate window : Word32) (s : State) :
    State :=
  handOver (.clockSet masterId source limit link edge gate window) (clockSetOwner masterId source limit link edge gate window) s

/-- CLOCK-HISTORY handed to the Time Base. -/
def clockHistoryRecord (s : State) : State := handOver .clockHistory clockHistoryOwner s

/-- CLOCK_SET (R5). -/
def execClockSet (masterId : BitVec 16) (source : BitVec 8) (limit link edge : BitVec 16) (gate window : Word32) (s : State) :
    Host.Outcome State Fault Refusal := .next (clockSetRecord masterId source limit link edge gate window s)

/-- CLOCK_HISTORY (R16). -/
def execClockHistory (s : State) : Host.Outcome State Fault Refusal := .next (clockHistoryRecord s)

end Sys2Proof.Machine
end

