-- ==== Sys2Proof/Machine/Playout.lean ====
section
/-! DEFINITION. The Playout Queues (chapter 4): where a chunk belongs, whether it is filed, what the queue holds at an
index, and how records leave. -/

namespace Sys2Proof.Machine

/-- A chunk as the Frame Parser hands it over (R64). `index` is present for a CONT chunk, `pt` for an AUDIO chunk;
`mismatch` holds the FORMAT datum of a chunk whose format disagrees with the context (R60). -/
structure Chunk where
  pt       : Option Time
  index    : Option Int
  count    : Nat
  sequence : BitVec 16
  samples  : List Sample
  bad      : Bool
  trace    : Bool
  mismatch : Option (BitVec 8)
  deriving DecidableEq, Repr

/-- Why a chunk is refused (R79). -/
inductive RefuseReason where
  | closing | tooBig | far | duplicate | overlap | full | noSpace
  deriving DecidableEq, Repr

/-- The code of a refusal (R170). -/
def RefuseReason.code : RefuseReason → Nat
  | .closing => 1
  | .tooBig => 2
  | .far => 3
  | .duplicate => 4
  | .overlap => 5
  | .full => 6
  | .noSpace => 7

/-- The fate of a chunk (R79). -/
inductive Fate where
  | dropped
  | mismatch
  | late
  | refused (r : RefuseReason)
  | filed
  deriving DecidableEq, Repr

/-- A record's end index (R73). -/
def ChunkRecord.endIndex (r : ChunkRecord) : Int := r.start + r.count - 1

/-- Whether a record holds an index (R87). -/
def ChunkRecord.holds (r : ChunkRecord) (i : Int) : Bool := decide (r.start ≤ i ∧ i ≤ r.endIndex)

/-- floor(F), in samples (R92). -/
def floorF (f : Int) : Int := f / 2 ^ 28

/-! ## Where a chunk belongs (R75 to R77) -/

/-- The start index of a PT, counted from the origin and rounded half up (R76). -/
def indexOfPt (fs : Rate) (origin pt : Time) : Int := (sdiff pt origin * fs.hz + 12288000) / 24576000

/-- A chunk's start index: the run's for CONT, from the PT for AUDIO, 0 provisionally while the origin is absent
(R75, R76). -/
def startIndex (v : Slot) (c : Context) (k : Chunk) : Int :=
  match k.index, v.origin, k.pt with
  | some x, _, _ => x
  | none, some o, some pt => indexOfPt c.rate o pt
  | none, _, _ => 0

/-- The due house time of a stream at a local count: its translation, plus Ko, less the trim (R94). -/
def dueTime (s : State) (c : Context) (lc : Time) : Option Time :=
  (translate s.clock lc).map (fun t => addSpan (addSpan t s.output.ko) (-c.trim))

/-- The lead of a chunk against the current due house time, in house ticks; none in FREE (R77). -/
def leadOf (s : State) (v : Slot) (c : Context) (k : Chunk) (start : Int) : Option Int :=
  (dueTime s c s.localCount).map fun due =>
    match k.pt with
    | some pt => sdiff pt due
    | none => roundHalfUp (start * 24576000) c.rate.hz - sdiff due (v.origin.getD 0)

/-! ## Whether it may be filed (R78 to R85) -/

/-- The end index of the last record, or the given one if greater (R85). -/
def largestEnd (q : List ChunkRecord) (e : Int) : Int :=
  match q.getLast? with
  | none => e
  | some r => max e r.endIndex

/-- The base of a stream's window (R78): floor(F), or the head's start index; none with neither. -/
def baseOf (v : Slot) : Option Int :=
  match v.readPos with
  | some f => some (floorF f)
  | none => v.queue.head?.map (·.start)

/-- The base for the window test of a chunk starting at `k` (R85). -/
def testBase (v : Slot) (k : Int) : Int :=
  match v.readPos, v.queue.head? with
  | some f, _ => floorF f
  | none, some h => min k h.start
  | none, none => k

/-- FAR: a lead beyond eight seconds, or an index out of range (R83). -/
def isFar (s : State) (v : Slot) (c : Context) (k : Chunk) (start endIndex : Int) : Bool :=
  (match leadOf s v c k start with
   | some l => decide (Config.farLead < l)
   | none => false)
  || decide (start < -(2 ^ 47)) || decide (2 ^ 47 - 1 < endIndex)

/-- LATE: F is present and the end index lies before floor(F) (R82). -/
def isLate (v : Slot) (endIndex : Int) : Bool :=
  match v.readPos with
  | some f => decide (endIndex < floorF f)
  | none => false

/-- The cases of R79 from the third on, for a slot in PRIMING, PLAYING or STARVED. -/
def fateOpen (s : State) (v : Slot) (c : Context) (k : Chunk) (start : Int) : Fate :=
  let e := start + k.count - 1
  if ringFrames c < k.count then .refused .tooBig
  else if isLate v e then .late
  else if isFar s v c k start e then .refused .far
  else if v.queue.any (fun r => decide (r.start = start)) then .refused .duplicate
  else if v.queue.any (fun r => decide (r.start ≤ e ∧ start ≤ r.endIndex)) then .refused .overlap
  else if 32 ≤ v.queue.length then .refused .full
  else if (ringFrames c : Int) < largestEnd v.queue e - testBase v start + 1 then .refused .noSpace
  else .filed

/-- The fate of a chunk by the ordered cases (R79). -/
def fateOf (s : State) (v : Slot) (c : Context) (k : Chunk) (start : Int) : Fate :=
  match v.state with
  | .closed | .frozen => .dropped
  | .draining => .refused .closing
  | .priming | .playing | .starved => if k.mismatch.isSome then .mismatch else fateOpen s v c k start

/-! ## Filing (R86) -/

/-- A record put in its place by start index (R86). -/
def insertRecord (r : ChunkRecord) : List ChunkRecord → List ChunkRecord
  | [] => [r]
  | x :: xs => if r.start < x.start then r :: x :: xs else x :: insertRecord r xs

/-- The samples of a chunk from start index `k` written at their ring words, those before `front` left out (R34, R86).
`j` counts the samples gone by. -/
def writeSamples (c : Context) (blocks : List Nat) (k front : Int) : Nat → List Sample → Memory → Memory
  | _, [], m => m
  | j, x :: xs, m =>
    let i := k + (j / c.channels.count : Nat)
    let m' := if i < front then m else writeWord m (ringAddress blocks (ringWord c i (j % c.channels.count))) x
    writeSamples c blocks k front (j + 1) xs m'

/-- Where a filed record begins: at floor(F) if the chunk begins before it, else at the chunk's start (R86). -/
def filedStart (v : Slot) (start : Int) : Int :=
  match v.readPos with
  | some f => max start (floorF f)
  | none => start

/-- The record of a chunk filed: from where it begins to the chunk's end (R86). -/
def filedRecord (v : Slot) (k : Chunk) (start : Int) : ChunkRecord :=
  { start := filedStart v start, count := k.count - (filedStart v start - start).toNat, sequence := k.sequence, bad := k.bad,
    trace := k.trace }

/-- A chunk filed: the record takes its place, the origin is set if it was absent, the samples are written (R75, R86). -/
def fileChunk (i : Fin 8) (c : Context) (k : Chunk) (start : Int) (s : State) : State :=
  let v := s.slot i
  { s.setSlot i { v with queue := insertRecord (filedRecord v k start) v.queue, origin := if v.origin.isSome then v.origin else k.pt } with
    memory := writeSamples c v.blocks start (filedStart v start) 0 k.samples s.memory }

/-- The index the queue tells the parser it assigned: none only when the origin is absent and the chunk is not filed
(R64, R75). -/
def assignedIndex (v : Slot) (k : Chunk) (start : Int) (fate : Fate) : Option Int :=
  if v.origin.isSome ∨ k.index.isSome ∨ fate = .filed then some start else none

/-- The event a fate offers, with its detail (R79, R81, R82, R86, R170). -/
def fateEvent (c : Context) (k : Chunk) : Fate → Option Event
  | .dropped => none
  | .mismatch => some (.formatMismatch, halvesWord 0 ((k.mismatch.getD 0).toNat * 256 + c.formatByte))
  | .late => some (.chunkLate, k.sequence.setWidth 32)
  | .refused r => some (.chunkRefused, natWord (r.code * 16777216 + k.sequence.toNat))
  | .filed => if k.bad then some (.chunkBad, k.sequence.setWidth 32) else none

/-! ## Reading the queue (R87) -/

/-- The queue's three findings for an index (R87). -/
inductive Finding where
  | held (r : ChunkRecord)
  | gap
  | beyond
  deriving DecidableEq, Repr

/-- The finding for an index (R87). -/
def findIndex : List ChunkRecord → Int → Finding
  | [], _ => .beyond
  | r :: rs, i =>
    if r.holds i then .held r
    else
      match findIndex rs i with
      | .beyond => if i < r.start then .gap else .beyond
      | x => x

/-! ## Leaving the queue (R88 to R90) -/

/-- The records whose end index lies below `floor` (R88, R89, R90). -/
def passedRecords (q : List ChunkRecord) (floor : Int) : List ChunkRecord := q.filter (fun r => decide (r.endIndex < floor))

/-- The records whose end index is at or above `floor`. -/
def keptRecords (q : List ChunkRecord) (floor : Int) : List ChunkRecord := q.filter (fun r => !decide (r.endIndex < floor))

/-- A head that begins before `floor` raised to it, its end index kept (R88). -/
def trimHead (floor : Int) : List ChunkRecord → List ChunkRecord
  | [] => []
  | r :: rs => if r.start < floor then { r with start := floor, count := r.count - (floor - r.start).toNat } :: rs else r :: rs

/-- The head brought into line with floor(F): passed records leave, then the head is trimmed (R88). -/
def retireTo (floor : Int) (q : List ChunkRecord) : List ChunkRecord := trimHead floor (keptRecords q floor)

/-- The tail cut to the window ending at `last`: records beginning beyond it leave, one ending beyond it is cut (R89). -/
def cutTail (last : Int) (q : List ChunkRecord) : List ChunkRecord :=
  (q.filter (fun r => decide (r.start ≤ last))).map fun r =>
    if last < r.endIndex then { r with count := (last - r.start + 1).toNat } else r

/-- The queue re-based on a new floor(F): passed records leave, the head is trimmed, and where the floor lies below
the base before the jump the tail is cut to the window (R89). -/
def rebase (c : Context) (oldBase : Option Int) (floor : Int) (q : List ChunkRecord) : List ChunkRecord :=
  let q1 := retireTo floor q
  match oldBase with
  | none => q1
  | some b => if floor < b then cutTail (floor + ringFrames c - 1) q1 else q1

end Sys2Proof.Machine
end

