-- ==== Sys2Proof/Machine/Renderer.lean ====
section
/-! DEFINITION. The Renderer (chapter 5): due position, start, the value at a strobe, the advance, correction points,
starvation and draining, one slot at a time. -/

namespace Sys2Proof.Machine

/-! ## Due position (R94) -/

/-- The due position: the floor of (D - origin) × fs / 375, in units of 2^-16 sample (R94). -/
def duePosition (fs : Rate) (origin due : Time) : Int := sdiff due origin * fs.hz / 375

/-- The due index: the floor of the due position divided by 65,536 (R94). -/
def dueIndex (fs : Rate) (origin due : Time) : Int := duePosition fs origin due / 65536

/-- The context, origin and due house time of a slot at a local count, where all three exist (R94, R95). -/
def dueOf (s : State) (i : Fin 8) (lc : Time) : Option (Context × Time × Time) :=
  match (s.slot i).context, (s.slot i).origin with
  | some c, some o => (dueTime s c lc).map (fun d => (c, o, d))
  | _, _ => none

/-- The clock term: N × ε / 2^32, truncated (R102). -/
def clockTerm (n epsilon : Int) : Int := (n * epsilon).tdiv (2 ^ 32)

/-- The slew limit: N / 2,048, truncated (R102). -/
def slewLimit (n : Int) : Int := n.tdiv 2048

/-- The slew: err × 16 held within the slew limit (R102). -/
def slewOf (n err : Int) : Int := clampTo (-(slewLimit n)) (slewLimit n) (err * 16)

/-- The resync limit: the floor of Rt × fs / 375 (R101). -/
def resyncLimit (rt : Nat) (fs : Rate) : Int := rt * fs.hz / 375

/-- The starve limit in strobes (R108). -/
def starveStrobes (c : Context) (fo : OutputRate) : Int := c.starveLimit * fo.hz / 1000

/-! ## The span limit (R95, R105) -/

/-- Whether the due time lies 2^46 or more past the origin (R95, R105). -/
def spanExceeded (origin due : Time) : Bool := decide (Config.spanLimit ≤ sdiff due origin)

/-- The SPAN_LIMIT cut: the slot is cut, then SPAN_LIMIT is offered (R95, R105). -/
def spanCut (i : Fin 8) (s : State) : State := offerSlot .spanLimit i 0 (cutSlot i s)

/-! ## Priming and the start (R90, R95, R96) -/

/-- The discard of every record wholly before the due index, each reported CHUNK_LATE, oldest first (R90). -/
def lateDiscard (i : Fin 8) (due : Int) (s : State) : State :=
  let v := s.slot i
  offerEach .chunkLate i ((passedRecords v.queue due).map (fun r => r.sequence.setWidth 32))
    (s.setSlot i { v with queue := keptRecords v.queue due })

/-- The start gate of a PRIMING slot whose late records are gone (R96). -/
def startGate (s : State) (v : Slot) (due : Int) : Bool :=
  decide (v.state = .priming) && decide (s.clock.state = .locked ∨ s.clock.state = .holdover) &&
    (match v.queue.head? with
     | none => false
     | some h => decide (h.start ≤ due))

/-- The start (R96): F, the re-based queue, the step, the phase, PLAYING, then STREAM_STARTED. -/
def startStream (i : Fin 8) (c : Context) (position : Int) (s : State) : State :=
  let v := s.slot i
  let f := position * 4096
  let n := nominalStep c.rate s.output.rate
  offerSlot .streamStarted i (clamp32 (floorF f))
    (s.setSlot i { v with
      state := .playing, readPos := some f, queue := rebase c (baseOf v) (floorF f) v.queue,
      step := n + clockTerm n s.clock.epsilon, phase := 0, starveCount := 0 })

/-- The work of a PRIMING stream with its origin present while the clock is not FREE, short of the span check: the
late discard, then the start gate (R95, R96). -/
def primeOn (i : Fin 8) (c : Context) (o d : Time) (s : State) : State :=
  let s1 := lateDiscard i (dueIndex c.rate o d) s
  if startGate s1 (s1.slot i) (dueIndex c.rate o d) then startStream i c (duePosition c.rate o d) s1 else s1

/-- A PRIMING stream's strobe work (R95). -/
def primingWork (i : Fin 8) (s : State) : State :=
  match dueOf s i s.localCount with
  | none => s
  | some (c, o, d) => if spanExceeded o d then spanCut i s else primeOn i c o d s

/-- Whether a PRIMING stream's late discard and start gate end in a start at the present local count (R96). -/
def startsNow (s : State) (i : Fin 8) : Bool :=
  decide ((s.slot i).state = .priming) &&
    (match dueOf s i s.localCount with
     | none => false
     | some (c, o, d) =>
       !spanExceeded o d &&
         startGate (lateDiscard i (dueIndex c.rate o d) s) ((lateDiscard i (dueIndex c.rate o d) s).slot i) (dueIndex c.rate o d))

/-- Whether a PRIMING stream has outlived the span limit at the present local count (R95). -/
def primingSpent (s : State) (i : Fin 8) : Bool :=
  decide ((s.slot i).state = .priming) &&
    (match dueOf s i s.localCount with
     | none => false
     | some (_, o, d) => spanExceeded o d)

/-! ## Starving, resuming, draining (R106, R107, R109) -/

/-- The index a stream reads at this strobe, and the queue's finding for it (R98). -/
def findingNow (v : Slot) : Finding := findIndex v.queue (floorF (v.readPos.getD 0))

/-- STREAM_STARVED (R106). -/
def starveStream (i : Fin 8) (s : State) : State :=
  offerSlot .streamStarved i (clamp32 (floorF ((s.slot i).readPos.getD 0))) (s.setSlot i { s.slot i with state := .starved })

/-- STREAM_RESUMED, with the strobes spent starved (R107). -/
def resumeStream (i : Fin 8) (s : State) : State :=
  offerSlot .streamResumed i (natWord (s.slot i).starveCount) (s.setSlot i { s.slot i with state := .playing, starveCount := 0 })

/-- Drain completion: the slot is closed and STREAM_DRAINED offered (R109). -/
def drainStream (i : Fin 8) (s : State) : State :=
  offerSlot .streamDrained i (clamp32 (floorF ((s.slot i).readPos.getD 0))) (releaseSlot i s)

/-- Whether a STARVED stream's index is held again (R107). -/
def resumesNow (s : State) (i : Fin 8) : Bool :=
  decide ((s.slot i).state = .starved) && (match findingNow (s.slot i) with | .held _ => true | _ => false)

/-- Whether a stream of the given state finds its index beyond every record (R106, R109). -/
def isBeyond (s : State) (i : Fin 8) (st : SlotState) : Bool :=
  decide ((s.slot i).state = st) && (match findingNow (s.slot i) with | .beyond => true | _ => false)

/-- The moves made before a value is formed (R95 to R97, R106, R107, R109). -/
def moveSlot (i : Fin 8) (s : State) : State :=
  match (s.slot i).state with
  | .priming => primingWork i s
  | .playing => if isBeyond s i .playing then starveStream i s else s
  | .starved => if resumesNow s i then resumeStream i s else s
  | .draining => if isBeyond s i .draining then drainStream i s else s
  | .closed | .frozen => s

/-! ## The value and the advance (R98 to R100) -/

/-- The 16 bits of F's fraction just below the point (R98). -/
def fracOf (f : Int) : Int := (f - floorF f * 2 ^ 28) / 4096

/-- The sample value of an index for a channel: stored if held by a good record, 0 if held by a BAD one, and the
given hold value in a gap or beyond (R98). -/
def sampleOf (s : State) (v : Slot) (c : Context) (ch : Nat) (i hold : Int) : Int :=
  match findIndex v.queue i with
  | .held r => if r.bad then 0 else sampleAt s.memory (ringAddress v.blocks (ringWord c i ch))
  | .gap | .beyond => hold

/-- s[i] plus (s[i+1] - s[i]) × frac / 65,536, rounded half up (R99). -/
def interpolate (s0 s1 frac : Int) : Int := s0 + roundHalfUp ((s1 - s0) * frac) 65536

/-- The value of one channel at a strobe (R98, R99). -/
def channelValue (s : State) (v : Slot) (c : Context) (f : Int) (ch : Nat) : Int :=
  let s0 := sampleOf s v c ch (floorF f) 0
  let s1 := sampleOf s v c ch (floorF f + 1) s0
  interpolate s0 s1 (fracOf f)

/-- What a slot hands the mixer: its values in PLAYING and DRAINING, zeros in STARVED, nothing otherwise (R99). -/
def handedBy (s : State) (v : Slot) : Option (List Int) :=
  match v.context, v.readPos with
  | some c, some f =>
    match v.state with
    | .playing | .draining => some ((List.range c.channels.count).map (channelValue s v c f))
    | .starved => some (List.replicate c.channels.count 0)
    | .closed | .priming | .frozen => none
  | _, _ => none

/-- The advance of F with the queue's retirement and trim and the strobe phase; CHUNK_TRACE is offered for traced
records, oldest first (R88, R100). DESIGN CHOICE (unsafe, log 34): R100 names the offers between the trim and the phase's step and does
not say whether a FAULT-class one that freezes the slot comes before that step. Here F, queue and phase have all moved when the offers
are taken, so a slot that one of them freezes keeps the moved phase, while its starve count is then not raised (`countStarved`). -/
def advanceSlot (i : Fin 8) (f : Int) (s : State) : State :=
  let v := s.slot i
  let f' := f + v.step
  let ph := (v.phase + 1) % 64
  offerEach .chunkTrace i (((passedRecords v.queue (floorF f')).filter (·.trace)).map (fun r => r.sequence.setWidth 32))
    (s.setSlot i { v with
      readPos := some f', queue := retireTo (floorF f') v.queue, phase := ph, correctionDue := decide (ph = 0) })

/-- The starve count of a stream that was STARVED before this strobe and still is (R107); one that its own CHUNK_TRACE froze in
the advance is STARVED no more, and its count stays (R45; log 34). -/
def countStarved (i : Fin 8) (wasStarved : Bool) (s : State) : State :=
  if wasStarved ∧ (s.slot i).state = .starved then s.setSlot i { s.slot i with starveCount := (s.slot i).starveCount + 1 } else s

/-- What the mixer reads of a slot: its state now, its stream, and the values handed (R113). -/
def contributionOf (v : Slot) (values : Option (List Int)) : Contribution :=
  match v.context with
  | none => Contribution.none
  | some c => { state := v.state, priority := c.priority, channels := c.channels.count, values := values }

/-- A slot's contribution recorded for this strobe's mix. -/
def State.withContribution (s : State) (i : Fin 8) (values : Option (List Int)) : State :=
  { s with contributions := s.contributions.set i.val (contributionOf (s.slot i) values) i.isLt }

/-- The value formed, the advance made and the starve count brought up to date, for a slot whose moves are made (R98 to R100). -/
def playSlot (i : Fin 8) (wasStarved : Bool) (s : State) : State :=
  match (s.slot i).state, (s.slot i).readPos with
  | .playing, some f | .starved, some f | .draining, some f => countStarved i wasStarved (advanceSlot i f s)
  | _, _ => s

/-- The Renderer's work for one slot at a strobe, short of the starve limit and the correction (R92). -/
def renderSlot (i : Fin 8) (s : State) : State :=
  let s1 := moveSlot i s
  (playSlot i (decide ((s.slot i).state = .starved)) s1).withContribution i (handedBy s1 (s1.slot i))

/-! ## After the advance: the starve limit and the correction (R101 to R105, R108) -/

/-- Whether a STARVED stream's count has reached its limit (R108). -/
def starveSpent (s : State) (i : Fin 8) : Bool :=
  decide ((s.slot i).state = .starved) &&
    (match (s.slot i).context with
     | none => false
     | some c => decide (starveStrobes c s.output.rate ≤ (s.slot i).starveCount))

/-- The STARVE_LIMIT cut, and then STARVE_LIMIT with the count (R108). -/
def starveCut (i : Fin 8) (s : State) : State := offerSlot .starveLimit i (natWord (s.slot i).starveCount) (cutSlot i s)

/-- Whether a slot stands at a correction point not yet handled: PLAYING or STARVED, its phase returned to 0 at this
strobe, and not about to be cut for its starve limit (R100, R107). -/
def correctionOwed (s : State) (i : Fin 8) : Bool :=
  (s.slot i).correctionDue && decide ((s.slot i).state = .playing ∨ (s.slot i).state = .starved) && !starveSpent s i

/-- The local count of the strobe that follows (R101). -/
def nextStrobeCount (s : State) : Time := s.localCount + BitVec.ofNat 48 s.output.rate.divider

/-- Whether a PLAYING stream at its correction point has outlived the span limit (R105). -/
def correctionSpent (s : State) (i : Fin 8) : Bool :=
  correctionOwed s i && decide ((s.slot i).state = .playing) &&
    (match dueOf s i (nextStrobeCount s) with
     | none => false
     | some (_, o, d) => spanExceeded o d)

/-- The storm test and its event, before the new time joins the history (R104). -/
def stormEvent (history : List Time) (d : Time) : Option Word32 :=
  match history with
  | t :: _ => if history.length = 4 ∧ |sdiff d t| ≤ Config.oneSecond then some (signedWord (sdiff d t)) else none
  | [] => none

/-- A time joining the realign history, which holds four (R104). -/
def joinHistory (history : List Time) (d : Time) : List Time := (history ++ [d]).drop (history.length + 1 - 4)

/-- A realign (R103, R104): F jumps to the due position, the queue re-bases, REALIGN and then REALIGN_STORM. -/
def realignStream (i : Fin 8) (c : Context) (d : Time) (position err : Int) (s : State) : State :=
  let v := s.slot i
  let f := position * 4096
  let n := nominalStep c.rate s.output.rate
  let s1 := offerSlot .realign i (clamp32 err)
    (s.setSlot i { v with
      readPos := some f, queue := rebase c (baseOf v) (floorF f) v.queue, step := n + clockTerm n s.clock.epsilon,
      realigns := joinHistory v.realigns d })
  match stormEvent v.realigns d with
  | none => s1
  | some w => offerSlot .realignStorm i w s1

/-- The position error: due′ less F in units of 2^-16, F truncated (R101). -/
def positionError (position f : Int) : Int := position - f.tdiv 4096

/-- The correction of a stream that is not cut: a realign beyond the resync limit, else a slewed step (R101 to R103). -/
def steer (i : Fin 8) (c : Context) (o d : Time) (f : Int) (s : State) : State :=
  let p := duePosition c.rate o d
  let err := positionError p f
  let n := nominalStep c.rate s.output.rate
  if resyncLimit s.output.rt c.rate < |err| then realignStream i c d p err s
  else s.setSlot i { s.slot i with step := n + clockTerm n s.clock.epsilon + slewOf n err }

/-- The correction marked as handled. -/
def State.correctionMade (s : State) (i : Fin 8) : State := s.setSlot i { s.slot i with correctionDue := false }

/-- A correction point (R101): the span test for a PLAYING stream, then the correction. -/
def correctSlot (i : Fin 8) (s : State) : State :=
  if correctionSpent s i then spanCut i s
  else
    match dueOf s i (nextStrobeCount s), (s.slot i).readPos with
    | some (c, o, d), some f => steer i c o d f (s.correctionMade i)
    | _, _ => s.correctionMade i

/-- The state the Renderer's later work left a slot in, noted for the mixer (R113); the values handed stand. -/
def State.noteState (s : State) (i : Fin 8) : State := s.withContribution i (s.contributions[i.val]).values

/-- What is owed to a slot after its advance, in order: the starve limit, then the correction (R100). -/
def settleSlot (i : Fin 8) (s : State) : State :=
  let s1 := if starveSpent s i then (starveCut i s).noteState i else s
  if correctionOwed s1 i then (correctSlot i s1).noteState i else s1

/-- Every slot in order. -/
def settleAll (s : State) : State := (List.finRange 8).foldl (fun acc i => settleSlot i acc) s

end Sys2Proof.Machine
end

