-- ==== Sys2Proof/Machine/Flash.lean ====
section
/-! DEFINITION. The Image Port's requests and the contents of sectors (chapter 10, 11.4): what is good, what is
written, how a preset read and a sector write begin. -/

namespace Sys2Proof.Machine

/-! ## Presets (R114, R159, R171) -/

/-- Whether no two used entries share slot, channel and lane (R114). -/
def routesDistinct (es : List (Option Route)) : Bool :=
  match es with
  | [] => true
  | none :: rest => routesDistinct rest
  | some r :: rest =>
    !rest.any (fun e =>
      match e with
      | none => false
      | some q => decide (q.slot = r.slot ∧ q.channel = r.channel ∧ q.lane = r.lane))
      && routesDistinct rest

/-- A preset's entry from its word: unused, used, or used with a field out of range (R159, R168). Bits 30..28 of a used
entry, which spec 11.1 lists as 0, are not looked at, DESIGN CHOICE (log 17). -/
def presetEntry (w : Word32) : Option (Option Route) :=
  if (Decode.field w 31 1) = 0 then some none else (routeOfWord w).map some

/-- The route table of a preset's words, if every entry is in range. -/
def presetTable (ws : Vector Word32 17) : Option RouteTable :=
  let get := fun (i : Nat) => presetEntry (ws.toList.getD i 0)
  match get 0, get 1, get 2, get 3, get 4, get 5, get 6, get 7, get 8, get 9, get 10, get 11, get 12, get 13, get 14, get 15 with
  | some a, some b, some c, some d, some e, some f, some g, some h, some i, some j, some k, some l, some m, some n, some o, some p =>
    some #v[a, b, c, d, e, f, g, h, i, j, k, l, m, n, o, p]
  | _, _, _, _, _, _, _, _, _, _, _, _, _, _, _, _ => none

/-- The outcome of a preset read: its route table, or the cause it is bad for (R159). -/
inductive PresetOutcome where
  | good (entries : RouteTable)
  | bad (cause : Cause)
  deriving DecidableEq, Repr

/-- A preset's words tested: CHECK, then CONTENT (R159). The sum decides of an erased sector too: 32 halves of all ones sum
to all ones, so its check word is good and the cause is CONTENT, DESIGN CHOICE (log 33). -/
def judgePreset (ws : Vector Word32 17) : PresetOutcome :=
  if onesSum (ws.toList.take 16) ≠ (Decode.field ws[16] 0 16).toNat then .bad .check
  else
    match presetTable ws with
    | none => .bad .content
    | some t => if routesDistinct t.toList then .good t else .bad .content

/-- The words PRESET-PUT programs: the entries, then the check word over them (R163, R171). -/
def presetWords (t : RouteTable) : List Word32 :=
  let body := t.toList.map routeWord
  body ++ [natWord (onesSum body)]

/-! ## The image (R159, R171) -/

/-- The settings an image holds (10.2). -/
structure Image where
  deviceTag    : BitVec 16
  settings     : ClockSettings
  nominalDrift : Int
  output       : OutputSettings
  partition    : PartitionMode
  bootPreset   : Option (Fin 8)
  classes      : Vector EventClass 32
  deriving DecidableEq, Repr

/-- A boot preset byte: 0..7, or 0xFF for none; anything else is out of range (R162, R171). -/
def bootPresetOf (b : BitVec 8) : Option (Option (Fin 8)) :=
  if b = 0xFF then some none else (indexBelow 8 b.toNat).map some

/-- Four classes from a word, the first in bits 31..24 (R171). -/
def classesOfWord (w : Word32) : Option (List EventClass) :=
  match classOfCode (Decode.field w 24 8).toNat, classOfCode (Decode.field w 16 8).toNat,
        classOfCode (Decode.field w 8 8).toNat, classOfCode (Decode.field w 0 8).toNat with
  | some a, some b, some c, some d => some [a, b, c, d]
  | _, _, _, _ => none

/-- The classes of several words, in order. -/
def classesOfWords : List Word32 → Option (List EventClass)
  | [] => some []
  | w :: ws =>
    match classesOfWord w, classesOfWords ws with
    | some a, some b => some (a ++ b)
    | _, _ => none

/-- The settings of an image's body, if every one is within its range (R159, R171). The bits of words 4, 5, 6 and 14 that
spec 11.4 gives to no setting are not looked at, DESIGN CHOICE (log 17). -/
def imageOf (ws : Vector Word32 23) : Option Image :=
  match clockSettingsOf (Decode.field ws[5] 0 16) (Decode.field ws[6] 24 8) (Decode.field ws[6] 0 16)
          (Decode.field ws[7] 16 16) (Decode.field ws[7] 0 16) ws[8] ws[9],
        signedIn (-Config.driftLimit) Config.driftLimit ws[10],
        outputSettingsOf ws[11] ws[12] ws[13],
        bootPresetOf (Decode.field ws[14] 8 8),
        modeOfCode (Decode.field ws[14] 0 8).toNat,
        classesOfWords (ws.toList.drop 15) with
  | some cs, some nd, some out, some bp, some m, some cl =>
    if Decode.field ws[4] 0 16 = 0xFFFF then none
    else
      some { deviceTag := Decode.field ws[4] 0 16, settings := cs, nominalDrift := nd, output := out, partition := m,
             bootPreset := bp, classes := Vector.ofFn (fun i => cl.getD i.val .ignore) }
  | _, _, _, _, _, _ => none

/-- The outcome of the image read (R159). -/
inductive ImageOutcome where
  | good (image : Image)
  | bad (cause : Cause)
  deriving DecidableEq, Repr

/-- An image's words tested in the order MAGIC, VERSION, LENGTH, CHECK, RANGE (R159). -/
def judgeImage (ws : Vector Word32 23) : ImageOutcome :=
  if ws[0] ≠ 0x54313801 then .bad .magic
  else if ws[1] ≠ 1 then .bad .version
  else if ws[2] ≠ 19 then .bad .length
  else if onesSum (ws.toList.drop 4) ≠ (Decode.field ws[3] 0 16).toNat then .bad .check
  else
    match imageOf ws with
    | none => .bad .range
    | some x => .good x

/-- The word of a boot preset and a partition mode (R171). -/
def bootWord (b : Option (Fin 8)) (m : PartitionMode) : Word32 :=
  bytesWord 0 0 ((b.map (·.val)).getD 0xFF) m.regions

/-- The class table, four kinds to a word (R171). -/
def classWords : List EventClass → List Word32
  | a :: b :: c :: d :: rest => bytesWord a.code b.code c.code d.code :: classWords rest
  | _ => []

/-- The body of an image (R171). -/
def imageBody (x : Image) : List Word32 :=
  [natWord x.deviceTag.toNat, natWord x.settings.masterId.toNat,
   bytesWord x.settings.source.code 0 (x.settings.holdoverLimit / 256) x.settings.holdoverLimit,
   halvesWord x.settings.linkLatency.toNat x.settings.edgeLatency.toNat, natWord x.settings.gate, natWord x.settings.window,
   signedWord x.nominalDrift, natWord x.output.rate.code, natWord x.output.ko, natWord x.output.rt,
   bootWord x.bootPreset x.partition] ++ classWords x.classes.toList

/-- The words SAVE programs: magic, version, length, check word, body (R162, R171). -/
def imageWords (x : Image) : List Word32 :=
  [0x54313801, 1, 19, natWord (onesSum (imageBody x))] ++ imageBody x

/-- What SAVE copies when it is taken: the settings in force, the tag and boot preset given, and as nominal drift the
current ε when LOCKED (R162). -/
def settingsInForce (tag : BitVec 16) (boot : Option (Fin 8)) (s : State) : Image :=
  { deviceTag := tag, settings := s.clock.settings,
    nominalDrift := if s.clock.state = .locked then s.clock.epsilon else s.clock.nominalDrift,
    output := s.output, partition := s.partition, bootPreset := boot, classes := s.classes }

/-! ## Operations begun (R162 to R166) -/

/-- The byte address of a sector (10.1). -/
def sectorAddress (n : Nat) : Nat := 4096 * n

/-- The sector a write writes: 0 for the image, p + 1 for preset p (10.1). -/
def WriteJob.sector : WriteJob → Nat
  | .save => 0
  | .presetPut p => p.val + 1

/-- The Image Port in a new state, having issued some operations. -/
def State.withPort (s : State) (p : Port) (ops : List FlashOp) : State := { s with port := p, flashOut := ops }

/-- A sector write begun from IDLE: its first wait, before the erase's write-enable (R158, R164). -/
def beginWrite (job : WriteJob) (content : List Word32) (s : State) : State :=
  s.withPort (.writing { job := job, content := content, step := .beforeErase, since := s.localCount }) [.statusPoll]

/-- A preset read asked of the Image Port: taken from IDLE (R165), suspending a write from WRITING (R166), BUSY
otherwise. -/
def requestRead (r : PresetRead) (s : State) : Option State :=
  match s.port with
  | .idle => some (s.withPort (.reading r (.waiting false s.localCount)) [.statusPoll])
  | .writing w => some (s.withPort (.suspended w (sdiff s.localCount w.since) false r (.deciding s.localCount)) [.statusPoll])
  | .startImage _ | .startPreset _ _ | .reading _ _ | .suspended _ _ _ _ _ => none

/-- SAVE (R162). -/
def saveOwner (tag : BitVec 16) (boot : BitVec 8) (s : State) : State × Answer :=
  match bootPresetOf boot with
  | none => (s, refusal .badarg)
  | some b =>
    if tag = 0xFFFF then (s, refusal .badarg)
    else if s.port = .idle then (beginWrite .save (imageWords (settingsInForce tag b s)) s, acceptedWith [])
    else (s, busyAnswer)

/-- PRESET-PUT (R163). -/
def presetPutOwner (preset : BitVec 16) (s : State) : State × Answer :=
  match indexBelow 8 preset.toNat with
  | none => (s, refusal .badarg)
  | some p =>
    if s.port = .idle then (beginWrite (.presetPut p) (presetWords s.routes) s, acceptedWith [])
    else (s, busyAnswer)

/-- SAVE handed to the Image Port. -/
def saveRecord (tag : BitVec 16) (boot : BitVec 8) (s : State) : State := handOver (.save tag boot) (saveOwner tag boot) s

/-- PRESET-PUT handed to the Image Port. -/
def presetPutRecord (preset : BitVec 16) (s : State) : State := handOver (.presetPut preset) (presetPutOwner preset) s

/-- SAVE (R162). -/
def execSave (tag : BitVec 16) (boot : BitVec 8) (s : State) : Host.Outcome State Fault Refusal := .next (saveRecord tag boot s)

/-- PRESET_PUT (R163). -/
def execPresetPut (preset : BitVec 16) (s : State) : Host.Outcome State Fault Refusal := .next (presetPutRecord preset s)

end Sys2Proof.Machine
end

