-- ==== Sys2Proof/Machine/Mixer.lean ====
section
/-! DEFINITION. The Lane Mixer and Output Port (chapter 6): the strobe's timing, output settings, the route table,
ducking, the mix, and the serial port's frame. -/

namespace Sys2Proof.Machine

/-! ## The strobe and the output settings (R111 to R113) -/

/-- Whether a sample strobe stands at the present local count and has not been worked (R113). -/
def State.strobeDue (s : State) : Bool :=
  decide (s.localCount.toNat % s.strobeRate.divider = 0) && decide (s.strobed ≠ some s.localCount)

/-- The rate whose divider governs the strobe at count `n`: the output rate in force from the first multiple of its own
divider on, and until then the one that governed before (R113, log 19). -/
def strobeRateAt (s : State) (n : Time) : OutputRate := if n.toNat % s.output.rate.divider = 0 then s.output.rate else s.strobeRate

/-- New output settings in force. The divider of a changed rate governs from its first multiple on (R113). -/
def setOutput (x : OutputSettings) (s : State) : State := { s with output := x }

/-- OUTPUT-SET (R112). -/
def outputSetOwner (rate ko rt : Word32) (s : State) : State × Answer :=
  match outputSettingsOf rate ko rt with
  | none => (s, refusal .badarg)
  | some x =>
    if x.rate ≠ s.output.rate ∧ s.allClosed = false then (s, refusal .state)
    else (setOutput x s, done [natWord s.output.rate.code, natWord s.output.ko, natWord s.output.rt])

/-! ## The route table (R114 to R117) -/

/-- The route table with one entry written. -/
def State.setRoute (s : State) (e : Fin 16) (r : Option Route) : State := { s with routes := s.routes.set e.val r e.isLt }

/-- Whether the channel of a route is beyond the stream open in its slot (R115, second check). -/
def channelBeyond (s : State) (r : Route) : Bool :=
  match (s.slot r.slot).state, (s.slot r.slot).context with
  | .closed, _ => false
  | _, none => false
  | _, some c => decide (c.channels.count ≤ r.channel.val)

/-- Whether a used entry other than `e` holds the slot, channel and lane of `r` (R115, third check). -/
def routeTaken (s : State) (e : Fin 16) (r : Route) : Bool :=
  (List.finRange 16).any fun x =>
    decide (x ≠ e) &&
      (match s.routes[x.val] with
       | none => false
       | some q => decide (q.slot = r.slot ∧ q.channel = r.channel ∧ q.lane = r.lane))

/-- ROUTE-PUT (R115). -/
def routePutOwner (index : BitVec 16) (entry : Word32) (s : State) : State × Answer :=
  match indexBelow 16 index.toNat, routeOfWord entry with
  | some e, some r =>
    if channelBeyond s r then (s, refusal .badarg)
    else if routeTaken s e r then (s, refusal .duplicate)
    else (s.setRoute e (some r), done [routeWord s.routes[e.val]])
  | _, _ => (s, refusal .badarg)

/-- ROUTE-DROP (R116). -/
def routeDropOwner (index : BitVec 16) (s : State) : State × Answer :=
  match indexBelow 16 index.toNat with
  | none => (s, refusal .badarg)
  | some e =>
    match s.routes[e.val] with
    | none => (s, refusal .notfound)
    | some r => (s.setRoute e none, done [routeWord (some r)])

/-- ROUTE-RECALL (R117). -/
def routeRecallOwner (preset : BitVec 16) (s : State) : State × Answer :=
  match indexBelow 8 preset.toNat with
  | none => (s, refusal .badarg)
  | some p =>
    match requestRead { preset := p, dest := .live } s with
    | none => (s, busyAnswer)
    | some s' => (s', acceptedWith [])

/-! ## Ducking (R118 to R121) -/

/-- The state with one lane replaced. -/
def State.setLane (s : State) (l : Fin 4) (x : Lane) : State := { s with lanes := s.lanes.set l.val x l.isLt }

/-- Setting a lane's duck level (R121, R127). -/
def setDuckLevel (l : Fin 4) (level : Nat) (s : State) : State := s.setLane l { s.lanes[l.val] with level := level }

/-- DUCK-SET (R121). -/
def duckSetOwner (lane : BitVec 16) (level : Word32) (s : State) : State × Answer :=
  match indexBelow 4 lane.toNat, natIn 0 16384 level.toNat with
  | some l, some v => (setDuckLevel l v s, done [natWord s.lanes[l.val].level, natWord s.lanes[l.val].gain])
  | _, _ => (s, refusal .badarg)

/-- Whether a used entry is live: its slot not CLOSED and its channel below the stream's (R118), by what the
Renderer's work left (R113). -/
def isLive (s : State) (r : Route) : Bool :=
  decide ((s.contributions[r.slot.val]).state ≠ .closed) && decide (r.channel.val < (s.contributions[r.slot.val]).channels)

/-- The live entries of a lane, in table order (R118). -/
def liveRoutes (s : State) (l : Fin 4) : List Route :=
  s.routes.toList.filterMap fun e => e.bind fun r => if r.lane = l ∧ isLive s r then some r else none

/-- The greatest of some priorities, none if there are none. -/
def highest : List (Fin 4) → Option (Fin 4)
  | [] => none
  | p :: ps =>
    match highest ps with
    | none => some p
    | some q => some (max p q)

/-- The lane priority: the highest among the PLAYING streams with a live entry (R119). -/
def lanePriority (s : State) (l : Fin 4) : Option (Fin 4) :=
  highest ((liveRoutes s l).filterMap fun r =>
    if (s.contributions[r.slot.val]).state = .playing then some (s.contributions[r.slot.val]).priority else none)

/-- Whether a state can be ducked (R118). -/
def SlotState.duckable : SlotState → Bool
  | .priming | .playing | .starved | .draining => true
  | .closed | .frozen => false

/-- Whether a stream with a live entry on the lane can be ducked and lies below the ceiling (R119). -/
def hasLower (s : State) (l : Fin 4) (ceiling : Fin 4) : Bool :=
  (liveRoutes s l).any fun r =>
    (s.contributions[r.slot.val]).state.duckable && decide ((s.contributions[r.slot.val]).priority < ceiling)

/-- The duck ceiling after step 2 of R119. -/
def ceilingNow (s : State) (l : Fin 4) : Option (Fin 4) :=
  if (s.lanes[l.val]).gain = 16384 then lanePriority s l else (s.lanes[l.val]).ceiling

/-- The duck target, step 3 of R119. -/
def duckTarget (s : State) (l : Fin 4) : Nat :=
  if lanePriority s l = ceilingNow s l then
    match ceilingNow s l with
    | none => 16384
    | some c => if hasLower s l c then (s.lanes[l.val]).level else 16384
  else 16384

/-- The duck gain moved towards its target by at most 16 (R120). -/
def moveGain (gain target : Nat) : Nat :=
  if gain + 16 < target then gain + 16
  else if target + 16 < gain then gain - 16
  else target

/-! ## The mix (R122, R123) -/

/-- A value scaled by a gain whose unity is 16,384, rounded half up (R122). -/
def scaleBy (v gain : Int) : Int := (v * gain + 8192) / 16384

/-- One entry's contribution: its value at the entry's gain, and at the duck gain too where its priority lies below
the ceiling; none where the slot handed nothing (R122). A stream that handed values and was frozen at the same strobe is scaled
like any other: step 2 of R122 tests the priority alone, though R118 says that a FROZEN stream is not ducked, DESIGN CHOICE (log 8). -/
def contributionValue (s : State) (ceiling : Option (Fin 4)) (gain : Nat) (r : Route) : Option Int :=
  match (s.contributions[r.slot.val]).values with
  | none => none
  | some vs =>
    let c := scaleBy (vs.getD r.channel.val 0) r.gain.toNat
    match ceiling with
    | none => some c
    | some p => if (s.contributions[r.slot.val]).priority < p then some (scaleBy c gain) else some c

/-- The lane's value: the exact sum of its contributions, saturated at 24 bits (R122). -/
def laneValue (s : State) (l : Fin 4) (ceiling : Option (Fin 4)) (gain : Nat) : Int :=
  clampTo (-8388608) 8388607 ((liveRoutes s l).filterMap (contributionValue s ceiling gain)).sum

/-- A lane after a strobe's mix: ceiling, gain and value anew, and the value before it goes out in the frame that
begins now (R119, R120, R122, R123). -/
def mixedLane (s : State) (l : Fin 4) : Lane :=
  let c := ceilingNow s l
  let g := moveGain (s.lanes[l.val]).gain (duckTarget s l)
  { level := (s.lanes[l.val]).level, gain := g, ceiling := c, value := laneValue s l c g, sending := (s.lanes[l.val]).value }

/-- The mix of a strobe, all four lanes from one reading of the tables (R114, R122). -/
def mixLanes (s : State) : State :=
  { s with
    lanes := #v[mixedLane s 0, mixedLane s 1, mixedLane s 2, mixedLane s 3]
    contributions := Vector.replicate 8 Contribution.none
    mixDue := false }

/-- The 32 bits of one slot of the serial frame: the lane's 24-bit value, then 8 zero bits (R123). -/
def serialSlot (v : Int) : Word32 := (BitVec.ofInt 24 v) ++ (0 : BitVec 8)

/-- The two slots of each data line's frame being sent: lanes 0 and 1 on line 0, lanes 2 and 3 on line 1 (R123). -/
def State.serialFrame (s : State) : (Word32 × Word32) × (Word32 × Word32) :=
  ((serialSlot s.lanes[0].sending, serialSlot s.lanes[1].sending), (serialSlot s.lanes[2].sending, serialSlot s.lanes[3].sending))

/-! ## The records' meanings -/

/-- ROUTE-PUT handed to the Lane Mixer. -/
def routePutRecord (index : BitVec 16) (entry : Word32) (s : State) : State :=
  handOver (.routePut index entry) (routePutOwner index entry) s

/-- ROUTE-DROP handed to the Lane Mixer. -/
def routeDropRecord (index : BitVec 16) (s : State) : State := handOver (.routeDrop index) (routeDropOwner index) s

/-- ROUTE-RECALL handed to the Lane Mixer and the Image Port. -/
def routeRecallRecord (preset : BitVec 16) (s : State) : State := handOver (.routeRecall preset) (routeRecallOwner preset) s

/-- DUCK-SET handed to the Lane Mixer. -/
def duckSetRecord (lane : BitVec 16) (level : Word32) (s : State) : State := handOver (.duckSet lane level) (duckSetOwner lane level) s

/-- OUTPUT-SET handed to the Output Port. -/
def outputSetRecord (rate ko rt : Word32) (s : State) : State := handOver (.outputSet rate ko rt) (outputSetOwner rate ko rt) s

/-- ROUTE_PUT (R115). -/
def execRoutePut (index : BitVec 16) (entry : Word32) (s : State) : Host.Outcome State Fault Refusal := .next (routePutRecord index entry s)

/-- ROUTE_DROP (R116). -/
def execRouteDrop (index : BitVec 16) (s : State) : Host.Outcome State Fault Refusal := .next (routeDropRecord index s)

/-- ROUTE_RECALL (R117). -/
def execRouteRecall (preset : BitVec 16) (s : State) : Host.Outcome State Fault Refusal := .next (routeRecallRecord preset s)

/-- DUCK_SET (R121). -/
def execDuckSet (lane : BitVec 16) (level : Word32) (s : State) : Host.Outcome State Fault Refusal := .next (duckSetRecord lane level s)

/-- OUTPUT_SET (R112). -/
def execOutputSet (rate ko rt : Word32) (s : State) : Host.Outcome State Fault Refusal := .next (outputSetRecord rate ko rt s)

end Sys2Proof.Machine
end

