-- ==== Sys2Proof/Machine/Cues.lean ====
section
/-! DEFINITION. The Cue Unit (chapter 7): the cue table, what a cue does, firing, CUE-ADD, CUE-CANCEL, and the end of
a staged read. -/

namespace Sys2Proof.Machine

/-! ## The table (R125) -/

/-- An entry put after every entry whose fire time is at or before its own and before every later one (R125). Times added
in FREE can go round the clock, so that no place is both; the entry then goes before the first later one, DESIGN CHOICE
(log 31). -/
def insertCue (x : Cue) : List Cue → List Cue
  | [] => [x]
  | c :: cs => if 0 < sdiff c.fireTime x.fireTime then x :: c :: cs else c :: insertCue x cs

/-- Whether an entry is a RECALL. -/
def Cue.isRecall (c : Cue) : Bool :=
  match c.action with
  | .recall _ => true
  | .cut _ | .ending _ | .gain _ _ | .duck _ _ | .mute _ | .mark _ => false

/-! ## Actions (R126 to R128) -/

/-- MARK's level after a MARK cue (R128). -/
def MarkLevel.apply (m : MarkLevel) (now : Bool) : Bool :=
  match m with
  | .low => false
  | .high => true
  | .toggle => !now

/-- Whether a cue is void: CUT and END on a CLOSED or FROZEN slot, GAIN on an unused entry (R126, R127). -/
def cueVoid (a : CueAction) (s : State) : Bool :=
  match a with
  | .cut i | .ending i => decide ((s.slot i).state = .closed ∨ (s.slot i).state = .frozen)
  | .gain e _ => (s.routes[e.val]).isNone
  | .duck _ _ | .recall _ | .mute _ | .mark _ => false

/-- What a cue that is not void does (R126 to R128, R134). -/
def applyCue (a : CueAction) (s : State) : State :=
  match a with
  | .cut i => cutSlot i s
  | .ending i => endSlot i s
  | .gain e g => s.setRoute e ((s.routes[e.val]).map (fun r => { r with gain := g }))
  | .duck l v => setDuckLevel l v s
  | .recall _ =>
    match s.staged with
    | .ready t => { s with routes := t, staged := .free }
    | .free | .filling => s
  | .mute b => { s with mute := b }
  | .mark m => { s with mark := m.apply s.mark }

/-! ## Firing (R129, R130) -/

/-- Whether the staged route table is READY (R134). -/
def State.stagedReady (s : State) : Bool :=
  match s.staged with
  | .ready _ => true
  | .free | .filling => false

/-- The ids of the entries to fire at acoustic time `a`, in table order: from the front to the first entry not due, a RECALL
whose staged table is not READY passed over (R129). -/
def dueList (a : Time) (ready : Bool) (cues : List Cue) : List (BitVec 8) :=
  ((cues.takeWhile (fun c => decide (sdiff c.fireTime a ≤ 0))).filter (fun c => !c.isRecall || ready)).map (·.id)

/-- The pass of the strobe at the present local count, none in FREE (R129). -/
def State.newPass (s : State) : Option CuePass :=
  s.acousticTime.map fun a => { acoustic := a, due := dueList a s.stagedReady s.cues }

/-- The strobe's pass open: the comparison is made once, with the first of the strobe's work (R129, R132, log 12). -/
def State.openPass (s : State) : State :=
  { s with cuePass := match s.cuePass with | some p => some p | none => s.newPass }

/-- The pass whose entries may fire now: the one open, or that of a strobe standing at the present count (R129). -/
def State.cueWork (s : State) : Option CuePass :=
  match s.cuePass with
  | some p => some p
  | none => if s.strobeDue then s.newPass else none

/-- The next entry of a pass to fire, and the ids after it. One that has left the table since, or a RECALL whose staged table
is READY no longer, is passed over (R129, R133). -/
def nextFiring (cues : List Cue) (ready : Bool) : List (BitVec 8) → Option (Cue × List (BitVec 8))
  | [] => none
  | n :: ns =>
    match cues.find? (fun c => decide (c.id = n)) with
    | none => nextFiring cues ready ns
    | some c => if c.isRecall ∧ ready = false then nextFiring cues ready ns else some (c, ns)

/-- Whether a firing entry is late, by the strobe divider that governs (R130). -/
def cueLate (c : Cue) (a : Time) (fo : OutputRate) : Bool := c.late || decide (sdiff c.fireTime a ≤ -(fo.divider : Int))

/-- The table without the entry of an id. -/
def withoutId (id : BitVec 8) (cues : List Cue) : List Cue := cues.filter (fun c => !decide (c.id = id))

/-- One entry fired: removed, its action applied unless void, then CUE_LATE if late, then CUE_VOID or CUE_FIRED (R129).
The pass goes on with the ids after it. -/
def fireCue (a : Time) (c : Cue) (rest : List (BitVec 8)) (s : State) : State :=
  let s1 := { s with cues := withoutId c.id s.cues, cuePass := some { acoustic := a, due := rest } }
  let void := cueVoid c.action s1
  let s2 := if void then s1 else applyCue c.action s1
  let s3 := if cueLate c a s.strobeRate then offerCue .cueLate c (clamp32 (sdiff a c.fireTime)) s2 else s2
  offerCue (if void then .cueVoid else .cueFired) c 0 s3

/-- What the next firing would be: its acoustic time, the entry and the ids after it. -/
def State.nextCue (s : State) : Option (Time × Cue × List (BitVec 8)) :=
  match s.cueWork with
  | none => none
  | some p => (nextFiring s.cues s.stagedReady p.due).map (fun r => (p.acoustic, r.1, r.2))

/-- One firing of the present strobe's pass, if an entry is left to fire (R129). -/
def cueStep (s : State) : State :=
  match s.nextCue with
  | none => s
  | some (a, c, rest) => fireCue a c rest s

/-- The rest of an open pass, at most `n` firings. -/
def cueSteps : Nat → State → State
  | 0, s => s
  | n + 1, s => if s.cuePass = none then s else cueSteps n (cueStep s)

/-! ## CUE-ADD and CUE-CANCEL (R132, R133) -/

/-- An entry joining the table. -/
def addCue (x : Cue) (s : State) : State := { s with cues := insertCue x s.cues }

/-- The fourth check: a fire time more than 2^40 ahead of the current acoustic time (R132). -/
def cueFar (fire : Time) (s : State) : Bool :=
  match s.acousticTime with
  | none => false
  | some a => decide (2 ^ 40 < sdiff fire a)

/-- The late mark at CUE-ADD (R132). -/
def cueLateMark (fire : Time) (s : State) : Bool :=
  match s.acousticTime with
  | none => false
  | some a => decide (sdiff fire a ≤ 0)

/-- The result word: the entries held after the addition (R132). -/
def cueCount (s : State) : List Word32 := [natWord s.cues.length]

/-- CUE-ADD (R132, R134). -/
def cueAddOwner (cueId : BitVec 16) (fire : Time) (action target : BitVec 8) (argument : BitVec 16) (s : State) : State × Answer :=
  match indexBelow 256 cueId.toNat, cueActionOf action target argument with
  | some _, some act =>
    let x : Cue := { id := cueId.setWidth 8, fireTime := fire, action := act, late := cueLateMark fire s }
    if s.cues.any (fun c => decide (c.id = x.id)) then (s, refusal .duplicate)
    else if 16 ≤ s.cues.length then (s, refusal .full)
    else if cueFar fire s then (s, refusal .far)
    else
      match act with
      | .recall p =>
        if s.cues.any Cue.isRecall then (s, busyAnswer)
        else
          match requestRead { preset := p, dest := .staged } s with
          | none => (s, busyAnswer)
          | some s1 => ({ addCue x s1 with staged := .filling }, acceptedWith (cueCount (addCue x s1)))
      | .cut _ | .ending _ | .gain _ _ | .duck _ _ | .mute _ | .mark _ => (addCue x s, done (cueCount (addCue x s)))
  | _, _ => (s, refusal .badarg)

/-- CUE-CANCEL: the entry leaves, and its place in an open pass with it; a RECALL's staged table is released (R133). -/
def cueCancelOwner (cueId : BitVec 16) (s : State) : State × Answer :=
  match indexBelow 256 cueId.toNat with
  | none => (s, refusal .badarg)
  | some _ =>
    match s.cues.find? (fun c => decide (c.id = cueId.setWidth 8)) with
    | none => (s, refusal .notfound)
    | some c =>
      ({ s with
          cues := withoutId c.id s.cues
          staged := if c.isRecall then .free else s.staged
          cuePass := s.cuePass.map (fun p => { p with due := p.due.filter (fun n => !decide (n = c.id)) }) },
        done (natWord c.action.code :: timeWords c.fireTime))

/-! ## The end of a preset read, by its requester (R117, R135) -/

/-- The outcome of a read for the live table (R117). -/
def liveReadEnd (o : PresetOutcome) (s : State) : State :=
  match o with
  | .good t => { s with routes := t }
  | .bad _ => s

/-- The outcome of a read for the staged table: READY, or the RECALL entry gone and the table FREE; discarded when
the table is no longer FILLING (R135). -/
def stagedReadEnd (o : PresetOutcome) (s : State) : State :=
  match s.staged, o with
  | .filling, .good t => { s with staged := .ready t }
  | .filling, .bad _ => { s with staged := .free, cues := s.cues.filter (fun c => !c.isRecall) }
  | .free, _ | .ready _, _ => s

/-- The outcome handed to its requester (R165). -/
def readEnd (r : PresetRead) (o : PresetOutcome) (s : State) : State :=
  match r.dest with
  | .live => liveReadEnd o s
  | .staged => stagedReadEnd o s

/-! ## The meanings -/

/-- CUE-ADD handed to the Cue Unit. -/
def cueAddRecord (cueId : BitVec 16) (fire : Time) (action target : BitVec 8) (argument : BitVec 16) (s : State) : State :=
  handOver (.cueAdd cueId fire action target argument) (cueAddOwner cueId fire action target argument) s

/-- CUE-CANCEL handed to the Cue Unit. -/
def cueCancelRecord (cueId : BitVec 16) (s : State) : State := handOver (.cueCancel cueId) (cueCancelOwner cueId) s

/-- CUE_ADD (R132). -/
def execCueAdd (cueId : BitVec 16) (fire : Time) (action target : BitVec 8) (argument : BitVec 16) (s : State) :
    Host.Outcome State Fault Refusal := .next (cueAddRecord cueId fire action target argument s)

/-- CUE_CANCEL (R133). -/
def execCueCancel (cueId : BitVec 16) (s : State) : Host.Outcome State Fault Refusal := .next (cueCancelRecord cueId s)

/-- CUE_FIRE: one entry of the strobe's pass (R129). -/
def execCueFire (s : State) : Host.Outcome State Fault Refusal := .next (cueStep s)

end Sys2Proof.Machine
end

