-- ==== Sys2Proof/Machine/Strobe.lean ====
section
/-! DEFINITION. The sample strobe (R113) and the steps within it, one row of the table each. -/

namespace Sys2Proof.Machine

/-- The Renderer's work for every slot, up to the advance (R92, R113); the cue pass of the strobe, with the acoustic time
formed at it, opens no later (R129, R132). -/
def renderAll (s : State) : State :=
  let s1 := (List.finRange 8).foldl (fun acc i => renderSlot i acc) s
  { s1 with strobed := some s.localCount, mixDue := true, cuePass := s.openPass.cuePass }

/-- The mix, after whatever of the Renderer's work is still owed (R113). -/
def finishMix (s : State) : State := mixLanes (settleAll s)

/-- Whether part of the work of the strobe standing at the present local count has been done ahead of the rest: its
pass is open though the Renderer's work for it is not yet done (log 12). -/
def State.strobeBegun (s : State) : Bool := s.strobeDue && s.cuePass.isSome

/-- The work of a strobe in progress finished in every block: Renderer, Lane Mixer, Cue Unit (R156). -/
def finishStrobe (s : State) : State :=
  let s1 := if s.strobeBegun then renderAll s else s
  cueSteps 17 (if s1.mixDue then finishMix s1 else s1)

/-- SAMPLE_STROBE: the Renderer's work at a strobe not yet worked; the mix of one whose Renderer work is begun (R113). -/
def execSampleStrobe (stage : StrobeStage) (s : State) : Host.Outcome State Fault Refusal :=
  if s.ringsLocated then
    .next (match stage with
      | .render => if s.strobeDue then renderAll s else s
      | .mix => if s.mixDue then finishMix s else s)
  else .fault .noSampleWord

/-- STREAM_STARTED: at a strobe not yet worked, a PRIMING slot's work where it ends in a start (R95, R96). -/
def execStreamStarted (i : Fin 8) (s : State) : Host.Outcome State Fault Refusal :=
  .next (if s.strobeDue ∧ startsNow s i then (primingWork i s).openPass else s)

/-- STREAM_RESUMED: at a strobe not yet worked, a STARVED slot whose index is held again (R107). -/
def execStreamResumed (i : Fin 8) (s : State) : Host.Outcome State Fault Refusal :=
  .next (if s.strobeDue ∧ resumesNow s i then (resumeStream i s).openPass else s)

/-- STREAM_DRAINED: at a strobe not yet worked, a DRAINING slot whose index is beyond every record (R109). -/
def execStreamDrained (i : Fin 8) (s : State) : Host.Outcome State Fault Refusal :=
  .next (if s.strobeDue ∧ isBeyond s i .draining then (drainStream i s).openPass else s)

/-- STARVE_LIMIT: after the advance, a STARVED slot whose count has reached its limit (R108). -/
def execStarveLimit (i : Fin 8) (s : State) : Host.Outcome State Fault Refusal :=
  .next (if s.mixDue ∧ starveSpent s i then (starveCut i s).noteState i else s)

/-- CORRECTION_POINT: after the advance, a PLAYING or STARVED slot whose phase has returned to 0 (R100, R101). -/
def execCorrectionPoint (i : Fin 8) (s : State) : Host.Outcome State Fault Refusal :=
  .next (if s.mixDue ∧ correctionOwed s i then (correctSlot i s).noteState i else s)

/-- SPAN_LIMIT: a PRIMING slot at a strobe not yet worked (R95), or a PLAYING slot at its correction point (R105),
whose due time lies 2^46 or more past its origin. -/
def execSpanLimit (i : Fin 8) (s : State) : Host.Outcome State Fault Refusal :=
  .next (if s.strobeDue ∧ primingSpent s i then (spanCut i s).openPass
         else if s.mixDue ∧ correctionSpent s i then (spanCut i s).noteState i else s)

end Sys2Proof.Machine
end

