-- ==== Sys2Proof/Machine/Stored.lean ====
section
/-! DEFINITION. The Image Port at work (chapter 10): status-polls, waits and their bound, the ends of reads and writes,
start-up and the resets. -/

namespace Sys2Proof.Machine

/-! ## Resets (R160, R157 and the reset tables) -/

/-- LINE_RESET: every block in its reset state and start-up begun (R160); the queue of waiting commands is not the
part's and stays. -/
def execLineReset (s : State) : Host.Outcome State Fault Refusal := .next { State.reset with pending := s.pending }

/-- The state a RESTART leaves: that of a line reset, but for the local count, which keeps counting (R1), the reply
buffer (R68, R72) and Sample Memory (R35). A strobe worked at this count stays worked, and the strobe divider changes over
at the first multiple of the new one (R113, log 19). Start-up's wait begins now (R158). -/
def restarted (s : State) : State :=
  { State.reset with
    pending := s.pending, localCount := s.localCount, replyBuffer := s.replyBuffer, memory := s.memory,
    strobeRate := s.strobeRate, strobed := s.strobed, port := .startImage (.waiting false s.localCount) }

/-- The reply of a control frame that holds RESTART alone: what a RESTART commanded with no frame in hand leaves in the
reply buffer (R68, R72, log 4). -/
def loneRestartReply : Reply := { sequence := Config.loneSequence, records := [{ code := 0x03, answer := done [] }] }

/-- RESTART as the interpreter takes it (R157): its reply record ends the frame, the reply is placed, and every block
restarts. REFUSED FULL where the reply has no room for it (R152). -/
def restartRecord (s : State) : State :=
  if s.handing .restart then
    if s.replyRoom 1 then restarted (placeReply (s.lastReply 0x03 (done []))) else s.lastReply 0x03 (refusal .full)
  else if s.standsAlone then restarted { s with replyBuffer := .full loneRestartReply }
  else s

/-- RESTART (R157). -/
def execRestart (s : State) : Host.Outcome State Fault Refusal := .next (restartRecord s)

/-! ## Start-up (R160, R161) -/

/-- The boot preset's outcome as IMAGE_STATUS carries it: NONE, LOADED, or FAILED with a cause (R161, R170). -/
inductive BootOutcome where
  | absent
  | loaded
  | failed (cause : Cause)
  deriving DecidableEq, Repr

/-- The detail of IMAGE_STATUS (R161, R170). -/
def imageStatusDetail (s : State) (b : BootOutcome) : Word32 :=
  bytesWord s.imageStatus.code ((s.defaultCause.map Cause.code).getD 0)
    (match b with | .absent => 0 | .loaded => 1 | .failed _ => 2)
    (match b with | .absent => 0 | .loaded => 0 | .failed c => c.code)

/-- The end of start-up: IMAGE_STATUS is offered, the Image Port becomes IDLE and the part RUNNING (R161). -/
def finishStartup (b : BootOutcome) (s : State) : State :=
  { offerPart .imageStatus (imageStatusDetail s b) s with port := .idle, run := .running }

/-- A good image's settings handed to their owners (R160): ε takes the nominal drift (R27), every region's free list
is whole (R33), the strobe divider follows the output rate (R113). -/
def takeImage (x : Image) (s : State) : State :=
  { setOutput x.output s with
    deviceTag := x.deviceTag
    clock := { s.clock with settings := x.settings, nominalDrift := x.nominalDrift, epsilon := x.nominalDrift }
    partition := x.partition, freeLists := fullFreeLists x.partition, bootPreset := x.bootPreset, classes := x.classes
    imageStatus := .loaded, defaultCause := none }

/-- The defaults stand, for a cause; no boot preset is read (R160, R161). -/
def defaulted (c : Cause) (s : State) : State :=
  finishStartup .absent { s with imageStatus := .defaulted, defaultCause := some c }

/-- What follows a good image: the boot preset's read, or the end of start-up (R161). -/
def afterImage (s : State) : State :=
  match s.bootPreset with
  | none => finishStartup .absent s
  | some p => s.withPort (.startPreset p (.waiting false s.localCount)) [.statusPoll]

/-- IMAGE_READ_END: while start-up's read of sector 0 is being clocked (R160). -/
def execImageReadEnd (ws : Vector Word32 23) (s : State) : Host.Outcome State Fault Refusal :=
  .next (match s.port with
    | .startImage .clocking =>
      match judgeImage ws with
      | .good x => afterImage (takeImage x s)
      | .bad c => defaulted c s
    | _ => s)

/-- BOOT_PRESET_READ_END: while start-up's read of the boot preset is being clocked (R161). -/
def execBootPresetReadEnd (ws : Vector Word32 17) (s : State) : Host.Outcome State Fault Refusal :=
  .next (match s.port with
    | .startPreset _ .clocking =>
      match judgePreset ws with
      | .good t => finishStartup .loaded { s with routes := t }
      | .bad c => finishStartup (.failed c) s
    | _ => s)

/-! ## Details of flash events (R170) -/

/-- The detail of FLASH_DONE and FLASH_FAILED for a preset read: ROUTE-RECALL 3 or RECALL 4, preset, cause code. -/
def readDetail (r : PresetRead) (cause : Nat) : Word32 :=
  bytesWord (match r.dest with | .live => 3 | .staged => 4) r.preset.val 0 cause

/-- The same for a sector write: SAVE 1, or PRESET-PUT 2 with its preset. -/
def writeDetail (j : WriteJob) (cause : Nat) : Word32 :=
  match j with
  | .save => bytesWord 1 0 0 cause
  | .presetPut p => bytesWord 2 p.val 0 cause

/-! ## The operations of reads and writes (R158, R164, R171) -/

/-- The read of a preset sector: the 17 words of spec 11.4. -/
def presetReadOp (p : Fin 8) : FlashOp := .read (sectorAddress (p.val + 1)) 68

/-- The read of the image: the 23 words of spec 11.4. -/
def imageReadOp : FlashOp := .read (sectorAddress 0) 92

/-- What a write does when the wait it stands in ends: the next step and the operations issued (R164), with the first
status-poll of the wait that begins: after an erase and a page-program until not busy, else before the next operation (R158). -/
def nextWriteStep (w : SectorWrite) : WriteStep × List FlashOp :=
  match w.step with
  | .beforeErase => (.erasing, [.writeEnable, .sectorErase (sectorAddress w.job.sector), .statusPoll])
  | .erasing => (.beforeProgram, [.statusPoll])
  | .beforeProgram => (.programming, [.writeEnable, .pageProgram (sectorAddress w.job.sector) w.content, .statusPoll])
  | .programming => (.beforeReadBack, [.statusPoll])
  | .beforeReadBack => (.readBack, [.read (sectorAddress w.job.sector) (4 * w.content.length)])
  | .readBack => (.readBack, [])

/-- Whether a report ends the wait of a write's step: not busy after an erase or a program; neither busy nor
suspended before a write-enable or a read (R158). -/
def waitEnds (step : WriteStep) (busy suspended : Bool) : Bool :=
  match step with
  | .beforeErase | .beforeProgram | .beforeReadBack => !busy && !suspended
  | .erasing | .programming => !busy
  | .readBack => false

/-- A write moved on one step at the present local count. -/
def stepWrite (w : SectorWrite) (s : State) : State :=
  s.withPort (.writing { w with step := (nextWriteStep w).1, since := s.localCount }) (nextWriteStep w).2

/-- A report that ends a wait of a write. One report saying neither busy nor suspended ends the wait after an erase or
program and the wait before the next operation as well (log 13). -/
def pollWrite (w : SectorWrite) (busy suspended : Bool) (s : State) : State :=
  if waitEnds w.step busy suspended then
    match w.step with
    | .erasing | .programming =>
      if suspended then stepWrite w s else stepWrite { w with step := (nextWriteStep w).1 } s
    | .beforeErase | .beforeProgram | .beforeReadBack | .readBack => stepWrite w s
  else s.withPort (.writing w) (if w.step = .readBack then s.flashOut else [.statusPoll])

/-- A report met by a read made in SUSPENDED (R166): busy at first, suspend is issued; the read follows once the flash
is not busy, suspended or not (R158). -/
def pollSuspended (w : SectorWrite) (el : Int) (issued : Bool) (r : PresetRead) (ph : SuspendPhase) (busy : Bool)
    (s : State) : State :=
  match ph with
  | .clocking => s
  | .deciding _ =>
    if busy then s.withPort (.suspended w el true r (.suspending s.localCount)) [.suspend, .statusPoll]
    else s.withPort (.suspended w el issued r .clocking) [presetReadOp r.preset]
  | .suspending _ =>
    if busy = false then s.withPort (.suspended w el issued r .clocking) [presetReadOp r.preset]
    else s.withPort (.suspended w el issued r ph) [.statusPoll]

/-- STATUS_POLL: the flash's report to the poll in progress, if a wait is in progress (R158, R164, R166, R167). -/
def statusPollStep (busy suspended : Bool) (s : State) : State :=
  match s.port with
  | .startImage (.waiting resumed _) =>
    if suspended ∧ resumed = false then s.withPort (.startImage (.waiting true s.localCount)) [.resume, .statusPoll]
    else if busy = false ∧ suspended = false then s.withPort (.startImage .clocking) [imageReadOp]
    else s.withPort s.port [.statusPoll]
  | .startPreset p (.waiting _ _) =>
    if busy = false ∧ suspended = false then s.withPort (.startPreset p .clocking) [presetReadOp p] else s.withPort s.port [.statusPoll]
  | .reading r (.waiting _ _) =>
    if busy = false ∧ suspended = false then s.withPort (.reading r .clocking) [presetReadOp r.preset] else s.withPort s.port [.statusPoll]
  | .writing w => pollWrite w busy suspended s
  | .suspended w el issued r ph => pollSuspended w el issued r ph busy s
  | .startImage .clocking | .startPreset _ .clocking | .reading _ .clocking | .idle => s

/-- STATUS_POLL (R158). -/
def execStatusPoll (busy suspended : Bool) (s : State) : Host.Outcome State Fault Refusal := .next (statusPollStep busy suspended s)

/-! ## The bound of the waits (R158) -/

/-- When the wait in progress began, if there is one (R158). -/
def waitStart : Port → Option Time
  | .startImage (.waiting _ t) => some t
  | .startPreset _ (.waiting _ t) => some t
  | .reading _ (.waiting _ t) => some t
  | .writing w => if w.step = .readBack then none else some w.since
  | .suspended _ _ _ _ (.deciding t) => some t
  | .suspended _ _ _ _ (.suspending t) => some t
  | .startImage .clocking | .startPreset _ .clocking | .reading _ .clocking | .suspended _ _ _ _ .clocking | .idle => none

/-- Whether a flash wait has reached its bound of 2 s (R158). -/
def State.waitExpired (s : State) : Bool :=
  match waitStart s.port with
  | none => false
  | some t => decide (Config.twoSeconds ≤ sdiff s.localCount t)

/-- The failure of a preset read for TIMEOUT: its requester applies it, then FLASH_FAILED (R117, R135, R165). -/
def failRead (r : PresetRead) (s : State) : State :=
  offerPart .flashFailed (readDetail r Cause.timeout.code) (readEnd r (.bad .timeout) s)

/-- The failure of a sector write (R164). -/
def failWrite (j : WriteJob) (c : Cause) (s : State) : State := offerPart .flashFailed (writeDetail j c.code) s

/-- The failure of the operation the wait belonged to; the Image Port is then IDLE (R158, R164 to R167). -/
def waitTimeout (s : State) : State :=
  match s.port with
  | .startImage _ => defaulted .timeout s
  | .startPreset _ _ => finishStartup (.failed .timeout) s
  | .reading r _ => failRead r (s.withPort .idle s.flashOut)
  | .writing w => failWrite w.job .timeout (s.withPort .idle s.flashOut)
  | .suspended w _ _ r _ => failWrite w.job .timeout (failRead r (s.withPort .idle s.flashOut))
  | .idle => s

/-- FLASH_WAIT_TIMEOUT: the failure, if a wait has reached its bound (R158). -/
def execFlashWaitTimeout (s : State) : Host.Outcome State Fault Refusal := .next (if s.waitExpired then waitTimeout s else s)

/-! ## The ends of reads and writes (R164 to R166) -/

/-- SECTOR_WRITE_END: the read-back compared with what was programmed (R164). -/
def execSectorWriteEnd (readBack : List Word32) (s : State) : Host.Outcome State Fault Refusal :=
  .next (match s.port with
    | .writing w =>
      if w.step = .readBack then
        if readBack = w.content then offerPart .flashDone (writeDetail w.job 0) (s.withPort .idle s.flashOut)
        else failWrite w.job .verify (s.withPort .idle s.flashOut)
      else s
    | _ => s)

/-- The event of a preset read's end (R165). -/
def readEvent (r : PresetRead) (o : PresetOutcome) (s : State) : State :=
  match o with
  | .good _ => offerPart .flashDone (readDetail r 0) s
  | .bad c => offerPart .flashFailed (readDetail r c.code) s

/-- The write beneath a read going on (R166): after a suspend, resume is issued and the wait's bound runs from it;
otherwise the paused wait goes on with what had passed of it. -/
def resumeWrite (w : SectorWrite) (el : Int) (issued : Bool) (s : State) : State :=
  if issued then s.withPort (.writing { w with since := s.localCount }) [.resume, .statusPoll]
  else s.withPort (.writing { w with since := addSpan s.localCount (-el) }) (if w.step = .readBack then [] else [.statusPoll])

/-- PRESET_READ_END: the outcome handed to its requester, then the event; a write beneath goes on (R165, R166). -/
def execPresetReadEnd (ws : Vector Word32 17) (s : State) : Host.Outcome State Fault Refusal :=
  .next (match s.port with
    | .reading r .clocking => readEvent r (judgePreset ws) (readEnd r (judgePreset ws) (s.withPort .idle s.flashOut))
    | .suspended w el issued r .clocking => resumeWrite w el issued (readEvent r (judgePreset ws) (readEnd r (judgePreset ws) s))
    | _ => s)

end Sys2Proof.Machine
end

