-- ==== Sys2Proof/Machine/Interpreter.lean ====
section
/-! DEFINITION. The Command Interpreter's own commands, the Report Unit's two, the records nobody owns, and the whole
handling of the frame in hand (chapters 8 and 9). -/

namespace Sys2Proof.Machine

/-! ## IDENTIFY (R154) -/

/-- IDENTIFY: the part code, the revision, the device tag in force and the image status. -/
def identifyOwner (s : State) : State × Answer :=
  (s, done [Config.partCode, Config.revision, s.deviceTag.setWidth 32, natWord s.imageStatus.code])

/-! ## SNAPSHOT (R155, R156, R170) -/

/-- The six words of one slot; a CLOSED slot shows every value but its state absent (R155, R170). -/
def slotWords (v : Slot) : List Word32 :=
  if v.state = .closed then [bytesWord v.state.code 0 0 0, 0, 0, 0, 0, 0]
  else
    bytesWord v.state.code v.queue.length 0 (flagBit v.readPos.isSome 4 + flagBit v.queue.head?.isSome 2 + 1)
      :: signedWords ((v.readPos.map floorF).getD 0) ++ signedWords ((v.queue.head?.map (·.start)).getD 0) ++ [signedWord v.step]

/-- The 54 result words of SNAPSHOT, read from one state (R155, R170). -/
def snapshotWords (s : State) : List Word32 :=
  [bytesWord s.clock.state.code 0 0 (flagBit s.houseTime.isSome 1), signedWord s.clock.epsilon]
  ++ timeWords s.localCount ++ optTimeWords s.houseTime ++ (List.finRange 8).flatMap (fun i => slotWords (s.slot i))

/-- SNAPSHOT: the reading waits for a strobe in progress to be finished by every block (R156), and is then made. -/
def snapshotOwner (s : State) : State × Answer := (finishStrobe s, done (snapshotWords (finishStrobe s)))

/-! ## CLASS-SET and ACK (R138, R146) -/

/-- The class table with one entry written. -/
def State.setClass (s : State) (k : Fin 32) (c : EventClass) : State := { s with classes := s.classes.set k.val c k.isLt }

/-- CLASS-SET (R138). -/
def classSetOwner (kind cls : BitVec 8) (s : State) : State × Answer :=
  match indexBelow 32 kind.toNat, classOfCode cls.toNat with
  | some k, some c => (s.setClass k c, done [natWord (s.classes[k.val]).code])
  | _, _ => (s, refusal .badarg)

/-- ACK (R146). The sequence field is 8 bits, so it is never outside 0..255. -/
def ackOwner (slot sequence : BitVec 8) (s : State) : State × Answer :=
  match indexBelow 8 slot.toNat with
  | none => (s, refusal .badarg)
  | some i =>
    if (s.slot i).faultPending ∧ (s.slot i).faultSequence = sequence then
      (s.setSlot i { s.slot i with faultPending := false }, done [stateWord (s.slot i).state])
    else (s, refusedWith .notfound [natWord (flagBit (s.slot i).faultPending 1), natWord (s.slot i).faultSequence.toNat])

/-! ## The records -/

/-- IDENTIFY in the interpreter's hand. -/
def identifyRecord (s : State) : State := handOver .identify identifyOwner s

/-- SNAPSHOT in the interpreter's hand. -/
def snapshotRecord (s : State) : State := handOver .snapshot snapshotOwner s

/-- CLASS-SET handed to the Report Unit. -/
def classSetRecord (kind cls : BitVec 8) (s : State) : State := handOver (.classSet kind cls) (classSetOwner kind cls) s

/-- ACK handed to the Report Unit. -/
def ackRecord (slot sequence : BitVec 8) (s : State) : State := handOver (.ack slot sequence) (ackOwner slot sequence) s

/-- A record whose code names no command: UNKNOWN, and processing goes on by its length (R151); REFUSED FULL where
fewer than two reply words are free (R152). -/
def unknownRecord (code length : BitVec 8) (s : State) : State :=
  handOver (.unknown code length) (fun t => (t, unknownAnswer)) s

/-- A record whose bounds cannot be trusted: MALFORMED, and processing stops (R150). The tests of R152 have left its
one word free. -/
def malformedRecord (code : BitVec 8) (s : State) : State :=
  if s.handing (.malformed code) then s.lastReply code malformedAnswer else s

/-! ## The rest of a frame at once (R53) -/

/-- A record dealt with by its owner or by the interpreter. A command that is no record does nothing here. -/
def dealRecord (i : Instr) (s : State) : State :=
  match i with
  | .identify => identifyRecord s
  | .snapshot => snapshotRecord s
  | .restart => restartRecord s
  | .openSlot slot sid fmt prio ring trim limit => openRecord slot sid fmt prio ring trim limit s
  | .closeSlot slot => closeRecord slot s
  | .endStream slot => endRecord slot s
  | .cut slot => cutRecord slot s
  | .clear slot => clearRecord slot s
  | .trim slot value => trimRecord slot value s
  | .partition mode => partitionRecord mode s
  | .routePut index entry => routePutRecord index entry s
  | .routeDrop index => routeDropRecord index s
  | .routeRecall preset => routeRecallRecord preset s
  | .duckSet lane level => duckSetRecord lane level s
  | .outputSet rate ko rt => outputSetRecord rate ko rt s
  | .cueAdd id fire action target argument => cueAddRecord id fire action target argument s
  | .cueCancel id => cueCancelRecord id s
  | .clockSet m src limit link edge gate window => clockSetRecord m src limit link edge gate window s
  | .clockHistory => clockHistoryRecord s
  | .classSet kind cls => classSetRecord kind cls s
  | .ack slot sequence => ackRecord slot sequence s
  | .save tag boot => saveRecord tag boot s
  | .presetPut preset => presetPutRecord preset s
  | .unknown code length => unknownRecord code length s
  | .malformed code => malformedRecord code s
  | .lineReset | .imageReadEnd _ | .bootPresetReadEnd _ | .audio _ | .cont _ | .beacon _ | .read _ | .edgeRise
  | .silenceTimer | .holdoverTimer | .sampleStrobe _ | .streamStarted _ | .streamResumed _ | .starveLimit _
  | .streamDrained _ | .correctionPoint _ | .spanLimit _ | .cueFire | .statusPoll _ _ | .flashWaitTimeout
  | .sectorWriteEnd _ | .presetReadEnd _ | .control _ | .unknownKindFrame _ => s

/-- The next piece of the frame in hand: a record, or the interpreter going on by itself (R149). -/
def dealStep (s : State) : State :=
  match s.interp with
  | none => s
  | some p =>
    match p.next with
    | .record i => dealRecord i s
    | .finished => proceed s
    | .wrongLength _ => proceed s

/-- At most `n` pieces of the frame in hand. -/
def dealSteps : Nat → State → State
  | 0, s => s
  | n + 1, s => if s.interp = none then s else dealSteps n (dealStep s)

/-- The frame in hand finished, its reply placed, before the next frame is begun (R53). Every piece takes at least one
word of the frame, so its words and one more are pieces enough. -/
def finishFrame (s : State) : State :=
  match s.interp with
  | none => s
  | some p => dealSteps (p.words.length + 2) s

/-! ## The meanings -/

/-- IDENTIFY (R154). -/
def execIdentify (s : State) : Host.Outcome State Fault Refusal := .next (identifyRecord s)

/-- SNAPSHOT (R155, R156). -/
def execSnapshot (s : State) : Host.Outcome State Fault Refusal := .next (snapshotRecord s)

/-- CLASS_SET (R138). -/
def execClassSet (kind cls : BitVec 8) (s : State) : Host.Outcome State Fault Refusal := .next (classSetRecord kind cls s)

/-- ACK (R146). -/
def execAck (slot sequence : BitVec 8) (s : State) : Host.Outcome State Fault Refusal := .next (ackRecord slot sequence s)

/-- UNKNOWN (R151). -/
def execUnknown (code length : BitVec 8) (s : State) : Host.Outcome State Fault Refusal := .next (unknownRecord code length s)

/-- MALFORMED (R150). -/
def execMalformed (code : BitVec 8) (s : State) : Host.Outcome State Fault Refusal := .next (malformedRecord code s)

end Sys2Proof.Machine
end

