-- ==== Sys2Proof/Machine/Link.lean ====
section
/-! DEFINITION. The Link Port and the Frame Parser (chapter 3): screening a frame, beacons and control frames, options,
payloads, audio frames and continuation runs, and the outbound side. -/

namespace Sys2Proof.Machine

open Sys2Proof.Decode (field time48)

/-! ## Word 0 (R169) -/

/-- Word `i` of a frame. -/
def frameWord (f : LinkFrame) (i : Nat) : Word32 := f.words.getD i 0

/-- The kind code of a frame, once its word 0 is complete (R50, R169). -/
def LinkFrame.kindCode (f : LinkFrame) : Option (BitVec 8) := f.words.head?.map (fun w => field w 24 8)

/-- The kind code a FRAME_DISCARDED carries: 0 when word 0 was incomplete (R55). -/
def frameKind (f : LinkFrame) : BitVec 8 := f.kindCode.getD 0

/-- Whether a word 0 has version 1 (R54). -/
def versionOne (w : Word32) : Bool := decide (field w 20 4 = 1)

/-- The option word count of a word 0. -/
def optionCount (w : Word32) : Nat := (field w 16 4).toNat

/-- The kind field of a word 0. -/
def kindField (w : Word32) : BitVec 16 := field w 0 16

/-- Whether a frame's word 0 shows a READ (R51, R70). -/
def LinkFrame.isRead (f : LinkFrame) : Bool := decide (f.kindCode = some 0x05)

/-! ## The outbound frame (R70, R170) -/

/-- The words of a reply record (R170). -/
def ReplyRecord.words (r : ReplyRecord) : List Word32 :=
  bytesWord r.code.toNat r.answer.status.code (reasonCode r.answer.reason) r.answer.results.length :: r.answer.results

/-- Word 0 of an outbound frame: its kind, version 1, no options, the device tag in force (R170). -/
def outWord0 (kind : Nat) (tag : BitVec 16) : Word32 := bytesWord kind 16 (tag.toNat / 256) tag.toNat

/-- The words of a REPLY frame (R170). -/
def replyWords (tag : BitVec 16) (r : Reply) : List Word32 :=
  outWord0 0x08 tag :: halvesWord r.sequence.toNat r.records.length :: r.records.flatMap ReplyRecord.words

/-- The words of a REPORT frame (R170). -/
def reportWords (tag : BitVec 16) (rs : List Report) : List Word32 :=
  outWord0 0x09 tag :: natWord rs.length :: rs.flatMap Report.words

/-- The outbound frame chosen once word 0 of a READ of version 1 is complete (R70). -/
def chooseOutbound (s : State) : Outbound :=
  match s.replyBuffer with
  | .full r => { content := .reply, words := replyWords s.deviceTag r }
  | .empty | .reserved =>
    if s.reports = [] then { content := .empty, words := [outWord0 0x0A s.deviceTag] }
    else { content := .report (min 8 s.reports.length), words := reportWords s.deviceTag (s.reports.take 8) }

/-- The word that goes out while the next inbound word comes in: of the outbound frame from the READ's second word on,
zeros otherwise (R50, R70). -/
def State.wordOut (s : State) : Word32 :=
  match s.inbound, s.outbound with
  | some f, some o => if f.count = 0 then 0 else o.words.getD (f.count - 1) 0
  | _, _ => 0

/-! ## The inbound assembly at the Link Port (R50 to R53) -/

/-- The state with another inbound assembly. -/
def State.withInbound (s : State) (f : Option LinkFrame) : State := { s with inbound := f }

/-- The select-fall of a frame: the arrival count is latched and a new assembly begun; a frame that begins while STARTING
is ignored to its end (R7, R50). -/
def selectFall (s : State) : State :=
  { s with
    inbound := some { arrival := s.localCount, ignored := decide (s.run = .starting), words := [], count := 0, tail := 0 }
    outbound := none }

/-- An assembly with more bits clocked in. Of a READ word 0 alone is held (R71), of any other frame at most 384 words (R52). -/
def LinkFrame.shifted (f : LinkFrame) (ws : List Word32) (tail : Nat) : LinkFrame :=
  let g : LinkFrame :=
    { f with words := (f.words ++ ws).take Config.frameWords, count := f.count + ws.length,
             tail := if ws = [] then max f.tail tail else tail }
  if g.isRead then { g with words := g.words.take 1 } else g

/-- Whether a bit of a 385th word has been clocked in (R52). -/
def LinkFrame.tooLong (f : LinkFrame) : Bool :=
  decide (Config.frameWords < f.count ∨ (f.count = Config.frameWords ∧ 0 < f.tail))

/-- The outbound frame chosen, where the word 0 of a READ has just become complete and has version 1 (R70). -/
def chosenAt (f g : LinkFrame) (s : State) : State :=
  if f.words = [] ∧ versionOne (frameWord g 0) = true then { s with outbound := some (chooseOutbound s) } else s

/-- Bits clocked in: nothing comes of them in a frame that is ignored; a READ's choice is made at its word 0 (R70); any
other frame is abandoned at the first bit of a 385th word, TOOLONG offered at once and the rest ignored (R52). -/
def shiftIn (ws : List Word32) (tail : Nat) (s : State) : State :=
  match s.inbound with
  | none => s
  | some f =>
    let g := f.shifted ws tail
    if f.ignored then s
    else if g.isRead then (chosenAt f g s).withInbound (some g)
    else if g.tooLong then
      (discardFrame .tooLong (frameKind g) 0 s).withInbound (some { g with ignored := true, words := [] })
    else s.withInbound (some g)

/-- Whether no bit of a frame has been clocked (R50). -/
def LinkFrame.isEmpty (f : LinkFrame) : Bool := decide (f.words = [] ∧ f.tail = 0)

/-- Whether a row of the table stands for a frame: by its kind, or any row where word 0 is incomplete (log 6). -/
def LinkFrame.fits (f : LinkFrame) (row : BitVec 8 → Bool) : Bool :=
  match f.kindCode with
  | none => true
  | some k => row k

/-- The select-rise of a frame: the assembly ends. An ignored frame and one without a bit come to nothing (R50); any other is
given to what its row makes of it. A row for frames of another kind does nothing (log 6). -/
def selectRise (row : BitVec 8 → Bool) (rise : LinkFrame → State → State) (s : State) : State :=
  match s.inbound with
  | none => s
  | some f =>
    if f.ignored ∨ f.isEmpty then s.withInbound none
    else if f.fits row then rise f (s.withInbound none)
    else s

/-- A frame that is no READ at its select-rise: RAGGED where bits are left over (R51), else handed to the parser once the
frame before it is finished; a RESTART in that one abandons it (R53). -/
def receive (parse : LinkFrame → State → State) (f : LinkFrame) (s : State) : State :=
  if f.tail ≠ 0 then discardFrame .ragged (frameKind f) 0 s
  else if (finishFrame s).run = .running then parse f (finishFrame s)
  else finishFrame s

/-- A moment of a link frame (R50). -/
def linkMoment (stage : LinkStage) (row : BitVec 8 → Bool) (rise : LinkFrame → State → State) (s : State) : State :=
  match stage with
  | .fall => selectFall s
  | .shift ws tail => shiftIn ws tail s
  | .rise => selectRise row rise s

/-! ## Beacons and control frames (R54, R56, R57) -/

/-- A BEACON frame at the parser (R54, R56). -/
def parseBeacon (f : LinkFrame) (s : State) : State :=
  if versionOne (frameWord f 0) = false then discardFrame .version (frameKind f) 0 s
  else if optionCount (frameWord f 0) ≠ 0 then discardFrame .option (frameKind f) 0 s
  else if f.words.length ≠ 4 then discardFrame .length (frameKind f) 0 s
  else clockBeacon f.arrival (kindField (frameWord f 0)) (field (frameWord f 1) 16 16) (time48 (frameWord f 2) (frameWord f 3)) s

/-- Whether a CONTROL frame is meant for this part (R57). -/
def tagTaken (s : State) (tag : BitVec 16) : Bool := decide (tag = s.deviceTag ∨ tag = 0xFFFF)

/-- A CONTROL frame handed to the Command Interpreter: an empty reply begun, the reply buffer RESERVED (R57, R149). -/
def takeControl (f : LinkFrame) (s : State) : State :=
  { s with
    replyBuffer := .reserved
    interp := some { sequence := field (frameWord f 1) 16 16, remaining := (field (frameWord f 1) 0 16).toNat,
                     words := f.words.drop 2, records := [] } }

/-- A CONTROL frame at the parser (R54, R57). -/
def parseControl (f : LinkFrame) (s : State) : State :=
  if versionOne (frameWord f 0) = false then discardFrame .version (frameKind f) 0 s
  else if optionCount (frameWord f 0) ≠ 0 then discardFrame .option (frameKind f) 0 s
  else if tagTaken s (kindField (frameWord f 0)) = false then s
  else if s.replyBuffer ≠ .empty then discardFrame .overrun (frameKind f) 0 s
  else if f.words.length < 2 then discardFrame .length (frameKind f) 0 s
  else takeControl f s

/-! ## Options (R59, R60) -/

/-- What the known options of a frame carry: the FORMAT datum, RUN, the expected sum of CHECK, TRACE. -/
structure Options where
  format : Option (BitVec 8)
  run    : Bool
  check  : Option (BitVec 16)
  trace  : Bool
  deriving DecidableEq, Repr

/-- A frame without options. -/
def Options.none : Options := { format := .none, run := false, check := .none, trace := false }

/-- One option taken; none where the frame is discarded for it: a wrong length, a second of its type, FORMAT or RUN in
a CONT frame, an unknown type that is not skippable (R59, R60). -/
def takeOption (cont : Bool) (header second : Word32) (o : Options) : Option Options :=
  let len := (field header 16 8).toNat
  match (field header 24 8).toNat with
  | 1 => if len = 1 ∧ o.format = .none ∧ cont = false then some { o with format := some (field header 0 8) } else .none
  | 2 => if len = 1 ∧ o.run = false ∧ cont = false then some { o with run := true } else .none
  | 3 => if len = 2 ∧ o.check = .none then some { o with check := some (field second 0 16) } else .none
  | 4 => if len = 1 ∧ o.trace = false then some { o with trace := true } else .none
  | _ => if field header 8 1 = 1 then some o else .none

/-- The option chain walked to its end, at most `n` options; none where the frame is discarded with reason OPTION (R59, R60). -/
def walkOptions (cont : Bool) : Nat → List Word32 → Options → Option Options
  | _, [], o => some o
  | 0, _ :: _, _ => .none
  | n + 1, h :: rest, o =>
    let len := (field h 16 8).toNat
    if len = 0 ∨ rest.length + 1 < len then .none
    else
      match takeOption cont h (rest.getD 0 0) o with
      | .none => .none
      | some o' => walkOptions cont n (rest.drop (len - 1)) o'

/-- The words of a frame's options, given its fixed header's length. -/
def optionWords (f : LinkFrame) (header : Nat) : List Word32 := (f.words.drop header).take (optionCount (frameWord f 0))

/-- The words of a frame's payload, given its fixed header's length. -/
def payloadOf (f : LinkFrame) (header : Nat) : List Word32 := f.words.drop (header + optionCount (frameWord f 0))

/-- Whether a FORMAT datum agrees with a context; one that names no format never does (R60). -/
def formatAgrees (c : Context) (d : BitVec 8) : Bool := decide (formatOf d = some (c.rate, c.channels, c.width))

/-- The FORMAT datum of a frame whose format disagrees with the context (R60). -/
def mismatchOf (c : Context) (o : Options) : Option (BitVec 8) := o.format.filter (fun d => !formatAgrees c d)

/-! ## Payload (R61 to R63) -/

/-- The payload word count of `n` audio frames (R61). -/
def payloadWords (c : Context) (n : Nat) : Nat :=
  match c.width with
  | .w24 => n * c.channels.count
  | .w16 => (n * c.channels.count + 1) / 2

/-- Whether the frame count and the payload length are right (R61). -/
def lengthRight (c : Context) (n : Nat) (payload : List Word32) : Bool :=
  decide (1 ≤ n ∧ n ≤ 1024 ∧ payload.length = payloadWords c n)

/-- A 16-bit half widened to a sample by 8 zero bits below it (R62). -/
def widen (h : BitVec 16) : Sample := h ++ (0 : BitVec 8)

/-- The samples of a payload, in order (R62). -/
def unpack (c : Context) (n : Nat) (payload : List Word32) : List Sample :=
  match c.width with
  | .w24 => payload.map (fun w => field w 0 24)
  | .w16 => (payload.flatMap (fun w => [widen (field w 16 16), widen (field w 0 16)])).take (n * c.channels.count)

/-- Whether the CHECK option, if any, fails (R63). -/
def checkFails (o : Options) (payload : List Word32) : Bool :=
  match o.check with
  | .none => false
  | some x => decide (onesSum payload ≠ x.toNat)

/-! ## Audio frames (R58, R64 to R67) -/

/-- What the steps of R58 up to the seventh make of a frame. -/
inductive Parsed where
  | discard (r : DiscardReason)
  | broken (expected : BitVec 16)
  | chunk (k : Chunk) (o : Options)
  deriving DecidableEq, Repr

/-- The sequence of an audio frame. -/
def sequenceOf (f : LinkFrame) : BitVec 16 := field (frameWord f 1) 16 16

/-- The frame count of an audio frame. -/
def frameCount (f : LinkFrame) : Nat := (field (frameWord f 1) 0 16).toNat

/-- The PT of an AUDIO frame. -/
def ptOf (f : LinkFrame) : Time := time48 (frameWord f 2) (frameWord f 3)

/-- The chunk of a frame whose samples are taken (R64). -/
def goodChunk (f : LinkFrame) (c : Context) (o : Options) (payload : List Word32) (pt : Option Time) (index : Option Int)
    (trace : Bool) : Chunk :=
  { pt := pt, index := index, count := frameCount f, sequence := sequenceOf f,
    samples := unpack c (frameCount f) payload, bad := checkFails o payload, trace := trace, mismatch := none }

/-- The chunk of an AUDIO frame of another format: no payload (R60). -/
def mismatchChunk (f : LinkFrame) (o : Options) (d : BitVec 8) : Chunk :=
  { pt := some (ptOf f), index := none, count := frameCount f, sequence := sequenceOf f, samples := [], bad := false,
    trace := o.trace, mismatch := some d }

/-- Steps 2 to 7 of R58 for an AUDIO frame. -/
def readAudio (f : LinkFrame) (c : Context) : Parsed :=
  if f.words.length < 4 + optionCount (frameWord f 0) then .discard .length
  else
    match walkOptions false 15 (optionWords f 4) Options.none with
    | none => .discard .option
    | some o =>
      match mismatchOf c o with
      | some d => .chunk (mismatchChunk f o d) o
      | none =>
        if lengthRight c (frameCount f) (payloadOf f 4) = false then .discard .length
        else .chunk (goodChunk f c o (payloadOf f 4) (some (ptOf f)) none o.trace) o

/-- Steps 2 to 7 of R58 for a CONT frame of a slot (R66, R67). -/
def readCont (f : LinkFrame) (v : Slot) (c : Context) : Parsed :=
  if f.words.length < 2 + optionCount (frameWord f 0) then .discard .length
  else
    match walkOptions true 15 (optionWords f 2) Options.none with
    | none => .discard .option
    | some o =>
      if lengthRight c (frameCount f) (payloadOf f 2) = false then .discard .length
      else
        match v.run with
        | none => .discard .orphan
        | some r =>
          if sequenceOf f ≠ r.sequence + 1 then .broken (r.sequence + 1)
          else .chunk (goodChunk f c o (payloadOf f 2) none (some (r.start + r.count)) (o.trace || v.traceFlag)) o

/-- What the insertion rule leaves of a chunk of slot `i`: the state, the index assigned, the event (R79, R64). -/
def insertChunk (i : Fin 8) (c : Context) (k : Chunk) (s : State) : State × Option Int × Option Event :=
  let v := s.slot i
  let start := startIndex v c k
  let fate := fateOf s v c k start
  (if fate = .filed then fileChunk i c k start s else s, assignedIndex v k start fate, fateEvent c k fate)

/-- The event of an insertion offered for the slot. -/
def offerFate (i : Fin 8) (e : Option Event) (s : State) : State :=
  match e with
  | none => s
  | some e => offerSlot e.1 i e.2 s

/-- The continuation run an AUDIO frame at step 8 leaves (R65, R60). -/
def runAfter (k : Chunk) (o : Options) (assigned : Option Int) : Option Run :=
  if k.mismatch.isSome ∨ o.run = false then none
  else assigned.map (fun x => { sequence := k.sequence, start := x, count := k.count })

/-- Step 8 for an AUDIO frame (R64, R65): the insertion, the run and the trace flag, then the event (log 18). -/
def handAudio (i : Fin 8) (c : Context) (k : Chunk) (o : Options) (s : State) : State :=
  let r := insertChunk i c k s
  offerFate i r.2.2 (r.1.setSlot i { r.1.slot i with run := runAfter k o r.2.1, traceFlag := o.trace })

/-- Step 8 for a CONT frame: the run has moved on before the insertion (R66). -/
def handCont (i : Fin 8) (c : Context) (k : Chunk) (s : State) : State :=
  let run : Run := { sequence := k.sequence, start := k.index.getD 0, count := k.count }
  let r := insertChunk i c k (s.setSlot i { s.slot i with run := some run })
  offerFate i r.2.2 r.1

/-- A broken run: absent, and RUN_BROKEN with the expected and the received sequence (R67). -/
def breakRun (i : Fin 8) (expected received : BitVec 16) (s : State) : State :=
  offerSlot .runBroken i (halvesWord expected.toNat received.toNat) (s.setSlot i { s.slot i with run := none })

/-- The discard of an audio frame; ORPHAN carries the slot (R55). -/
def discardAudio (r : DiscardReason) (f : LinkFrame) (i : Fin 8) (s : State) : State :=
  discardFrame r (frameKind f) (if r = .orphan then i.val else 0) s

/-- The slot whose traffic a frame is: that of its stream id, unless it is FROZEN (step 1 of R58). -/
def slotFor (f : LinkFrame) (s : State) : Option (Fin 8 × Context) :=
  match lookupSlot s (field (frameWord f 0) 0 8) with
  | none => none
  | some i =>
    if (s.slot i).state = .frozen then none
    else (s.slot i).context.map (fun c => (i, c))

/-- An AUDIO frame at the parser (R54, R58). -/
def parseAudio (f : LinkFrame) (s : State) : State :=
  if versionOne (frameWord f 0) = false then discardFrame .version (frameKind f) 0 s
  else
    match slotFor f s with
    | none => s
    | some (i, c) =>
      match readAudio f c with
      | .discard r => discardAudio r f i s
      | .broken _ => s
      | .chunk k o => handAudio i c k o s

/-- A CONT frame at the parser (R54, R58). -/
def parseCont (f : LinkFrame) (s : State) : State :=
  if versionOne (frameWord f 0) = false then discardFrame .version (frameKind f) 0 s
  else
    match slotFor f s with
    | none => s
    | some (i, c) =>
      match readCont f (s.slot i) c with
      | .discard r => discardAudio r f i s
      | .broken expected => breakRun i expected (sequenceOf f) s
      | .chunk k _ => handCont i c k s

/-! ## The end of a READ (R70, R71) -/

/-- A READ with a wrong version at the parser (R54, R70). -/
def readDiscarded (s : State) : State :=
  if (finishFrame s).run = .running then discardFrame .version 0x05 0 (finishFrame s) else finishFrame s

/-- Whether every bit of an outbound frame was clocked out, from the READ's second word on (R71). -/
def LinkFrame.clockedOut (f : LinkFrame) (o : Outbound) : Bool := decide (32 * (o.words.length + 1) ≤ 32 * f.count + f.tail)

/-- What a READ carried removed from where it came from (R71). -/
def removeContent (x : OutContent) (s : State) : State :=
  match x with
  | .reply => { s with replyBuffer := .empty }
  | .report n => { s with reports := s.reports.drop n }
  | .empty => s

/-- The select-rise of a READ: what it carried goes if it was clocked out to its last bit (R71); one of another version
carried nothing and is discarded (R54). A frame without its word 0 is RAGGED (R51). -/
def readEnded (f : LinkFrame) (s : State) : State :=
  if f.isRead = false then receive (fun _ t => t) f s
  else if versionOne (frameWord f 0) = false then readDiscarded { s with outbound := none }
  else
    match s.outbound with
    | none => s
    | some o => if f.clockedOut o then removeContent o.content { s with outbound := none } else { s with outbound := none }

/-! ## The meanings -/

/-- A moment of an audio frame; the select-rise writes Sample Memory, so it needs the rings located (R34, log 16). -/
def audioMoment (stage : LinkStage) (kind : BitVec 8) (parse : LinkFrame → State → State) (s : State) :
    Host.Outcome State Fault Refusal :=
  if stage = .rise ∧ s.ringsLocated = false then .fault .noSampleWord
  else .next (linkMoment stage (fun k => decide (k = kind)) (receive parse) s)

/-- AUDIO (R58). -/
def execAudio (stage : LinkStage) (s : State) : Host.Outcome State Fault Refusal := audioMoment stage 0x01 parseAudio s

/-- CONT (R66). -/
def execCont (stage : LinkStage) (s : State) : Host.Outcome State Fault Refusal := audioMoment stage 0x02 parseCont s

/-- BEACON (R56). -/
def execBeacon (stage : LinkStage) (s : State) : Host.Outcome State Fault Refusal :=
  .next (linkMoment stage (fun k => decide (k = 0x03)) (receive parseBeacon) s)

/-- READ (R70, R71). -/
def execRead (stage : LinkStage) (s : State) : Host.Outcome State Fault Refusal :=
  .next (linkMoment stage (fun k => decide (k = 0x05)) readEnded s)

/-- CONTROL (R57, R149). -/
def execControl (stage : ControlStage) (s : State) : Host.Outcome State Fault Refusal :=
  .next (match stage with
    | .link l => linkMoment l (fun k => decide (k = 0x04)) (receive parseControl) s
    | .proceed => proceed s)

/-- UNKNOWN_KIND_FRAME: discarded with reason KIND, unless the Link Port has already disposed of it (R54). -/
def execUnknownKindFrame (stage : LinkStage) (s : State) : Host.Outcome State Fault Refusal :=
  .next (linkMoment stage (fun k => !inboundKinds.contains k) (receive fun f t => discardFrame .kind (frameKind f) 0 t) s)

end Sys2Proof.Machine
end

