-- ==== Sys2Proof/Machine/Idle.lean ====
section
/-! DEFINITION. What the part does by itself when no command waits: the work it owes at the present local count, and
the local tick (log 1). -/

namespace Sys2Proof.Machine

/-- The next piece of the frame in hand as a command: the record for its owner, or the interpreter's own going on (R149). -/
def frameWork (s : State) : Option Instr :=
  match s.interp with
  | none => none
  | some p =>
    match p.next with
    | .record i => some i
    | .finished | .wrongLength _ => some (.control .proceed)

/-- The next piece of work owed at the present local count: a strobe's mix, a strobe's rendering, a due cue, an expired
timer, the frame in hand (R113, R129, R24, R25, R158, R149). The order among them is the model's (log 1). -/
def owed (s : State) : Option Instr :=
  if s.mixDue then some (.sampleStrobe .mix)
  else if s.strobeDue then some (.sampleStrobe .render)
  else if s.nextCue.isSome then some .cueFire
  else if s.silenceExpired then some .silenceTimer
  else if s.holdoverExpired then some .holdoverTimer
  else if s.waitExpired then some .flashWaitTimeout
  else frameWork s

/-- One local tick (R1): the count moves on, the strobe divider changes over where it is time (R113), and a strobe's cue
pass does not outlive its count. -/
def tick (s : State) : State :=
  { s with localCount := s.localCount + 1, strobeRate := strobeRateAt s (s.localCount + 1), cuePass := none }

end Sys2Proof.Machine
end

