-- ==== Sys2Proof/Machine/Dispatch.lean ====
section
/-! DEFINITION. The meaning of each command: one arm per constructor of Instr. -/

namespace Sys2Proof.Machine

def exec (i : Instr) (s : State) : Host.Outcome State Fault Refusal :=
  match i with
  | .lineReset => Sys2Proof.Machine.execLineReset s
  | .imageReadEnd ws => Sys2Proof.Machine.execImageReadEnd ws s
  | .bootPresetReadEnd ws => Sys2Proof.Machine.execBootPresetReadEnd ws s
  | .audio stage => Sys2Proof.Machine.execAudio stage s
  | .cont stage => Sys2Proof.Machine.execCont stage s
  | .beacon stage => Sys2Proof.Machine.execBeacon stage s
  | .read stage => Sys2Proof.Machine.execRead stage s
  | .edgeRise => Sys2Proof.Machine.execEdgeRise s
  | .silenceTimer => Sys2Proof.Machine.execSilenceTimer s
  | .holdoverTimer => Sys2Proof.Machine.execHoldoverTimer s
  | .sampleStrobe stage => Sys2Proof.Machine.execSampleStrobe stage s
  | .streamStarted slot => Sys2Proof.Machine.execStreamStarted slot s
  | .streamResumed slot => Sys2Proof.Machine.execStreamResumed slot s
  | .starveLimit slot => Sys2Proof.Machine.execStarveLimit slot s
  | .streamDrained slot => Sys2Proof.Machine.execStreamDrained slot s
  | .correctionPoint slot => Sys2Proof.Machine.execCorrectionPoint slot s
  | .spanLimit slot => Sys2Proof.Machine.execSpanLimit slot s
  | .cueFire => Sys2Proof.Machine.execCueFire s
  | .statusPoll busy suspended => Sys2Proof.Machine.execStatusPoll busy suspended s
  | .flashWaitTimeout => Sys2Proof.Machine.execFlashWaitTimeout s
  | .sectorWriteEnd readBack => Sys2Proof.Machine.execSectorWriteEnd readBack s
  | .presetReadEnd ws => Sys2Proof.Machine.execPresetReadEnd ws s
  | .identify => Sys2Proof.Machine.execIdentify s
  | .snapshot => Sys2Proof.Machine.execSnapshot s
  | .restart => Sys2Proof.Machine.execRestart s
  | .openSlot slot streamId format priority ringSize trim starveLimit => Sys2Proof.Machine.execOpenSlot slot streamId format priority ringSize trim starveLimit s
  | .closeSlot slot => Sys2Proof.Machine.execCloseSlot slot s
  | .endStream slot => Sys2Proof.Machine.execEndStream slot s
  | .cut slot => Sys2Proof.Machine.execCut slot s
  | .clear slot => Sys2Proof.Machine.execClear slot s
  | .trim slot value => Sys2Proof.Machine.execTrim slot value s
  | .partition mode => Sys2Proof.Machine.execPartition mode s
  | .routePut index entry => Sys2Proof.Machine.execRoutePut index entry s
  | .routeDrop index => Sys2Proof.Machine.execRouteDrop index s
  | .routeRecall preset => Sys2Proof.Machine.execRouteRecall preset s
  | .duckSet lane level => Sys2Proof.Machine.execDuckSet lane level s
  | .outputSet rate ko rt => Sys2Proof.Machine.execOutputSet rate ko rt s
  | .cueAdd cueId fireTime action target argument => Sys2Proof.Machine.execCueAdd cueId fireTime action target argument s
  | .cueCancel cueId => Sys2Proof.Machine.execCueCancel cueId s
  | .clockSet masterId source holdoverLimit linkLatency edgeLatency gate window => Sys2Proof.Machine.execClockSet masterId source holdoverLimit linkLatency edgeLatency gate window s
  | .clockHistory => Sys2Proof.Machine.execClockHistory s
  | .classSet kind cls => Sys2Proof.Machine.execClassSet kind cls s
  | .ack slot sequence => Sys2Proof.Machine.execAck slot sequence s
  | .save tag bootPreset => Sys2Proof.Machine.execSave tag bootPreset s
  | .presetPut preset => Sys2Proof.Machine.execPresetPut preset s
  | .unknown code length => Sys2Proof.Machine.execUnknown code length s
  | .malformed code => Sys2Proof.Machine.execMalformed code s
  | .control stage => Sys2Proof.Machine.execControl stage s
  | .unknownKindFrame stage => Sys2Proof.Machine.execUnknownKindFrame stage s

end Sys2Proof.Machine
end

