-- ==== Sys2Proof/Machine/Step.lean ====
section
/-! DEFINITION. One step: the command at the front of the queue, or what the part does by itself. -/

namespace Sys2Proof.Machine

/-- What the part does when no command waits: the work it owes, else one local tick (log 1). -/
def idle (s : State) : Host.Outcome State Fault Refusal :=
  match owed s with
  | some i => exec i s
  | none => .next (tick s)

/-- One step: the front command is taken and carried out with the queue's rest; on an empty queue the part goes on by
itself (log 1). -/
def step (s : State) : Host.Outcome State Fault Refusal :=
  match s.pending with
  | c :: rest => exec c { s with pending := rest }
  | [] => idle s

/-- The state with the command a word spells put at the front of its queue; unchanged where it spells none (log 30). -/
def State.withFetchWord (s : State) (nbits w : Nat) : State :=
  match Sys2Proof.decodeTableWord nbits w with
  | some i => { s with pending := i :: s.pending }
  | none => s

end Sys2Proof.Machine
end

