-- ==== Sys2Proof/Safety.lean ====
section
/-! DEFINITION. What counts as a sound state of the part: the ranges the rules give its tables and queues, each kept by
every step; and when a command record is taken. -/

namespace Sys2Proof.Machine

/-! ## When a record is taken -/

/-- A record that is taken: it is the record in hand and its largest reply fits (R151, R152), or it comes while the part
is RUNNING with no frame in hand (log 4). -/
def Taken (i : Instr) (s : State) : Prop :=
  s.standsAlone = true ∨
    (s.handing i = true ∧ ∃ code n, recordShape i = some (code, n) ∧ s.replyRoom n = true)

/-- A frame of a kind that its select-rise will hand to the Frame Parser: assembled while RUNNING, not ignored, no bits left
over, and no frame in hand before it (R50, R51, R53). -/
def Arrives (kind : BitVec 8) (f : LinkFrame) (s : State) : Prop :=
  s.inbound = some f ∧ f.ignored = false ∧ f.tail = 0 ∧ f.kindCode = some kind ∧ s.run = .running ∧ s.interp = none

/-- The frame in hand finished before the next is begun: each record of it is dealt with as its own command does, the
interpreter goes on by itself past a record of wrong length and to the placing of the reply, until none is in hand (R53, R149). -/
inductive Finishes : State → State → Prop where
  | ended {s : State} : s.interp = none → Finishes s s
  | record {s t u : State} (i : Instr) : s.handing i = true → exec i s = .next t → Finishes t u → Finishes s u
  | goesOn {s t u : State} : s.interp ≠ none → (∀ i, s.handing i = false) → exec (.control .proceed) s = .next t →
      Finishes t u → Finishes s u

/-! ## Audio frames as R58 reads them -/

/-- The type of an option: bits 31..24 of its header (R169). -/
def optionType (o : List Word32) : Nat := ((o.getD 0 0).extractLsb' 24 8).toNat

/-- An option that is taken: as many words as bits 23..16 of its header say; FORMAT (1) and RUN (2) of one word and not in CONT,
CHECK (3) of two, TRACE (4) of one; any other type marked skippable in bit 8 (R59, R60, R169). -/
def optionTaken (cont : Bool) (o : List Word32) : Prop :=
  o ≠ [] ∧ ((o.getD 0 0).extractLsb' 16 8).toNat = o.length ∧
  (optionType o = 1 ∨ optionType o = 2 → o.length = 1 ∧ cont = false) ∧ (optionType o = 3 → o.length = 2) ∧
  (optionType o = 4 → o.length = 1) ∧ (optionType o = 0 ∨ 5 ≤ optionType o → (o.getD 0 0).extractLsb' 8 1 = 1)

/-- An audio frame laid out as its fixed header, its options and its payload: the options fill the words that word 0 declares, each
is taken, and no known type comes twice (R58 to R60). -/
def laidOut (cont : Bool) (f : LinkFrame) (os : List (List Word32)) (payload : List Word32) : Prop :=
  ∃ fixed : List Word32, f.words = fixed ++ os.flatten ++ payload ∧ fixed.length = (if cont then 2 else 4) ∧
    os.flatten.length = optionCount (frameWord f 0) ∧ (∀ o ∈ os, optionTaken cont o) ∧
    ∀ k : Nat, 1 ≤ k → k ≤ 4 → (os.filter fun o => decide (optionType o = k)).length ≤ 1

/-- The FORMAT datum of a frame that does not name the context's rate, channels and width (R60). -/
def formatOff (c : Context) (os : List (List Word32)) : Option (BitVec 8) :=
  ((os.find? fun o => decide (optionType o = 1)).map fun o => (o.getD 0 0).extractLsb' 0 8).filter fun d =>
    !decide (d.toNat = c.formatByte)

/-- A frame count in 1..1,024 and a payload of exactly its words: one a sample at 24 bits, one for two samples at 16 (R61). -/
def payloadFits (c : Context) (n : Nat) (payload : List Word32) : Prop :=
  (1 ≤ n ∧ n ≤ 1024) ∧
  payload.length = match c.width with
    | .w24 => n * c.channels.count
    | .w16 => (n * c.channels.count + 1) / 2

/-- The samples of a payload: the low 24 bits of each word, or each half, the high one first, with 8 zero bits below it (R62). -/
def payloadSamples (c : Context) (n : Nat) (payload : List Word32) : List Sample :=
  match c.width with
  | .w24 => payload.map fun w => w.extractLsb' 0 24
  | .w16 => (payload.flatMap fun w => [w.extractLsb' 16 16 ++ (0 : BitVec 8), w.extractLsb' 0 16 ++ (0 : BitVec 8)]).take
      (n * c.channels.count)

/-- Whether CHECK fails: the low half of its second word is not the 16-bit ones' complement sum of the payload's halves, which is
their sum reduced to 1..65,535, or 0 where all are 0 (R63). -/
def checkOff (os : List (List Word32)) (payload : List Word32) : Bool :=
  let sum := (payload.map fun w => (w.extractLsb' 16 16).toNat + (w.extractLsb' 0 16).toNat).sum
  let folded := if sum = 0 then 0 else (sum - 1) % 65535 + 1
  (os.find? fun o => decide (optionType o = 3)).any fun o => !decide (folded = ((o.getD 1 0).extractLsb' 0 16).toNat)

/-! ## Open slots and the clock's entry to FREE -/

/-- The OPEN record that names a context for a slot (R168, R169). -/
def openCommand (i : Fin 8) (c : Context) : Instr :=
  .openSlot (BitVec.ofNat 16 i.val) c.streamId (BitVec.ofNat 8 c.formatByte) (BitVec.ofNat 8 c.priority.val)
    (BitVec.ofNat 8 c.ringSize) (signedWord c.trim) (BitVec.ofNat 16 c.starveLimit)

/-- The fields of a context in range (R30, R37). -/
def contextInRange (c : Context) : Prop :=
  (1 ≤ c.ringSize ∧ c.ringSize ≤ 64) ∧ (-2457600 ≤ c.trim ∧ c.trim ≤ 2457600) ∧ (10 ≤ c.starveLimit ∧ c.starveLimit ≤ 10000)

/-- The clock enters FREE for a cause. The model is discarded, the drift word takes the nominal drift, the window is emptied and an
adopted master leaves with master id 0 (R26). CLOCK_FREE carries the cause, SILENCE 1 or HOLDOVER_LIMIT 2. Then, slot by slot, a
PLAYING or STARVED one is cut to PRIMING and a DRAINING one is closed, its blocks free again, each with its CLOCK_FREE, CUT 1 or
CLOSED 2; a PRIMING, FROZEN or CLOSED one is left as it is; and nothing else changes (R47, R42, R39). -/
def EntersFree (cause : Nat) (s t : State) : Prop :=
  let freed : TimeBase := { s.clock with
    state := .free, anchor := none, epsilon := s.clock.nominalDrift, lockRun := 0, outlierRun := 0, settle := 0,
    lastSequence := none, window := [], adopted := if s.clock.settings.masterId = 0 then none else s.clock.adopted }
  let told := fun (i : Fin 8) =>
    match (s.slot i).state with
    | .playing | .starved => [(EventKind.clockFree, bytesWord 0 0 i.val 1)]
    | .draining => [(EventKind.clockFree, bytesWord 0 0 i.val 2)]
    | .closed | .priming | .frozen => []
  let drained := fun (r : Fin 4) => (List.finRange 8).filter fun i =>
    decide ((s.slot i).state = .draining) && (s.slot i).context.any fun c => decide (regionOf s.partition c.streamId = r)
  t.houseTime = none ∧
  t = { offerAll ((.clockFree, bytesWord cause 0 0xFF 0) :: (List.finRange 8).flatMap told) { s with clock := freed } with
        slots := t.slots, freeLists := t.freeLists } ∧
  (∀ i : Fin 8, t.slot i =
    match (s.slot i).state with
    | .playing | .starved => { s.slot i with
        state := .priming, queue := [], origin := none, readPos := none, step := s.nominalOf (s.slot i), phase := 0,
        starveCount := 0, realigns := [], run := none, traceFlag := false, correctionDue := false }
    | .draining => Slot.closedWith (s.slot i).faultSequence
    | .closed | .priming | .frozen => s.slot i) ∧
  ∀ r : Fin 4, t.freeLists[r.val] =
    (drained r).foldl (fun free i => returnBlocks (s.slot i).blocks free) s.freeLists[r.val]

/-! ## Sound states -/

/-- The report queue holds at most 16 records (R140). -/
def reportsBounded (s : State) : Prop := s.reports.length ≤ 16

/-- The cue table holds at most 16 entries (R125). -/
def cuesBounded (s : State) : Prop := s.cues.length ≤ 16

/-- No two used entries share slot, channel and lane (R114). -/
def RoutesDistinct (t : RouteTable) : Prop :=
  ∀ i j : Fin 16, ∀ r q, t[i.val] = some r → t[j.val] = some q → r.slot = q.slot → r.channel = q.channel → r.lane = q.lane → i = j

/-- Each entry's fire time is at or before those of the entries after it (R125). -/
def cuesOrdered (s : State) : Prop := s.cues.Pairwise fun c d => sdiff c.fireTime d.fireTime ≤ 0

/-- Fire times that lie within 2^45 of one instant, so that the signed difference orders them (R125, R132). -/
def timesNear (cues : List Cue) : Prop := ∃ a : Time, ∀ c ∈ cues, |sdiff c.fireTime a| ≤ 2 ^ 45

/-- The staged route table is occupied exactly while a RECALL is held, at most one is, and its entries, when READY, obey the
rules of the route table (R134, R135). -/
def stagedSound (s : State) : Prop :=
  (s.cues.filter Cue.isRecall).length ≤ 1 ∧ (s.staged ≠ .free ↔ ∃ c ∈ s.cues, c.isRecall = true) ∧
  ∀ t, s.staged = .ready t → RoutesDistinct t

/-- The cue table, the staged route table and the route table keep their rules: no two cues share an id (R125), the staged
table goes with its RECALL (R134), no two routes are alike (R114). -/
def tablesSound (s : State) : Prop :=
  (s.cues.map (·.id)).Nodup ∧ stagedSound s ∧ RoutesDistinct s.routes

/-- A playout queue in its rules: at most 32 records of one index or more, in rising order without overlap (R74), all
within the window of the ring's length from the base (R78). -/
def queueFits (v : Slot) (c : Context) : Prop :=
  v.queue.length ≤ 32 ∧ (∀ r ∈ v.queue, 1 ≤ r.count) ∧ v.queue.Pairwise (fun r q => r.endIndex < q.start) ∧
  ∀ b, baseOf v = some b → ∀ r ∈ v.queue, b ≤ r.start ∧ r.endIndex ≤ b + ringFrames c - 1

/-- A slot whose queue keeps its rules, and whose step does not run backward (R93). -/
def slotQueueSound (v : Slot) : Prop := 0 ≤ v.step ∧ ∀ c, v.context = some c → queueFits v c

/-- Every slot's queue keeps its rules (R74, R78). -/
def queuesSound (s : State) : Prop := ∀ i : Fin 8, slotQueueSound (s.slot i)

/-- Sample Memory is in its canonical form (R34, R35). -/
def memorySound (s : State) : Prop := memoryWf s.memory = true

/-- The drift word and the nominal drift lie within the clamp (R20, R4). -/
def driftSound (s : State) : Prop :=
  (-Config.driftLimit ≤ s.clock.epsilon ∧ s.clock.epsilon ≤ Config.driftLimit) ∧
  (-Config.driftLimit ≤ s.clock.nominalDrift ∧ s.clock.nominalDrift ≤ Config.driftLimit)

/-- A DUCK cue's level lies in 0..16,384 (R127). -/
def Cue.levelSound (c : Cue) : Prop :=
  match c.action with
  | .duck _ v => v ≤ 16384
  | .cut _ | .ending _ | .gain _ _ | .recall _ | .mute _ | .mark _ => True

/-- Every lane's duck gain and duck level lie in 0..16,384, and so does the level of every DUCK cue held (R120, R121, R127). -/
def lanesSound (s : State) : Prop :=
  (∀ l : Fin 4, (s.lanes[l.val]).gain ≤ 16384 ∧ (s.lanes[l.val]).level ≤ 16384) ∧ ∀ c ∈ s.cues, c.levelSound

/-- The clock settings lie within their ranges (R4). -/
def settingsSound (s : State) : Prop :=
  (1 ≤ s.clock.settings.holdoverLimit ∧ s.clock.settings.holdoverLimit ≤ 600) ∧
  (246 ≤ s.clock.settings.gate ∧ s.clock.settings.gate ≤ 245760) ∧
  (25 ≤ s.clock.settings.window ∧ s.clock.settings.window ≤ 24576)

/-- The reply buffer is RESERVED exactly while a frame is in hand, and a READ that carries a reply carries the one the
buffer holds (R68, R70). -/
def replySound (s : State) : Prop :=
  (s.interp.isSome = true ↔ s.replyBuffer = .reserved) ∧
  ∀ o, s.outbound = some o → o.content = .reply → ∃ r, s.replyBuffer = .full r

/-- The words a reply's records take: a header each, and its result words (R152, R170). -/
def recordsWords (rs : List ReplyRecord) : Nat := (rs.map fun r => 1 + r.answer.results.length).sum

/-- A reply fits one frame of 384 words: beside the header and the sequence word its records never take more than 382 words,
nor, while the frame in hand still names records, the last of them; and a READ that carries a reply carries at most 384 (R152). -/
def replyBounded (s : State) : Prop :=
  (∀ p, s.interp = some p → recordsWords p.records ≤ 382 ∧ (p.remaining ≠ 0 → recordsWords p.records < 382)) ∧
  (∀ r, s.replyBuffer = .full r → recordsWords r.records ≤ 382) ∧
  ∀ o, s.outbound = some o → o.content = .reply → o.words.length ≤ 384

/-- How often block `b` stands in the four free lists and the eight block lists. -/
def blockCount (s : State) (b : Nat) : Nat :=
  ((List.finRange 4).map fun r => (s.freeLists[r.val]).count b).sum + ((List.finRange 8).map fun i => (s.slot i).blocks.count b).sum

/-- Every block of Sample Memory is in exactly one place, free or in one ring; a slot is CLOSED exactly when it has no
context, and then has no ring; an open slot's ring has its ring size (R31, R33). -/
def blocksSound (s : State) : Prop :=
  (∀ b, blockCount s b = if b < 128 then 1 else 0) ∧
  ∀ i : Fin 8,
    ((s.slot i).state = .closed ↔ (s.slot i).context = none) ∧
    ((s.slot i).context = none → (s.slot i).blocks = []) ∧
    ∀ c, (s.slot i).context = some c → (s.slot i).blocks.length = c.ringSize

/-- Start-up (R160, R161): the image is read only while STARTING, and while STARTING no frame is in hand and every slot
is CLOSED. -/
def startSound (s : State) : Prop :=
  (∀ ph, s.port = .startImage ph → s.run = .starting) ∧
  (s.run = .starting → s.interp = none ∧ ∀ i : Fin 8, (s.slot i).state = .closed)

/-- The blocks are sound and start-up keeps to its rules. -/
def ringsSound (s : State) : Prop := blocksSound s ∧ startSound s

end Sys2Proof.Machine
end

