-- ==== Sys2Proof/Certificates/Slice0/Obligations.lean ====
section
/-! DEFINITION. The statements for the provers. A statement names the whole next state where it can, so that it says the
result and the frame at once; "the model's choice" marks a clause that rests on an entry of the assumption log. The model's
choices throughout: a record with no frame in hand is taken and forms no reply (log 4), `flashOut` names the operations issued
(log 11), result words hold plain values and codes (log 14), offers are taken at once (log 7). -/

open Sys2Proof Sys2Proof.Machine

/-! ## Steps and sound states -/

/-- A step takes the front command and runs it with the queue's rest. The queue is the model's (log 1). -/
def Obligations.StepTakesFrontCommand : Prop :=
  ∀ (s : State) (c : Instr) (rest : List Instr), s.pending = c :: rest → step s = exec c { s with pending := rest }

/-- On an empty queue the part does the work it owes, and with none owed the local count moves on by one and nothing else
changes (R1) but that a changed strobe divider takes over at the first multiple of the new one (R113) and that the cue pass
is closed (the order of work owed, the rate kept for the divider and the pass are the model's choice, log 1, log 12, log 19). -/
def Obligations.EmptyQueueWorksOrTicks : Prop :=
  ∀ s : State, s.pending = [] →
    (∀ i, owed s = some i → step s = exec i s) ∧
    (owed s = none → step s = .next { s with
      localCount := s.localCount + 1
      strobeRate := if (s.localCount + 1).toNat % s.output.rate.divider = 0 then s.output.rate else s.strobeRate
      cuePass := none })

/-- The state right after a line reset is sound in every respect that the invariants below name. -/
def Obligations.ResetIsSound : Prop :=
  memorySound State.reset ∧ reportsBounded State.reset ∧ cuesBounded State.reset ∧ driftSound State.reset ∧
  settingsSound State.reset ∧ lanesSound State.reset ∧ replySound State.reset ∧ replyBounded State.reset ∧
  ringsSound State.reset ∧ tablesSound State.reset ∧ queuesSound State.reset

/-- From every state whose blocks are in one place each and that keeps start-up's rules, every step answers a next
state, of the same kind: no fault and no refusal is met, and no ring word outside Sample Memory is asked for. -/
def Obligations.SoundStepsGoOnSoundly : Prop :=
  ∀ s : State, ringsSound s → ∃ t, step s = .next t ∧ ringsSound t

/-- Every step keeps Sample Memory in its canonical form: addresses strictly rising, all below 65,536. -/
def Obligations.StepsKeepMemoryForm : Prop :=
  ∀ s t : State, memorySound s → step s = .next t → memorySound t

/-- The report queue never holds more than 16 records (R140), nor the cue table more than 16 entries (R125). No two cues
share an id (R125), at most one RECALL is held and the staged table is occupied exactly while one is (R134), and neither
the route table nor a READY staged table has two entries for one slot, channel and lane (R114). A playout queue never holds
more than 32 records, they rise without sharing an index (R74) and lie within the window (R78); that takes a drift word
within its clamp, so that no step runs backward. -/
def Obligations.StepsKeepTableBounds : Prop :=
  ∀ s t : State, step s = .next t →
    (reportsBounded s → reportsBounded t) ∧ (cuesBounded s → cuesBounded t) ∧ (tablesSound s → tablesSound t) ∧
    (driftSound s → queuesSound s → queuesSound t)

/-- The drift word and the nominal drift always lie within -1,288,490..1,288,490 (R20, R4), and the clock settings
within their ranges (R4). -/
def Obligations.StepsKeepClockRanges : Prop :=
  ∀ s t : State, driftSound s → settingsSound s → step s = .next t → driftSound t ∧ settingsSound t

/-- Each lane's duck gain and duck level always lie within 0..16,384 (R120, R121). -/
def Obligations.StepsKeepLaneRanges : Prop :=
  ∀ s t : State, lanesSound s → step s = .next t → lanesSound t

/-- The reply buffer is RESERVED exactly while a control frame is in hand, and a READ that carries a reply carries the
one the buffer holds (R68, R70). A reply never takes more than one frame of 384 words: beside the header and the sequence word its
records take 382 at most, whether it is under construction, in the buffer or shifted out (R152, R149). -/
def Obligations.StepsKeepReplyBuffer : Prop :=
  ∀ s t : State, step s = .next t →
    (replySound s → replySound t) ∧
    (replyBounded s → replyBounded t ∧ ∀ r, t.replyBuffer = .full r → (replyWords t.deviceTag r).length ≤ 384)

/-! ## Resets and start-up (chapter 10) -/

/-- A line reset leaves the reset state, whatever went before, and the waiting commands, which are the model's (log 21). The
fields of a CLOSED slot and others to which the spec gives no value are 0 there, the model's choice (log 10). -/
def Obligations.LineResetStartsAfresh : Prop :=
  ∀ s : State, exec .lineReset s = .next { State.reset with pending := s.pending } ∧
    State.reset.run = .starting ∧ State.reset.localCount = 0 ∧ State.reset.clock.state = .free ∧
    State.reset.clock.anchor = none ∧ State.reset.deviceTag = 0xFFFE ∧ State.reset.partition = .one ∧
    (∀ i : Fin 8, State.reset.slot i = Slot.closedWith 0) ∧ (∀ e : Fin 16, State.reset.routes[e.val] = none) ∧
    (∀ l : Fin 4, (State.reset.lanes[l.val]).level = 4096 ∧ (State.reset.lanes[l.val]).gain = 16384 ∧
      (State.reset.lanes[l.val]).ceiling = none) ∧
    State.reset.cues = [] ∧ State.reset.staged = .free ∧ State.reset.mute = true ∧ State.reset.mark = false ∧
    State.reset.reports = [] ∧ State.reset.replyBuffer = .empty ∧ State.reset.inbound = none ∧ State.reset.outbound = none ∧
    State.reset.ready = false

/-- RESTART in hand: its reply ends the frame and is placed, and every block takes its reset state, a frame being assembled
or shifted out abandoned, but for the local count, Sample Memory and the reply buffer (R157, R1, R35, R53, R68, R72). A RESTART
with no frame in hand leaves the buffer FULL of the reply to a frame of it alone, whose sequence nothing fixes (log 4). That
start-up's wait begins at the present count, that the strobe already worked stays worked and that the strobe divider changes over
at its next multiple is the model's choice (log 5, log 19), and so are the reset values that the spec does not give
(log 10) and that the waiting commands stay (log 21). -/
def Obligations.RestartKeepsCountAndReply : Prop :=
  ∀ s : State,
    let after := fun (r : Reply) => { State.reset with
      pending := s.pending, localCount := s.localCount, memory := s.memory, strobeRate := s.strobeRate, strobed := s.strobed,
      replyBuffer := .full r, port := .startImage (.waiting false s.localCount) }
    (∀ p : Interp, s.interp = some p → s.handing .restart = true → p.hasRoom 1 = true →
      exec .restart s =
        .next (after { sequence := p.sequence, records := p.records ++ [{ code := 0x03, answer := done [] }] })) ∧
    (s.run = .running → s.interp = none →
      exec .restart s = .next (after { sequence := Config.loneSequence, records := [{ code := 0x03, answer := done [] }] }))

/-- The end of start-up's image read (R160, R161). Of a good image the tag, the clock settings, the nominal drift (which is the
drift word too, R27), the output settings, the partition mode with every region's free list whole, the boot preset and the classes are taken
as its words hold them, the status is LOADED, and nothing else changes, the governing strobe divider too until its next multiple
(R160; the rate kept for it is the model's, log 19); without a boot preset the part then runs, with one the
preset's read is waited for. A bad image leaves the defaults with its cause, and the part runs. The cause is the first of these that
fails of its words: MAGIC, VERSION, LENGTH, CHECK, the ones' complement sum of the body's halves, and RANGE, the range of each setting
(R159, R4, R111). -/
def Obligations.ImageReadEndsStartUp : Prop :=
  ∀ (s : State) (ws : Vector Word32 23), s.port = .startImage .clocking →
    (let sum := ((ws.toList.drop 4).map fun w => (w.extractLsb' 16 16).toNat + (w.extractLsb' 0 16).toNat).sum
     let folded := if sum = 0 then 0 else (sum - 1) % 65535 + 1
     let within := fun (lo hi x : Nat) => lo ≤ x ∧ x ≤ hi
     let header := ws[0] = 0x54313801 ∧ ws[1] = 1 ∧ ws[2] = 19
     let checked := folded = (ws[3].extractLsb' 0 16).toNat
     let ranged := ws[4].extractLsb' 0 16 ≠ 0xFFFF ∧ (ws[6].extractLsb' 24 8).toNat ≤ 1 ∧
       within 1 600 (ws[6].extractLsb' 0 16).toNat ∧ within 246 245760 ws[8].toNat ∧ within 25 24576 ws[9].toNat ∧
       (-1288490 ≤ ws[10].toInt ∧ ws[10].toInt ≤ 1288490) ∧ (ws[11].toNat = 3 ∨ ws[11].toNat = 5) ∧ ws[12].toNat ≤ 245760 ∧
       within 2458 983040 ws[13].toNat ∧ (ws[14].extractLsb' 0 8 = 1 ∨ ws[14].extractLsb' 0 8 = 2 ∨ ws[14].extractLsb' 0 8 = 4) ∧
       ((ws[14].extractLsb' 8 8).toNat ≤ 7 ∨ ws[14].extractLsb' 8 8 = 0xFF) ∧
       ∀ k : Fin 32, ((ws.toList.getD (15 + k.val / 4) 0).extractLsb' (24 - 8 * (k.val % 4)) 8).toNat ≤ 2
     (ws[0] ≠ 0x54313801 → judgeImage ws = .bad .magic) ∧
     (ws[0] = 0x54313801 → ws[1] ≠ 1 → judgeImage ws = .bad .version) ∧
     (ws[0] = 0x54313801 → ws[1] = 1 → ws[2] ≠ 19 → judgeImage ws = .bad .length) ∧
     (header → ¬ checked → judgeImage ws = .bad .check) ∧
     (header → checked → ¬ ranged → judgeImage ws = .bad .range) ∧
     (header → checked → ranged → ∃ x, judgeImage ws = .good x)) ∧
    (∀ x, judgeImage ws = .good x →
      let taken : State := { s with
        deviceTag := x.deviceTag
        clock := { s.clock with settings := x.settings, nominalDrift := x.nominalDrift, epsilon := x.nominalDrift }
        output := x.output, partition := x.partition, freeLists := fullFreeLists x.partition, bootPreset := x.bootPreset
        classes := x.classes, imageStatus := .loaded, defaultCause := none }
      (x.deviceTag = ws[4].extractLsb' 0 16 ∧ x.settings.masterId = ws[5].extractLsb' 0 16 ∧
        x.settings.holdoverLimit = (ws[6].extractLsb' 0 16).toNat ∧ x.settings.linkLatency = ws[7].extractLsb' 16 16 ∧
        x.settings.edgeLatency = ws[7].extractLsb' 0 16 ∧ x.settings.gate = ws[8].toNat ∧ x.settings.window = ws[9].toNat ∧
        x.nominalDrift = ws[10].toInt ∧ x.output.rate.code = ws[11].toNat ∧ x.output.ko = ws[12].toNat ∧
        x.output.rt = ws[13].toNat ∧ x.partition.regions = (ws[14].extractLsb' 0 8).toNat ∧
        x.settings.source.code = (ws[6].extractLsb' 24 8).toNat ∧
        (ws[14].extractLsb' 8 8).toNat = (match x.bootPreset with | none => 0xFF | some p => p.val) ∧
        ∀ k : Fin 32, (x.classes[k.val]).code =
          ((ws.toList.getD (15 + k.val / 4) 0).extractLsb' (24 - 8 * (k.val % 4)) 8).toNat) ∧
      (x.bootPreset = none →
        exec (.imageReadEnd ws) s = .next { offerPart .imageStatus 0x01000000 taken with port := .idle, run := .running }) ∧
      ∀ p, x.bootPreset = some p →
        exec (.imageReadEnd ws) s = .next { taken with
          port := .startPreset p (.waiting false s.localCount), flashOut := [.statusPoll] }) ∧
    (∀ c, judgeImage ws = .bad c →
      exec (.imageReadEnd ws) s = .next { offerPart .imageStatus (bytesWord 2 c.code 0 0)
        { s with imageStatus := .defaulted, defaultCause := some c } with port := .idle, run := .running })

/-- The end of start-up's preset read (R161): a good preset becomes the route table, a bad one leaves it as it was, and
the part runs. A preset is bad for CHECK where its check word is not the ones' complement sum of its entries' halves; with a right
check word it is bad for CONTENT where a used entry names a slot, channel or lane there is not or two name the same, and else good,
with the entries its words hold (R159, R114). That bits 30..28 of an entry are not looked at is the model's choice (log 17). -/
def Obligations.BootPresetEndsStartUp : Prop :=
  ∀ (s : State) (ws : Vector Word32 17) (p : Fin 8), s.port = .startPreset p .clocking → s.imageStatus = .loaded →
    s.defaultCause = none →
    (let sum := ((ws.toList.take 16).map fun w => (w.extractLsb' 16 16).toNat + (w.extractLsb' 0 16).toNat).sum
     let folded := if sum = 0 then 0 else (sum - 1) % 65535 + 1
     let checked := folded = (ws[16].extractLsb' 0 16).toNat
     let word := fun (k : Fin 16) => ws[k.val]
     let used := fun (k : Fin 16) => (word k).extractLsb' 31 1 = 1
     let place := fun (k : Fin 16) => (word k).extractLsb' 16 12
     let ranged := fun (k : Fin 16) => ((word k).extractLsb' 24 4).toNat < 8 ∧ ((word k).extractLsb' 20 4).toNat < 2 ∧
       ((word k).extractLsb' 16 4).toNat < 4
     let sound := (∀ k, used k → ranged k) ∧ ∀ j k, used j → used k → place j = place k → j = k
     (¬ checked → judgePreset ws = .bad .check) ∧
     (checked → ¬ sound → judgePreset ws = .bad .content) ∧
     (checked → sound → ∃ t, judgePreset ws = .good t ∧ ∀ k : Fin 16,
       (¬ used k → t[k.val] = none) ∧
       (used k → ∃ r, t[k.val] = some r ∧ r.slot.val = ((word k).extractLsb' 24 4).toNat ∧
         r.channel.val = ((word k).extractLsb' 20 4).toNat ∧ r.lane.val = ((word k).extractLsb' 16 4).toNat ∧
         r.gain = (word k).extractLsb' 0 16))) ∧
    (∀ t, judgePreset ws = .good t →
      exec (.bootPresetReadEnd ws) s =
        .next { offerPart .imageStatus 0x01000100 { s with routes := t } with port := .idle, run := .running }) ∧
    (∀ c, judgePreset ws = .bad c →
      exec (.bootPresetReadEnd ws) s =
        .next { offerPart .imageStatus (bytesWord 1 0 2 c.code) s with port := .idle, run := .running })

/-- What SAVE writes, start-up reads back: an image whose settings are in range is judged good, as those very settings
(R159, R162, R171). -/
def Obligations.SavedImageReadsBack : Prop :=
  ∀ (x : Image) (ws : Vector Word32 23), ws.toList = imageWords x → x.deviceTag ≠ 0xFFFF →
    (1 ≤ x.settings.holdoverLimit ∧ x.settings.holdoverLimit ≤ 600) → (246 ≤ x.settings.gate ∧ x.settings.gate ≤ 245760) →
    (25 ≤ x.settings.window ∧ x.settings.window ≤ 24576) →
    (-Config.driftLimit ≤ x.nominalDrift ∧ x.nominalDrift ≤ Config.driftLimit) →
    x.output.ko ≤ 245760 → (2458 ≤ x.output.rt ∧ x.output.rt ≤ 983040) →
    judgeImage ws = .good x

/-- What PRESET-PUT writes, a recall reads back: a route table without two entries for one slot, channel and lane is
judged good, as that very table (R159, R163, R171). -/
def Obligations.StoredPresetReadsBack : Prop :=
  ∀ (t : RouteTable) (ws : Vector Word32 17), ws.toList = presetWords t → routesDistinct t.toList = true →
    judgePreset ws = .good t

/-! ## The Image Port (chapter 10) -/

/-- The wait before a preset read, for ROUTE-RECALL or for a RECALL cue. A report of neither busy nor suspended ends it and the
read of that sector is issued, any other leaves it with another status-poll (R158); at its bound of 2 s the read fails for TIMEOUT, the
route table stays, a RECALL whose staged table is FILLING leaves the cue table, and the Image Port is IDLE (R158, R165, R135). A read
made over a suspended write waits for not busy alone, suspended or not; a flash found busy first is asked to suspend; at the bound read
and write both fail, in that order (R158, R166). In start-up the wait before the image's read issues resume where the flash reports
suspended, once, its bound then running from the resume, and at the bound the part runs DEFAULTED with cause TIMEOUT; the wait before
the boot preset's read ends at its bound with the preset FAILED for TIMEOUT, the route table as it was and the part RUNNING (R158,
R160, R161, R167). That one report decides whether to suspend, that it is bounded by 2 s from the request, and that a resume asked for
once is not issued again is the model's choice (log 13). -/
def Obligations.ReadWaitEnds : Prop :=
  ∀ (s : State) (b : Bool) (t : Time) (p : Fin 8) (d : ReadDest),
    let r : PresetRead := { preset := p, dest := d }
    let read : FlashOp := .read (4096 * (p.val + 1)) 68
    let spared : State :=
      if d = .staged ∧ s.staged = .filling then { s with staged := .free, cues := s.cues.filter (fun x => !x.isRecall) } else s
    let failed := offerPart .flashFailed (bytesWord (match d with | .live => 3 | .staged => 4) p.val 0 6) { spared with port := .idle }
    let bound := 49152000 ≤ sdiff s.localCount t
    (s.port = .startImage (.waiting b t) →
      (∀ busy suspended : Bool, exec (.statusPoll busy suspended) s = .next (
        if suspended = true ∧ b = false then
          { s with port := .startImage (.waiting true s.localCount), flashOut := [.resume, .statusPoll] }
        else if busy = false ∧ suspended = false then { s with port := .startImage .clocking, flashOut := [.read 0 92] }
        else { s with flashOut := [.statusPoll] })) ∧
      (bound → exec .flashWaitTimeout s = .next { offerPart .imageStatus (bytesWord 2 6 0 0)
        { s with imageStatus := .defaulted, defaultCause := some .timeout } with port := .idle, run := .running }) ∧
      (¬ bound → exec .flashWaitTimeout s = .next s)) ∧
    (s.port = .startPreset p (.waiting b t) →
      (∀ busy suspended : Bool, exec (.statusPoll busy suspended) s = .next (
        if busy = false ∧ suspended = false then { s with port := .startPreset p .clocking, flashOut := [read] }
        else { s with flashOut := [.statusPoll] })) ∧
      (bound → s.imageStatus = .loaded → s.defaultCause = none → exec .flashWaitTimeout s = .next
        { offerPart .imageStatus (bytesWord 1 0 2 6) s with port := .idle, run := .running }) ∧
      (¬ bound → exec .flashWaitTimeout s = .next s)) ∧
    (s.port = .reading r (.waiting b t) →
      (∀ busy suspended : Bool, exec (.statusPoll busy suspended) s = .next (
        if busy = false ∧ suspended = false then { s with port := .reading r .clocking, flashOut := [read] }
        else { s with flashOut := [.statusPoll] })) ∧
      (bound → exec .flashWaitTimeout s = .next failed) ∧ (¬ bound → exec .flashWaitTimeout s = .next s)) ∧
    ∀ (w : SectorWrite) (el : Int) (issued busy suspended : Bool),
      (s.port = .suspended w el issued r (.suspending t) → exec (.statusPoll busy suspended) s = .next (
        if busy = false then { s with port := .suspended w el issued r .clocking, flashOut := [read] }
        else { s with flashOut := [.statusPoll] })) ∧
      (s.port = .suspended w el issued r (.deciding t) → exec (.statusPoll busy suspended) s = .next (
        if busy = false then { s with port := .suspended w el issued r .clocking, flashOut := [read] }
        else { s with port := .suspended w el true r (.suspending s.localCount), flashOut := [.suspend, .statusPoll] })) ∧
      (s.port = .suspended w el issued r (.suspending t) ∨ s.port = .suspended w el issued r (.deciding t) →
        (bound → exec .flashWaitTimeout s = .next (offerPart .flashFailed
          (match w.job with | .save => bytesWord 1 0 0 6 | .presetPut q => bytesWord 2 q.val 0 6) failed)) ∧
        (¬ bound → exec .flashWaitTimeout s = .next s))

/-- A sector write goes through its operations in order: a report of neither busy nor suspended before the erase, before
the program and before the read-back issues each of them, the erase and the program with the status-poll of the wait after them; a
report of not busy ends the wait after the erase and the one after the program, and where it says not suspended too it ends the wait
before the next operation as well (the model's choice, log 13); any other report leaves the write where it stands with another
status-poll; a wait that has lasted 2 s ends the write, FLASH_FAILED with cause TIMEOUT; and the read-back's words end it, FLASH_DONE
where they match, FLASH_FAILED with cause VERIFY where not (R158, R164). -/
def Obligations.WriteGoesInOrder : Prop :=
  ∀ (s : State) (w : SectorWrite), s.port = .writing w →
    let a := 4096 * w.job.sector
    let moved := fun (x : WriteStep) (ops : List FlashOp) =>
      { s with port := .writing { w with step := x, since := s.localCount }, flashOut := ops }
    let program := moved .programming [.writeEnable, .pageProgram a w.content, .statusPoll]
    let readBack := moved .readBack [.read a (4 * w.content.length)]
    let detail := fun (cause : Nat) => match w.job with | .save => bytesWord 1 0 0 cause | .presetPut p => bytesWord 2 p.val 0 cause
    (w.step = .beforeErase →
      exec (.statusPoll false false) s = .next (moved .erasing [.writeEnable, .sectorErase a, .statusPoll])) ∧
    (w.step = .erasing → exec (.statusPoll false true) s = .next (moved .beforeProgram [.statusPoll]) ∧
      exec (.statusPoll false false) s = .next program) ∧
    (w.step = .beforeProgram → exec (.statusPoll false false) s = .next program) ∧
    (w.step = .programming → exec (.statusPoll false true) s = .next (moved .beforeReadBack [.statusPoll]) ∧
      exec (.statusPoll false false) s = .next readBack) ∧
    (w.step = .beforeReadBack → exec (.statusPoll false false) s = .next readBack) ∧
    (w.step ≠ .readBack → ∀ b, exec (.statusPoll true b) s = .next { s with flashOut := [.statusPoll] }) ∧
    (w.step = .beforeErase ∨ w.step = .beforeProgram ∨ w.step = .beforeReadBack →
      exec (.statusPoll false true) s = .next { s with flashOut := [.statusPoll] }) ∧
    (w.step ≠ .readBack → 49152000 ≤ sdiff s.localCount w.since →
      exec .flashWaitTimeout s = .next (offerPart .flashFailed (detail 6) { s with port := .idle })) ∧
    (w.step = .readBack ∨ sdiff s.localCount w.since < 49152000 → exec .flashWaitTimeout s = .next s) ∧
    (w.step = .readBack → ∀ words : List Word32,
      exec (.sectorWriteEnd words) s = .next (
        if words = w.content then offerPart .flashDone (detail 0) { s with port := .idle }
        else offerPart .flashFailed (detail 7) { s with port := .idle }))

/-- The end of a preset read. For ROUTE-RECALL a good preset replaces the whole route table before FLASH_DONE is offered; a bad
one leaves it, and FLASH_FAILED carries the cause (R117, R165). For a RECALL cue whose staged table is FILLING a good preset makes it
READY, and a bad one takes the RECALL out of the cue table and leaves the staged table FREE; where it is no longer FILLING the
result is discarded and only the event is offered (R134, R135). From READING the Image Port is then IDLE (R165). From SUSPENDED the
write goes on where it stood: after a suspend resume is issued and the wait's bound runs from it, without one the wait goes on with what
had passed of it (R166; that a read-back asks for no poll then is the model's choice, log 13). -/
def Obligations.RecallReadReplacesRoutes : Prop :=
  ∀ (s : State) (ws : Vector Word32 17) (p : Fin 8) (d : ReadDest),
    let r : PresetRead := { preset := p, dest := d }
    let detail := fun (cause : Nat) => bytesWord (match d with | .live => 3 | .staged => 4) p.val 0 cause
    let given := fun (t : RouteTable) (x : State) =>
      match d with
      | .live => { x with routes := t }
      | .staged => { x with staged := if x.staged = .filling then .ready t else x.staged }
    let spared := fun (x : State) =>
      if d = .staged ∧ x.staged = .filling then { x with staged := .free, cues := x.cues.filter (fun c => !c.isRecall) } else x
    (s.port = .reading r .clocking →
      (∀ t, judgePreset ws = .good t →
        exec (.presetReadEnd ws) s = .next (offerPart .flashDone (detail 0) (given t { s with port := .idle }))) ∧
      (∀ c, judgePreset ws = .bad c →
        exec (.presetReadEnd ws) s = .next (offerPart .flashFailed (detail c.code) (spared { s with port := .idle })))) ∧
    ∀ (w : SectorWrite) (el : Int) (issued : Bool), s.port = .suspended w el issued r .clocking →
      let goesOn := fun (x : State) => { x with
        port := .writing { w with since := if issued then s.localCount else addSpan s.localCount (-el) }
        flashOut := if issued then [.resume, .statusPoll] else if w.step = .readBack then [] else [.statusPoll] }
      (∀ t, judgePreset ws = .good t →
        exec (.presetReadEnd ws) s = .next (goesOn (offerPart .flashDone (detail 0) (given t s)))) ∧
      (∀ c, judgePreset ws = .bad c →
        exec (.presetReadEnd ws) s = .next (goesOn (offerPart .flashFailed (detail c.code) (spared s))))

/-- SAVE and PRESET-PUT taken while the Image Port is IDLE: the words are copied at once, the write's first wait begins,
and the reply is ACCEPTED; in any other state they are answered BUSY and change nothing (R162, R163). The image SAVE writes has the tag
and the boot preset given, 0xFF for none, the clock settings, the drift word where the clock is LOCKED and the nominal drift otherwise,
the output settings, the partition mode and the class table in force (R162); PRESET-PUT's preset has the entries of the route table. -/
def Obligations.WritesBeginFromIdle : Prop :=
  ∀ (s : State) (tag : BitVec 16) (b : Option (Fin 8)) (p : Fin 8), tag ≠ 0xFFFF →
    let save : Instr := .save tag (match b with | some q => BitVec.ofNat 8 q.val | none => 0xFF)
    let image : Image := {
      deviceTag := tag, settings := s.clock.settings
      nominalDrift := if s.clock.state = .locked then s.clock.epsilon else s.clock.nominalDrift
      output := s.output, partition := s.partition, bootPreset := b, classes := s.classes }
    (Taken save s →
      exec save s = .next (
        if s.port = .idle then
          State.reply { s with
            port := .writing { job := .save, content := imageWords image, step := .beforeErase, since := s.localCount }
            flashOut := [.statusPoll] } 0x60 (acceptedWith [])
        else s.reply 0x60 busyAnswer)) ∧
    (Taken (.presetPut (BitVec.ofNat 16 p.val)) s →
      exec (.presetPut (BitVec.ofNat 16 p.val)) s = .next (
        if s.port = .idle then
          State.reply { s with
            port := .writing { job := .presetPut p, content := presetWords s.routes, step := .beforeErase, since := s.localCount }
            flashOut := [.statusPoll] } 0x61 (acceptedWith [])
        else s.reply 0x61 busyAnswer))

/-! ## Frames (chapter 3) -/

/-- The Link Port, for a frame of any row. At its select-fall the arrival count is latched and an assembly begins, ignored to its
end when the part is STARTING (R7, R50). Words clocked in join it; the first bit of a 385th word of a frame that is no READ
abandons it, TOOLONG offered at once and the rest ignored (R52). At its select-rise the assembly ends: an ignored or abandoned frame
and one without a bit come to nothing (R50, R52), and a frame that is no READ and has bits left over is discarded RAGGED (R51). With
no assembly, as after a reset, bits and select-rise do nothing (R53). That a row stands for a frame by its kind is the
model's choice (log 2, log 6). -/
def Obligations.LinkPortScreensFrames : Prop :=
  ∀ (s : State) (ws : List Word32) (tail : Nat), s.ringsLocated = true →
    let rows := fun (l : LinkStage) => [Instr.audio l, .cont l, .beacon l, .read l, .control (.link l), .unknownKindFrame l]
    (∀ c ∈ rows .fall, exec c s = .next { s with
      inbound := some { arrival := s.localCount, ignored := decide (s.run = .starting), words := [], count := 0, tail := 0 }
      outbound := none }) ∧
    (s.inbound = none → ∀ c ∈ rows (.shift ws tail) ++ rows .rise, exec c s = .next s) ∧
    ∀ f, s.inbound = some f →
      let n := f.count + ws.length
      let left := if ws = [] then max f.tail tail else tail
      let g : LinkFrame := { f with words := (f.words ++ ws).take 384, count := n, tail := left }
      (f.ignored = true → (∀ c ∈ rows (.shift ws tail), exec c s = .next s) ∧
        ∀ c ∈ rows .rise, exec c s = .next { s with inbound := none }) ∧
      (f.words = [] → f.tail = 0 → ∀ c ∈ rows .rise, exec c s = .next { s with inbound := none }) ∧
      (f.ignored = false → g.kindCode ≠ some 0x05 → ∀ c ∈ rows (.shift ws tail),
        (n < 384 ∨ (n = 384 ∧ left = 0) → exec c s = .next { s with inbound := some g }) ∧
        (384 < n ∨ (n = 384 ∧ 0 < left) → exec c s =
          .next { offerPart .frameDiscarded (bytesWord 2 (g.kindCode.getD 0).toNat 0 0) s with
            inbound := some { g with ignored := true, words := [] } })) ∧
      (f.ignored = false → 0 < f.tail →
        let ragged := fun (k : Nat) => offerPart .frameDiscarded (bytesWord 1 k 0 0) { s with inbound := none }
        (f.words = [] → ∀ c ∈ rows .rise, exec c s = .next (ragged 0)) ∧
        (∀ x ∈ [((1 : BitVec 8), Instr.audio .rise), (2, .cont .rise), (3, .beacon .rise), (4, .control (.link .rise))],
          f.kindCode = some x.1 → exec x.2 s = .next (ragged x.1.toNat)) ∧
        ∀ k : BitVec 8, k.toNat = 0 ∨ 6 ≤ k.toNat → f.kindCode = some k → exec (.unknownKindFrame .rise) s = .next (ragged k.toNat))

/-- A frame of a kind the part does not take is discarded with reason KIND, even with a wrong version; any other of a wrong version
with reason VERSION; a BEACON or a CONTROL with options with reason OPTION, a BEACON that is not four words long and a CONTROL of fewer
than two, for this part and met by an EMPTY reply buffer, with reason LENGTH (R54, R56, R57). An AUDIO or a CONT is dropped without event
where no slot that is not FROZEN is open for its stream id; else it is discarded with reason LENGTH where it is shorter than its header
and options, with reason OPTION where its options do not parse, and with reason LENGTH where its frame count or payload does not fit, a
FORMAT that disagrees aside (R58 to R61). A discard changes nothing else (R55). -/
def Obligations.ParserDiscardsByReason : Prop :=
  ∀ (s : State) (f : LinkFrame),
    let ended : State := { s with inbound := none }
    let w := frameWord f 0
    let discard := fun (reason kind : Nat) => Host.Outcome.next (offerPart .frameDiscarded (bytesWord reason kind 0 0) ended)
    (∀ k : BitVec 8, k.toNat = 0 ∨ 6 ≤ k.toNat → Arrives k f s → exec (.unknownKindFrame .rise) s = discard 3 k.toNat) ∧
    (Arrives 0x03 f s →
      (versionOne w = false → exec (.beacon .rise) s = discard 4 3) ∧
      (versionOne w = true → optionCount w ≠ 0 → exec (.beacon .rise) s = discard 5 3) ∧
      (versionOne w = true → optionCount w = 0 → f.words.length ≠ 4 → exec (.beacon .rise) s = discard 6 3)) ∧
    (Arrives 0x04 f s →
      (versionOne w = false → exec (.control (.link .rise)) s = discard 4 4) ∧
      (versionOne w = true → optionCount w ≠ 0 → exec (.control (.link .rise)) s = discard 5 4) ∧
      (versionOne w = true → optionCount w = 0 → kindField w = s.deviceTag ∨ kindField w = 0xFFFF → s.replyBuffer = .empty →
        f.words.length < 2 → exec (.control (.link .rise)) s = discard 6 4)) ∧
    ∀ cont : Bool, Arrives (if cont then 0x02 else 0x01) f s → s.ringsLocated = true →
      let i : Instr := if cont then .cont .rise else .audio .rise
      let kind := if cont then 2 else 1
      let header := if cont then 2 else 4
      (versionOne w = false → exec i s = discard 4 kind) ∧
      (versionOne w = true →
        ((∀ (j : Fin 8) (c : Context), (s.slot j).state ≠ .closed → (s.slot j).context = some c →
            c.streamId = w.extractLsb' 0 8 → (s.slot j).state = .frozen) → exec i s = .next ended) ∧
        ∀ (j : Fin 8) (c : Context), slotFor f s = some (j, c) →
          (f.words.length < header + optionCount w → exec i s = discard 6 kind) ∧
          (header + optionCount w ≤ f.words.length → (¬ ∃ os payload, laidOut cont f os payload) → exec i s = discard 5 kind) ∧
          ∀ os payload, laidOut cont f os payload → formatOff c os = none →
            ¬ payloadFits c ((frameWord f 1).extractLsb' 0 16).toNat payload → exec i s = discard 6 kind)

/-- A CONTROL frame for this part or for all, met by an EMPTY reply buffer, is taken: an empty reply with its control
sequence and record count is begun, and the buffer is RESERVED; met by any other it is discarded with reason OVERRUN; one
with another speaker's tag is dropped without event (R57, R149). A frame of any kind that arrives while a control frame is in hand
waits until that one is finished, each of its records dealt with in order and its reply placed, and is then taken as with none in hand,
a READ of another version being discarded; a RESTART in the frame in hand abandons the new one (R53). That the rest of the frame in hand
is dealt with at that select-rise is the model's choice (log 4). -/
def Obligations.ControlFrameMeetsReplyBuffer : Prop :=
  (∀ (s : State) (f : LinkFrame), s.inbound = some f → f.ignored = false → s.run = .running → s.interp ≠ none → ringsSound s →
    let rows := [((1 : BitVec 8), Instr.audio .rise), (2, .cont .rise), (3, .beacon .rise), (4, .control (.link .rise))]
    (∀ c : Instr, f.tail = 0 →
      (∃ k, f.kindCode = some k ∧ ((k, c) ∈ rows ∨ ((k.toNat = 0 ∨ 6 ≤ k.toNat) ∧ c = .unknownKindFrame .rise))) →
      ∃ u, Finishes { s with inbound := none } u ∧
        exec c s = if u.run = .running then exec c { u with inbound := some f } else .next u) ∧
    (f.kindCode = some 0x05 → versionOne (frameWord f 0) = false →
      ∃ u, Finishes { s with inbound := none, outbound := none } u ∧
        exec (.read .rise) s = .next (if u.run = .running then offerPart .frameDiscarded (bytesWord 4 5 0 0) u else u))) ∧
  ∀ (s : State) (f : LinkFrame) (w0 w1 : Word32) (rest : List Word32), Arrives 0x04 f s → f.words = w0 :: w1 :: rest →
    versionOne w0 = true → optionCount w0 = 0 →
    ((kindField w0 = s.deviceTag ∨ kindField w0 = 0xFFFF) → s.replyBuffer = .empty →
      exec (.control (.link .rise)) s = .next { s with
        inbound := none
        replyBuffer := .reserved
        interp := some { sequence := w1.extractLsb' 16 16, remaining := (w1.extractLsb' 0 16).toNat, words := rest, records := [] } }) ∧
    ((kindField w0 = s.deviceTag ∨ kindField w0 = 0xFFFF) → s.replyBuffer ≠ .empty →
      exec (.control (.link .rise)) s = .next (offerPart .frameDiscarded (bytesWord 8 4 0 0) { s with inbound := none })) ∧
    ((kindField w0 ≠ s.deviceTag ∧ kindField w0 ≠ 0xFFFF) → exec (.control (.link .rise)) s = .next { s with inbound := none })

/-- A READ. When its word 0 has come in with version 1 the outbound frame is chosen: the reply if the buffer is FULL, else up to
eight of the oldest reports, else an EMPTY frame, each in the words of its layout; one of another version carries nothing;
later words change nothing but how many have come in (R70, R170). At its select-rise, where every bit of the outbound frame
was clocked out, a REPLY empties the buffer and a REPORT removes the records it carried; otherwise nothing is removed; and a READ of another
version is discarded VERSION (R71, R54). That the moments of a frame come as commands is the model's choice (log 2, log 3). -/
def Obligations.ReadChoosesAndRemoves : Prop :=
  ∀ (s : State) (f : LinkFrame) (w : Word32) (ws : List Word32) (tail : Nat), s.inbound = some f → f.ignored = false →
    w.extractLsb' 24 8 = 0x05 →
    (f.words = [] →
      let g : LinkFrame := { f with words := [w], count := f.count + (ws.length + 1), tail := tail }
      (versionOne w = true →
        exec (.read (.shift (w :: ws) tail)) s = .next { s with
          inbound := some g
          outbound := some (
            match s.replyBuffer with
            | .full r => { content := .reply, words := replyWords s.deviceTag r }
            | .empty | .reserved =>
              if s.reports = [] then { content := .empty, words := [outWord0 0x0A s.deviceTag] }
              else { content := .report (min 8 s.reports.length), words := reportWords s.deviceTag (s.reports.take 8) }) }) ∧
      (versionOne w = false → exec (.read (.shift (w :: ws) tail)) s = .next { s with inbound := some g })) ∧
    (f.words = [w] →
      (ws ≠ [] → exec (.read (.shift ws tail)) s =
        .next { s with inbound := some { f with count := f.count + ws.length, tail := tail } }) ∧
      (versionOne w = true → ∀ o : Outbound, s.outbound = some o →
        let ended : State := { s with inbound := none, outbound := none }
        (32 * (o.words.length + 1) ≤ 32 * f.count + f.tail →
          (o.content = .reply → exec (.read .rise) s = .next { ended with replyBuffer := .empty }) ∧
          (∀ n, o.content = .report n → exec (.read .rise) s = .next { ended with reports := s.reports.drop n }) ∧
          (o.content = .empty → exec (.read .rise) s = .next ended)) ∧
        (32 * f.count + f.tail < 32 * (o.words.length + 1) → exec (.read .rise) s = .next ended)) ∧
      (versionOne w = false → s.run = .running → s.interp = none →
        exec (.read .rise) s =
          .next (offerPart .frameDiscarded (bytesWord 4 5 0 0) { s with inbound := none, outbound := none })))

/-- An AUDIO frame, or a CONT frame in sequence, for a slot that takes it, its options parsed and its payload of the right length or
its FORMAT off. Its chunk has the frame's count and sequence, the samples of its payload, a PT or the run's next index, and is BAD where
CHECK fails (R60 to R64, R66). Its fate is the first case of R79 that holds: CLOSING, FORMAT mismatch, TOO_BIG, LATE, FAR, DUPLICATE,
OVERLAP, FULL, NO_SPACE, or filed. A CONT moves the run on whatever its fate; after an AUDIO frame the run is there if it carries RUN and
an index was assigned, and the trace flag follows its TRACE (R64 to R66, R60). A chunk that is not filed leaves queue, origin and Sample
Memory as they were and offers its event, CHUNK_REFUSED with the reason, CHUNK_LATE or FORMAT_MISMATCH (R79 to R85). Of a filed one the
record takes its place in the queue, the origin is set if it was absent, each sample of an index the record holds is in its ring word,
every other word reads as before, and CHUNK_BAD is offered for a bad one (R34, R75, R86). That the event of an AUDIO frame follows its run
and trace flag is the model's choice (log 18). -/
def Obligations.AudioFilesItsChunk : Prop :=
  ∀ (s : State) (f : LinkFrame) (cont : Bool) (i : Fin 8) (c : Context) (os : List (List Word32)) (payload : List Word32),
    Arrives (if cont then 0x02 else 0x01) f s → ringsSound s → versionOne (frameWord f 0) = true → slotFor f s = some (i, c) →
    laidOut cont f os payload →
    let cmd : Instr := if cont then .cont .rise else .audio .rise
    let v := s.slot i
    let n := ((frameWord f 1).extractLsb' 0 16).toNat
    let seq : BitVec 16 := (frameWord f 1).extractLsb' 16 16
    let pt := Decode.time48 (frameWord f 2) (frameWord f 3)
    let carries := fun (k : Nat) => os.any fun o => decide (optionType o = k)
    let off := formatOff c os
    (off = none → payloadFits c n payload) → (cont = true → ∃ r, v.run = some r ∧ seq = r.sequence + 1) →
    let start : Int :=
      if cont = true then (v.run.map fun r => r.start + (r.count : Int)).getD 0
      else (v.origin.map fun o => (sdiff pt o * c.rate.hz + 12288000) / 24576000).getD 0
    let last := start + n - 1
    let now := v.readPos.map fun p => p / 2 ^ 28
    let front := (now.map (max start)).getD start
    let base := now.getD ((v.queue.head?.map fun h => min start h.start).getD start)
    let furthest := (v.queue.getLast?.map fun r => max last r.endIndex).getD last
    let frames : Nat := c.ringSize * 512 / c.channels.count
    let due := s.houseTime.map fun t => addSpan (addSpan t s.output.ko) (-c.trim)
    let lead := fun (d : Time) =>
      if cont = true then roundHalfUp (start * 24576000) c.rate.hz - sdiff d (v.origin.getD 0) else sdiff pt d
    let fate : Fate :=
      if v.state = .draining then .refused .closing
      else if off.isSome then .mismatch
      else if frames < n then .refused .tooBig
      else if ∃ p, now = some p ∧ last < p then .late
      else if (∃ d, due = some d ∧ 196608000 < lead d) ∨ start < -(2 ^ 47) ∨ 2 ^ 47 - 1 < last then .refused .far
      else if ∃ r ∈ v.queue, r.start = start then .refused .duplicate
      else if ∃ r ∈ v.queue, r.start ≤ last ∧ start ≤ r.endIndex then .refused .overlap
      else if 32 ≤ v.queue.length then .refused .full
      else if (frames : Int) < furthest - base + 1 then .refused .noSpace
      else .filed
    let traced := if cont = true then v.traceFlag else carries 4
    let run : Option Run :=
      if cont = true ∨ (carries 2 = true ∧ off = none ∧ (v.origin.isSome ∨ fate = .filed)) then
        some { sequence := seq, start := start, count := n }
      else none
    let left : State := { s.setSlot i { v with run := run, traceFlag := traced } with inbound := none }
    (fate = .mismatch → ∀ d, off = some d →
      exec cmd s = .next (offerSlot .formatMismatch i (halvesWord 0 (d.toNat * 256 + c.formatByte)) left)) ∧
    (fate = .late → exec cmd s = .next (offerSlot .chunkLate i (seq.setWidth 32) left)) ∧
    (∀ r, fate = .refused r → exec cmd s = .next (offerSlot .chunkRefused i (natWord (r.code * 16777216 + seq.toNat)) left)) ∧
    (fate = .filed →
      let record : ChunkRecord := { start := front, count := n - (front - start).toNat, sequence := seq, bad := checkOff os payload,
                                    trace := carries 4 || traced }
      let samples := payloadSamples c n payload
      let word := fun (j : Nat) =>
        ringAddress v.blocks (ringWord c (start + (j / c.channels.count : Nat)) (j % c.channels.count))
      let kept := fun (j : Nat) => j < samples.length ∧ front ≤ start + (j / c.channels.count : Nat)
      ∃ (before after : List ChunkRecord) (m : Memory), v.queue = before ++ after ∧ (∀ r ∈ before, r.start ≤ front) ∧
        (∀ r, after.head? = some r → front < r.start) ∧
        (let filed : State := { left.setSlot i { left.slot i with
            queue := before ++ record :: after
            origin := if v.origin.isSome ∨ cont = true then v.origin else some pt } with memory := m }
         exec cmd s = .next (if record.bad = true then offerSlot .chunkBad i (seq.setWidth 32) filed else filed)) ∧
        (∀ j, kept j → readWord m (word j) = samples[j]?) ∧
        ∀ a, (∀ j, kept j → a ≠ word j) → readWord m a = readWord s.memory a)

/-- A source that rounds each PT to a whole tick meets its own index: the PT of sample `k`, counted from the origin at the
stream's rate and rounded half up, is given start index `k`, before the origin or after it (R76). -/
def Obligations.RoundedPtMeetsItsIndex : Prop :=
  ∀ (fs : Rate) (origin : Time) (k : Int), -(2 ^ 37) ≤ k → k ≤ 2 ^ 37 →
    indexOfPt fs origin (addSpan origin (roundHalfUp (k * 24576000) fs.hz)) = k

/-- CONT frames against their slot's run. One in sequence moves the run on to its own sequence, the index after the run's last
frame and its own count, whatever becomes of its chunk, only a freeze of the slot by an event of the insertion taking the run away
(R66, R45); what becomes of the chunk is AudioFilesItsChunk's. One out of sequence breaks the run: it becomes absent, and RUN_BROKEN
carries the expected and the received sequence. One without a run is an orphan, discarded with the slot in the detail (R67). One that
does not parse, or whose payload does not fit, is discarded before it is matched and leaves run and trace flag (R66, R55). -/
def Obligations.ContMovesOrBreaksItsRun : Prop :=
  ∀ (s : State) (f : LinkFrame) (i : Fin 8) (c : Context), Arrives 0x02 f s → s.ringsLocated = true →
    versionOne (frameWord f 0) = true → slotFor f s = some (i, c) →
    let n := ((frameWord f 1).extractLsb' 0 16).toNat
    let seq : BitVec 16 := (frameWord f 1).extractLsb' 16 16
    (∀ os payload, laidOut true f os payload → payloadFits c n payload →
      (∀ r, (s.slot i).run = some r → seq = r.sequence + 1 →
        ∃ t, exec (.cont .rise) s = .next t ∧
          ((t.slot i).run = some { sequence := seq, start := r.start + r.count, count := n } ∨
            ((t.slot i).state = .frozen ∧ (t.slot i).run = none))) ∧
      (∀ r, (s.slot i).run = some r → seq ≠ r.sequence + 1 →
        exec (.cont .rise) s = .next (offerSlot .runBroken i (halvesWord (r.sequence + 1).toNat seq.toNat)
          { s.setSlot i { s.slot i with run := none } with inbound := none })) ∧
      ((s.slot i).run = none →
        exec (.cont .rise) s = .next (offerPart .frameDiscarded (bytesWord 7 2 0 i.val) { s with inbound := none }))) ∧
    ((¬ ∃ os payload, laidOut true f os payload) ∨ (∃ os payload, laidOut true f os payload ∧ ¬ payloadFits c n payload) →
      ∃ t, exec (.cont .rise) s = .next t ∧ t.slots = s.slots ∧ t.memory = s.memory)

/-! ## The Time Base (chapter 1) -/

/-- A beacon at the Time Base, by the checks of 1.5 in order. Its local count is its arrival count less the link latency, or
under edge capture the count of a HELD latch less the edge latency, and none with the latch EMPTY or OVERRUN; edge capture leaves
the latch EMPTY (R7, R9). A part that follows no set master adopts the first it hears (R10). A beacon of another master is FOREIGN,
one whose sequence is not after the last is STALE, one without a local count is UNPAIRED: each changes nothing more of the model, is
noted in the capture window and offers its event (R10, R11, R12, R15). One that passes and meets a FREE clock builds the
model: the anchor from it, the drift word kept, ACQUIRING, lock run 1, settle count 1, no event (R17). -/
def Obligations.BeaconBuildsModelOrIsForeign : Prop :=
  ∀ (s : State) (f : LinkFrame) (w0 w1 w2 w3 : Word32), Arrives 0x03 f s → f.words = [w0, w1, w2, w3] → versionOne w0 = true →
    optionCount w0 = 0 →
    let x := s.clock.settings
    let m := kindField w0
    let seq : BitVec 16 := w1.extractLsb' 16 16
    let ht := Decode.time48 w2 w3
    let lc : Option Time :=
      match x.source, s.clock.latch with
      | .link, _ => some (f.arrival - x.linkLatency.setWidth 48)
      | .edge, .held n => some (n - x.edgeLatency.setWidth 48)
      | .edge, _ => none
    let c : TimeBase := { s.clock with
      latch := if x.source = .edge then .empty else s.clock.latch
      adopted := if x.masterId = 0 ∧ s.clock.adopted = none then some m else s.clock.adopted }
    let followed := if x.masterId = 0 then c.adopted else some x.masterId
    let fresh := ∀ l, s.clock.lastSequence = some l → 0 < (seq - l).toInt
    let noted := fun (v : Verdict) (c : TimeBase) =>
      let r : CaptureRecord := { verdict := v, master := m, sequence := seq, lc := lc, ht := ht, error := none }
      { s with inbound := none, clock := { c with window := (c.window ++ [r]).drop (c.window.length - 7) } }
    (followed ≠ some m → exec (.beacon .rise) s = .next (offerPart .beaconForeign (m.setWidth 32) (noted .foreign c))) ∧
    (followed = some m → ¬ fresh →
      exec (.beacon .rise) s = .next (offerPart .beaconStale (seq.setWidth 32) (noted .stale c))) ∧
    (followed = some m → fresh → lc = none →
      exec (.beacon .rise) s = .next (offerPart .beaconUnpaired (seq.setWidth 32) (noted .unpaired c))) ∧
    (followed = some m → fresh → ∀ n, lc = some n → s.clock.state = .free →
      exec (.beacon .rise) s = .next (noted .accepted { c with
        state := .acquiring, anchor := some { lc := n, ht := ht }, lockRun := 1, outlierRun := 0, settle := 1,
        lastSequence := some seq, silenceStart := s.localCount }))

/-- A beacon of the master in force, or one adopted with it under master id 0 (R10), that passes the first three checks while the
clock has a model, by its error e (R13).
Where the gate applies and |e| exceeds G it is an OUTLIER: counted, and the third in a row re-anchors, LOCK_LOST offered if it was
LOCKED (R13, R14). LOCKED within 4 W it steers with LOCKED gains, beyond it unlocks with ACQUIRING gains and LOCK_LOST (R19, R22).
ACQUIRING it moves the lock run, back to 1 beyond W, and at 4 the clock is LOCKED with LOCKED gains and LOCK_GAINED (R19, R21); with a
lock run of 0 it begins a run (R18). HOLDOVER it locks again within W, else begins a run (R23). A run begun beyond G offers
REANCHOR (R18, R23). The drift word takes a sixteenth (LOCKED) or half (ACQUIRING) of the frequency reading where the span allows
one, held within its clamp, DRIFT_LIMIT offered where that cuts it (R19, R20). That the settle count rises beyond W too is the model's
choice (log 32). -/
def Obligations.LockedBeaconSteersModel : Prop :=
  ∀ (s : State) (f : LinkFrame) (w0 w1 w2 w3 : Word32) (a : Anchor) (n : Time), Arrives 0x03 f s →
    f.words = [w0, w1, w2, w3] → versionOne w0 = true → optionCount w0 = 0 → s.clock.anchor = some a →
    let x := s.clock.settings
    let m := kindField w0
    let seq : BitVec 16 := w1.extractLsb' 16 16
    let ht := Decode.time48 w2 w3
    let adopts := x.masterId = 0 ∧ s.clock.adopted = none
    adopts ∨ (if x.masterId = 0 then s.clock.adopted else some x.masterId) = some m →
    (∀ l, s.clock.lastSequence = some l → 0 < (seq - l).toInt) →
    (match x.source, s.clock.latch with
      | .link, _ => some (f.arrival - x.linkLatency.setWidth 48)
      | .edge, .held n => some (n - x.edgeLatency.setWidth 48)
      | .edge, _ => none) = some n →
    let p := throughAnchor a s.clock.epsilon n
    let e := sdiff ht p
    let span := sdiff n a.lc
    let moved := fun (gain : Int) => s.clock.epsilon + ((e * 2 ^ 32).tdiv span).tdiv gain
    let spanFits := 245760 ≤ span ∧ span ≤ 2 ^ 31
    let drift := fun (gain : Int) => if spanFits then max (-1288490) (min 1288490 (moved gain)) else s.clock.epsilon
    let limited := fun (gain : Int) =>
      if spanFits ∧ (moved gain < -1288490 ∨ 1288490 < moved gain) then [(EventKind.driftLimit, signedWord (drift gain))] else []
    let c : TimeBase := { s.clock with
      latch := if x.source = .edge then .empty else s.clock.latch
      adopted := if x.masterId = 0 ∧ s.clock.adopted = none then some m else s.clock.adopted }
    let steered := fun (st : ClockState) (run : Nat) (locked : Bool) => { c with
      state := st, lockRun := run, outlierRun := 0, settle := min 2 (c.settle + 1), lastSequence := some seq,
      silenceStart := s.localCount, epsilon := drift (if locked then 16 else 2)
      anchor := some { lc := n, ht := if locked then addSpan p (e.tdiv 4) else ht } }
    let begun : TimeBase := { c with
      state := .acquiring, lockRun := 1, outlierRun := 0, settle := 1, lastSequence := some seq, silenceStart := s.localCount
      anchor := some { lc := n, ht := ht } }
    let beyondGate := if x.gate < |e| then [(EventKind.reanchor, clamp32 e)] else []
    let after := fun (v : Verdict) (c : TimeBase) (events : List (EventKind × Word32)) =>
      let r : CaptureRecord := { verdict := v, master := m, sequence := seq, lc := some n, ht := ht, error := some e }
      offerAll events { s with inbound := none, clock := { c with window := (c.window ++ [r]).drop (c.window.length - 7) } }
    let gated := s.clock.state = .locked ∨ (s.clock.state = .acquiring ∧ s.clock.settle = 2)
    (gated → x.gate < |e| →
      (s.clock.outlierRun + 1 < 3 → exec (.beacon .rise) s =
        .next (after .outlier { c with outlierRun := c.outlierRun + 1 } [(.beaconOutlier, clamp32 e)])) ∧
      (3 ≤ s.clock.outlierRun + 1 → exec (.beacon .rise) s =
        .next (after .outlier begun ([(.beaconOutlier, clamp32 e), (.reanchor, clamp32 e)] ++
          if s.clock.state = .locked then [(.lockLost, 0)] else [])))) ∧
    (s.clock.state = .locked → |e| ≤ x.gate →
      (|e| ≤ 4 * x.window → exec (.beacon .rise) s = .next (after .accepted (steered .locked c.lockRun true) (limited 16))) ∧
      (4 * x.window < |e| → exec (.beacon .rise) s =
        .next (after .accepted (steered .acquiring 1 false) (limited 2 ++ [(.lockLost, clamp32 e)])))) ∧
    (s.clock.state = .acquiring → s.clock.settle ≠ 2 ∨ |e| ≤ x.gate →
      (s.clock.lockRun = 0 → exec (.beacon .rise) s = .next (after .accepted begun beyondGate)) ∧
      (s.clock.lockRun ≠ 0 → |e| ≤ x.window → 4 ≤ s.clock.lockRun + 1 → exec (.beacon .rise) s =
        .next (after .accepted (steered .locked 4 true) (limited 16 ++ [(.lockGained, 0)]))) ∧
      (s.clock.lockRun ≠ 0 → |e| ≤ x.window → s.clock.lockRun + 1 < 4 → exec (.beacon .rise) s =
        .next (after .accepted (steered .acquiring (s.clock.lockRun + 1) false) (limited 2))) ∧
      (s.clock.lockRun ≠ 0 → x.window < |e| → exec (.beacon .rise) s =
        .next (after .accepted (steered .acquiring 1 false) (limited 2)))) ∧
    (s.clock.state = .holdover →
      (|e| ≤ x.window → exec (.beacon .rise) s =
        .next (after .accepted (steered .locked c.lockRun true) (limited 16 ++ [(.lockGained, 0)]))) ∧
      (x.window < |e| → exec (.beacon .rise) s = .next (after .accepted begun beyondGate)))

/-- An edge under edge capture is latched when the latch is EMPTY; one that finds it HELD or OVERRUN replaces the count,
makes it OVERRUN and is reported; under link capture and while STARTING edges are ignored (R8). -/
def Obligations.EdgeIsLatched : Prop :=
  ∀ s : State,
    (s.run = .running → s.clock.settings.source = .edge →
      exec .edgeRise s = .next (
        if s.clock.latch = .empty then { s with clock := { s.clock with latch := .held s.localCount } }
        else offerPart .edgeOverrun 0 { s with clock := { s.clock with latch := .overrun s.localCount } })) ∧
    ((s.run = .starting ∨ s.clock.settings.source = .link) → exec .edgeRise s = .next s)

/-- Two seconds after the silence start a LOCKED clock goes to HOLDOVER on its frozen model (R24), and an ACQUIRING one enters
FREE: the model is discarded, CLOCK_FREE offered with cause SILENCE, every PLAYING and STARVED slot cut and every DRAINING one closed,
each with a CLOCK_FREE of its own, and every other slot left as it is (R24, R26, R47). Before that, and in FREE and HOLDOVER, where the
timer does not run, nothing happens. The fields of a CLOSED slot to which R31 gives no value are 0 there, the model's choice (log 10). -/
def Obligations.SilenceEntersHoldover : Prop :=
  ∀ s : State,
    (49152000 ≤ sdiff s.localCount s.clock.silenceStart →
      (s.clock.state = .locked → exec .silenceTimer s = .next (offerPart .holdoverEntered 0
        { s with clock := { s.clock with state := .holdover, holdoverStart := s.localCount } })) ∧
      (s.clock.state = .acquiring → ∃ t, exec .silenceTimer s = .next t ∧ EntersFree 1 s t)) ∧
    (sdiff s.localCount s.clock.silenceStart < 49152000 ∨ s.clock.state = .free ∨ s.clock.state = .holdover →
      exec .silenceTimer s = .next s)

/-- In HOLDOVER, once the span from the holdover start has reached the holdover limit, the timer's expiry enters FREE: the model is
discarded, CLOCK_FREE offered with cause HOLDOVER_LIMIT, every PLAYING and STARVED slot cut and every DRAINING one closed, each with a
CLOCK_FREE of its own, and every other slot left as it is (R25, R26, R47). Before that, and in every other clock state, nothing happens.
The fields of a CLOSED slot to which R31 gives no value are 0 there, the model's choice (log 10). -/
def Obligations.HoldoverEndsInFree : Prop :=
  ∀ s : State,
    (s.clock.state = .holdover → s.clock.settings.holdoverLimit * 24576000 ≤ sdiff s.localCount s.clock.holdoverStart →
      ∃ t, exec .holdoverTimer s = .next t ∧ EntersFree 2 s t) ∧
    (s.clock.state ≠ .holdover ∨ sdiff s.localCount s.clock.holdoverStart < s.clock.settings.holdoverLimit * 24576000 →
      exec .holdoverTimer s = .next s)

/-- CLOCK-SET with every value in range replaces all seven settings at once. One that keeps the master id and the capture
source leaves model, adopted master and latch as they were (R5), but that a HOLDOVER which has already lasted longer than the new limit
enters FREE, as by its timer (R5, R25, R26); at exactly the limit the command leaves it, which is deduced (log 20). One that changes
either drops an adopted master with the id and empties the latch with the source; FREE stays FREE, and any other clock is ACQUIRING on its
anchor and drift word with lock run, outlier run and settle count 0, no last sequence and the silence timer begun anew, LOCK_LOST
offered if it was LOCKED (R6, R10). That a HOLDOVER past the new limit is ACQUIRING too where master or source changes, R6 and not R5
ending it, is deduced (log 20). The fields of a CLOSED slot are 0 where R31 gives none, the model's choice (log 10). -/
def Obligations.ClockSetReplacesSettings : Prop :=
  ∀ (s : State) (x : ClockSettings), (1 ≤ x.holdoverLimit ∧ x.holdoverLimit ≤ 600) → (246 ≤ x.gate ∧ x.gate ≤ 245760) →
    (25 ≤ x.window ∧ x.window ≤ 24576) →
    let i : Instr := .clockSet x.masterId (BitVec.ofNat 8 x.source.code) (BitVec.ofNat 16 x.holdoverLimit) x.linkLatency
      x.edgeLatency (natWord x.gate) (natWord x.window)
    let keeps := x.masterId = s.clock.settings.masterId ∧ x.source = s.clock.settings.source
    let kept : State := { s with clock := { s.clock with settings := x } }
    let set : TimeBase := { s.clock with
      settings := x
      adopted := if x.masterId = s.clock.settings.masterId then s.clock.adopted else none
      latch := if x.source = s.clock.settings.source then s.clock.latch else .empty }
    let begun : State := { s with clock := { set with
      state := .acquiring, lockRun := 0, outlierRun := 0, settle := 0, lastSequence := none, silenceStart := s.localCount } }
    Taken i s →
    (keeps → s.clock.state ≠ .holdover ∨ sdiff s.localCount s.clock.holdoverStart ≤ x.holdoverLimit * 24576000 →
      exec i s = .next (kept.reply 0x40 (done []))) ∧
    (keeps → s.clock.state = .holdover → x.holdoverLimit * 24576000 < sdiff s.localCount s.clock.holdoverStart →
      ∃ t, exec i s = .next (t.reply 0x40 (done [])) ∧ EntersFree 2 kept t) ∧
    (¬ keeps → s.clock.state = .free → exec i s = .next (State.reply { s with clock := set } 0x40 (done []))) ∧
    (¬ keeps → s.clock.state = .acquiring ∨ s.clock.state = .holdover → exec i s = .next (begun.reply 0x40 (done []))) ∧
    (¬ keeps → s.clock.state = .locked →
      exec i s = .next ((offerPart .lockLost 0 begun).reply 0x40 (done [])))

/-! ## The Stream Table (chapter 2) -/

/-- OPEN on a CLOSED slot with an id not in use and room in its region: the slot is PRIMING with the context, its ring is
the lowest-numbered free blocks of the region, and the reply names the region and its reserved words (R37, R38, R33). -/
def Obligations.OpenTakesLowestBlocks : Prop :=
  ∀ (s : State) (i : Fin 8) (c : Context), contextInRange c → Taken (openCommand i c) s → (s.slot i).state = .closed →
    lookupSlot s c.streamId = none →
    let r := regionOf s.partition c.streamId
    c.ringSize ≤ regionBlocks s.partition → c.ringSize ≤ (s.freeLists[r.val]).length →
    exec (openCommand i c) s = .next (State.reply
      { s.setSlot i { state := .priming, context := some c, blocks := (s.freeLists[r.val]).take c.ringSize, queue := [],
                      origin := none, readPos := none, step := nominalStep c.rate s.output.rate, phase := 0,
                      starveCount := 0, realigns := [], run := none, traceFlag := false, faultPending := false,
                      faultSequence := (s.slot i).faultSequence, correctionDue := false } with
        freeLists := s.freeLists.set r.val ((s.freeLists[r.val]).drop c.ringSize) r.isLt }
      0x10 (done [natWord r.val,
        natWord (512 * (regionBlocks s.partition - ((s.freeLists[r.val]).length - c.ringSize)))]))

/-- OPEN refused in R37's order: STATE on an open slot, DUPLICATE for an id in use, BADREGION for a ring no region of the
mode could hold, NOSPACE for want of free blocks; nothing changes but the reply. -/
def Obligations.OpenRefusesInOrder : Prop :=
  ∀ (s : State) (i : Fin 8) (c : Context), contextInRange c → Taken (openCommand i c) s →
    ((s.slot i).state ≠ .closed → exec (openCommand i c) s = .next (s.reply 0x10 (refusal .state))) ∧
    ((s.slot i).state = .closed → lookupSlot s c.streamId ≠ none →
      exec (openCommand i c) s = .next (s.reply 0x10 (refusal .duplicate))) ∧
    ((s.slot i).state = .closed → lookupSlot s c.streamId = none → regionBlocks s.partition < c.ringSize →
      exec (openCommand i c) s = .next (s.reply 0x10 (refusal .badregion))) ∧
    ((s.slot i).state = .closed → lookupSlot s c.streamId = none → c.ringSize ≤ regionBlocks s.partition →
      (s.freeLists[(regionOf s.partition c.streamId).val]).length < c.ringSize →
      exec (openCommand i c) s = .next (s.reply 0x10 (refusal .nospace)))

/-- CLOSE and END: closing an open slot from any state returns its blocks to its region's free list and keeps its fault
sequence; END drains a PLAYING or STARVED stream, closes a PRIMING one, leaves a DRAINING one; CLOSE on a CLOSED slot and END on a
CLOSED or FROZEN one are refused STATE (R39, R40, R41). The fields of a CLOSED slot to which R31 gives no value are 0 there,
the model's choice (log 10). -/
def Obligations.CloseAndEndLetStreamsGo : Prop :=
  ∀ (s : State) (i : Fin 8),
    (∀ c, (s.slot i).context = some c →
      let r := regionOf s.partition c.streamId
      let closed : State := { s.setSlot i (Slot.closedWith (s.slot i).faultSequence) with
        freeLists := s.freeLists.set r.val (returnBlocks (s.slot i).blocks (s.freeLists[r.val])) r.isLt }
      let draining : State := s.setSlot i { s.slot i with state := .draining }
      (Taken (.closeSlot (BitVec.ofNat 16 i.val)) s → (s.slot i).state ≠ .closed →
        exec (.closeSlot (BitVec.ofNat 16 i.val)) s = .next (closed.reply 0x11 (done [natWord (s.slot i).state.code]))) ∧
      (Taken (.endStream (BitVec.ofNat 16 i.val)) s →
        ((s.slot i).state = .priming → exec (.endStream (BitVec.ofNat 16 i.val)) s = .next (closed.reply 0x12 (done [0]))) ∧
        ((s.slot i).state = .playing ∨ (s.slot i).state = .starved →
          exec (.endStream (BitVec.ofNat 16 i.val)) s = .next (draining.reply 0x12 (done [4]))) ∧
        ((s.slot i).state = .draining → exec (.endStream (BitVec.ofNat 16 i.val)) s = .next (s.reply 0x12 (done [4]))))) ∧
    (Taken (.closeSlot (BitVec.ofNat 16 i.val)) s → (s.slot i).state = .closed →
      exec (.closeSlot (BitVec.ofNat 16 i.val)) s = .next (s.reply 0x11 (refusal .state))) ∧
    (Taken (.endStream (BitVec.ofNat 16 i.val)) s → (s.slot i).state = .closed ∨ (s.slot i).state = .frozen →
      exec (.endStream (BitVec.ofNat 16 i.val)) s = .next (s.reply 0x12 (refusal .state)))

/-- CUT returns an open stream to PRIMING with an empty queue and nothing of its place left, its context, ring and fault
state kept; CLEAR does the same to a FROZEN slot and clears the pending flag; TRIM on an open slot, FROZEN included, replaces
the trim and answers the previous one. CUT on a CLOSED or FROZEN slot, CLEAR on any but a FROZEN one and TRIM on a CLOSED one are
refused STATE (R42, R43, R44, R46, R31). -/
def Obligations.CutClearAndTrimActOnOpenSlots : Prop :=
  ∀ (s : State) (i : Fin 8),
    (Taken (.cut (BitVec.ofNat 16 i.val)) s → (s.slot i).state = .closed ∨ (s.slot i).state = .frozen →
      exec (.cut (BitVec.ofNat 16 i.val)) s = .next (s.reply 0x13 (refusal .state))) ∧
    (Taken (.clear (BitVec.ofNat 16 i.val)) s → (s.slot i).state ≠ .frozen →
      exec (.clear (BitVec.ofNat 16 i.val)) s = .next (s.reply 0x14 (refusal .state))) ∧
    (∀ v : Int, (-2457600 ≤ v ∧ v ≤ 2457600) → Taken (.trim (BitVec.ofNat 16 i.val) (signedWord v)) s →
      (s.slot i).state = .closed →
      exec (.trim (BitVec.ofNat 16 i.val) (signedWord v)) s = .next (s.reply 0x15 (refusal .state))) ∧
    ∀ c : Context, (s.slot i).context = some c →
    let fresh : Slot := { s.slot i with
      state := .priming, queue := [], origin := none, readPos := none, step := nominalStep c.rate s.output.rate, phase := 0,
      starveCount := 0, realigns := [], run := none, traceFlag := false, correctionDue := false }
    (Taken (.cut (BitVec.ofNat 16 i.val)) s → (s.slot i).state ≠ .closed → (s.slot i).state ≠ .frozen →
      exec (.cut (BitVec.ofNat 16 i.val)) s = .next ((s.setSlot i fresh).reply 0x13 (done [natWord (s.slot i).state.code]))) ∧
    (Taken (.clear (BitVec.ofNat 16 i.val)) s → (s.slot i).state = .frozen →
      exec (.clear (BitVec.ofNat 16 i.val)) s = .next ((s.setSlot i { fresh with faultPending := false }).reply 0x14 (done []))) ∧
    (∀ v : Int, (-2457600 ≤ v ∧ v ≤ 2457600) → Taken (.trim (BitVec.ofNat 16 i.val) (signedWord v)) s →
      (s.slot i).state ≠ .closed →
      exec (.trim (BitVec.ofNat 16 i.val) (signedWord v)) s =
        .next ((s.setSlot i { s.slot i with context := some { c with trim := v } }).reply 0x15 (done [signedWord c.trim])))

/-- A record that names no slot, mode, entry, preset, lane, cue id, kind or tag there is, or a value outside its range, is
refused BADARG and changes nothing but the reply: OPEN's format, priority, ring size, trim and starve limit, TRIM's trim, the modes
that are not 1, 2 or 4, CLOCK-SET's source, holdover limit, gate and window, OUTPUT-SET's rate code, Ko and Rt, DUCK-SET's level,
ROUTE-PUT's slot, channel and lane and its channel against the stream open in the slot, a cue's action, target and argument, a
class, SAVE's boot preset (R5, R36, R37, R40, R41, R43, R44, R46, R112, R115 to R117, R121, R132, R133, R138, R146, R162, R163). -/
def Obligations.ArgumentsOutOfRangeAreRefused : Prop :=
  ∀ (s : State) (n m k l : BitVec 16) (a b c d : BitVec 8) (t : Time) (v w u : Word32),
    let outside := fun (lo hi x : Nat) => x < lo ∨ hi < x
    let trimBad := v.toInt < -2457600 ∨ 2457600 < v.toInt
    let formatBad := outside 1 5 (b.toNat / 16) ∨ outside 1 2 (b.toNat / 4 % 4) ∨ outside 1 2 (b.toNat % 4)
    let entryBad := 8 ≤ (v.extractLsb' 24 4).toNat ∨ 2 ≤ (v.extractLsb' 20 4).toNat ∨ 4 ≤ (v.extractLsb' 16 4).toNat
    let channelBeyond := ∃ (i : Fin 8) (x : Context), i.val = (v.extractLsb' 24 4).toNat ∧ (s.slot i).state ≠ .closed ∧
      (s.slot i).context = some x ∧ x.channels.count ≤ (v.extractLsb' 20 4).toNat
    let actionBad := outside 1 7 a.toNat ∨ ((a = 1 ∨ a = 2) ∧ 8 ≤ b.toNat) ∨ (a = 3 ∧ 16 ≤ b.toNat) ∨
      (a = 4 ∧ (4 ≤ b.toNat ∨ 16384 < m.toNat)) ∨ (a = 5 ∧ 8 ≤ m.toNat) ∨ (a = 6 ∧ 2 ≤ m.toNat) ∨ (a = 7 ∧ 3 ≤ m.toNat)
    ∀ x ∈ [((8 ≤ n.toNat ∨ formatBad ∨ 4 ≤ c.toNat ∨ outside 1 64 d.toNat ∨ trimBad ∨ outside 10 10000 m.toNat : Prop),
        Instr.openSlot n a b c d v m, (0x10 : BitVec 8)),
      (8 ≤ n.toNat, .closeSlot n, 0x11), (8 ≤ n.toNat, .endStream n, 0x12), (8 ≤ n.toNat, .cut n, 0x13),
      (8 ≤ n.toNat, .clear n, 0x14), (8 ≤ n.toNat ∨ trimBad, .trim n v, 0x15),
      (n.toNat ≠ 1 ∧ n.toNat ≠ 2 ∧ n.toNat ≠ 4, .partition n, 0x16), (16 ≤ n.toNat ∨ entryBad ∨ channelBeyond, .routePut n v, 0x20),
      (16 ≤ n.toNat, .routeDrop n, 0x21), (8 ≤ n.toNat, .routeRecall n, 0x22), (4 ≤ n.toNat ∨ 16384 < v.toNat, .duckSet n v, 0x23),
      ((w.toNat ≠ 3 ∧ w.toNat ≠ 5) ∨ 245760 < v.toNat ∨ outside 2458 983040 u.toNat, .outputSet w v u, 0x24),
      (256 ≤ n.toNat ∨ actionBad, .cueAdd n t a b m, 0x30), (256 ≤ n.toNat, .cueCancel n, 0x31),
      (2 ≤ a.toNat ∨ outside 1 600 n.toNat ∨ outside 246 245760 v.toNat ∨ outside 25 24576 w.toNat, .clockSet m a n k l v w, 0x40),
      (32 ≤ a.toNat ∨ 3 ≤ b.toNat, .classSet a b, 0x50), (8 ≤ a.toNat, .ack a b, 0x51),
      (n = 0xFFFF ∨ (8 ≤ a.toNat ∧ a ≠ 0xFF), .save n a, 0x60), (8 ≤ n.toNat, .presetPut n, 0x61)],
      x.1 → Taken x.2.1 s → exec x.2.1 s = .next (s.reply x.2.2 (refusal .badarg))

/-- PARTITION with every slot CLOSED sets the mode and frees every block of every region; with a slot open it is refused
STATE (R36). -/
def Obligations.PartitionNeedsAllClosed : Prop :=
  ∀ (s : State) (m : PartitionMode), Taken (.partition (BitVec.ofNat 16 m.regions)) s →
    ((∀ i : Fin 8, (s.slot i).state = .closed) →
      exec (.partition (BitVec.ofNat 16 m.regions)) s =
        .next (State.reply { s with partition := m, freeLists := fullFreeLists m } 0x16 (done [natWord s.partition.regions]))) ∧
    ((∃ i : Fin 8, (s.slot i).state ≠ .closed) →
      exec (.partition (BitVec.ofNat 16 m.regions)) s = .next (s.reply 0x16 (refusal .state)))

/-! ## The Renderer and the Lane Mixer (chapters 5 and 6) -/

/-- A strobe's rendering: the strobe is noted, its mix is owed, and a CLOSED or FROZEN slot is left as it was and hands nothing. A
stream with its place F, floor(F) / 2^28 being i: PLAYING with i beyond every record it is STARVED, STREAM_STARVED carrying i, and hands
zeros, its starve count as it was (R106); STARVED with i held it is PLAYING, STREAM_RESUMED carrying its starve count, then 0, else
it hands zeros and its starve count rises by 1 (R107); DRAINING with i beyond it is closed, STREAM_DRAINED carrying i, and hands nothing
(R109); else it hands one value a channel, the sample of i and of i + 1, 0 where BAD or in a gap and the former's where there is none for
the latter, joined in the ratio of F's fraction (R98, R99, R87). Then F moves on by the step, the records passed leave, CHUNK_TRACE offered
for those traced, the head is trimmed, and the phase moves on modulo 64 (R88, R100). A PRIMING one without a due time does nothing; past
the span limit it is cut, SPAN_LIMIT offered; else every record wholly before the due index leaves with CHUNK_LATE, and a head that has
come due under a LOCKED or HOLDOVER clock starts it at the due position (R90, R95, R96). A slot frozen by its own event goes no further
(R45). Where no other slot is at work the report queue is as these offers leave it. That a strobe is noted and its mix owed, its work done
in two parts, is the model's choice (log 5), and so are the fields of the CLOSED slot to which R31 gives no value (log 10), a sample
never written (log 9), and that a CHUNK_TRACE which freezes the slot finds the phase moved and leaves the starve count (log 34). -/
def Obligations.StrobeAdvancesStreams : Prop :=
  ∀ s : State, s.ringsLocated = true → s.strobeDue = true →
    ∃ t, exec (.sampleStrobe .render) s = .next t ∧ t.strobed = some s.localCount ∧ t.mixDue = true ∧ t.memory = s.memory ∧
      t.lanes = s.lanes ∧ t.clock = s.clock ∧ t.output = s.output ∧
      (∀ i : Fin 8, (s.slot i).state = .closed ∨ (s.slot i).state = .frozen →
        t.slot i = s.slot i ∧ (t.contributions[i.val]).values = none) ∧
      ∀ (i : Fin 8) (c : Context), (s.slot i).context = some c →
        let v := s.slot i
        let stored := fun (q : List ChunkRecord) (j : Int) (ch : Nat) (hold : Int) =>
          match q.find? fun r => decide (r.start ≤ j ∧ j ≤ r.endIndex) with
          | some r => if r.bad = true then 0 else sampleAt s.memory (ringAddress v.blocks (ringWord c j ch))
          | none => hold
        let value := fun (q : List ChunkRecord) (f : Int) (ch : Nat) =>
          let s0 := stored q (f / 2 ^ 28) ch 0
          let s1 := stored q (f / 2 ^ 28 + 1) ch s0
          s0 + ((s1 - s0) * ((f - f / 2 ^ 28 * 2 ^ 28) / 4096) + 32768) / 65536
        let values := fun (q : List ChunkRecord) (f : Int) => some ((List.range c.channels.count).map (value q f))
        let zeros : Option (List Int) := some (List.replicate c.channels.count 0)
        let advanced := fun (u : State) (f : Int) =>
          let w := u.slot i
          let p := (f + w.step) / 2 ^ 28
          let passed := w.queue.filter fun r => decide (r.endIndex < p)
          let kept := w.queue.filter fun r => !decide (r.endIndex < p)
          let trimmed := match kept with
            | r :: rest => (if r.start < p then { r with start := p, count := r.count - (p - r.start).toNat } else r) :: rest
            | [] => []
          offerEach .chunkTrace i ((passed.filter (·.trace)).map fun r => r.sequence.setWidth 32) (u.setSlot i { w with
            readPos := some (f + w.step), queue := trimmed, phase := (w.phase + 1) % 64
            correctionDue := decide ((w.phase + 1) % 64 = 0) })
        let gives := fun (u : State) (handed : Option (List Int)) =>
          t.slot i = u.slot i ∧ (t.contributions[i.val]).values = handed ∧
            ((∀ j, j ≠ i → (s.slot j).state = .closed ∨ (s.slot j).state = .frozen) →
              t.reports = u.reports ∧ t.lostMark = u.lostMark)
        let plays := fun (u : State) (st : SlotState) (f : Int) (handed : Option (List Int)) =>
          if (u.slot i).state = st then gives (advanced u f) handed else gives u none
        (∀ f, v.readPos = some f →
          let p := f / 2 ^ 28
          let held := ∃ r ∈ v.queue, r.start ≤ p ∧ p ≤ r.endIndex
          let beyond := ∀ r ∈ v.queue, r.endIndex < p
          (v.state = .playing → ¬ beyond → gives (advanced s f) (values v.queue f)) ∧
          (v.state = .playing → beyond →
            plays (offerSlot .streamStarved i (clamp32 p) (s.setSlot i { v with state := .starved })) .starved f zeros) ∧
          (v.state = .starved → held →
            plays (offerSlot .streamResumed i (natWord v.starveCount) (s.setSlot i { v with state := .playing, starveCount := 0 }))
              .playing f (values v.queue f)) ∧
          (v.state = .starved → ¬ held →
            let u := advanced s f
            gives (if (u.slot i).state = .starved then
              u.setSlot i { u.slot i with starveCount := (u.slot i).starveCount + 1 } else u) zeros) ∧
          (v.state = .draining → ¬ beyond → gives (advanced s f) (values v.queue f)) ∧
          (v.state = .draining → beyond →
            gives (offerSlot .streamDrained i (clamp32 p) (s.setSlot i (Slot.closedWith v.faultSequence))) none)) ∧
        (v.state = .priming → v.readPos = none →
          (v.origin = none ∨ s.houseTime = none → gives s none) ∧
          ∀ o h, v.origin = some o → s.houseTime = some h →
            let d := addSpan (addSpan h s.output.ko) (-c.trim)
            let position := sdiff d o * c.rate.hz / 375
            let due := position / 65536
            let nominal := nominalStep c.rate s.output.rate
            let late := v.queue.filter fun r => decide (r.endIndex < due)
            let left := v.queue.filter fun r => !decide (r.endIndex < due)
            let primed := offerEach .chunkLate i (late.map fun r => r.sequence.setWidth 32) (s.setSlot i { v with queue := left })
            (2 ^ 46 ≤ sdiff d o → gives (offerSlot .spanLimit i 0 (s.setSlot i { v with
              state := .priming, queue := [], origin := none, readPos := none, step := nominal, phase := 0, starveCount := 0
              realigns := [], run := none, traceFlag := false, correctionDue := false })) none) ∧
            (sdiff d o < 2 ^ 46 →
              ((primed.slot i).state = .frozen ∨ (s.clock.state ≠ .locked ∧ s.clock.state ≠ .holdover) ∨ left = [] ∨
                  (∃ r, left.head? = some r ∧ due < r.start) → gives primed none) ∧
              ((primed.slot i).state = .priming → s.clock.state = .locked ∨ s.clock.state = .holdover →
                ∀ r rest, left = r :: rest → r.start ≤ due →
                  let f := position * 4096
                  let head := if r.start < due then { r with start := due, count := r.count - (due - r.start).toNat } else r
                  plays (offerSlot .streamStarted i (clamp32 due) (primed.setSlot i { primed.slot i with
                      state := .playing, readPos := some f, queue := head :: rest
                      step := nominal + (nominal * s.clock.epsilon).tdiv (2 ^ 32), phase := 0, starveCount := 0 }))
                    .playing f (values (head :: rest) f))))

/-- A strobe's mix, from the entries live as the Renderer left the slots. For each lane: the lane priority is the highest among
the PLAYING streams with a live entry; the ceiling becomes it where the duck gain is 16,384 and stays otherwise; the target is the duck
level where the two are equal and present and a stream that can be ducked lies below, 16,384 otherwise (R118, R119); the duck gain moves
to the target by at most 16, its level stays (R120, R121); the value is the sum of the live entries' contributions, each scaled by its
gain and, below the ceiling, by the duck gain, held within 24 bits (R122); and the lane sends the value formed before (R123). What each
stream handed stands in the model's own field; a stream cut or frozen after it handed its values is still summed, and one so frozen is
scaled by the duck gain as its priority says (R122), though a FROZEN stream cannot be ducked (R118): the model's choice (log 5, log 8). -/
def Obligations.MixFormsLaneValues : Prop :=
  ∀ s : State, s.ringsLocated = true → s.mixDue = true →
    ∃ t, exec (.sampleStrobe .mix) s = .next t ∧ t.mixDue = false ∧ t.memory = s.memory ∧
      ∀ l : Fin 4,
        let handed := fun (r : Route) => (settleAll s).contributions[r.slot.val]
        let live := s.routes.toList.filterMap fun e => e.filter fun r =>
          decide (r.lane = l ∧ (handed r).state ≠ .closed ∧ r.channel.val < (handed r).channels)
        let priority := ((live.filter fun r => decide ((handed r).state = .playing)).map fun r => (handed r).priority).max?
        let old := s.lanes[l.val]
        let new := t.lanes[l.val]
        let ceiling := if old.gain = 16384 then priority else old.ceiling
        let below := fun (r : Route) => ceiling.any fun p => decide ((handed r).priority < p)
        let target := if priority = ceiling ∧ ∃ r ∈ live, (handed r).state ≠ .frozen ∧ below r = true then old.level else 16384
        let gain := if old.gain + 16 < target then old.gain + 16 else if target + 16 < old.gain then old.gain - 16 else target
        let sum : Int := (live.filterMap fun r => (handed r).values.map fun vs =>
          let v : Int := (vs.getD r.channel.val 0 * r.gain.toNat + 8192) / 16384
          if below r = true then (v * gain + 8192) / 16384 else v).sum
        new.ceiling = ceiling ∧ new.gain = gain ∧ new.level = old.level ∧ new.sending = old.value ∧
        new.value = max (-8388608) (min 8388607 sum) ∧ new.gain ≤ old.gain + 16 ∧ old.gain ≤ new.gain + 16

/-- A PRIMING stream starts at a strobe where its due index has reached its head under a LOCKED or HOLDOVER clock: PLAYING
with F at the due position, the step N plus the clock term, and STREAM_STARTED offered (R96). Stated where no record is
wholly late; that the start opens the strobe's cue pass is the model's choice (log 12). -/
def Obligations.StreamStartsWhenDue : Prop :=
  ∀ (s : State) (i : Fin 8) (c : Context) (o d : Time) (h : ChunkRecord) (rest : List ChunkRecord),
    s.strobeDue = true → (s.slot i).state = .priming → (s.clock.state = .locked ∨ s.clock.state = .holdover) →
    dueOf s i s.localCount = some (c, o, d) → sdiff d o < 2 ^ 46 → (s.slot i).readPos = none →
    (s.slot i).queue = h :: rest → (∀ r ∈ h :: rest, dueIndex c.rate o d ≤ r.endIndex) → h.start ≤ dueIndex c.rate o d →
    let f := duePosition c.rate o d * 4096
    let n := nominalStep c.rate s.output.rate
    exec (.streamStarted i) s = .next (State.openPass (offerSlot .streamStarted i (clamp32 (floorF f)) (s.setSlot i { s.slot i with
      state := .playing, readPos := some f, queue := rebase c (some h.start) (floorF f) (h :: rest),
      step := n + clockTerm n s.clock.epsilon, phase := 0, starveCount := 0 })))

/-- A STARVED stream whose index is held again is PLAYING, its starve count 0, and STREAM_RESUMED carries the count; a
DRAINING stream whose index is beyond every record is closed, its blocks free again, then STREAM_DRAINED is offered with the index
(R107, R109, R39). That either opens the strobe's cue pass is the model's choice (log 12), and so are the fields of the CLOSED slot
to which R31 gives no value (log 10). -/
def Obligations.StarvedResumesDrainedCloses : Prop :=
  ∀ (s : State) (i : Fin 8) (f : Int), s.strobeDue = true → (s.slot i).readPos = some f →
    (∀ r, (s.slot i).state = .starved → findIndex (s.slot i).queue (floorF f) = .held r →
      exec (.streamResumed i) s = .next (State.openPass (offerSlot .streamResumed i (natWord (s.slot i).starveCount)
        (s.setSlot i { s.slot i with state := .playing, starveCount := 0 })))) ∧
    ((s.slot i).state = .draining → findIndex (s.slot i).queue (floorF f) = .beyond →
      (∃ t, exec (.streamDrained i) s = .next t ∧ t.slot i = Slot.closedWith (s.slot i).faultSequence ∧
        (∀ j, j ≠ i → t.slot j = s.slot j) ∧ t.memory = s.memory) ∧
      ∀ c, (s.slot i).context = some c →
        let r := regionOf s.partition c.streamId
        exec (.streamDrained i) s = .next (State.openPass (offerSlot .streamDrained i (clamp32 (floorF f))
          { s.setSlot i (Slot.closedWith (s.slot i).faultSequence) with
            freeLists := s.freeLists.set r.val (returnBlocks (s.slot i).blocks (s.freeLists[r.val])) r.isLt })))

/-- A STARVED stream whose starve count has reached its limit is cut, and then STARVE_LIMIT carries the count (R108, R42). By the
event's class the offer does nothing, is noted, is a first fault, or, with a fault pending, a second one that leaves the slot FROZEN
(R139, R143, R144, R45); the record joins a queue with room. The state the slot is left in is what the strobe's mix reads of it, the
values it handed stand (the model's choice, log 5). A stream short of its limit is left alone. -/
def Obligations.StarveLimitCuts : Prop :=
  ∀ (s : State) (i : Fin 8) (c : Context), s.mixDue = true → (s.slot i).state = .starved → (s.slot i).context = some c →
    let v := s.slot i
    let limit : Int := c.starveLimit * s.output.rate.hz / 1000
    let cut : Slot := { v with
      state := .priming, queue := [], origin := none, readPos := none, step := nominalStep c.rate s.output.rate, phase := 0,
      starveCount := 0, realigns := [], run := none, traceFlag := false, correctionDue := false }
    let t := offerSlot .starveLimit i (natWord v.starveCount) (s.setSlot i cut)
    let cls := s.classOf .starveLimit
    (v.starveCount < limit → exec (.starveLimit i) s = .next s) ∧
    (limit ≤ v.starveCount → exec (.starveLimit i) s = .next { t with
      contributions := s.contributions.set i.val {
        state := (t.slot i).state, priority := c.priority, channels := c.channels.count
        values := (s.contributions[i.val]).values } i.isLt }) ∧
    (cls = .ignore → t = s.setSlot i cut) ∧
    (cls = .note → t.slots = (s.setSlot i cut).slots) ∧
    (cls = .fault → t.slots = (s.setSlot i (
      if v.faultPending = true then { cut with state := .frozen }
      else { cut with faultPending := true, faultSequence := v.faultSequence + 1 })).slots) ∧
    (cls ≠ .ignore → s.reports.length < 16 → t.lostMark = false ∧ t.reports = s.reports ++ [{
      kind := .starveLimit, isFault := decide (cls = .fault), slot := some i, localCount := s.localCount, houseTime := s.houseTime
      detail := natWord v.starveCount, cue := none, lost := s.lostMark
      faultSequence := if cls = .fault then some (if v.faultPending = true then v.faultSequence else v.faultSequence + 1) else none
      frozen := decide (cls = .fault) && v.faultPending }])

/-- A correction point, PLAYING or STARVED. Within the resync limit the step becomes N plus the clock term plus the slew, 16
times the error held within N / 2,048, and nothing else of the slot changes (R101, R102). Beyond it the stream realigns: F is the due
position of the strobe that follows, the queue is re-based on it, the step is N plus the clock term, the time joins the last four
realigns, and REALIGN carries the error (R103); where four were held and the oldest lies within a second, REALIGN_STORM follows with
that span (R104). That a correction owed is a mark of the slot's, here cleared, is the model's choice (log 5). -/
def Obligations.CorrectionSlewsStep : Prop :=
  ∀ (s : State) (i : Fin 8) (c : Context) (o d : Time) (f : Int), s.mixDue = true → correctionOwed s i = true →
    (s.slot i).readPos = some f → dueOf s i (nextStrobeCount s) = some (c, o, d) →
    ((s.slot i).state = .playing → sdiff d o < 2 ^ 46) →
    let v := s.slot i
    let p := duePosition c.rate o d
    let err := p - f.tdiv 4096
    let n := nominalStep c.rate s.output.rate
    let clock := (n * s.clock.epsilon).tdiv (2 ^ 32)
    (|err| ≤ s.output.rt * c.rate.hz / 375 →
      ∃ t, exec (.correctionPoint i) s = .next t ∧
        t.slot i = { v with
          correctionDue := false, step := n + clock + max (-(n.tdiv 2048)) (min (n.tdiv 2048) (err * 16)) } ∧
        (∀ j, j ≠ i → t.slot j = s.slot j) ∧ t.reports = s.reports ∧ t.memory = s.memory) ∧
    (s.output.rt * c.rate.hz / 375 < |err| →
      let realigned := offerSlot .realign i (clamp32 err) (s.setSlot i { v with
        correctionDue := false, readPos := some (p * 4096), queue := rebase c (baseOf v) (floorF (p * 4096)) v.queue
        step := n + clock, realigns := (v.realigns ++ [d]).drop (v.realigns.length - 3) })
      let after := match v.realigns with
        | [w, _, _, _] =>
          if |sdiff d w| ≤ 24576000 then offerSlot .realignStorm i (signedWord (sdiff d w)) realigned else realigned
        | _ => realigned
      ∃ t, exec (.correctionPoint i) s = .next t ∧ t = { after with contributions := t.contributions })

/-- A PRIMING stream at a strobe, or a PLAYING stream at its correction point, whose due time lies 2^46 ticks or more past its
origin is cut: PRIMING, its queue empty, origin, F and run absent, its step nominal, its counts and histories cleared, its context, ring
and fault state kept. Then SPAN_LIMIT is offered with detail 0, and nothing else changes (R42, R95, R105) but that the first opens the
strobe's cue pass and the second notes the slot's state for the mix, the model's choice (log 5, log 12). Short of 2^46 nothing
happens. -/
def Obligations.SpanLimitCuts : Prop :=
  ∀ (s : State) (i : Fin 8) (c : Context) (o d : Time),
    let cut : Slot := { s.slot i with
      state := .priming, queue := [], origin := none, readPos := none, step := nominalStep c.rate s.output.rate, phase := 0,
      starveCount := 0, realigns := [], run := none, traceFlag := false, correctionDue := false }
    let t := offerSlot .spanLimit i 0 (s.setSlot i cut)
    (s.strobeDue = true → (s.slot i).state = .priming → dueOf s i s.localCount = some (c, o, d) →
      (2 ^ 46 ≤ sdiff d o → exec (.spanLimit i) s = .next t.openPass) ∧
      (sdiff d o < 2 ^ 46 → exec (.spanLimit i) s = .next s)) ∧
    (s.mixDue = true → (s.slot i).state = .playing → (s.slot i).correctionDue = true →
      dueOf s i (nextStrobeCount s) = some (c, o, d) →
      (2 ^ 46 ≤ sdiff d o → exec (.spanLimit i) s = .next { t with
        contributions := s.contributions.set i.val {
          state := (t.slot i).state, priority := c.priority, channels := c.channels.count
          values := (s.contributions[i.val]).values } i.isLt }) ∧
      (sdiff d o < 2 ^ 46 → exec (.spanLimit i) s = .next s))

/-- ROUTE-PUT refuses a channel that the stream open in the slot does not have, BADARG, and then a slot, channel and lane that
another entry has, DUPLICATE; else it writes its one entry and answers what it held. ROUTE-DROP makes a used entry unused and answers
it; of an unused one it is refused NOTFOUND (R115, R116). The results are the entry's word, the model's choice (log 14). -/
def Obligations.RoutePutAndDropEditEntries : Prop :=
  ∀ (s : State) (e : Fin 16),
    (∀ r : Route, Taken (.routePut (BitVec.ofNat 16 e.val) (routeWord (some r))) s →
      let channelFits := ∀ c, (s.slot r.slot).state ≠ .closed → (s.slot r.slot).context = some c → r.channel.val < c.channels.count
      let alike := ∃ x : Fin 16, x ≠ e ∧ ∃ q, s.routes[x.val] = some q ∧ q.slot = r.slot ∧ q.channel = r.channel ∧ q.lane = r.lane
      (¬ channelFits →
        exec (.routePut (BitVec.ofNat 16 e.val) (routeWord (some r))) s = .next (s.reply 0x20 (refusal .badarg))) ∧
      (channelFits → alike →
        exec (.routePut (BitVec.ofNat 16 e.val) (routeWord (some r))) s = .next (s.reply 0x20 (refusal .duplicate))) ∧
      (channelFits → ¬ alike →
        exec (.routePut (BitVec.ofNat 16 e.val) (routeWord (some r))) s =
          .next (State.reply { s with routes := s.routes.set e.val (some r) e.isLt } 0x20 (done [routeWord s.routes[e.val]])))) ∧
    (Taken (.routeDrop (BitVec.ofNat 16 e.val)) s →
      (s.routes[e.val] = none → exec (.routeDrop (BitVec.ofNat 16 e.val)) s = .next (s.reply 0x21 (refusal .notfound))) ∧
      ∀ r, s.routes[e.val] = some r →
        exec (.routeDrop (BitVec.ofNat 16 e.val)) s =
          .next (State.reply { s with routes := s.routes.set e.val none e.isLt } 0x21 (done [routeWord (some r)])))

/-- ROUTE-RECALL begins a preset read from IDLE; from WRITING it suspends the write, with what has passed of its wait, beneath the
read, to be decided by the next report; in every other state of the Image Port it is answered BUSY. The route table is left as it is
(R117, R165, R166; that a report decides whether to suspend is the model's choice, log 13). -/
def Obligations.RouteRecallBeginsRead : Prop :=
  ∀ (s : State) (p : Fin 8),
    let i : Instr := .routeRecall (BitVec.ofNat 16 p.val)
    let read : PresetRead := { preset := p, dest := .live }
    let begun := fun (port : Port) => State.reply { s with port := port, flashOut := [.statusPoll] } 0x22 (acceptedWith [])
    Taken i s →
    (s.port = .idle → exec i s = .next (begun (.reading read (.waiting false s.localCount)))) ∧
    (∀ w, s.port = .writing w →
      exec i s = .next (begun (.suspended w (sdiff s.localCount w.since) false read (.deciding s.localCount)))) ∧
    (s.port ≠ .idle → (∀ w, s.port ≠ .writing w) → exec i s = .next (s.reply 0x22 busyAnswer))

/-- DUCK-SET replaces a lane's duck level and answers the previous level and the gain at that moment (R121). -/
def Obligations.DuckSetReplacesLevel : Prop :=
  ∀ (s : State) (l : Fin 4) (v : Nat), v ≤ 16384 → Taken (.duckSet (BitVec.ofNat 16 l.val) (natWord v)) s →
    exec (.duckSet (BitVec.ofNat 16 l.val) (natWord v)) s =
      .next ((s.setLane l { s.lanes[l.val] with level := v }).reply 0x23
        (done [natWord (s.lanes[l.val]).level, natWord (s.lanes[l.val]).gain]))

/-- OUTPUT-SET replaces the three settings and answers the previous ones, the rate as its code (the model's choice, log 14);
a change of rate with a slot open is refused STATE (R112). Nothing else changes: the divider that governs the strobe is the old one
until the new one's first multiple (R113; the rate kept for it is the model's choice, log 19). -/
def Obligations.OutputSetReplacesSettings : Prop :=
  ∀ (s : State) (x : OutputSettings), x.ko ≤ 245760 → (2458 ≤ x.rt ∧ x.rt ≤ 983040) →
    let i : Instr := .outputSet (natWord x.rate.code) (natWord x.ko) (natWord x.rt)
    Taken i s →
    (x.rate = s.output.rate ∨ (∀ j : Fin 8, (s.slot j).state = .closed) →
      exec i s = .next (State.reply { s with output := x } 0x24
        (done [natWord s.output.rate.code, natWord s.output.ko, natWord s.output.rt]))) ∧
    (x.rate ≠ s.output.rate → (∃ j : Fin 8, (s.slot j).state ≠ .closed) → exec i s = .next (s.reply 0x24 (refusal .state)))

/-! ## The Cue Unit (chapter 7) -/

/-- CUE-ADD of any action, taken. An id already held is refused DUPLICATE, a full table FULL, a time more than 2^40 ahead FAR
(R132). Otherwise the entry joins after the entries whose fire time is at or before its own and before the first later one, late if
its time has passed, and in an ordered table of times that lie near one another it stands before every later one and the order is
kept (R125; where times go round the clock the place is the model's choice, log 31). The reply counts the entries, DONE. A RECALL is
answered BUSY where one is held or the Image Port reads already; else its staged table is FILLING, the read is begun, from WRITING by
suspending, and the reply is ACCEPTED (R132, R134, R165, R166). -/
def Obligations.CueAddKeepsTableOrder : Prop :=
  ∀ (s : State) (id u : BitVec 8) (w : BitVec 16) (fire : Time) (act : CueAction),
    let x : Cue := { id := id, fireTime := fire, action := act,
                     late := s.acousticTime.any fun a => decide (sdiff fire a ≤ 0) }
    let coded : BitVec 8 × BitVec 8 × BitVec 16 := match act with
      | .cut i => (1, BitVec.ofNat 8 i.val, w)
      | .ending i => (2, BitVec.ofNat 8 i.val, w)
      | .gain e g => (3, BitVec.ofNat 8 e.val, g)
      | .duck l v => (4, BitVec.ofNat 8 l.val, BitVec.ofNat 16 v)
      | .recall p => (5, u, BitVec.ofNat 16 p.val)
      | .mute b => (6, u, if b then 1 else 0)
      | .mark m => (7, u, match m with | .low => 0 | .high => 1 | .toggle => 2)
    let i : Instr := .cueAdd (id.setWidth 16) fire coded.1 coded.2.1 coded.2.2
    let held := ∃ c ∈ s.cues, c.id = id
    let far := ∃ a, s.acousticTime = some a ∧ 2 ^ 40 < sdiff fire a
    Taken i s → x.levelSound →
    (held → exec i s = .next (s.reply 0x30 (refusal .duplicate))) ∧
    (¬ held → 16 ≤ s.cues.length → exec i s = .next (s.reply 0x30 (refusal .full))) ∧
    (¬ held → s.cues.length < 16 → far → exec i s = .next (s.reply 0x30 (refusal .far))) ∧
    (¬ held → s.cues.length < 16 → ¬ far →
      ∃ before after : List Cue, s.cues = before ++ after ∧ (∀ c ∈ before, sdiff c.fireTime fire ≤ 0) ∧
        (∀ c, after.head? = some c → 0 < sdiff c.fireTime fire) ∧
        let added : State := { s with cues := before ++ x :: after }
        let count : List Word32 := [natWord (s.cues.length + 1)]
        (cuesOrdered s → timesNear (x :: s.cues) → (∀ c ∈ after, 0 < sdiff c.fireTime fire) ∧ cuesOrdered added) ∧
        (x.isRecall = false → exec i s = .next (added.reply 0x30 (done count))) ∧
        ∀ p, act = .recall p →
          let read : PresetRead := { preset := p, dest := .staged }
          let begun := fun (port : Port) => State.reply { added with staged := .filling, port := port, flashOut := [.statusPoll] }
            0x30 (acceptedWith count)
          ((∃ c ∈ s.cues, c.isRecall = true) → exec i s = .next (s.reply 0x30 busyAnswer)) ∧
          ((∀ c ∈ s.cues, c.isRecall = false) →
            (s.port = .idle → exec i s = .next (begun (.reading read (.waiting false s.localCount)))) ∧
            (∀ wr, s.port = .writing wr → exec i s = .next (begun
              (.suspended wr (sdiff s.localCount wr.since) false read (.deciding s.localCount)))) ∧
            (∀ r ph, s.port = .reading r ph → exec i s = .next (s.reply 0x30 busyAnswer)) ∧
            ∀ wr el b r ph, s.port = .suspended wr el b r ph → exec i s = .next (s.reply 0x30 busyAnswer)))

/-- CUE-CANCEL takes the entry of that id out of the table without an event, releases the staged table of a RECALL, and
answers its action and fire time, the action as its code (R133; the result's layout is the model's choice, log 14). A pass of a strobe
still open fires it no more (R133; the pass is the model's, log 12). An id that no entry holds is refused NOTFOUND (R133). -/
def Obligations.CueCancelRemovesEntry : Prop :=
  ∀ (s : State) (id : BitVec 8), Taken (.cueCancel (id.setWidth 16)) s →
    ((∀ c ∈ s.cues, c.id ≠ id) → exec (.cueCancel (id.setWidth 16)) s = .next (s.reply 0x31 (refusal .notfound))) ∧
    ∀ c ∈ s.cues, c.id = id → (∀ d ∈ s.cues, d.id = id → d = c) →
      exec (.cueCancel (id.setWidth 16)) s = .next (State.reply { s with
        cues := s.cues.filter (fun d => !decide (d.id = id)), staged := if c.isRecall then .free else s.staged
        cuePass := s.cuePass.map fun p => { p with due := p.due.filter fun n => !decide (n = id) } }
        0x31 (done (natWord c.action.code :: timeWords c.fireTime)))

/-- A strobe's pass through the cue table. With no pass open, at a strobe whose acoustic time exists, the entries to fire are those
from the front to the first not due, a RECALL whose staged table is not READY passed over; in FREE, and with none left to fire,
nothing happens (R129, R134). The entry in front leaves the table and its action alone is applied, void where R126 or R127 says so: a
CUT cuts its slot; an END drains a PLAYING or STARVED one, closes a PRIMING one, its blocks free again, and leaves a DRAINING one; then
CUE_LATE is offered if it is late by its mark or by an output period, and then CUE_VOID or CUE_FIRED (R126 to R130, R134). That a pass
is compared once and then fires entry by entry is the model's choice (log 12), and so is the strobe divider by which lateness is
judged (log 19) and what a CLOSED slot holds where R31 gives no value (log 10). -/
def Obligations.DueCueActs : Prop :=
  ∀ s : State,
    (s.cuePass = none → s.strobeDue = true → ∀ a, s.acousticTime = some a →
      s.cueWork = some { acoustic := a, due :=
        ((s.cues.takeWhile fun c => decide (sdiff c.fireTime a ≤ 0)).filter fun c =>
          !(c.isRecall && match s.staged with | .ready _ => false | _ => true)).map (·.id) }) ∧
    (s.cuePass = none → s.acousticTime = none → exec .cueFire s = .next s) ∧
    (∀ a, s.cueWork = some { acoustic := a, due := [] } → exec .cueFire s = .next s) ∧
    ∀ (a : Time) (c : Cue) (ids : List (BitVec 8)), s.cueWork = some { acoustic := a, due := c.id :: ids } →
      c ∈ s.cues → (∀ d ∈ s.cues, d.id = c.id → d = c) → (c.isRecall = true → ∃ t, s.staged = .ready t) →
      let void : Bool := match c.action with
        | .cut i | .ending i => decide ((s.slot i).state = .closed ∨ (s.slot i).state = .frozen)
        | .gain e _ => (s.routes[e.val]).isNone
        | .duck _ _ | .recall _ | .mute _ | .mark _ => false
      let late := c.late = true ∨ sdiff c.fireTime a ≤ -(s.strobeRate.divider : Int)
      let base : State := { s with
        cues := s.cues.filter (fun d => !decide (d.id = c.id)), cuePass := some { acoustic := a, due := ids } }
      ∃ x : State, exec .cueFire s = .next (offerCue (if void = true then .cueVoid else .cueFired) c 0
          (if late then offerCue .cueLate c (clamp32 (sdiff a c.fireTime)) x else x)) ∧
        (void = true → x = base) ∧
        (void = false →
          match c.action with
          | .mute b => x = { base with mute := b }
          | .mark m => x = { base with mark := match m with | .low => false | .high => true | .toggle => !s.mark }
          | .gain e g => x = { base with
              routes := s.routes.set e.val ((s.routes[e.val]).map fun r => { r with gain := g }) e.isLt }
          | .duck l v => x = { base with lanes := s.lanes.set l.val { s.lanes[l.val] with level := v } l.isLt }
          | .recall _ => ∀ r, s.staged = .ready r → x = { base with routes := r, staged := .free }
          | .cut i => ∀ k, (s.slot i).context = some k → x = base.setSlot i { s.slot i with
              state := .priming, queue := [], origin := none, readPos := none, step := nominalStep k.rate s.output.rate
              phase := 0, starveCount := 0, realigns := [], run := none, traceFlag := false, correctionDue := false }
          | .ending i =>
            ((s.slot i).state = .playing ∨ (s.slot i).state = .starved →
              x = base.setSlot i { s.slot i with state := .draining }) ∧
            ((s.slot i).state = .draining → x = base) ∧
            ((s.slot i).state = .priming → ∀ k, (s.slot i).context = some k →
              let r := regionOf s.partition k.streamId
              x = { base.setSlot i (Slot.closedWith (s.slot i).faultSequence) with
                freeLists := s.freeLists.set r.val (returnBlocks (s.slot i).blocks (s.freeLists[r.val])) r.isLt }))

/-! ## The Report Unit (chapter 8) -/

/-- A first fault: a FAULT-class offer to a slot that is not CLOSED and has no fault pending counts the sequence up by 1
modulo 256, sets the flag, leaves the slot otherwise as it was, and queues a fault record with the event's kind, detail and
times, the new sequence and a clear frozen mark (R143). -/
def Obligations.FirstFaultIsNumbered : Prop :=
  ∀ (s : State) (k : EventKind) (i : Fin 8) (d : Word32), s.classOf k = .fault → (s.slot i).state ≠ .closed →
    (s.slot i).faultPending = false →
    offerSlot k i d s =
      queueFault { kind := k, isFault := true, slot := some i, localCount := s.localCount, houseTime := s.houseTime,
                   detail := d, cue := none, lost := false, faultSequence := some ((s.slot i).faultSequence + 1),
                   frozen := false }
        (s.setSlot i { s.slot i with faultPending := true, faultSequence := (s.slot i).faultSequence + 1 })

/-- A second fault, while one is pending: sequence and flag stay; a slot that is PRIMING, PLAYING, STARVED or DRAINING
becomes FROZEN and loses its run, a FROZEN one stays as it is; and a fault record is queued with the pending sequence and the
frozen mark (R144, R45). -/
def Obligations.SecondFaultFreezes : Prop :=
  ∀ (s : State) (k : EventKind) (i : Fin 8) (d : Word32), s.classOf k = .fault → (s.slot i).faultPending = true →
    let r : Report := { kind := k, isFault := true, slot := some i, localCount := s.localCount, houseTime := s.houseTime,
                        detail := d, cue := none, lost := false, faultSequence := some (s.slot i).faultSequence,
                        frozen := true }
    ((s.slot i).state ≠ .closed → (s.slot i).state ≠ .frozen →
      offerSlot k i d s = queueFault r (s.setSlot i { s.slot i with state := .frozen, run := none })) ∧
    ((s.slot i).state = .frozen → offerSlot k i d s = queueFault r s)

/-- The report queue. An event whose class is IGNORE changes nothing. One of class NOTE, and one of class FAULT that is a part event,
a cue event or bound to a CLOSED slot, is noted: its record has its kind, its slot or its cue's action and id, the local count and the
house time now, the detail, no fault sequence and a clear frozen mark; it joins a queue of fewer than 16 at the newest end, carrying the
lost mark, which is then clear, and at 16 it is dropped and the mark is set (R137, R139, R140, R141, R145). A fault record joins a
queue of fewer than 16 alike; one that meets a full queue: the newest NOTE of positions 9 to 16 leaves and the fault joins at the newest
end with the lost mark, which is then clear; where all of those are fault records it is dropped and the mark is set. The
eight oldest records and everything else stay as they were (R142). -/
def Obligations.FaultSparesOldestReports : Prop :=
  (∀ (s : State) (k : EventKind) (i : Fin 8) (c : Cue) (d : Word32),
    let cls := s.classes[k.number.val]
    let noted := fun (slot : Option (Fin 8)) (tag : Option CueTag) =>
      let r : Report := { kind := k, isFault := false, slot := slot, localCount := s.localCount, houseTime := s.houseTime
                          detail := d, cue := tag, lost := s.lostMark, faultSequence := none, frozen := false }
      if s.reports.length < 16 then { s with reports := s.reports ++ [r], lostMark := false } else { s with lostMark := true }
    (cls = .ignore → offerPart k d s = s ∧ offerSlot k i d s = s ∧ offerCue k c d s = s) ∧
    (cls = .note ∨ (cls = .fault ∧ (s.slot i).state = .closed) → offerSlot k i d s = noted (some i) none) ∧
    (cls ≠ .ignore → offerPart k d s = noted none none ∧
      offerCue k c d s = noted none (some { action := BitVec.ofNat 4 c.action.code, id := c.id }))) ∧
  ∀ (r : Report) (s : State),
    (s.reports.length < 16 →
      queueFault r s = { s with reports := s.reports ++ [{ r with lost := s.lostMark }], lostMark := false }) ∧
    (s.reports.length = 16 →
      (∀ before after note, s.reports.drop 8 = before ++ note :: after → note.isFault = false →
        (∀ q ∈ after, q.isFault = true) →
        queueFault r s =
          { s with reports := s.reports.take 8 ++ before ++ after ++ [{ r with lost := true }], lostMark := false }) ∧
      ((∀ q ∈ s.reports.drop 8, q.isFault = true) → queueFault r s = { s with lostMark := true }))

/-- CLASS-SET gives a kind its new class and answers the previous one; ACK of the pending sequence clears the flag and
answers the slot's state, any other ACK is refused NOTFOUND with the flag and the sequence (R138, R146). -/
def Obligations.ClassSetAndAckAnswer : Prop :=
  ∀ (s : State) (k : Fin 32) (c : EventClass) (i : Fin 8) (q : BitVec 8),
    (Taken (.classSet (BitVec.ofNat 8 k.val) (BitVec.ofNat 8 c.code)) s →
      exec (.classSet (BitVec.ofNat 8 k.val) (BitVec.ofNat 8 c.code)) s =
        .next (State.reply { s with classes := s.classes.set k.val c k.isLt } 0x50 (done [natWord (s.classes[k.val]).code]))) ∧
    (Taken (.ack (BitVec.ofNat 8 i.val) q) s →
      exec (.ack (BitVec.ofNat 8 i.val) q) s = .next (
        if (s.slot i).faultPending = true ∧ (s.slot i).faultSequence = q then
          (s.setSlot i { s.slot i with faultPending := false }).reply 0x51 (done [natWord (s.slot i).state.code])
        else
          s.reply 0x51 (refusedWith .notfound
            [if (s.slot i).faultPending then 1 else 0, (s.slot i).faultSequence.setWidth 32])))

/-! ## The Command Interpreter (chapter 9) -/

/-- IDENTIFY, CLOCK-HISTORY and, between strobes, SNAPSHOT answer and change nothing else. CLOCK-HISTORY's 72 words are the Time
Base's state and its capture window, oldest first and zero-filled to eight records; SNAPSHOT's 54 the clock, the counts and six words
a slot, an absent value zero (R154, R16, R155, R170). A SNAPSHOT taken while a strobe's work is in progress is read once the
Renderer, the Lane Mixer and the Cue Unit have finished it, as their own commands would (R156; that a begun pass counts as work in
progress is the model's choice, log 12). -/
def Obligations.QueriesChangeNothing : Prop :=
  ∀ s : State,
    let flag := fun (b : Bool) (n : Nat) => if b = true then n else 0
    let record := fun (r : CaptureRecord) =>
      [natWord (r.verdict.code * 16777216 + flag r.lc.isSome 131072 + flag r.error.isSome 65536 + r.master.toNat),
       r.sequence.setWidth 32] ++ timeWords (r.lc.getD 0) ++ timeWords r.ht ++ signedWords (r.error.getD 0)
    let c := s.clock
    let master := if c.settings.masterId = 0 then c.adopted else some c.settings.masterId
    let slot := fun (v : Slot) =>
      if v.state = .closed then [bytesWord 0 0 0 0, 0, 0, 0, 0, 0]
      else [bytesWord v.state.code v.queue.length 0 (flag v.readPos.isSome 4 + flag v.queue.head?.isSome 2 + 1)]
        ++ signedWords ((v.readPos.map fun f => f / 2 ^ 28).getD 0) ++ signedWords ((v.queue.head?.map (·.start)).getD 0)
        ++ [signedWord v.step]
    let reading := fun (u : State) =>
      [bytesWord u.clock.state.code 0 0 (flag u.houseTime.isSome 1), signedWord u.clock.epsilon] ++ timeWords u.localCount
        ++ timeWords (u.houseTime.getD 0) ++ slot (u.slot 0) ++ slot (u.slot 1) ++ slot (u.slot 2) ++ slot (u.slot 3)
        ++ slot (u.slot 4) ++ slot (u.slot 5) ++ slot (u.slot 6) ++ slot (u.slot 7)
    (Taken .identify s →
      exec .identify s = .next (s.reply 0x01 (done [0x0418, 1, s.deviceTag.setWidth 32, natWord s.imageStatus.code]))) ∧
    (Taken .clockHistory s → exec .clockHistory s = .next (s.reply 0x41 (done (
      [bytesWord c.state.code c.latch.code c.window.length
         (flag master.isSome 4 + flag c.lastSequence.isSome 2 + flag c.anchor.isSome 1),
       halvesWord (master.getD 0).toNat (c.lastSequence.getD 0).toNat, bytesWord 0 c.lockRun c.outlierRun c.settle,
       signedWord c.epsilon] ++ timeWords ((c.anchor.map (·.lc)).getD 0) ++ timeWords ((c.anchor.map (·.ht)).getD 0)
      ++ (c.window.flatMap record ++ List.replicate 64 0).take 64)))) ∧
    (Taken .snapshot s → s.mixDue = false → s.cuePass = none →
      (reading s).length = 54 ∧ exec .snapshot s = .next (s.reply 0x02 (done (reading s)))) ∧
    (Taken .snapshot s → ringsSound s →
      let fire := fun (w : State) => match exec .cueFire w with | .next x => x | _ => w
      ∃ (s1 s2 u : State) (n : Nat), s2.mixDue = false ∧
        (if s.strobeBegun = true then exec (.sampleStrobe .render) s = .next s1 else s1 = s) ∧
        exec (.sampleStrobe .mix) s1 = .next s2 ∧ u = fire^[n] s2 ∧ exec .snapshot s = .next (u.reply 0x02 (done (reading u))) ∧
        (s.cuePass.isSome = true → cuesBounded s → exec .cueFire u = .next u))

/-- The interpreter by itself: a record of a code that names no command is answered UNKNOWN and passed over by its length,
one whose bounds cannot be trusted is answered MALFORMED and ends the frame, a known one of wrong length is answered
REFUSED BADARG and passed over, and with every record dealt with the reply is placed and the buffer FULL (R149 to R151). -/
def Obligations.InterpreterAnswersByItself : Prop :=
  ∀ (s : State) (p : Interp), s.interp = some p →
    (∀ code length, s.handing (.unknown code length) = true → p.hasRoom 1 = true →
      exec (.unknown code length) s = .next { s with interp := some { p with
        remaining := p.remaining - 1, words := p.words.drop length.toNat
        records := p.records ++ [{ code := code, answer := { status := .unknown, reason := none, results := [] } }] } }) ∧
    (∀ code, s.handing (.malformed code) = true →
      exec (.malformed code) s = .next { s with interp := some { p with
        remaining := 0, words := []
        records := p.records ++ [{ code := code, answer := { status := .malformed, reason := none, results := [] } }] } }) ∧
    (∀ code, p.next = .wrongLength code → p.hasRoom 1 = true →
      exec (.control .proceed) s = .next (s.reply code (refusal .badarg))) ∧
    (p.remaining = 0 →
      exec (.control .proceed) s =
        .next { s with interp := none, replyBuffer := .full { sequence := p.sequence, records := p.records } })

/-- A record answered REFUSED, BUSY, UNKNOWN or MALFORMED changes nothing but the reply: whatever record in hand is dealt with,
RESTART aside, one reply record with its code joins the reply, and under those statuses the rest of the part is as it was
(R150, R151, R152, and the owners' rules). -/
def Obligations.RefusedRecordsChangeNothing : Prop :=
  ∀ (s t : State) (i : Instr) (p : Interp) (code : BitVec 8) (n : Nat), s.interp = some p → s.handing i = true →
    recordShape i = some (code, n) → i ≠ .restart → exec i s = .next t →
    ∃ (q : Interp) (a : Answer), t.interp = some q ∧ q.records = p.records ++ [{ code := code, answer := a }] ∧
      (a.status ≠ .done → a.status ≠ .accepted → t = { s with interp := some q })

/-- A record whose largest reply, plus one word, does not fit is not carried out: REFUSED FULL, and the frame's processing
stops; nothing but the reply changes (R152). -/
def Obligations.FullReplyStopsFrame : Prop :=
  ∀ (s : State) (i : Instr) (p : Interp) (code : BitVec 8) (n : Nat), s.interp = some p → s.handing i = true →
    recordShape i = some (code, n) → p.hasRoom n = false → (∀ c, i ≠ .malformed c) →
    exec i s = .next { s with interp := some { p with
      remaining := 0, words := [], records := p.records ++ [{ code := code, answer := refusal .full }] } }
end

