-- ==== Sys2Proof/Laws/State.lean ====
section
/-! SUPPORT. What each update of State leaves in each field, one lemma a field, true by unfolding. -/

namespace Sys2Proof.Machine

/-! ## State.setSlot -/

@[simp] theorem State.setSlot_pending (s : State) (i : Fin 8) (v : Slot) : (s.setSlot i v).pending = s.pending := rfl
@[simp] theorem State.setSlot_run (s : State) (i : Fin 8) (v : Slot) : (s.setSlot i v).run = s.run := rfl
@[simp] theorem State.setSlot_localCount (s : State) (i : Fin 8) (v : Slot) : (s.setSlot i v).localCount = s.localCount := rfl
@[simp] theorem State.setSlot_clock (s : State) (i : Fin 8) (v : Slot) : (s.setSlot i v).clock = s.clock := rfl
@[simp] theorem State.setSlot_deviceTag (s : State) (i : Fin 8) (v : Slot) : (s.setSlot i v).deviceTag = s.deviceTag := rfl
@[simp] theorem State.setSlot_imageStatus (s : State) (i : Fin 8) (v : Slot) : (s.setSlot i v).imageStatus = s.imageStatus := rfl
@[simp] theorem State.setSlot_defaultCause (s : State) (i : Fin 8) (v : Slot) : (s.setSlot i v).defaultCause = s.defaultCause := rfl
@[simp] theorem State.setSlot_bootPreset (s : State) (i : Fin 8) (v : Slot) : (s.setSlot i v).bootPreset = s.bootPreset := rfl
@[simp] theorem State.setSlot_partition (s : State) (i : Fin 8) (v : Slot) : (s.setSlot i v).partition = s.partition := rfl
@[simp] theorem State.setSlot_freeLists (s : State) (i : Fin 8) (v : Slot) : (s.setSlot i v).freeLists = s.freeLists := rfl
@[simp] theorem State.setSlot_slots (s : State) (i : Fin 8) (v : Slot) : (s.setSlot i v).slots = s.slots.set i.val v i.isLt := rfl
@[simp] theorem State.setSlot_memory (s : State) (i : Fin 8) (v : Slot) : (s.setSlot i v).memory = s.memory := rfl
@[simp] theorem State.setSlot_output (s : State) (i : Fin 8) (v : Slot) : (s.setSlot i v).output = s.output := rfl
@[simp] theorem State.setSlot_strobeRate (s : State) (i : Fin 8) (v : Slot) : (s.setSlot i v).strobeRate = s.strobeRate := rfl
@[simp] theorem State.setSlot_routes (s : State) (i : Fin 8) (v : Slot) : (s.setSlot i v).routes = s.routes := rfl
@[simp] theorem State.setSlot_lanes (s : State) (i : Fin 8) (v : Slot) : (s.setSlot i v).lanes = s.lanes := rfl
@[simp] theorem State.setSlot_contributions (s : State) (i : Fin 8) (v : Slot) : (s.setSlot i v).contributions = s.contributions := rfl
@[simp] theorem State.setSlot_cues (s : State) (i : Fin 8) (v : Slot) : (s.setSlot i v).cues = s.cues := rfl
@[simp] theorem State.setSlot_staged (s : State) (i : Fin 8) (v : Slot) : (s.setSlot i v).staged = s.staged := rfl
@[simp] theorem State.setSlot_mute (s : State) (i : Fin 8) (v : Slot) : (s.setSlot i v).mute = s.mute := rfl
@[simp] theorem State.setSlot_mark (s : State) (i : Fin 8) (v : Slot) : (s.setSlot i v).mark = s.mark := rfl
@[simp] theorem State.setSlot_classes (s : State) (i : Fin 8) (v : Slot) : (s.setSlot i v).classes = s.classes := rfl
@[simp] theorem State.setSlot_reports (s : State) (i : Fin 8) (v : Slot) : (s.setSlot i v).reports = s.reports := rfl
@[simp] theorem State.setSlot_lostMark (s : State) (i : Fin 8) (v : Slot) : (s.setSlot i v).lostMark = s.lostMark := rfl
@[simp] theorem State.setSlot_replyBuffer (s : State) (i : Fin 8) (v : Slot) : (s.setSlot i v).replyBuffer = s.replyBuffer := rfl
@[simp] theorem State.setSlot_inbound (s : State) (i : Fin 8) (v : Slot) : (s.setSlot i v).inbound = s.inbound := rfl
@[simp] theorem State.setSlot_outbound (s : State) (i : Fin 8) (v : Slot) : (s.setSlot i v).outbound = s.outbound := rfl
@[simp] theorem State.setSlot_interp (s : State) (i : Fin 8) (v : Slot) : (s.setSlot i v).interp = s.interp := rfl
@[simp] theorem State.setSlot_port (s : State) (i : Fin 8) (v : Slot) : (s.setSlot i v).port = s.port := rfl
@[simp] theorem State.setSlot_flashOut (s : State) (i : Fin 8) (v : Slot) : (s.setSlot i v).flashOut = s.flashOut := rfl
@[simp] theorem State.setSlot_strobed (s : State) (i : Fin 8) (v : Slot) : (s.setSlot i v).strobed = s.strobed := rfl
@[simp] theorem State.setSlot_mixDue (s : State) (i : Fin 8) (v : Slot) : (s.setSlot i v).mixDue = s.mixDue := rfl
@[simp] theorem State.setSlot_cuePass (s : State) (i : Fin 8) (v : Slot) : (s.setSlot i v).cuePass = s.cuePass := rfl

/-! ## State.setClock -/

@[simp] theorem State.setClock_pending (s : State) (c : TimeBase) : (s.setClock c).pending = s.pending := rfl
@[simp] theorem State.setClock_run (s : State) (c : TimeBase) : (s.setClock c).run = s.run := rfl
@[simp] theorem State.setClock_localCount (s : State) (c : TimeBase) : (s.setClock c).localCount = s.localCount := rfl
@[simp] theorem State.setClock_clock (s : State) (c : TimeBase) : (s.setClock c).clock = c := rfl
@[simp] theorem State.setClock_deviceTag (s : State) (c : TimeBase) : (s.setClock c).deviceTag = s.deviceTag := rfl
@[simp] theorem State.setClock_imageStatus (s : State) (c : TimeBase) : (s.setClock c).imageStatus = s.imageStatus := rfl
@[simp] theorem State.setClock_defaultCause (s : State) (c : TimeBase) : (s.setClock c).defaultCause = s.defaultCause := rfl
@[simp] theorem State.setClock_bootPreset (s : State) (c : TimeBase) : (s.setClock c).bootPreset = s.bootPreset := rfl
@[simp] theorem State.setClock_partition (s : State) (c : TimeBase) : (s.setClock c).partition = s.partition := rfl
@[simp] theorem State.setClock_freeLists (s : State) (c : TimeBase) : (s.setClock c).freeLists = s.freeLists := rfl
@[simp] theorem State.setClock_slots (s : State) (c : TimeBase) : (s.setClock c).slots = s.slots := rfl
@[simp] theorem State.setClock_memory (s : State) (c : TimeBase) : (s.setClock c).memory = s.memory := rfl
@[simp] theorem State.setClock_output (s : State) (c : TimeBase) : (s.setClock c).output = s.output := rfl
@[simp] theorem State.setClock_strobeRate (s : State) (c : TimeBase) : (s.setClock c).strobeRate = s.strobeRate := rfl
@[simp] theorem State.setClock_routes (s : State) (c : TimeBase) : (s.setClock c).routes = s.routes := rfl
@[simp] theorem State.setClock_lanes (s : State) (c : TimeBase) : (s.setClock c).lanes = s.lanes := rfl
@[simp] theorem State.setClock_contributions (s : State) (c : TimeBase) : (s.setClock c).contributions = s.contributions := rfl
@[simp] theorem State.setClock_cues (s : State) (c : TimeBase) : (s.setClock c).cues = s.cues := rfl
@[simp] theorem State.setClock_staged (s : State) (c : TimeBase) : (s.setClock c).staged = s.staged := rfl
@[simp] theorem State.setClock_mute (s : State) (c : TimeBase) : (s.setClock c).mute = s.mute := rfl
@[simp] theorem State.setClock_mark (s : State) (c : TimeBase) : (s.setClock c).mark = s.mark := rfl
@[simp] theorem State.setClock_classes (s : State) (c : TimeBase) : (s.setClock c).classes = s.classes := rfl
@[simp] theorem State.setClock_reports (s : State) (c : TimeBase) : (s.setClock c).reports = s.reports := rfl
@[simp] theorem State.setClock_lostMark (s : State) (c : TimeBase) : (s.setClock c).lostMark = s.lostMark := rfl
@[simp] theorem State.setClock_replyBuffer (s : State) (c : TimeBase) : (s.setClock c).replyBuffer = s.replyBuffer := rfl
@[simp] theorem State.setClock_inbound (s : State) (c : TimeBase) : (s.setClock c).inbound = s.inbound := rfl
@[simp] theorem State.setClock_outbound (s : State) (c : TimeBase) : (s.setClock c).outbound = s.outbound := rfl
@[simp] theorem State.setClock_interp (s : State) (c : TimeBase) : (s.setClock c).interp = s.interp := rfl
@[simp] theorem State.setClock_port (s : State) (c : TimeBase) : (s.setClock c).port = s.port := rfl
@[simp] theorem State.setClock_flashOut (s : State) (c : TimeBase) : (s.setClock c).flashOut = s.flashOut := rfl
@[simp] theorem State.setClock_strobed (s : State) (c : TimeBase) : (s.setClock c).strobed = s.strobed := rfl
@[simp] theorem State.setClock_mixDue (s : State) (c : TimeBase) : (s.setClock c).mixDue = s.mixDue := rfl
@[simp] theorem State.setClock_cuePass (s : State) (c : TimeBase) : (s.setClock c).cuePass = s.cuePass := rfl

/-! ## State.withInbound -/

@[simp] theorem State.withInbound_pending (s : State) (f : Option LinkFrame) : (s.withInbound f).pending = s.pending := rfl
@[simp] theorem State.withInbound_run (s : State) (f : Option LinkFrame) : (s.withInbound f).run = s.run := rfl
@[simp] theorem State.withInbound_localCount (s : State) (f : Option LinkFrame) : (s.withInbound f).localCount = s.localCount := rfl
@[simp] theorem State.withInbound_clock (s : State) (f : Option LinkFrame) : (s.withInbound f).clock = s.clock := rfl
@[simp] theorem State.withInbound_deviceTag (s : State) (f : Option LinkFrame) : (s.withInbound f).deviceTag = s.deviceTag := rfl
@[simp] theorem State.withInbound_imageStatus (s : State) (f : Option LinkFrame) : (s.withInbound f).imageStatus = s.imageStatus := rfl
@[simp] theorem State.withInbound_defaultCause (s : State) (f : Option LinkFrame) : (s.withInbound f).defaultCause = s.defaultCause := rfl
@[simp] theorem State.withInbound_bootPreset (s : State) (f : Option LinkFrame) : (s.withInbound f).bootPreset = s.bootPreset := rfl
@[simp] theorem State.withInbound_partition (s : State) (f : Option LinkFrame) : (s.withInbound f).partition = s.partition := rfl
@[simp] theorem State.withInbound_freeLists (s : State) (f : Option LinkFrame) : (s.withInbound f).freeLists = s.freeLists := rfl
@[simp] theorem State.withInbound_slots (s : State) (f : Option LinkFrame) : (s.withInbound f).slots = s.slots := rfl
@[simp] theorem State.withInbound_memory (s : State) (f : Option LinkFrame) : (s.withInbound f).memory = s.memory := rfl
@[simp] theorem State.withInbound_output (s : State) (f : Option LinkFrame) : (s.withInbound f).output = s.output := rfl
@[simp] theorem State.withInbound_strobeRate (s : State) (f : Option LinkFrame) : (s.withInbound f).strobeRate = s.strobeRate := rfl
@[simp] theorem State.withInbound_routes (s : State) (f : Option LinkFrame) : (s.withInbound f).routes = s.routes := rfl
@[simp] theorem State.withInbound_lanes (s : State) (f : Option LinkFrame) : (s.withInbound f).lanes = s.lanes := rfl
@[simp] theorem State.withInbound_contributions (s : State) (f : Option LinkFrame) : (s.withInbound f).contributions = s.contributions := rfl
@[simp] theorem State.withInbound_cues (s : State) (f : Option LinkFrame) : (s.withInbound f).cues = s.cues := rfl
@[simp] theorem State.withInbound_staged (s : State) (f : Option LinkFrame) : (s.withInbound f).staged = s.staged := rfl
@[simp] theorem State.withInbound_mute (s : State) (f : Option LinkFrame) : (s.withInbound f).mute = s.mute := rfl
@[simp] theorem State.withInbound_mark (s : State) (f : Option LinkFrame) : (s.withInbound f).mark = s.mark := rfl
@[simp] theorem State.withInbound_classes (s : State) (f : Option LinkFrame) : (s.withInbound f).classes = s.classes := rfl
@[simp] theorem State.withInbound_reports (s : State) (f : Option LinkFrame) : (s.withInbound f).reports = s.reports := rfl
@[simp] theorem State.withInbound_lostMark (s : State) (f : Option LinkFrame) : (s.withInbound f).lostMark = s.lostMark := rfl
@[simp] theorem State.withInbound_replyBuffer (s : State) (f : Option LinkFrame) : (s.withInbound f).replyBuffer = s.replyBuffer := rfl
@[simp] theorem State.withInbound_inbound (s : State) (f : Option LinkFrame) : (s.withInbound f).inbound = f := rfl
@[simp] theorem State.withInbound_outbound (s : State) (f : Option LinkFrame) : (s.withInbound f).outbound = s.outbound := rfl
@[simp] theorem State.withInbound_interp (s : State) (f : Option LinkFrame) : (s.withInbound f).interp = s.interp := rfl
@[simp] theorem State.withInbound_port (s : State) (f : Option LinkFrame) : (s.withInbound f).port = s.port := rfl
@[simp] theorem State.withInbound_flashOut (s : State) (f : Option LinkFrame) : (s.withInbound f).flashOut = s.flashOut := rfl
@[simp] theorem State.withInbound_strobed (s : State) (f : Option LinkFrame) : (s.withInbound f).strobed = s.strobed := rfl
@[simp] theorem State.withInbound_mixDue (s : State) (f : Option LinkFrame) : (s.withInbound f).mixDue = s.mixDue := rfl
@[simp] theorem State.withInbound_cuePass (s : State) (f : Option LinkFrame) : (s.withInbound f).cuePass = s.cuePass := rfl

/-! ## State.setRoute -/

@[simp] theorem State.setRoute_pending (s : State) (e : Fin 16) (r : Option Route) : (s.setRoute e r).pending = s.pending := rfl
@[simp] theorem State.setRoute_run (s : State) (e : Fin 16) (r : Option Route) : (s.setRoute e r).run = s.run := rfl
@[simp] theorem State.setRoute_localCount (s : State) (e : Fin 16) (r : Option Route) : (s.setRoute e r).localCount = s.localCount := rfl
@[simp] theorem State.setRoute_clock (s : State) (e : Fin 16) (r : Option Route) : (s.setRoute e r).clock = s.clock := rfl
@[simp] theorem State.setRoute_deviceTag (s : State) (e : Fin 16) (r : Option Route) : (s.setRoute e r).deviceTag = s.deviceTag := rfl
@[simp] theorem State.setRoute_imageStatus (s : State) (e : Fin 16) (r : Option Route) : (s.setRoute e r).imageStatus = s.imageStatus := rfl
@[simp] theorem State.setRoute_defaultCause (s : State) (e : Fin 16) (r : Option Route) : (s.setRoute e r).defaultCause = s.defaultCause := rfl
@[simp] theorem State.setRoute_bootPreset (s : State) (e : Fin 16) (r : Option Route) : (s.setRoute e r).bootPreset = s.bootPreset := rfl
@[simp] theorem State.setRoute_partition (s : State) (e : Fin 16) (r : Option Route) : (s.setRoute e r).partition = s.partition := rfl
@[simp] theorem State.setRoute_freeLists (s : State) (e : Fin 16) (r : Option Route) : (s.setRoute e r).freeLists = s.freeLists := rfl
@[simp] theorem State.setRoute_slots (s : State) (e : Fin 16) (r : Option Route) : (s.setRoute e r).slots = s.slots := rfl
@[simp] theorem State.setRoute_memory (s : State) (e : Fin 16) (r : Option Route) : (s.setRoute e r).memory = s.memory := rfl
@[simp] theorem State.setRoute_output (s : State) (e : Fin 16) (r : Option Route) : (s.setRoute e r).output = s.output := rfl
@[simp] theorem State.setRoute_strobeRate (s : State) (e : Fin 16) (r : Option Route) : (s.setRoute e r).strobeRate = s.strobeRate := rfl
@[simp] theorem State.setRoute_routes (s : State) (e : Fin 16) (r : Option Route) : (s.setRoute e r).routes = s.routes.set e.val r e.isLt := rfl
@[simp] theorem State.setRoute_lanes (s : State) (e : Fin 16) (r : Option Route) : (s.setRoute e r).lanes = s.lanes := rfl
@[simp] theorem State.setRoute_contributions (s : State) (e : Fin 16) (r : Option Route) : (s.setRoute e r).contributions = s.contributions := rfl
@[simp] theorem State.setRoute_cues (s : State) (e : Fin 16) (r : Option Route) : (s.setRoute e r).cues = s.cues := rfl
@[simp] theorem State.setRoute_staged (s : State) (e : Fin 16) (r : Option Route) : (s.setRoute e r).staged = s.staged := rfl
@[simp] theorem State.setRoute_mute (s : State) (e : Fin 16) (r : Option Route) : (s.setRoute e r).mute = s.mute := rfl
@[simp] theorem State.setRoute_mark (s : State) (e : Fin 16) (r : Option Route) : (s.setRoute e r).mark = s.mark := rfl
@[simp] theorem State.setRoute_classes (s : State) (e : Fin 16) (r : Option Route) : (s.setRoute e r).classes = s.classes := rfl
@[simp] theorem State.setRoute_reports (s : State) (e : Fin 16) (r : Option Route) : (s.setRoute e r).reports = s.reports := rfl
@[simp] theorem State.setRoute_lostMark (s : State) (e : Fin 16) (r : Option Route) : (s.setRoute e r).lostMark = s.lostMark := rfl
@[simp] theorem State.setRoute_replyBuffer (s : State) (e : Fin 16) (r : Option Route) : (s.setRoute e r).replyBuffer = s.replyBuffer := rfl
@[simp] theorem State.setRoute_inbound (s : State) (e : Fin 16) (r : Option Route) : (s.setRoute e r).inbound = s.inbound := rfl
@[simp] theorem State.setRoute_outbound (s : State) (e : Fin 16) (r : Option Route) : (s.setRoute e r).outbound = s.outbound := rfl
@[simp] theorem State.setRoute_interp (s : State) (e : Fin 16) (r : Option Route) : (s.setRoute e r).interp = s.interp := rfl
@[simp] theorem State.setRoute_port (s : State) (e : Fin 16) (r : Option Route) : (s.setRoute e r).port = s.port := rfl
@[simp] theorem State.setRoute_flashOut (s : State) (e : Fin 16) (r : Option Route) : (s.setRoute e r).flashOut = s.flashOut := rfl
@[simp] theorem State.setRoute_strobed (s : State) (e : Fin 16) (r : Option Route) : (s.setRoute e r).strobed = s.strobed := rfl
@[simp] theorem State.setRoute_mixDue (s : State) (e : Fin 16) (r : Option Route) : (s.setRoute e r).mixDue = s.mixDue := rfl
@[simp] theorem State.setRoute_cuePass (s : State) (e : Fin 16) (r : Option Route) : (s.setRoute e r).cuePass = s.cuePass := rfl

/-! ## State.setLane -/

@[simp] theorem State.setLane_pending (s : State) (l : Fin 4) (x : Lane) : (s.setLane l x).pending = s.pending := rfl
@[simp] theorem State.setLane_run (s : State) (l : Fin 4) (x : Lane) : (s.setLane l x).run = s.run := rfl
@[simp] theorem State.setLane_localCount (s : State) (l : Fin 4) (x : Lane) : (s.setLane l x).localCount = s.localCount := rfl
@[simp] theorem State.setLane_clock (s : State) (l : Fin 4) (x : Lane) : (s.setLane l x).clock = s.clock := rfl
@[simp] theorem State.setLane_deviceTag (s : State) (l : Fin 4) (x : Lane) : (s.setLane l x).deviceTag = s.deviceTag := rfl
@[simp] theorem State.setLane_imageStatus (s : State) (l : Fin 4) (x : Lane) : (s.setLane l x).imageStatus = s.imageStatus := rfl
@[simp] theorem State.setLane_defaultCause (s : State) (l : Fin 4) (x : Lane) : (s.setLane l x).defaultCause = s.defaultCause := rfl
@[simp] theorem State.setLane_bootPreset (s : State) (l : Fin 4) (x : Lane) : (s.setLane l x).bootPreset = s.bootPreset := rfl
@[simp] theorem State.setLane_partition (s : State) (l : Fin 4) (x : Lane) : (s.setLane l x).partition = s.partition := rfl
@[simp] theorem State.setLane_freeLists (s : State) (l : Fin 4) (x : Lane) : (s.setLane l x).freeLists = s.freeLists := rfl
@[simp] theorem State.setLane_slots (s : State) (l : Fin 4) (x : Lane) : (s.setLane l x).slots = s.slots := rfl
@[simp] theorem State.setLane_memory (s : State) (l : Fin 4) (x : Lane) : (s.setLane l x).memory = s.memory := rfl
@[simp] theorem State.setLane_output (s : State) (l : Fin 4) (x : Lane) : (s.setLane l x).output = s.output := rfl
@[simp] theorem State.setLane_strobeRate (s : State) (l : Fin 4) (x : Lane) : (s.setLane l x).strobeRate = s.strobeRate := rfl
@[simp] theorem State.setLane_routes (s : State) (l : Fin 4) (x : Lane) : (s.setLane l x).routes = s.routes := rfl
@[simp] theorem State.setLane_lanes (s : State) (l : Fin 4) (x : Lane) : (s.setLane l x).lanes = s.lanes.set l.val x l.isLt := rfl
@[simp] theorem State.setLane_contributions (s : State) (l : Fin 4) (x : Lane) : (s.setLane l x).contributions = s.contributions := rfl
@[simp] theorem State.setLane_cues (s : State) (l : Fin 4) (x : Lane) : (s.setLane l x).cues = s.cues := rfl
@[simp] theorem State.setLane_staged (s : State) (l : Fin 4) (x : Lane) : (s.setLane l x).staged = s.staged := rfl
@[simp] theorem State.setLane_mute (s : State) (l : Fin 4) (x : Lane) : (s.setLane l x).mute = s.mute := rfl
@[simp] theorem State.setLane_mark (s : State) (l : Fin 4) (x : Lane) : (s.setLane l x).mark = s.mark := rfl
@[simp] theorem State.setLane_classes (s : State) (l : Fin 4) (x : Lane) : (s.setLane l x).classes = s.classes := rfl
@[simp] theorem State.setLane_reports (s : State) (l : Fin 4) (x : Lane) : (s.setLane l x).reports = s.reports := rfl
@[simp] theorem State.setLane_lostMark (s : State) (l : Fin 4) (x : Lane) : (s.setLane l x).lostMark = s.lostMark := rfl
@[simp] theorem State.setLane_replyBuffer (s : State) (l : Fin 4) (x : Lane) : (s.setLane l x).replyBuffer = s.replyBuffer := rfl
@[simp] theorem State.setLane_inbound (s : State) (l : Fin 4) (x : Lane) : (s.setLane l x).inbound = s.inbound := rfl
@[simp] theorem State.setLane_outbound (s : State) (l : Fin 4) (x : Lane) : (s.setLane l x).outbound = s.outbound := rfl
@[simp] theorem State.setLane_interp (s : State) (l : Fin 4) (x : Lane) : (s.setLane l x).interp = s.interp := rfl
@[simp] theorem State.setLane_port (s : State) (l : Fin 4) (x : Lane) : (s.setLane l x).port = s.port := rfl
@[simp] theorem State.setLane_flashOut (s : State) (l : Fin 4) (x : Lane) : (s.setLane l x).flashOut = s.flashOut := rfl
@[simp] theorem State.setLane_strobed (s : State) (l : Fin 4) (x : Lane) : (s.setLane l x).strobed = s.strobed := rfl
@[simp] theorem State.setLane_mixDue (s : State) (l : Fin 4) (x : Lane) : (s.setLane l x).mixDue = s.mixDue := rfl
@[simp] theorem State.setLane_cuePass (s : State) (l : Fin 4) (x : Lane) : (s.setLane l x).cuePass = s.cuePass := rfl

/-! ## State.setClass -/

@[simp] theorem State.setClass_pending (s : State) (k : Fin 32) (c : EventClass) : (s.setClass k c).pending = s.pending := rfl
@[simp] theorem State.setClass_run (s : State) (k : Fin 32) (c : EventClass) : (s.setClass k c).run = s.run := rfl
@[simp] theorem State.setClass_localCount (s : State) (k : Fin 32) (c : EventClass) : (s.setClass k c).localCount = s.localCount := rfl
@[simp] theorem State.setClass_clock (s : State) (k : Fin 32) (c : EventClass) : (s.setClass k c).clock = s.clock := rfl
@[simp] theorem State.setClass_deviceTag (s : State) (k : Fin 32) (c : EventClass) : (s.setClass k c).deviceTag = s.deviceTag := rfl
@[simp] theorem State.setClass_imageStatus (s : State) (k : Fin 32) (c : EventClass) : (s.setClass k c).imageStatus = s.imageStatus := rfl
@[simp] theorem State.setClass_defaultCause (s : State) (k : Fin 32) (c : EventClass) : (s.setClass k c).defaultCause = s.defaultCause := rfl
@[simp] theorem State.setClass_bootPreset (s : State) (k : Fin 32) (c : EventClass) : (s.setClass k c).bootPreset = s.bootPreset := rfl
@[simp] theorem State.setClass_partition (s : State) (k : Fin 32) (c : EventClass) : (s.setClass k c).partition = s.partition := rfl
@[simp] theorem State.setClass_freeLists (s : State) (k : Fin 32) (c : EventClass) : (s.setClass k c).freeLists = s.freeLists := rfl
@[simp] theorem State.setClass_slots (s : State) (k : Fin 32) (c : EventClass) : (s.setClass k c).slots = s.slots := rfl
@[simp] theorem State.setClass_memory (s : State) (k : Fin 32) (c : EventClass) : (s.setClass k c).memory = s.memory := rfl
@[simp] theorem State.setClass_output (s : State) (k : Fin 32) (c : EventClass) : (s.setClass k c).output = s.output := rfl
@[simp] theorem State.setClass_strobeRate (s : State) (k : Fin 32) (c : EventClass) : (s.setClass k c).strobeRate = s.strobeRate := rfl
@[simp] theorem State.setClass_routes (s : State) (k : Fin 32) (c : EventClass) : (s.setClass k c).routes = s.routes := rfl
@[simp] theorem State.setClass_lanes (s : State) (k : Fin 32) (c : EventClass) : (s.setClass k c).lanes = s.lanes := rfl
@[simp] theorem State.setClass_contributions (s : State) (k : Fin 32) (c : EventClass) : (s.setClass k c).contributions = s.contributions := rfl
@[simp] theorem State.setClass_cues (s : State) (k : Fin 32) (c : EventClass) : (s.setClass k c).cues = s.cues := rfl
@[simp] theorem State.setClass_staged (s : State) (k : Fin 32) (c : EventClass) : (s.setClass k c).staged = s.staged := rfl
@[simp] theorem State.setClass_mute (s : State) (k : Fin 32) (c : EventClass) : (s.setClass k c).mute = s.mute := rfl
@[simp] theorem State.setClass_mark (s : State) (k : Fin 32) (c : EventClass) : (s.setClass k c).mark = s.mark := rfl
@[simp] theorem State.setClass_classes (s : State) (k : Fin 32) (c : EventClass) : (s.setClass k c).classes = s.classes.set k.val c k.isLt := rfl
@[simp] theorem State.setClass_reports (s : State) (k : Fin 32) (c : EventClass) : (s.setClass k c).reports = s.reports := rfl
@[simp] theorem State.setClass_lostMark (s : State) (k : Fin 32) (c : EventClass) : (s.setClass k c).lostMark = s.lostMark := rfl
@[simp] theorem State.setClass_replyBuffer (s : State) (k : Fin 32) (c : EventClass) : (s.setClass k c).replyBuffer = s.replyBuffer := rfl
@[simp] theorem State.setClass_inbound (s : State) (k : Fin 32) (c : EventClass) : (s.setClass k c).inbound = s.inbound := rfl
@[simp] theorem State.setClass_outbound (s : State) (k : Fin 32) (c : EventClass) : (s.setClass k c).outbound = s.outbound := rfl
@[simp] theorem State.setClass_interp (s : State) (k : Fin 32) (c : EventClass) : (s.setClass k c).interp = s.interp := rfl
@[simp] theorem State.setClass_port (s : State) (k : Fin 32) (c : EventClass) : (s.setClass k c).port = s.port := rfl
@[simp] theorem State.setClass_flashOut (s : State) (k : Fin 32) (c : EventClass) : (s.setClass k c).flashOut = s.flashOut := rfl
@[simp] theorem State.setClass_strobed (s : State) (k : Fin 32) (c : EventClass) : (s.setClass k c).strobed = s.strobed := rfl
@[simp] theorem State.setClass_mixDue (s : State) (k : Fin 32) (c : EventClass) : (s.setClass k c).mixDue = s.mixDue := rfl
@[simp] theorem State.setClass_cuePass (s : State) (k : Fin 32) (c : EventClass) : (s.setClass k c).cuePass = s.cuePass := rfl

/-! ## State.withPort -/

@[simp] theorem State.withPort_pending (s : State) (p : Port) (ops : List FlashOp) : (s.withPort p ops).pending = s.pending := rfl
@[simp] theorem State.withPort_run (s : State) (p : Port) (ops : List FlashOp) : (s.withPort p ops).run = s.run := rfl
@[simp] theorem State.withPort_localCount (s : State) (p : Port) (ops : List FlashOp) : (s.withPort p ops).localCount = s.localCount := rfl
@[simp] theorem State.withPort_clock (s : State) (p : Port) (ops : List FlashOp) : (s.withPort p ops).clock = s.clock := rfl
@[simp] theorem State.withPort_deviceTag (s : State) (p : Port) (ops : List FlashOp) : (s.withPort p ops).deviceTag = s.deviceTag := rfl
@[simp] theorem State.withPort_imageStatus (s : State) (p : Port) (ops : List FlashOp) : (s.withPort p ops).imageStatus = s.imageStatus := rfl
@[simp] theorem State.withPort_defaultCause (s : State) (p : Port) (ops : List FlashOp) : (s.withPort p ops).defaultCause = s.defaultCause := rfl
@[simp] theorem State.withPort_bootPreset (s : State) (p : Port) (ops : List FlashOp) : (s.withPort p ops).bootPreset = s.bootPreset := rfl
@[simp] theorem State.withPort_partition (s : State) (p : Port) (ops : List FlashOp) : (s.withPort p ops).partition = s.partition := rfl
@[simp] theorem State.withPort_freeLists (s : State) (p : Port) (ops : List FlashOp) : (s.withPort p ops).freeLists = s.freeLists := rfl
@[simp] theorem State.withPort_slots (s : State) (p : Port) (ops : List FlashOp) : (s.withPort p ops).slots = s.slots := rfl
@[simp] theorem State.withPort_memory (s : State) (p : Port) (ops : List FlashOp) : (s.withPort p ops).memory = s.memory := rfl
@[simp] theorem State.withPort_output (s : State) (p : Port) (ops : List FlashOp) : (s.withPort p ops).output = s.output := rfl
@[simp] theorem State.withPort_strobeRate (s : State) (p : Port) (ops : List FlashOp) : (s.withPort p ops).strobeRate = s.strobeRate := rfl
@[simp] theorem State.withPort_routes (s : State) (p : Port) (ops : List FlashOp) : (s.withPort p ops).routes = s.routes := rfl
@[simp] theorem State.withPort_lanes (s : State) (p : Port) (ops : List FlashOp) : (s.withPort p ops).lanes = s.lanes := rfl
@[simp] theorem State.withPort_contributions (s : State) (p : Port) (ops : List FlashOp) : (s.withPort p ops).contributions = s.contributions := rfl
@[simp] theorem State.withPort_cues (s : State) (p : Port) (ops : List FlashOp) : (s.withPort p ops).cues = s.cues := rfl
@[simp] theorem State.withPort_staged (s : State) (p : Port) (ops : List FlashOp) : (s.withPort p ops).staged = s.staged := rfl
@[simp] theorem State.withPort_mute (s : State) (p : Port) (ops : List FlashOp) : (s.withPort p ops).mute = s.mute := rfl
@[simp] theorem State.withPort_mark (s : State) (p : Port) (ops : List FlashOp) : (s.withPort p ops).mark = s.mark := rfl
@[simp] theorem State.withPort_classes (s : State) (p : Port) (ops : List FlashOp) : (s.withPort p ops).classes = s.classes := rfl
@[simp] theorem State.withPort_reports (s : State) (p : Port) (ops : List FlashOp) : (s.withPort p ops).reports = s.reports := rfl
@[simp] theorem State.withPort_lostMark (s : State) (p : Port) (ops : List FlashOp) : (s.withPort p ops).lostMark = s.lostMark := rfl
@[simp] theorem State.withPort_replyBuffer (s : State) (p : Port) (ops : List FlashOp) : (s.withPort p ops).replyBuffer = s.replyBuffer := rfl
@[simp] theorem State.withPort_inbound (s : State) (p : Port) (ops : List FlashOp) : (s.withPort p ops).inbound = s.inbound := rfl
@[simp] theorem State.withPort_outbound (s : State) (p : Port) (ops : List FlashOp) : (s.withPort p ops).outbound = s.outbound := rfl
@[simp] theorem State.withPort_interp (s : State) (p : Port) (ops : List FlashOp) : (s.withPort p ops).interp = s.interp := rfl
@[simp] theorem State.withPort_port (s : State) (p : Port) (ops : List FlashOp) : (s.withPort p ops).port = p := rfl
@[simp] theorem State.withPort_flashOut (s : State) (p : Port) (ops : List FlashOp) : (s.withPort p ops).flashOut = ops := rfl
@[simp] theorem State.withPort_strobed (s : State) (p : Port) (ops : List FlashOp) : (s.withPort p ops).strobed = s.strobed := rfl
@[simp] theorem State.withPort_mixDue (s : State) (p : Port) (ops : List FlashOp) : (s.withPort p ops).mixDue = s.mixDue := rfl
@[simp] theorem State.withPort_cuePass (s : State) (p : Port) (ops : List FlashOp) : (s.withPort p ops).cuePass = s.cuePass := rfl

/-! ## State.reply -/

@[simp] theorem State.reply_pending (s : State) (code : BitVec 8) (a : Answer) : (s.reply code a).pending = s.pending := rfl
@[simp] theorem State.reply_run (s : State) (code : BitVec 8) (a : Answer) : (s.reply code a).run = s.run := rfl
@[simp] theorem State.reply_localCount (s : State) (code : BitVec 8) (a : Answer) : (s.reply code a).localCount = s.localCount := rfl
@[simp] theorem State.reply_clock (s : State) (code : BitVec 8) (a : Answer) : (s.reply code a).clock = s.clock := rfl
@[simp] theorem State.reply_deviceTag (s : State) (code : BitVec 8) (a : Answer) : (s.reply code a).deviceTag = s.deviceTag := rfl
@[simp] theorem State.reply_imageStatus (s : State) (code : BitVec 8) (a : Answer) : (s.reply code a).imageStatus = s.imageStatus := rfl
@[simp] theorem State.reply_defaultCause (s : State) (code : BitVec 8) (a : Answer) : (s.reply code a).defaultCause = s.defaultCause := rfl
@[simp] theorem State.reply_bootPreset (s : State) (code : BitVec 8) (a : Answer) : (s.reply code a).bootPreset = s.bootPreset := rfl
@[simp] theorem State.reply_partition (s : State) (code : BitVec 8) (a : Answer) : (s.reply code a).partition = s.partition := rfl
@[simp] theorem State.reply_freeLists (s : State) (code : BitVec 8) (a : Answer) : (s.reply code a).freeLists = s.freeLists := rfl
@[simp] theorem State.reply_slots (s : State) (code : BitVec 8) (a : Answer) : (s.reply code a).slots = s.slots := rfl
@[simp] theorem State.reply_memory (s : State) (code : BitVec 8) (a : Answer) : (s.reply code a).memory = s.memory := rfl
@[simp] theorem State.reply_output (s : State) (code : BitVec 8) (a : Answer) : (s.reply code a).output = s.output := rfl
@[simp] theorem State.reply_strobeRate (s : State) (code : BitVec 8) (a : Answer) : (s.reply code a).strobeRate = s.strobeRate := rfl
@[simp] theorem State.reply_routes (s : State) (code : BitVec 8) (a : Answer) : (s.reply code a).routes = s.routes := rfl
@[simp] theorem State.reply_lanes (s : State) (code : BitVec 8) (a : Answer) : (s.reply code a).lanes = s.lanes := rfl
@[simp] theorem State.reply_contributions (s : State) (code : BitVec 8) (a : Answer) : (s.reply code a).contributions = s.contributions := rfl
@[simp] theorem State.reply_cues (s : State) (code : BitVec 8) (a : Answer) : (s.reply code a).cues = s.cues := rfl
@[simp] theorem State.reply_staged (s : State) (code : BitVec 8) (a : Answer) : (s.reply code a).staged = s.staged := rfl
@[simp] theorem State.reply_mute (s : State) (code : BitVec 8) (a : Answer) : (s.reply code a).mute = s.mute := rfl
@[simp] theorem State.reply_mark (s : State) (code : BitVec 8) (a : Answer) : (s.reply code a).mark = s.mark := rfl
@[simp] theorem State.reply_classes (s : State) (code : BitVec 8) (a : Answer) : (s.reply code a).classes = s.classes := rfl
@[simp] theorem State.reply_reports (s : State) (code : BitVec 8) (a : Answer) : (s.reply code a).reports = s.reports := rfl
@[simp] theorem State.reply_lostMark (s : State) (code : BitVec 8) (a : Answer) : (s.reply code a).lostMark = s.lostMark := rfl
@[simp] theorem State.reply_replyBuffer (s : State) (code : BitVec 8) (a : Answer) : (s.reply code a).replyBuffer = s.replyBuffer := rfl
@[simp] theorem State.reply_inbound (s : State) (code : BitVec 8) (a : Answer) : (s.reply code a).inbound = s.inbound := rfl
@[simp] theorem State.reply_outbound (s : State) (code : BitVec 8) (a : Answer) : (s.reply code a).outbound = s.outbound := rfl
@[simp] theorem State.reply_interp (s : State) (code : BitVec 8) (a : Answer) : (s.reply code a).interp = s.interp.map (fun p => p.answered code a) := rfl
@[simp] theorem State.reply_port (s : State) (code : BitVec 8) (a : Answer) : (s.reply code a).port = s.port := rfl
@[simp] theorem State.reply_flashOut (s : State) (code : BitVec 8) (a : Answer) : (s.reply code a).flashOut = s.flashOut := rfl
@[simp] theorem State.reply_strobed (s : State) (code : BitVec 8) (a : Answer) : (s.reply code a).strobed = s.strobed := rfl
@[simp] theorem State.reply_mixDue (s : State) (code : BitVec 8) (a : Answer) : (s.reply code a).mixDue = s.mixDue := rfl
@[simp] theorem State.reply_cuePass (s : State) (code : BitVec 8) (a : Answer) : (s.reply code a).cuePass = s.cuePass := rfl

/-! ## State.lastReply -/

@[simp] theorem State.lastReply_pending (s : State) (code : BitVec 8) (a : Answer) : (s.lastReply code a).pending = s.pending := rfl
@[simp] theorem State.lastReply_run (s : State) (code : BitVec 8) (a : Answer) : (s.lastReply code a).run = s.run := rfl
@[simp] theorem State.lastReply_localCount (s : State) (code : BitVec 8) (a : Answer) : (s.lastReply code a).localCount = s.localCount := rfl
@[simp] theorem State.lastReply_clock (s : State) (code : BitVec 8) (a : Answer) : (s.lastReply code a).clock = s.clock := rfl
@[simp] theorem State.lastReply_deviceTag (s : State) (code : BitVec 8) (a : Answer) : (s.lastReply code a).deviceTag = s.deviceTag := rfl
@[simp] theorem State.lastReply_imageStatus (s : State) (code : BitVec 8) (a : Answer) : (s.lastReply code a).imageStatus = s.imageStatus := rfl
@[simp] theorem State.lastReply_defaultCause (s : State) (code : BitVec 8) (a : Answer) : (s.lastReply code a).defaultCause = s.defaultCause := rfl
@[simp] theorem State.lastReply_bootPreset (s : State) (code : BitVec 8) (a : Answer) : (s.lastReply code a).bootPreset = s.bootPreset := rfl
@[simp] theorem State.lastReply_partition (s : State) (code : BitVec 8) (a : Answer) : (s.lastReply code a).partition = s.partition := rfl
@[simp] theorem State.lastReply_freeLists (s : State) (code : BitVec 8) (a : Answer) : (s.lastReply code a).freeLists = s.freeLists := rfl
@[simp] theorem State.lastReply_slots (s : State) (code : BitVec 8) (a : Answer) : (s.lastReply code a).slots = s.slots := rfl
@[simp] theorem State.lastReply_memory (s : State) (code : BitVec 8) (a : Answer) : (s.lastReply code a).memory = s.memory := rfl
@[simp] theorem State.lastReply_output (s : State) (code : BitVec 8) (a : Answer) : (s.lastReply code a).output = s.output := rfl
@[simp] theorem State.lastReply_strobeRate (s : State) (code : BitVec 8) (a : Answer) : (s.lastReply code a).strobeRate = s.strobeRate := rfl
@[simp] theorem State.lastReply_routes (s : State) (code : BitVec 8) (a : Answer) : (s.lastReply code a).routes = s.routes := rfl
@[simp] theorem State.lastReply_lanes (s : State) (code : BitVec 8) (a : Answer) : (s.lastReply code a).lanes = s.lanes := rfl
@[simp] theorem State.lastReply_contributions (s : State) (code : BitVec 8) (a : Answer) : (s.lastReply code a).contributions = s.contributions := rfl
@[simp] theorem State.lastReply_cues (s : State) (code : BitVec 8) (a : Answer) : (s.lastReply code a).cues = s.cues := rfl
@[simp] theorem State.lastReply_staged (s : State) (code : BitVec 8) (a : Answer) : (s.lastReply code a).staged = s.staged := rfl
@[simp] theorem State.lastReply_mute (s : State) (code : BitVec 8) (a : Answer) : (s.lastReply code a).mute = s.mute := rfl
@[simp] theorem State.lastReply_mark (s : State) (code : BitVec 8) (a : Answer) : (s.lastReply code a).mark = s.mark := rfl
@[simp] theorem State.lastReply_classes (s : State) (code : BitVec 8) (a : Answer) : (s.lastReply code a).classes = s.classes := rfl
@[simp] theorem State.lastReply_reports (s : State) (code : BitVec 8) (a : Answer) : (s.lastReply code a).reports = s.reports := rfl
@[simp] theorem State.lastReply_lostMark (s : State) (code : BitVec 8) (a : Answer) : (s.lastReply code a).lostMark = s.lostMark := rfl
@[simp] theorem State.lastReply_replyBuffer (s : State) (code : BitVec 8) (a : Answer) : (s.lastReply code a).replyBuffer = s.replyBuffer := rfl
@[simp] theorem State.lastReply_inbound (s : State) (code : BitVec 8) (a : Answer) : (s.lastReply code a).inbound = s.inbound := rfl
@[simp] theorem State.lastReply_outbound (s : State) (code : BitVec 8) (a : Answer) : (s.lastReply code a).outbound = s.outbound := rfl
@[simp] theorem State.lastReply_interp (s : State) (code : BitVec 8) (a : Answer) : (s.lastReply code a).interp = s.interp.map (fun p => p.stopped code a) := rfl
@[simp] theorem State.lastReply_port (s : State) (code : BitVec 8) (a : Answer) : (s.lastReply code a).port = s.port := rfl
@[simp] theorem State.lastReply_flashOut (s : State) (code : BitVec 8) (a : Answer) : (s.lastReply code a).flashOut = s.flashOut := rfl
@[simp] theorem State.lastReply_strobed (s : State) (code : BitVec 8) (a : Answer) : (s.lastReply code a).strobed = s.strobed := rfl
@[simp] theorem State.lastReply_mixDue (s : State) (code : BitVec 8) (a : Answer) : (s.lastReply code a).mixDue = s.mixDue := rfl
@[simp] theorem State.lastReply_cuePass (s : State) (code : BitVec 8) (a : Answer) : (s.lastReply code a).cuePass = s.cuePass := rfl

/-! ## State.withContribution -/

@[simp] theorem State.withContribution_pending (s : State) (i : Fin 8) (values : Option (List Int)) : (s.withContribution i values).pending = s.pending := rfl
@[simp] theorem State.withContribution_run (s : State) (i : Fin 8) (values : Option (List Int)) : (s.withContribution i values).run = s.run := rfl
@[simp] theorem State.withContribution_localCount (s : State) (i : Fin 8) (values : Option (List Int)) : (s.withContribution i values).localCount = s.localCount := rfl
@[simp] theorem State.withContribution_clock (s : State) (i : Fin 8) (values : Option (List Int)) : (s.withContribution i values).clock = s.clock := rfl
@[simp] theorem State.withContribution_deviceTag (s : State) (i : Fin 8) (values : Option (List Int)) : (s.withContribution i values).deviceTag = s.deviceTag := rfl
@[simp] theorem State.withContribution_imageStatus (s : State) (i : Fin 8) (values : Option (List Int)) : (s.withContribution i values).imageStatus = s.imageStatus := rfl
@[simp] theorem State.withContribution_defaultCause (s : State) (i : Fin 8) (values : Option (List Int)) : (s.withContribution i values).defaultCause = s.defaultCause := rfl
@[simp] theorem State.withContribution_bootPreset (s : State) (i : Fin 8) (values : Option (List Int)) : (s.withContribution i values).bootPreset = s.bootPreset := rfl
@[simp] theorem State.withContribution_partition (s : State) (i : Fin 8) (values : Option (List Int)) : (s.withContribution i values).partition = s.partition := rfl
@[simp] theorem State.withContribution_freeLists (s : State) (i : Fin 8) (values : Option (List Int)) : (s.withContribution i values).freeLists = s.freeLists := rfl
@[simp] theorem State.withContribution_slots (s : State) (i : Fin 8) (values : Option (List Int)) : (s.withContribution i values).slots = s.slots := rfl
@[simp] theorem State.withContribution_memory (s : State) (i : Fin 8) (values : Option (List Int)) : (s.withContribution i values).memory = s.memory := rfl
@[simp] theorem State.withContribution_output (s : State) (i : Fin 8) (values : Option (List Int)) : (s.withContribution i values).output = s.output := rfl
@[simp] theorem State.withContribution_strobeRate (s : State) (i : Fin 8) (values : Option (List Int)) : (s.withContribution i values).strobeRate = s.strobeRate := rfl
@[simp] theorem State.withContribution_routes (s : State) (i : Fin 8) (values : Option (List Int)) : (s.withContribution i values).routes = s.routes := rfl
@[simp] theorem State.withContribution_lanes (s : State) (i : Fin 8) (values : Option (List Int)) : (s.withContribution i values).lanes = s.lanes := rfl
@[simp] theorem State.withContribution_contributions (s : State) (i : Fin 8) (values : Option (List Int)) : (s.withContribution i values).contributions = s.contributions.set i.val (contributionOf (s.slot i) values) i.isLt := rfl
@[simp] theorem State.withContribution_cues (s : State) (i : Fin 8) (values : Option (List Int)) : (s.withContribution i values).cues = s.cues := rfl
@[simp] theorem State.withContribution_staged (s : State) (i : Fin 8) (values : Option (List Int)) : (s.withContribution i values).staged = s.staged := rfl
@[simp] theorem State.withContribution_mute (s : State) (i : Fin 8) (values : Option (List Int)) : (s.withContribution i values).mute = s.mute := rfl
@[simp] theorem State.withContribution_mark (s : State) (i : Fin 8) (values : Option (List Int)) : (s.withContribution i values).mark = s.mark := rfl
@[simp] theorem State.withContribution_classes (s : State) (i : Fin 8) (values : Option (List Int)) : (s.withContribution i values).classes = s.classes := rfl
@[simp] theorem State.withContribution_reports (s : State) (i : Fin 8) (values : Option (List Int)) : (s.withContribution i values).reports = s.reports := rfl
@[simp] theorem State.withContribution_lostMark (s : State) (i : Fin 8) (values : Option (List Int)) : (s.withContribution i values).lostMark = s.lostMark := rfl
@[simp] theorem State.withContribution_replyBuffer (s : State) (i : Fin 8) (values : Option (List Int)) : (s.withContribution i values).replyBuffer = s.replyBuffer := rfl
@[simp] theorem State.withContribution_inbound (s : State) (i : Fin 8) (values : Option (List Int)) : (s.withContribution i values).inbound = s.inbound := rfl
@[simp] theorem State.withContribution_outbound (s : State) (i : Fin 8) (values : Option (List Int)) : (s.withContribution i values).outbound = s.outbound := rfl
@[simp] theorem State.withContribution_interp (s : State) (i : Fin 8) (values : Option (List Int)) : (s.withContribution i values).interp = s.interp := rfl
@[simp] theorem State.withContribution_port (s : State) (i : Fin 8) (values : Option (List Int)) : (s.withContribution i values).port = s.port := rfl
@[simp] theorem State.withContribution_flashOut (s : State) (i : Fin 8) (values : Option (List Int)) : (s.withContribution i values).flashOut = s.flashOut := rfl
@[simp] theorem State.withContribution_strobed (s : State) (i : Fin 8) (values : Option (List Int)) : (s.withContribution i values).strobed = s.strobed := rfl
@[simp] theorem State.withContribution_mixDue (s : State) (i : Fin 8) (values : Option (List Int)) : (s.withContribution i values).mixDue = s.mixDue := rfl
@[simp] theorem State.withContribution_cuePass (s : State) (i : Fin 8) (values : Option (List Int)) : (s.withContribution i values).cuePass = s.cuePass := rfl

/-! ## joinReport -/

@[simp] theorem joinReport_pending (s : State) (r : Report) : (joinReport r s).pending = s.pending := rfl
@[simp] theorem joinReport_run (s : State) (r : Report) : (joinReport r s).run = s.run := rfl
@[simp] theorem joinReport_localCount (s : State) (r : Report) : (joinReport r s).localCount = s.localCount := rfl
@[simp] theorem joinReport_clock (s : State) (r : Report) : (joinReport r s).clock = s.clock := rfl
@[simp] theorem joinReport_deviceTag (s : State) (r : Report) : (joinReport r s).deviceTag = s.deviceTag := rfl
@[simp] theorem joinReport_imageStatus (s : State) (r : Report) : (joinReport r s).imageStatus = s.imageStatus := rfl
@[simp] theorem joinReport_defaultCause (s : State) (r : Report) : (joinReport r s).defaultCause = s.defaultCause := rfl
@[simp] theorem joinReport_bootPreset (s : State) (r : Report) : (joinReport r s).bootPreset = s.bootPreset := rfl
@[simp] theorem joinReport_partition (s : State) (r : Report) : (joinReport r s).partition = s.partition := rfl
@[simp] theorem joinReport_freeLists (s : State) (r : Report) : (joinReport r s).freeLists = s.freeLists := rfl
@[simp] theorem joinReport_slots (s : State) (r : Report) : (joinReport r s).slots = s.slots := rfl
@[simp] theorem joinReport_memory (s : State) (r : Report) : (joinReport r s).memory = s.memory := rfl
@[simp] theorem joinReport_output (s : State) (r : Report) : (joinReport r s).output = s.output := rfl
@[simp] theorem joinReport_strobeRate (s : State) (r : Report) : (joinReport r s).strobeRate = s.strobeRate := rfl
@[simp] theorem joinReport_routes (s : State) (r : Report) : (joinReport r s).routes = s.routes := rfl
@[simp] theorem joinReport_lanes (s : State) (r : Report) : (joinReport r s).lanes = s.lanes := rfl
@[simp] theorem joinReport_contributions (s : State) (r : Report) : (joinReport r s).contributions = s.contributions := rfl
@[simp] theorem joinReport_cues (s : State) (r : Report) : (joinReport r s).cues = s.cues := rfl
@[simp] theorem joinReport_staged (s : State) (r : Report) : (joinReport r s).staged = s.staged := rfl
@[simp] theorem joinReport_mute (s : State) (r : Report) : (joinReport r s).mute = s.mute := rfl
@[simp] theorem joinReport_mark (s : State) (r : Report) : (joinReport r s).mark = s.mark := rfl
@[simp] theorem joinReport_classes (s : State) (r : Report) : (joinReport r s).classes = s.classes := rfl
@[simp] theorem joinReport_reports (s : State) (r : Report) : (joinReport r s).reports = s.reports ++ [{ r with lost := s.lostMark }] := rfl
@[simp] theorem joinReport_lostMark (s : State) (r : Report) : (joinReport r s).lostMark = false := rfl
@[simp] theorem joinReport_replyBuffer (s : State) (r : Report) : (joinReport r s).replyBuffer = s.replyBuffer := rfl
@[simp] theorem joinReport_inbound (s : State) (r : Report) : (joinReport r s).inbound = s.inbound := rfl
@[simp] theorem joinReport_outbound (s : State) (r : Report) : (joinReport r s).outbound = s.outbound := rfl
@[simp] theorem joinReport_interp (s : State) (r : Report) : (joinReport r s).interp = s.interp := rfl
@[simp] theorem joinReport_port (s : State) (r : Report) : (joinReport r s).port = s.port := rfl
@[simp] theorem joinReport_flashOut (s : State) (r : Report) : (joinReport r s).flashOut = s.flashOut := rfl
@[simp] theorem joinReport_strobed (s : State) (r : Report) : (joinReport r s).strobed = s.strobed := rfl
@[simp] theorem joinReport_mixDue (s : State) (r : Report) : (joinReport r s).mixDue = s.mixDue := rfl
@[simp] theorem joinReport_cuePass (s : State) (r : Report) : (joinReport r s).cuePass = s.cuePass := rfl

/-! ## Slots -/

/-- The slot just written. -/
@[simp] theorem slot_setSlot_same (s : State) (i : Fin 8) (v : Slot) : (s.setSlot i v).slot i = v := by
  simp [State.slot]

/-- A slot other than the one written. -/
theorem slot_setSlot_of_ne (s : State) (i j : Fin 8) (v : Slot) (h : j ≠ i) : (s.setSlot i v).slot j = s.slot j := by
  have h' : i.val ≠ j.val := fun e => h (Fin.ext e.symm)
  simp [State.slot, Vector.getElem_set_ne, h']

/-- Any slot after one is written. -/
theorem slot_setSlot (s : State) (i j : Fin 8) (v : Slot) : (s.setSlot i v).slot j = if j = i then v else s.slot j := by
  split
  · next h => subst h; simp
  · next h => exact slot_setSlot_of_ne s i j v h

/-- Two writes of one slot: the later one stands. -/
theorem setSlot_setSlot (s : State) (i : Fin 8) (v w : Slot) : (s.setSlot i v).setSlot i w = s.setSlot i w := by
  simp [State.setSlot]

/-- The slots read as the accessor reads them depend on nothing but `slots`. -/
theorem slot_congr {s t : State} (h : t.slots = s.slots) (i : Fin 8) : t.slot i = s.slot i := by simp [State.slot, h]

/-! ## Records handed over -/

/-- A record that the part takes, whose owner leaves the frame in hand alone: the owner's work and its answer. -/
theorem handOver_taken {i : Instr} {s : State} {owner : State → State × Answer} {code : BitVec 8} {n : Nat}
    (h : Taken i s) (hs : recordShape i = some (code, n)) (ho : (owner s).1.interp = s.interp) :
    handOver i owner s = ((owner s).1).reply code (owner s).2 := by
  unfold handOver
  by_cases hh : s.handing i = true
  · have hroom : s.replyRoom n = true := by
      rcases h with h | ⟨_, c, m, hcm, hr⟩
      · simp only [State.standsAlone, Bool.and_eq_true, Option.isNone_iff_eq_none] at h
        simp [State.handing, h.2] at hh
      · rw [hs] at hcm; cases hcm; exact hr
    simp [hh, hs, hroom]
  · have hh' : s.handing i = false := by simpa using hh
    rcases h with h | ⟨h, _⟩
    · have hn : s.interp = none := by
        simp only [State.standsAlone, Bool.and_eq_true, Option.isNone_iff_eq_none] at h
        exact h.2
      have hi : (owner s).1.interp = none := ho.trans hn
      simp only [hh', h, if_true, State.reply, hi, Option.map_none]
      generalize (owner s).1 = t at hi
      cases t; simp_all
    · exact absurd h hh

/-- A record that the part takes, by what its owner answers. -/
theorem handOver_next {i : Instr} {s t : State} {a : Answer} {owner : State → State × Answer} {code : BitVec 8} {n : Nat}
    (h : Taken i s) (hs : recordShape i = some (code, n)) (ho : owner s = (t, a)) (hi : t.interp = s.interp) :
    handOver i owner s = t.reply code a := by
  rw [handOver_taken h hs (by rw [ho]; exact hi), ho]

/-- A record in hand whose largest reply does not fit: REFUSED FULL, and the frame's processing stops (R152). -/
theorem handOver_full {i : Instr} {s : State} {owner : State → State × Answer} {code : BitVec 8} {n : Nat}
    (h : s.handing i = true) (hs : recordShape i = some (code, n)) (hr : s.replyRoom n = false) :
    handOver i owner s = s.lastReply code (refusal .full) := by
  simp [handOver, h, hs, hr]

/-- A record that is neither in hand nor taken by itself changes nothing. -/
theorem handOver_idle {i : Instr} {s : State} {owner : State → State × Answer}
    (h : s.handing i = false) (ha : s.standsAlone = false) : handOver i owner s = s := by
  simp [handOver, h, ha]

end Sys2Proof.Machine
end

