-- ==== Sys2Proof/Laws/Memory.lean ====
section
/-! SUPPORT. Sample Memory: a read after a write, and the canonical form that every write keeps. -/

namespace Sys2Proof.Machine

/-! ## The canonical form -/

/-- A list in canonical form is rising from its head on. -/
theorem memoryWf_tail {a : Nat} {v : Sample} {m : Memory} (h : memoryWf ((a, v) :: m) = true) : memoryWf m = true := by
  cases m with
  | nil => rfl
  | cons p rest => simp only [memoryWf, Bool.and_eq_true] at h; exact h.2

/-- The head's address lies in the memory. -/
theorem memoryWf_head {a : Nat} {v : Sample} {m : Memory} (h : memoryWf ((a, v) :: m) = true) : a < memoryWords := by
  induction m generalizing a v with
  | nil => simpa [memoryWf] using h
  | cons p rest ih =>
    obtain ⟨b, w⟩ := p
    simp only [memoryWf, Bool.and_eq_true, decide_eq_true_eq] at h
    have := ih h.2
    omega

/-- What a list in canonical form may be extended with at its front. -/
theorem memoryWf_cons {a : Nat} {v : Sample} {m : Memory} (ha : a < memoryWords) (hm : memoryWf m = true)
    (hlt : ∀ b w rest, m = (b, w) :: rest → a < b) : memoryWf ((a, v) :: m) = true := by
  cases m with
  | nil => simpa [memoryWf] using ha
  | cons p rest =>
    obtain ⟨b, w⟩ := p
    simp [memoryWf, hlt b w rest rfl, hm]

/-- The head address after an insertion is the old one or the new one. -/
theorem insertWord_head {m : Memory} {a b : Nat} {v w : Sample} {rest : Memory} (h : insertWord m a v = (b, w) :: rest) :
    b = a ∨ ∃ u r, m = (b, u) :: r := by
  cases m with
  | nil => simp only [insertWord, List.cons.injEq, Prod.mk.injEq] at h; exact .inl h.1.1.symm
  | cons p r =>
    obtain ⟨c, u⟩ := p
    simp only [insertWord] at h
    split at h
    · simp only [List.cons.injEq, Prod.mk.injEq] at h; exact .inl h.1.1.symm
    · split at h
      · simp only [List.cons.injEq, Prod.mk.injEq] at h; exact .inl h.1.1.symm
      · simp only [List.cons.injEq, Prod.mk.injEq] at h; exact .inr ⟨u, r, by rw [h.1.1]⟩

/-- An insertion at an address of the memory keeps the canonical form. -/
theorem insertWord_wf (m : Memory) (a : Nat) (v : Sample) (ha : a < memoryWords) (h : memoryWf m = true) :
    memoryWf (insertWord m a v) = true := by
  induction m with
  | nil => simpa [insertWord, memoryWf] using ha
  | cons p rest ih =>
    obtain ⟨b, w⟩ := p
    simp only [insertWord]
    split
    · next hlt => exact memoryWf_cons ha h (by intro c u r e; cases e; exact hlt)
    · split
      · next heq =>
        subst heq
        refine memoryWf_cons ha (memoryWf_tail h) ?_
        intro c u r e
        subst e
        simp only [memoryWf, Bool.and_eq_true, decide_eq_true_eq] at h
        exact h.1
      · next hlt heq =>
        refine memoryWf_cons (memoryWf_head h) (ih (memoryWf_tail h)) ?_
        intro c u r e
        rcases insertWord_head e with rfl | ⟨u', r', rfl⟩
        · omega
        · simp only [memoryWf, Bool.and_eq_true, decide_eq_true_eq] at h
          exact h.1

/-- A write keeps the canonical form. -/
theorem writeWord_wf (m : Memory) (a : Nat) (v : Sample) (h : memoryWf m = true) : memoryWf (writeWord m a v) = true := by
  unfold writeWord
  split
  · next ha => exact insertWord_wf m a v ha h
  · exact h

/-- The writes of a chunk keep the canonical form. -/
theorem writeSamples_wf (c : Context) (blocks : List Nat) (k front : Int) (j : Nat) (xs : List Sample) (m : Memory)
    (h : memoryWf m = true) : memoryWf (writeSamples c blocks k front j xs m) = true := by
  induction xs generalizing j m with
  | nil => exact h
  | cons x xs ih =>
    simp only [writeSamples]
    split
    · exact ih _ _ h
    · exact ih _ _ (writeWord_wf _ _ _ h)

/-! ## Reads after writes -/

/-- An inserted word reads as written. -/
theorem readWord_insertWord_same (m : Memory) (a : Nat) (v : Sample) : readWord (insertWord m a v) a = some v := by
  induction m with
  | nil => simp [insertWord, readWord]
  | cons p rest ih =>
    obtain ⟨b, w⟩ := p
    simp only [insertWord]
    split
    · simp [readWord]
    · split
      · simp [readWord]
      · next h1 h2 => simp [readWord, h2, ih]

/-- An insertion leaves every other word alone. -/
theorem readWord_insertWord_of_ne (m : Memory) (a b : Nat) (v : Sample) (h : b ≠ a) :
    readWord (insertWord m a v) b = readWord m b := by
  induction m with
  | nil => simp [insertWord, readWord, h]
  | cons p rest ih =>
    obtain ⟨c, w⟩ := p
    simp only [insertWord]
    split
    · simp [readWord, h]
    · split
      · next h2 => subst h2; simp [readWord, h]
      · simp only [readWord, ih]

/-- A write of an existing word reads as written. -/
theorem readWord_writeWord_same (m : Memory) (a : Nat) (v : Sample) (h : a < memoryWords) :
    readWord (writeWord m a v) a = some v := by
  simp [writeWord, h, readWord_insertWord_same]

/-- A write leaves every other word alone. -/
theorem readWord_writeWord_of_ne (m : Memory) (a b : Nat) (v : Sample) (h : b ≠ a) :
    readWord (writeWord m a v) b = readWord m b := by
  unfold writeWord
  split
  · exact readWord_insertWord_of_ne m a b v h
  · rfl

/-- The word that sample `j` of a chunk starting at index `k` goes to. -/
def sampleAddress (c : Context) (blocks : List Nat) (k : Int) (j : Nat) : Nat :=
  ringAddress blocks (ringWord c (k + (j / c.channels.count : Nat)) (j % c.channels.count))

/-- A word that no sample of a chunk goes to is left alone by the chunk's writes. -/
theorem readWord_writeSamples_of_ne (c : Context) (blocks : List Nat) (k front : Int) (j : Nat) (xs : List Sample) (m : Memory)
    (a : Nat)
    (h : ∀ n, j ≤ n → n < j + xs.length → front ≤ k + (n / c.channels.count : Nat) → a ≠ sampleAddress c blocks k n) :
    readWord (writeSamples c blocks k front j xs m) a = readWord m a := by
  induction xs generalizing j m with
  | nil => rfl
  | cons x xs ih =>
    simp only [writeSamples]
    rw [ih (j + 1) _ (fun n h1 h2 => h n (by omega) (by simp only [List.length_cons]; omega))]
    split
    · rfl
    · next hf => exact readWord_writeWord_of_ne _ _ _ _ (h j (le_refl j) (by simp) (by omega))

end Sys2Proof.Machine
end

