-- ==== Sys2Proof/Laws/Queues.lean ====
section
/-! SUPPORT. The playout queues keep their rules: rising, disjoint, within the window (R74, R78), through filing, retirement,
re-basing and the rest, one lemma for each operation. -/

set_option Elab.async false

namespace Sys2Proof.Machine

/-- At most 32 records of one index or more, rising without overlap, all from `lo` to `hi`. -/
structure QueueOk (q : List ChunkRecord) (lo hi : Int) : Prop where
  length : q.length ≤ 32
  counts : ∀ r ∈ q, 1 ≤ r.count
  rising : q.Pairwise fun r p => r.endIndex < p.start
  lower  : ∀ r ∈ q, lo ≤ r.start
  upper  : ∀ r ∈ q, r.endIndex ≤ hi

/-- A record of one index or more ends at its start or after it. -/
theorem start_le_endIndex {r : ChunkRecord} (h : 1 ≤ r.count) : r.start ≤ r.endIndex := by
  unfold ChunkRecord.endIndex; omega

theorem QueueOk.sublist {q q' : List ChunkRecord} {lo hi : Int} (h : QueueOk q lo hi) (hs : q'.Sublist q) : QueueOk q' lo hi :=
  ⟨hs.length_le.trans h.length, fun r hr => h.counts r (hs.subset hr), h.rising.sublist hs,
    fun r hr => h.lower r (hs.subset hr), fun r hr => h.upper r (hs.subset hr)⟩

theorem QueueOk.nil (lo hi : Int) : QueueOk [] lo hi := ⟨by simp, by simp, by simp, by simp, by simp⟩

/-- A queue with a base is in its window. -/
theorem QueueOk.of_fits {v : Slot} {c : Context} (h : queueFits v c) {b : Int} (hb : baseOf v = some b) :
    QueueOk v.queue b (b + ringFrames c - 1) :=
  ⟨h.1, h.2.1, h.2.2.1, fun r hr => (h.2.2.2 b hb r hr).1, fun r hr => (h.2.2.2 b hb r hr).2⟩

/-- A queue without a base is empty. -/
theorem queue_nil_of_baseOf {v : Slot} (h : baseOf v = none) : v.queue = [] := by
  unfold baseOf at h
  split at h
  · cases h
  · cases hq : v.queue with
    | nil => rfl
    | cons r rs => simp [hq] at h

/-- A queue in a window somewhere fits a slot whose F is absent: its base is its head's start. -/
theorem fits_of_unplaced {v : Slot} {c : Context} {lo hi : Int} (h : QueueOk v.queue lo hi) (hw : hi ≤ lo + ringFrames c - 1)
    (hf : v.readPos = none) : queueFits v c := by
  refine ⟨h.length, h.counts, h.rising, fun b hb r hr => ?_⟩
  simp only [baseOf, hf] at hb
  cases hq : v.queue with
  | nil => simp [hq] at hr
  | cons x xs =>
    simp only [hq, List.head?_cons, Option.map_some, Option.some.injEq] at hb
    subst hb
    have hx : x ∈ v.queue := by rw [hq]; exact List.mem_cons_self
    have h1 := h.lower x hx
    have h2 := h.upper r hr
    refine ⟨?_, by omega⟩
    rw [hq] at hr
    rcases List.mem_cons.1 hr with rfl | hr
    · exact le_refl _
    · have hp := h.rising
      rw [hq] at hp
      have := (List.pairwise_cons.1 hp).1 r hr
      have := start_le_endIndex (h.counts x hx)
      omega

/-- A queue in the window of floor(F) fits a slot whose F is present. -/
theorem fits_of_placed {v : Slot} {c : Context} {f : Int} (h : QueueOk v.queue (floorF f) (floorF f + ringFrames c - 1))
    (hf : v.readPos = some f) : queueFits v c := by
  refine ⟨h.length, h.counts, h.rising, fun b hb r hr => ?_⟩
  simp only [baseOf, hf, Option.some.injEq] at hb
  subst hb
  exact ⟨h.lower r hr, h.upper r hr⟩

/-- Where a record takes its place: after those that begin at or before it and before the first that begins after it (R86). -/
theorem insertRecord_split (r : ChunkRecord) : ∀ q : List ChunkRecord, ∃ before after, q = before ++ after ∧
    insertRecord r q = before ++ r :: after ∧ (∀ x ∈ before, x.start ≤ r.start) ∧ (∀ x, after.head? = some x → r.start < x.start)
  | [] => ⟨[], [], rfl, rfl, by simp, by simp⟩
  | y :: ys => by
    by_cases h : r.start < y.start
    · exact ⟨[], y :: ys, rfl, by simp [insertRecord, h], by simp, by simpa using h⟩
    · obtain ⟨b, a, h1, h2, h3, h4⟩ := insertRecord_split r ys
      refine ⟨y :: b, a, by simp [h1], by simp [insertRecord, h, h2], ?_, h4⟩
      intro x hx
      rcases List.mem_cons.1 hx with rfl | hx
      · omega
      · exact h3 x hx

/-- The last record of a rising queue has the largest end. -/
theorem endIndex_le_largestEnd {q : List ChunkRecord} {lo hi e : Int} (h : QueueOk q lo hi) : ∀ r ∈ q, r.endIndex ≤ largestEnd q e := by
  intro r hr
  unfold largestEnd
  cases hl : q.getLast? with
  | none => simp [List.getLast?_eq_none_iff.1 hl] at hr
  | some x =>
    obtain ⟨ys, rfl⟩ := List.getLast?_eq_some_iff.1 hl
    dsimp only
    rcases List.mem_append.1 hr with hr | hr
    · have h1 := (List.pairwise_append.1 h.rising).2.2 r hr x (by simp)
      have h2 := start_le_endIndex (h.counts x (by simp))
      omega
    · simp only [List.mem_singleton] at hr; subst hr; omega

theorem le_largestEnd (q : List ChunkRecord) (e : Int) : e ≤ largestEnd q e := by
  unfold largestEnd; split <;> omega

/-! ## Filing (R86) -/

theorem insertRecord_mem {r x : ChunkRecord} {q : List ChunkRecord} : x ∈ insertRecord r q ↔ x = r ∨ x ∈ q := by
  induction q with
  | nil => simp [insertRecord]
  | cons y ys ih =>
    simp only [insertRecord]
    split
    · simp
    · simp only [List.mem_cons, ih]; tauto

theorem insertRecord_length (r : ChunkRecord) (q : List ChunkRecord) : (insertRecord r q).length = q.length + 1 := by
  induction q with
  | nil => rfl
  | cons y ys ih => simp only [insertRecord]; split <;> simp [ih]

/-- A record that meets no other keeps the queue rising (R84, R86). -/
theorem insertRecord_rising {r : ChunkRecord} {q : List ChunkRecord} (hq : q.Pairwise fun a b => a.endIndex < b.start)
    (hc : ∀ x ∈ q, 1 ≤ x.count) (hr : 1 ≤ r.count) (hd : ∀ x ∈ q, ¬ (x.start ≤ r.endIndex ∧ r.start ≤ x.endIndex)) :
    (insertRecord r q).Pairwise fun a b => a.endIndex < b.start := by
  induction q with
  | nil => simp [insertRecord]
  | cons y ys ih =>
    obtain ⟨h1, h2⟩ := List.pairwise_cons.1 hq
    have hy := start_le_endIndex (hc y (by simp))
    have hyd := hd y (by simp)
    have hre := start_le_endIndex hr
    simp only [insertRecord]
    split
    · next hlt =>
      refine List.pairwise_cons.2 ⟨fun x hx => ?_, hq⟩
      rcases List.mem_cons.1 hx with rfl | hx
      · omega
      · have := h1 x hx; omega
    · next hge =>
      refine List.pairwise_cons.2 ⟨fun x hx => ?_, ih h2 (fun x hx => hc x (by simp [hx])) fun x hx => hd x (by simp [hx])⟩
      rcases insertRecord_mem.1 hx with rfl | hx
      · omega
      · exact h1 x hx

theorem QueueOk.insert {q : List ChunkRecord} {r : ChunkRecord} {lo hi lo' hi' : Int} (h : QueueOk q lo hi) (hl : q.length < 32)
    (hr : 1 ≤ r.count) (hd : ∀ x ∈ q, ¬ (x.start ≤ r.endIndex ∧ r.start ≤ x.endIndex)) (hlo : lo' ≤ r.start) (hhi : r.endIndex ≤ hi')
    (hlo' : ∀ x ∈ q, lo' ≤ x.start) (hhi' : ∀ x ∈ q, x.endIndex ≤ hi') : QueueOk (insertRecord r q) lo' hi' := by
  refine ⟨by rw [insertRecord_length]; omega, fun x hx => ?_, insertRecord_rising h.rising h.counts hr hd, fun x hx => ?_, fun x hx => ?_⟩
  · rcases insertRecord_mem.1 hx with rfl | hx
    exacts [hr, h.counts x hx]
  · rcases insertRecord_mem.1 hx with rfl | hx
    exacts [hlo, hlo' x hx]
  · rcases insertRecord_mem.1 hx with rfl | hx
    exacts [hhi, hhi' x hx]

/-- A chunk that the rules file leaves a queue that fits (R78, R82 to R86). -/
theorem queueFits_filed {s : State} {v : Slot} {c : Context} {k : Chunk} {start : Int} {o : Option Time} (h : queueFits v c)
    (hk : 1 ≤ k.count) (hf : fateOpen s v c k start = .filed) :
    queueFits { v with queue := insertRecord (filedRecord v k start) v.queue, origin := o } c := by
  unfold fateOpen at hf
  dsimp only at hf
  repeat' split at hf
  all_goals cases hf
  next _ hlate _ _ hov hfull hspace =>
  simp only [List.any_eq_true, decide_eq_true_eq, not_exists, not_and] at hov
  have hd : ∀ a : Int, start ≤ a → ∀ x ∈ v.queue, ¬ (x.start ≤ start + k.count - 1 ∧ a ≤ x.endIndex) := fun a ha x hx hh => by
    have := hov x hx hh.1; omega
  cases hp : v.readPos with
  | some f =>
    simp only [isLate, hp, decide_eq_true_eq] at hlate
    have hb : baseOf v = some (floorF f) := by simp [baseOf, hp]
    have hq := QueueOk.of_fits h hb
    have hs : filedStart v start = max start (floorF f) := by simp [filedStart, hp]
    have he : (filedRecord v k start).endIndex = start + k.count - 1 := by
      simp only [filedRecord, ChunkRecord.endIndex, hs]; omega
    have htb : testBase v start = floorF f := by simp [testBase, hp]
    rw [htb] at hspace
    have hle := le_largestEnd v.queue (start + k.count - 1)
    refine fits_of_placed (f := f) ?_ rfl
    refine hq.insert (by omega) (by simp only [filedRecord, hs]; omega) ?_ (by simp only [filedRecord, hs]; omega) (by rw [he]; omega) hq.lower
      fun x hx => ?_
    · rw [he]; exact hd _ (by simp only [filedRecord, hs]; omega)
    · have := endIndex_le_largestEnd (e := start + k.count - 1) hq x hx; omega
  | none =>
    have hs : filedStart v start = start := by simp [filedStart, hp]
    have he : (filedRecord v k start).endIndex = start + k.count - 1 := by
      simp only [filedRecord, ChunkRecord.endIndex, hs]; omega
    have hle := le_largestEnd v.queue (start + k.count - 1)
    obtain ⟨lo, hi, hq⟩ : ∃ lo hi, QueueOk v.queue lo hi := by
      cases hb : baseOf v with
      | none => exact ⟨0, 0, queue_nil_of_baseOf hb ▸ QueueOk.nil 0 0⟩
      | some b => exact ⟨_, _, QueueOk.of_fits h hb⟩
    have hlow : ∀ x ∈ v.queue, testBase v start ≤ x.start := by
      intro x hx
      cases hv : v.queue with
      | nil => simp [hv] at hx
      | cons y ys =>
        have ht : testBase v start = min start y.start := by simp [testBase, hp, hv]
        have hb : baseOf v = some y.start := by simp [baseOf, hp, hv]
        have := (QueueOk.of_fits h hb).lower x hx
        omega
    have hts : testBase v start ≤ start := by
      cases hv : v.queue with
      | nil => simp [testBase, hp, hv]
      | cons y ys => simp [testBase, hp, hv]
    refine fits_of_unplaced (lo := testBase v start) (hi := largestEnd v.queue (start + k.count - 1)) ?_ (by omega) rfl
    refine hq.insert (by omega) (by simp only [filedRecord, hs]; omega) ?_ (by simp only [filedRecord, hs]; omega) (by rw [he]; exact hle) hlow
      fun x hx => endIndex_le_largestEnd hq x hx
    rw [he]; exact hd _ (by simp only [filedRecord, hs]; omega)

/-! ## Leaving the queue (R88 to R90) -/

theorem QueueOk.kept {q : List ChunkRecord} {lo hi : Int} (h : QueueOk q lo hi) (floor : Int) : QueueOk (keptRecords q floor) lo hi :=
  h.sublist List.filter_sublist

/-- The queue brought into line with floor(F): in the window from there on (R88). -/
theorem QueueOk.retireTo {q : List ChunkRecord} {lo hi : Int} (h : QueueOk q lo hi) (floor : Int) : QueueOk (retireTo floor q) floor hi := by
  have hk := h.kept floor
  have he : ∀ r ∈ keptRecords q floor, floor ≤ r.endIndex := by
    intro r hr
    have := List.of_mem_filter hr
    simp only [Bool.not_eq_true', decide_eq_false_iff_not] at this
    omega
  unfold Machine.retireTo
  cases hq : keptRecords q floor with
  | nil => exact QueueOk.nil _ _
  | cons r rs =>
    rw [hq] at hk he
    have h1 := he r (by simp)
    have hrs : ∀ x ∈ rs, floor ≤ x.start := fun x hx => by
      have := (List.pairwise_cons.1 hk.rising).1 x hx; omega
    simp only [trimHead]
    split
    · next hlt =>
      have hend : ChunkRecord.endIndex { r with start := floor, count := r.count - (floor - r.start).toNat } = r.endIndex := by
        have := start_le_endIndex (hk.counts r (by simp))
        simp only [ChunkRecord.endIndex] at *; omega
      have hc : 1 ≤ r.count - (floor - r.start).toNat := by simp only [ChunkRecord.endIndex] at h1; omega
      refine ⟨hk.length, fun x hx => ?_, List.pairwise_cons.2 ⟨fun x hx => ?_, (List.pairwise_cons.1 hk.rising).2⟩, fun x hx => ?_, fun x hx => ?_⟩
      · rcases List.mem_cons.1 hx with rfl | hx
        exacts [hc, hk.counts x (by simp [hx])]
      · rw [hend]; exact (List.pairwise_cons.1 hk.rising).1 x hx
      · rcases List.mem_cons.1 hx with rfl | hx
        exacts [le_refl _, hrs x hx]
      · rcases List.mem_cons.1 hx with rfl | hx
        exacts [hend ▸ hk.upper r (by simp), hk.upper x (by simp [hx])]
    · next hge =>
      refine ⟨hk.length, hk.counts, hk.rising, fun x hx => ?_, hk.upper⟩
      rcases List.mem_cons.1 hx with rfl | hx
      exacts [by omega, hrs x hx]

/-- The tail cut to the window ending at `last` (R89). -/
theorem QueueOk.cutTail {q : List ChunkRecord} {lo hi : Int} (h : QueueOk q lo hi) (last : Int) : QueueOk (cutTail last q) lo last := by
  have hf : QueueOk (q.filter (fun r => decide (r.start ≤ last))) lo hi := h.sublist List.filter_sublist
  have hl : ∀ r ∈ q.filter (fun r => decide (r.start ≤ last)), r.start ≤ last := fun r hr => by simpa using List.of_mem_filter hr
  unfold Machine.cutTail
  generalize q.filter (fun r => decide (r.start ≤ last)) = p at hf hl
  have hs : ∀ r ∈ p, ∀ x : ChunkRecord, x = (if last < r.endIndex then { r with count := (last - r.start + 1).toNat } else r) →
      x.start = r.start ∧ x.endIndex = min r.endIndex last ∧ 1 ≤ x.count := by
    intro r hr x hx
    have h1 := hl r hr
    have h2 := hf.counts r hr
    subst hx
    split
    · next hlt => refine ⟨rfl, ?_, ?_⟩ <;> simp only [ChunkRecord.endIndex] at * <;> omega
    · next hge => exact ⟨rfl, by omega, h2⟩
  refine ⟨by rw [List.length_map]; exact hf.length, fun x hx => ?_, ?_, fun x hx => ?_, fun x hx => ?_⟩
  · obtain ⟨r, hr, rfl⟩ := List.mem_map.1 hx
    exact (hs r hr _ rfl).2.2
  · refine List.pairwise_map.2 (hf.rising.imp_of_mem fun {a b} ha hb hab => ?_)
    rw [(hs a ha _ rfl).2.1, (hs b hb _ rfl).1]
    omega
  · obtain ⟨r, hr, rfl⟩ := List.mem_map.1 hx
    rw [(hs r hr _ rfl).1]; exact hf.lower r hr
  · obtain ⟨r, hr, rfl⟩ := List.mem_map.1 hx
    rw [(hs r hr _ rfl).2.1]; omega

/-- A queue re-based on a new floor(F) is in the window from there (R89). -/
theorem QueueOk.rebase {v : Slot} {c : Context} (h : queueFits v c) (floor : Int) :
    QueueOk (rebase c (baseOf v) floor v.queue) floor (floor + ringFrames c - 1) := by
  unfold Machine.rebase
  cases hb : baseOf v with
  | none => rw [queue_nil_of_baseOf hb]; exact QueueOk.nil _ _
  | some b =>
    have hq := (QueueOk.of_fits h hb).retireTo floor
    dsimp only
    split
    · exact hq.cutTail _
    · exact ⟨hq.length, hq.counts, hq.rising, hq.lower, fun r hr => (hq.upper r hr).trans (by omega)⟩

/-! ## The step (R93, R102) -/

/-- A nominal step corrected by the clock term and a slew never runs backward (R102). -/
theorem step_nonneg (fs : Rate) (fo : OutputRate) (epsilon err : Int)
    (h : -Config.driftLimit ≤ epsilon ∧ epsilon ≤ Config.driftLimit) :
    0 ≤ nominalStep fs fo + clockTerm (nominalStep fs fo) epsilon ∧
    0 ≤ nominalStep fs fo + clockTerm (nominalStep fs fo) epsilon + slewOf (nominalStep fs fo) err := by
  simp only [Config.driftLimit] at h
  have hn : 0 ≤ nominalStep fs fo ∧ nominalStep fs fo ≤ 2 ^ 40 := by cases fs <;> cases fo <;> decide
  generalize nominalStep fs fo = n at hn
  have hc : -(n / 2) ≤ clockTerm n epsilon := by
    have h1 : -(n * 1288490) ≤ n * epsilon := by nlinarith [hn.1, h.1]
    have h2 : clockTerm n epsilon = n * epsilon / 2 ^ 32 + if 0 ≤ n * epsilon ∨ (2 ^ 32 : Int) ∣ n * epsilon then 0 else 1 := by
      rw [clockTerm, Int.tdiv_eq_ediv]; rfl
    rw [h2]
    generalize n * epsilon = x at h1
    split <;> omega
  have hs : -(n / 2048) ≤ slewOf n err := by
    have : slewLimit n = n / 2048 := by rw [slewLimit, Int.tdiv_eq_ediv_of_nonneg hn.1]
    simp only [slewOf, clampTo, this]; omega
  constructor <;> omega

theorem nominalStep_nonneg (fs : Rate) (fo : OutputRate) : 0 ≤ nominalStep fs fo := by cases fs <;> cases fo <;> decide

/-! ## Slots -/

theorem nominalOf_nonneg (s : State) (v : Slot) : 0 ≤ s.nominalOf v := by
  unfold State.nominalOf; split
  · exact nominalStep_nonneg _ _
  · exact le_refl 0

/-- An empty queue fits. -/
theorem slotQueueSound_of_nil {v : Slot} (hs : 0 ≤ v.step) (hq : v.queue = []) : slotQueueSound v :=
  ⟨hs, fun c _ => ⟨by simp [hq], by simp [hq], by simp [hq], by simp [hq]⟩⟩

theorem slotQueueSound_closed (n : BitVec 8) : slotQueueSound (Slot.closedWith n) := slotQueueSound_of_nil (le_refl 0) rfl

theorem slotQueueSound_primed (v : Slot) {n : Int} (h : 0 ≤ n) : slotQueueSound (primed v n) := slotQueueSound_of_nil h rfl

theorem slotQueueSound_opened (c : Context) (b : List Nat) (n : BitVec 8) (fo : OutputRate) :
    slotQueueSound (openedSlot c b (nominalStep c.rate fo) n) := slotQueueSound_of_nil (nominalStep_nonneg _ _) rfl

/-- The late discard (R90). -/
theorem slotQueueSound_kept {v : Slot} (h : slotQueueSound v) (due : Int) :
    slotQueueSound { v with queue := keptRecords v.queue due } := by
  refine ⟨h.1, fun c hc => ?_⟩
  have hf := h.2 c hc
  cases hp : v.readPos with
  | some f => exact fits_of_placed ((QueueOk.of_fits hf (by simp [baseOf, hp] : baseOf v = some (floorF f))).kept due) rfl
  | none =>
    cases hb : baseOf v with
    | none =>
      have : keptRecords v.queue due = [] := by rw [queue_nil_of_baseOf hb]; rfl
      exact fits_of_unplaced (lo := 0) (hi := -1) (by dsimp only; rw [this]; exact QueueOk.nil _ _) (by omega) rfl
    | some b => exact fits_of_unplaced ((QueueOk.of_fits hf hb).kept due) (le_refl _) rfl

/-- The advance (R88, R100). -/
theorem slotQueueSound_advanced {v : Slot} (h : slotQueueSound v) {f : Int} (hf : v.readPos = some f) (ph : Nat) (d : Bool) :
    slotQueueSound { v with
      readPos := some (f + v.step), queue := retireTo (floorF (f + v.step)) v.queue, phase := ph, correctionDue := d } := by
  refine ⟨h.1, fun c hc => fits_of_placed (f := f + v.step) ?_ rfl⟩
  have hq := (QueueOk.of_fits (h.2 c hc) (by simp [baseOf, hf] : baseOf v = some (floorF f))).retireTo (floorF (f + v.step))
  have hs := h.1
  have hle : floorF f ≤ floorF (f + v.step) := by unfold floorF; omega
  exact ⟨hq.length, hq.counts, hq.rising, hq.lower, fun r hr => (hq.upper r hr).trans (by omega)⟩

/-- F placed anew and the queue re-based, for the start and the realign (R89, R96, R103). -/
theorem slotQueueSound_rebased {v w : Slot} {c : Context} {f : Int} (h : slotQueueSound v) (hc : v.context = some c)
    (hw : w.context = some c) (hf : w.readPos = some f) (hq : w.queue = rebase c (baseOf v) (floorF f) v.queue) (hs : 0 ≤ w.step) :
    slotQueueSound w := by
  refine ⟨hs, fun c' hc' => ?_⟩
  rw [hw] at hc'; cases hc'
  exact fits_of_placed (hq ▸ QueueOk.rebase (h.2 c hc) (floorF f)) hf

/-- The record that holds an index is the first that holds it (R98). -/
theorem findIndex_found (q : List ChunkRecord) (i : Int) : (match findIndex q i with | .held r => some r | _ => none) = q.find? fun r => decide (r.start ≤ i ∧ i ≤ r.endIndex) := by
  induction q with
  | nil => rfl
  | cons r rs ih =>
    unfold findIndex
    rw [List.find?_cons]
    by_cases h : r.start ≤ i ∧ i ≤ r.endIndex
    · simp [ChunkRecord.holds, h]
    · simp only [ChunkRecord.holds, h, decide_false, Bool.false_eq_true, if_false]
      rw [← ih]
      cases findIndex rs i <;> simp
      by_cases h2 : i < r.start <;> simp [h2]

/-- An index is beyond every record exactly where each ends before it (R98). -/
theorem findIndex_beyond (q : List ChunkRecord) (i : Int) : findIndex q i = .beyond ↔ ∀ r ∈ q, r.endIndex < i := by
  induction q with
  | nil => simp [findIndex]
  | cons r rs ih =>
    unfold findIndex
    by_cases h : r.start ≤ i ∧ i ≤ r.endIndex
    · simp only [ChunkRecord.holds, h, and_self, decide_true, if_true, reduceCtorEq, List.mem_cons, forall_eq_or_imp, false_iff, not_and]
      intro h2; omega
    · simp only [ChunkRecord.holds, h, decide_false, Bool.false_eq_true, if_false]
      have he : r.endIndex = r.start + r.count - 1 := rfl
      cases hf : findIndex rs i with
      | beyond =>
        dsimp only
        have := ih.1 hf
        split
        · next h2 => simp only [reduceCtorEq, List.mem_cons, forall_eq_or_imp, false_iff, not_and]; intro h3; omega
        · simp only [List.mem_cons, forall_eq_or_imp, true_iff]; exact ⟨by omega, this⟩
      | gap => 
        simp only [reduceCtorEq, List.mem_cons, forall_eq_or_imp, false_iff, not_and]
        intro _ h; have := ih.2 h; rw [hf] at this; cases this
      | held x =>
        simp only [reduceCtorEq, List.mem_cons, forall_eq_or_imp, false_iff, not_and]
        intro _ h; have := ih.2 h; rw [hf] at this; cases this

/-- An index is held exactly where some record holds it (R98). -/
theorem findIndex_held (q : List ChunkRecord) (i : Int) : (match findIndex q i with | .held _ => true | _ => false) = true ↔ ∃ r ∈ q, r.start ≤ i ∧ i ≤ r.endIndex := by
  have h := findIndex_found q i
  constructor
  · intro hh
    cases hf : findIndex q i with
    | held r =>
      rw [hf] at h
      have h1 := List.mem_of_find?_eq_some h.symm
      have h2 := List.find?_some h.symm
      exact ⟨r, h1, by simpa using h2⟩
    | gap => rw [hf] at hh; cases hh
    | beyond => rw [hf] at hh; cases hh
  · rintro ⟨r, h1, h2⟩
    cases hf : findIndex q i with
    | held r => rfl
    | gap => rw [hf] at h; have := List.find?_eq_none.1 h.symm r h1; simp [h2] at this
    | beyond => rw [hf] at h; have := List.find?_eq_none.1 h.symm r h1; simp [h2] at this

end Sys2Proof.Machine
end

