-- ==== Sys2Proof/Laws/Tables.lean ====
section
/-! SUPPORT. The cue table, the staged route table and the route table keep their rules (R114, R125, R134, R135), one lemma for
each operation on them. -/

set_option Elab.async false

namespace Sys2Proof.Machine

/-! ## Routes (R114) -/

/-- A list found free of like entries holds none at two places. -/
theorem routesDistinct_spec {es : List (Option Route)} (h : routesDistinct es = true) :
    es.Pairwise fun x y => ∀ r q, x = some r → y = some q → ¬ (r.slot = q.slot ∧ r.channel = q.channel ∧ r.lane = q.lane) := by
  induction es with
  | nil => exact List.Pairwise.nil
  | cons x xs ih =>
    cases x with
    | none => exact List.pairwise_cons.2 ⟨fun _ _ _ _ hx => by simp at hx, ih h⟩
    | some r =>
      simp only [routesDistinct, Bool.and_eq_true, Bool.not_eq_true', List.any_eq_false] at h
      refine List.pairwise_cons.2 ⟨fun y hy a q ha hq => ?_, ih h.2⟩
      cases ha
      have := h.1 y hy
      rw [hq] at this
      simp only [decide_eq_true_eq] at this
      exact fun hh => this ⟨hh.1.symm, hh.2.1.symm, hh.2.2.symm⟩

/-- A table found good has no two like entries. -/
theorem routesDistinct_of {t : RouteTable} (h : routesDistinct t.toList = true) : RoutesDistinct t := by
  have hp := List.pairwise_iff_getElem.1 (routesDistinct_spec h)
  have hlen : t.toList.length = 16 := by simp
  have key : ∀ i j : Fin 16, i.val < j.val → ∀ r q, t[i.val] = some r → t[j.val] = some q →
      ¬ (r.slot = q.slot ∧ r.channel = q.channel ∧ r.lane = q.lane) := by
    intro i j hij r q hr hq
    exact hp i.val j.val (by omega) (by omega) hij r q (by simpa using hr) (by simpa using hq)
  intro i j r q hr hq h1 h2 h3
  rcases lt_trichotomy i.val j.val with hij | hij | hij
  · exact absurd ⟨h1, h2, h3⟩ (key i j hij r q hr hq)
  · exact Fin.ext hij
  · exact absurd ⟨h1.symm, h2.symm, h3.symm⟩ (key j i hij q r hq hr)

/-- An entry written that is like no other used one. -/
theorem RoutesDistinct.set {t : RouteTable} (h : RoutesDistinct t) (e : Fin 16) (x : Option Route)
    (hx : ∀ r, x = some r → ∀ j : Fin 16, j ≠ e → ∀ q, t[j.val] = some q → ¬ (r.slot = q.slot ∧ r.channel = q.channel ∧ r.lane = q.lane)) :
    RoutesDistinct (t.set e.val x e.isLt) := by
  intro i j r q hr hq h1 h2 h3
  rw [Vector.getElem_set] at hr hq
  by_cases hi : i = e
  · by_cases hj : j = e
    · rw [hi, hj]
    · rw [if_pos (by rw [hi])] at hr
      rw [if_neg (fun hh => hj (Fin.ext hh).symm)] at hq
      exact absurd ⟨h1, h2, h3⟩ (hx r hr j hj q hq)
  · rw [if_neg (fun hh => hi (Fin.ext hh).symm)] at hr
    by_cases hj : j = e
    · rw [if_pos (by rw [hj])] at hq
      exact absurd ⟨h1.symm, h2.symm, h3.symm⟩ (hx q hq i hi r hr)
    · rw [if_neg (fun hh => hj (Fin.ext hh).symm)] at hq
      exact h i j r q hr hq h1 h2 h3

/-- A gain changed in place (R127). -/
theorem RoutesDistinct.setGain {t : RouteTable} (h : RoutesDistinct t) (e : Fin 16) (g : BitVec 16) :
    RoutesDistinct (t.set e.val ((t[e.val]).map fun r => { r with gain := g }) e.isLt) := by
  refine h.set e _ fun r hr j hj q hq hh => ?_
  cases he : t[e.val] with
  | none => simp [he] at hr
  | some x =>
    simp only [he, Option.map_some, Option.some.injEq] at hr
    subst hr
    exact hj (h j e q x hq he hh.1.symm hh.2.1.symm hh.2.2.symm)

theorem RoutesDistinct.empty : RoutesDistinct (Vector.replicate 16 none) := by
  intro i j r q hr
  simp at hr

/-- A preset found good has no two like entries (R159). -/
theorem judgePreset_distinct {ws : Vector Word32 17} {t : RouteTable} (h : judgePreset ws = .good t) : RoutesDistinct t := by
  unfold judgePreset at h
  split at h
  · cases h
  · split at h
    · cases h
    · split at h
      · next hd => cases h; exact routesDistinct_of hd
      · cases h

/-! ## Cues (R125) -/

/-- What leaves when an id does is the entry of that id alone. -/
theorem mem_withoutId {id : BitVec 8} {c : Cue} {l : List Cue} : c ∈ withoutId id l ↔ c ∈ l ∧ c.id ≠ id := by
  simp [withoutId]

theorem withoutId_nodup {id : BitVec 8} {l : List Cue} (h : (l.map (·.id)).Nodup) : ((withoutId id l).map (·.id)).Nodup :=
  h.sublist (List.filter_sublist.map _)

theorem withoutId_length {id : BitVec 8} (l : List Cue) : (withoutId id l).length ≤ l.length := List.length_filter_le _ _

/-- Entries of one id are one entry. -/
theorem eq_of_id {l : List Cue} (h : (l.map (·.id)).Nodup) {c d : Cue} (hc : c ∈ l) (hd : d ∈ l) (he : c.id = d.id) : c = d := by
  exact List.inj_on_of_nodup_map h hc hd he

/-- With one RECALL at most, two are the same. -/
theorem eq_of_recall {l : List Cue} (h : (l.filter Cue.isRecall).length ≤ 1) {c d : Cue} (hc : c ∈ l) (hd : d ∈ l)
    (h1 : c.isRecall = true) (h2 : d.isRecall = true) : c = d := by
  have hc' := List.mem_filter.2 ⟨hc, h1⟩
  have hd' := List.mem_filter.2 ⟨hd, h2⟩
  generalize l.filter Cue.isRecall = m at h hc' hd'
  match m, h with
  | [], _ => simp at hc'
  | [x], _ => simp only [List.mem_singleton] at hc' hd'; rw [hc', hd']

/-- An entry gone, and the staged table released where it was the RECALL's (R129, R133). -/
theorem stagedSound_withoutId {s t : State} {c : Cue} (hn : (s.cues.map (·.id)).Nodup) (h : stagedSound s) (hc : c ∈ s.cues)
    (hcues : t.cues = withoutId c.id s.cues) (hst : t.staged = if c.isRecall then .free else s.staged) : stagedSound t := by
  unfold stagedSound
  rw [hcues, hst]
  refine ⟨?_, ⟨fun hh => ?_, fun hh => ?_⟩, fun x hx => ?_⟩
  · exact ((List.filter_sublist (p := fun d : Cue => !decide (d.id = c.id))).filter Cue.isRecall).length_le.trans h.1
  · split at hh
    · exact absurd rfl hh
    · next hr =>
      obtain ⟨d, hd, hdr⟩ := h.2.1.1 hh
      exact ⟨d, mem_withoutId.2 ⟨hd, fun he => hr (eq_of_id hn hd hc he ▸ hdr)⟩, hdr⟩
  · obtain ⟨d, hd, hdr⟩ := hh
    obtain ⟨hd, hne⟩ := mem_withoutId.1 hd
    split
    · next hr => exact absurd (congrArg Cue.id (eq_of_recall h.1 hd hc hdr hr)) hne
    · exact h.2.1.2 ⟨d, hd, hdr⟩
  · split at hx
    · cases hx
    · exact h.2.2 x hx

/-- A cue put into the table joins those held. -/
theorem insertCue_mem {x c : Cue} {l : List Cue} : c ∈ insertCue x l ↔ c = x ∨ c ∈ l := by
  induction l with
  | nil => simp [insertCue]
  | cons d ds ih =>
    simp only [insertCue]
    split
    · simp
    · simp only [List.mem_cons, ih]; tauto

theorem insertCue_length (x : Cue) (l : List Cue) : (insertCue x l).length = l.length + 1 := by
  induction l with
  | nil => rfl
  | cons d ds ih => simp only [insertCue]; split <;> simp [ih]

theorem insertCue_perm (x : Cue) (l : List Cue) : (insertCue x l).Perm (x :: l) := by
  induction l with
  | nil => exact List.Perm.refl _
  | cons d ds ih =>
    simp only [insertCue]
    split
    · exact List.Perm.refl _
    · exact (ih.cons d).trans (List.Perm.swap x d ds)

/-- A cue of a new id keeps ids apart (R125). -/
theorem insertCue_nodup {x : Cue} {l : List Cue} (h : (l.map (·.id)).Nodup) (hx : ∀ c ∈ l, c.id ≠ x.id) :
    ((insertCue x l).map (·.id)).Nodup := by
  rw [((insertCue_perm x l).map _).nodup_iff]
  simp only [List.map_cons, List.nodup_cons, List.mem_map, not_exists, not_and]
  exact ⟨fun c hc => hx c hc, h⟩

/-- An entry that is no RECALL leaves the staged table's rule as it was. -/
theorem stagedSound_insert {s t : State} {x : Cue} (h : stagedSound s) (hx : x.isRecall = false)
    (hcues : t.cues = insertCue x s.cues) (hst : t.staged = s.staged) : stagedSound t := by
  unfold stagedSound
  rw [hcues, hst]
  refine ⟨?_, ⟨fun hh => ?_, fun ⟨c, hc, hr⟩ => ?_⟩, h.2.2⟩
  · rw [((insertCue_perm x s.cues).filter _).length_eq, List.filter_cons_of_neg (by simp [hx])]
    exact h.1
  · obtain ⟨c, hc, hr⟩ := h.2.1.1 hh
    exact ⟨c, insertCue_mem.2 (.inr hc), hr⟩
  · rcases insertCue_mem.1 hc with rfl | hc
    · rw [hx] at hr; cases hr
    · exact h.2.1.2 ⟨c, hc, hr⟩

/-- A RECALL that joins a table without one, its read begun (R134). -/
theorem stagedSound_insertRecall {s t : State} {x : Cue} (hno : s.cues.any Cue.isRecall = false) (hx : x.isRecall = true)
    (hcues : t.cues = insertCue x s.cues) (hst : t.staged = .filling) : stagedSound t := by
  unfold stagedSound
  rw [hcues, hst]
  have hnil : s.cues.filter Cue.isRecall = [] := by
    rw [List.filter_eq_nil_iff]
    simpa using hno
  refine ⟨?_, ⟨fun _ => ⟨x, insertCue_mem.2 (.inl rfl), hx⟩, fun _ => by simp⟩, fun t ht => by cases ht⟩
  rw [((insertCue_perm x s.cues).filter _).length_eq, List.filter_cons_of_pos hx, hnil]
  simp

/-- Every RECALL gone and the staged table FREE (R135). -/
theorem stagedSound_dropped {s t : State} (hcues : t.cues = s.cues.filter (fun c => !c.isRecall)) (hst : t.staged = .free) :
    stagedSound t := by
  unfold stagedSound
  rw [hcues, hst]
  refine ⟨?_, ⟨fun hh => absurd rfl hh, fun ⟨c, hc, hr⟩ => ?_⟩, fun t ht => by cases ht⟩
  · rw [List.filter_filter]
    simp
  · have := List.of_mem_filter hc
    simp [hr] at this

/-- The staged table filled (R135). -/
theorem stagedSound_ready {s t : State} {x : RouteTable} (h : stagedSound s) (hf : s.staged = .filling) (hx : RoutesDistinct x)
    (hcues : t.cues = s.cues) (hst : t.staged = .ready x) : stagedSound t := by
  unfold stagedSound
  rw [hcues, hst]
  refine ⟨h.1, ⟨fun _ => h.2.1.1 (by rw [hf]; simp), fun _ => by simp⟩, fun y hy => by cases hy; exact hx⟩

/-- Cues, staged table and routes the same, the same rules. -/
theorem tablesSound_congr {s t : State} (hc : t.cues = s.cues) (hs : t.staged = s.staged) (hr : t.routes = s.routes)
    (h : tablesSound s) : tablesSound t := by
  unfold tablesSound stagedSound at *
  rw [hc, hs, hr]
  exact h

/-- The next entry to fire is held, and a RECALL's staged table is READY (R129). -/
theorem nextFiring_mem {cues : List Cue} {ready : Bool} {l : List (BitVec 8)} {x : Cue × List (BitVec 8)}
    (h : nextFiring cues ready l = some x) : x.1 ∈ cues ∧ (x.1.isRecall = true → ready = true) := by
  induction l with
  | nil => simp [nextFiring] at h
  | cons n ns ih =>
    simp only [nextFiring] at h
    split at h
    · exact ih h
    · next c hc =>
      split at h
      · exact ih h
      · next hr =>
        cases h
        refine ⟨List.mem_of_find?_eq_some hc, fun hh => ?_⟩
        cases ready
        · exact absurd ⟨hh, rfl⟩ hr
        · rfl

end Sys2Proof.Machine
end

