-- ==== Sys2Proof/Laws/Keeps.lean ====
section
/-! SUPPORT. What every piece of the part's inner work keeps: the queue, the frame in hand, and the soundness of the
memory, the tables, the queues, the clock, the lanes and the blocks. One lemma for each shared operation. -/

set_option Elab.async false

namespace Sys2Proof.Machine

/-- The blocks of a state depend on the free lists and the slots alone. -/
theorem blocksSound_congr {s t : State} (hf : t.freeLists = s.freeLists) (hs : t.slots = s.slots) (h : blocksSound s) :
    blocksSound t := by
  have e : ∀ i, t.slot i = s.slot i := slot_congr hs
  refine ⟨fun b => ?_, fun i => ?_⟩
  · rw [← h.1 b]; simp [blockCount, e, hf]
  · rw [e i]; exact h.2 i

/-- What every command keeps. A field that a piece of work does not touch is kept by itself. -/
structure Keeps (s t : State) : Prop where
  pending  : t.pending = s.pending := by rfl
  memory   : memorySound s → memorySound t := by exact id
  reports  : reportsBounded s → reportsBounded t := by exact id
  cues     : cuesBounded s → cuesBounded t := by exact id
  tables   : tablesSound s → tablesSound t := by exact id
  drift    : driftSound s → driftSound t := by exact id
  queues   : driftSound s → queuesSound s → queuesSound t := by exact fun _ h => h
  settings : settingsSound s → settingsSound t := by exact id
  lanes    : lanesSound s → lanesSound t := by exact id
  rings    : ringsSound s → ringsSound t := by exact fun h => ⟨blocksSound_congr rfl rfl h.1, h.2⟩
  reply    : replySound s → replySound t := by exact id
  bound    : replyBounded s → replyBounded t := by exact id

/-- What a piece of work keeps that belongs to no frame, opens no slot and does not start the part. -/
structure Inner (s t : State) : Prop where
  pending  : t.pending = s.pending := by rfl
  memory   : memorySound s → memorySound t := by exact id
  reports  : reportsBounded s → reportsBounded t := by exact id
  cues     : cuesBounded s → cuesBounded t := by exact id
  tables   : tablesSound s → tablesSound t := by exact id
  drift    : driftSound s → driftSound t := by exact id
  queues   : driftSound s → queuesSound s → queuesSound t := by exact fun _ h => h
  settings : settingsSound s → settingsSound t := by exact id
  lanes    : lanesSound s → lanesSound t := by exact id
  blocks   : blocksSound s → blocksSound t ∧ ∀ i : Fin 8, (s.slot i).state = .closed → (t.slot i).state = .closed := by
    exact fun hb => ⟨blocksSound_congr rfl rfl hb, fun _ => id⟩
  interp   : t.interp = s.interp := by rfl
  buffer   : t.replyBuffer = s.replyBuffer := by rfl
  outbound : t.outbound = s.outbound := by rfl
  inbound  : s.inbound = none → t.inbound = none := by exact id
  run      : t.run = s.run := by rfl
  port     : (∃ ph, t.port = .startImage ph) → ∃ ph, s.port = .startImage ph := by exact id

theorem Keeps.refl (s : State) : Keeps s s := {}

theorem Keeps.trans {s t u : State} (h : Keeps s t) (k : Keeps t u) : Keeps s u :=
  { pending := k.pending.trans h.pending, memory := k.memory ∘ h.memory, reports := k.reports ∘ h.reports, cues := k.cues ∘ h.cues
    tables := k.tables ∘ h.tables, drift := k.drift ∘ h.drift, queues := fun hd hq => k.queues (h.drift hd) (h.queues hd hq)
    settings := k.settings ∘ h.settings, lanes := k.lanes ∘ h.lanes, rings := k.rings ∘ h.rings, reply := k.reply ∘ h.reply
    bound := k.bound ∘ h.bound }

theorem Inner.refl (s : State) : Inner s s := {}

theorem Inner.trans {s t u : State} (h : Inner s t) (k : Inner t u) : Inner s u :=
  { pending := k.pending.trans h.pending, memory := k.memory ∘ h.memory, reports := k.reports ∘ h.reports, cues := k.cues ∘ h.cues
    tables := k.tables ∘ h.tables, drift := k.drift ∘ h.drift, queues := fun hd hq => k.queues (h.drift hd) (h.queues hd hq)
    settings := k.settings ∘ h.settings, lanes := k.lanes ∘ h.lanes
    blocks := fun hb => ⟨(k.blocks (h.blocks hb).1).1, fun i hc => (k.blocks (h.blocks hb).1).2 i ((h.blocks hb).2 i hc)⟩
    interp := k.interp.trans h.interp, buffer := k.buffer.trans h.buffer, outbound := k.outbound.trans h.outbound
    inbound := k.inbound ∘ h.inbound, run := k.run.trans h.run, port := fun hp => h.port (k.port hp) }

/-- Inner work keeps what every command keeps. -/
theorem Inner.keeps {s t : State} (h : Inner s t) : Keeps s t :=
  { pending := h.pending, memory := h.memory, reports := h.reports, cues := h.cues, tables := h.tables, drift := h.drift
    queues := h.queues, settings := h.settings, lanes := h.lanes
    rings := fun ⟨hb, hs⟩ => ⟨(h.blocks hb).1, fun ph hp => by
        obtain ⟨ph', hp'⟩ := h.port ⟨ph, hp⟩
        rw [h.run]; exact hs.1 ph' hp', fun hr => by
        rw [h.run] at hr
        rw [h.interp]
        exact ⟨(hs.2 hr).1, fun i => (h.blocks hb).2 i ((hs.2 hr).2 i)⟩⟩
    reply := fun hr => by
      unfold replySound
      rw [h.interp, h.buffer, h.outbound]
      exact hr
    bound := fun hr => by
      unfold replyBounded
      rw [h.interp, h.buffer, h.outbound]
      exact hr }

/-- A fold keeps what each of its steps keeps. -/
theorem Inner.foldl {α : Type} (f : State → α → State) (hf : ∀ s a, Inner s (f s a)) (l : List α) (s : State) :
    Inner s (l.foldl f s) := by
  induction l generalizing s with
  | nil => exact Inner.refl s
  | cons a l ih => exact (hf s a).trans (ih (f s a))

/-! ## Blocks and slots -/

/-- A slot that takes the place of another as far as the blocks are concerned. -/
def SlotLike (v w : Slot) : Prop :=
  w.blocks = v.blocks ∧ w.context.map (·.ringSize) = v.context.map (·.ringSize) ∧ (w.state = .closed ↔ v.state = .closed)

theorem SlotLike.refl (v : Slot) : SlotLike v v := ⟨rfl, rfl, Iff.rfl⟩

/-- Writing a slot of the same blocks leaves every block where it is. -/
theorem blockCount_setSlot (s : State) (i : Fin 8) (v : Slot) (b : Nat) (h : v.blocks = (s.slot i).blocks) :
    blockCount (s.setSlot i v) b = blockCount s b := by
  have e : ∀ j, ((s.setSlot i v).slot j).blocks = (s.slot j).blocks := by
    intro j
    rw [slot_setSlot]
    split
    · next hj => rw [hj, h]
    · rfl
  simp [blockCount, e]

/-- Writing a slot that takes the old one's place keeps the blocks sound. -/
theorem blocksSound_setSlot (s : State) (i : Fin 8) (v : Slot) (hv : SlotLike (s.slot i) v) (h : blocksSound s) :
    blocksSound (s.setSlot i v) := by
  refine ⟨fun b => by rw [blockCount_setSlot s i v b hv.1]; exact h.1 b, fun j => ?_⟩
  rw [slot_setSlot]
  split
  · next hj =>
    obtain ⟨hb, hc, hs⟩ := hv
    obtain ⟨h1, h2, h3⟩ := h.2 i
    have hn : v.context = none ↔ (s.slot i).context = none := by
      cases hvx : v.context <;> cases hsx : (s.slot i).context <;> simp [hvx, hsx] at hc ⊢
    refine ⟨hs.trans (h1.trans hn.symm), fun e => hb.trans (h2 (hn.1 e)), fun c e => ?_⟩
    cases hsx : (s.slot i).context with
    | none => rw [hn.2 hsx] at e; cases e
    | some d =>
      rw [hb, h3 d hsx]
      rw [e, hsx] at hc
      simpa using hc.symm
  · exact h.2 j

/-- A slot whose context is present is not CLOSED, in a state whose blocks are sound. -/
theorem not_closed_of_context {s : State} (h : blocksSound s) {i : Fin 8} (hc : (s.slot i).context ≠ none) :
    (s.slot i).state ≠ .closed := fun e => hc ((h.2 i).1.1 e)

/-- Writing one slot, its queue among its rules. -/
theorem queuesSound_setSlot {s : State} {i : Fin 8} {v : Slot} (hv : slotQueueSound (s.slot i) → slotQueueSound v)
    (h : queuesSound s) : queuesSound (s.setSlot i v) := by
  intro j
  rw [slot_setSlot]
  split
  · exact hv (h i)
  · exact h j

/-- Writing one slot. -/
theorem Inner.setSlot (s : State) (i : Fin 8) (v : Slot) (h : blocksSound s → SlotLike (s.slot i) v)
    (hq : driftSound s → slotQueueSound (s.slot i) → slotQueueSound v := by exact fun _ => id) : Inner s (s.setSlot i v) :=
  { queues := fun hd => queuesSound_setSlot (hq hd)
    blocks := fun hb => ⟨blocksSound_setSlot s i v (h hb) hb, fun j hj => by
      rw [slot_setSlot]
      split
      · next e => subst e; exact (h hb).2.2.2 hj
      · exact hj⟩ }

/-- Updating one slot's fields other than its context, blocks and closedness. -/
theorem Inner.setSlot_of (s : State) (i : Fin 8) (v : Slot) (hb : v.blocks = (s.slot i).blocks)
    (hc : v.context = (s.slot i).context) (hs : v.state = .closed ↔ (s.slot i).state = .closed)
    (hq : driftSound s → slotQueueSound (s.slot i) → slotQueueSound v := by exact fun _ => id) : Inner s (s.setSlot i v) :=
  Inner.setSlot s i v (fun _ => ⟨hb, by rw [hc], hs⟩) hq

/-- The cut of a slot that is open (R42). -/
theorem inner_cutSlot (i : Fin 8) (s : State) (h : (s.slot i).state ≠ .closed ∨ (s.slot i).context ≠ none) :
    Inner s (cutSlot i s) := by
  refine Inner.setSlot s i _ (fun hb => ⟨rfl, rfl, ?_⟩) fun _ _ => slotQueueSound_primed _ (nominalOf_nonneg _ _)
  have hn : (s.slot i).state ≠ .closed := h.elim id (not_closed_of_context hb)
  simp [primed, hn]

/-- A freeze (R45). -/
theorem inner_freezeSlot (i : Fin 8) (s : State) : Inner s (freezeSlot i s) := by
  unfold freezeSlot
  split
  all_goals first
    | exact Inner.refl s
    | next h => exact Inner.setSlot_of s i _ rfl rfl (by simp [h])

/-! ## Reports (R139 to R145) -/

/-- A queue changed within its bound, the lost mark aside. -/
theorem Inner.setReports (s : State) (q : List Report) (m : Bool) (h : reportsBounded s → q.length ≤ 16) :
    Inner s { s with reports := q, lostMark := m } := { reports := h }

/-- A NOTE offered to the queue (R141). -/
theorem inner_queueNote (r : Report) (s : State) : Inner s (queueNote r s) := by
  unfold queueNote
  split
  · next h => exact Inner.setReports s _ _ fun _ => by simp; omega
  · exact Inner.setReports s _ _ id

/-- The newest NOTE dropped leaves one record fewer (R142). -/
theorem dropNewestNote_length {l l' : List Report} (h : dropNewestNote l = some l') : l.length = l'.length + 1 := by
  induction l generalizing l' with
  | nil => simp [dropNewestNote] at h
  | cons r rs ih =>
    simp only [dropNewestNote] at h
    split at h
    · next rs' h' => cases h; simp [ih h']
    · split at h
      · cases h
      · cases h; simp

/-- A fault record offered to the queue (R142). -/
theorem inner_queueFault (r : Report) (s : State) : Inner s (queueFault r s) := by
  unfold queueFault
  split
  · next h => exact Inner.setReports s _ _ fun _ => by simp; omega
  · split
    · next h rest hr =>
      have hl := dropNewestNote_length hr
      refine Inner.setReports s _ _ fun hb => ?_
      simp only [reportsBounded] at hb
      simp only [List.length_append, List.length_take, List.length_cons, List.length_nil]
      simp only [List.length_drop] at hl
      omega
    · exact Inner.setReports s _ _ id

/-- A first fault (R143). -/
theorem inner_firstFault (r : Report) (i : Fin 8) (s : State) : Inner s (firstFault r i s) :=
  (Inner.setSlot_of s i { s.slot i with faultSequence := (s.slot i).faultSequence + 1, faultPending := true } rfl rfl
    Iff.rfl).trans (inner_queueFault _ _)

/-- A second fault (R144). -/
theorem inner_secondFault (r : Report) (i : Fin 8) (s : State) : Inner s (secondFault r i s) :=
  (inner_freezeSlot i s).trans (inner_queueFault _ _)

/-- An offer taken (R139). -/
theorem inner_takeOffer (r : Report) (s : State) : Inner s (takeOffer r s) := by
  unfold takeOffer takeFault
  split
  · exact Inner.refl s
  · exact inner_queueNote r s
  · split
    · exact inner_queueNote r s
    · split
      · exact inner_queueNote r s
      · split
        · exact inner_secondFault r _ s
        · exact inner_firstFault r _ s

theorem inner_offerPart (k : EventKind) (d : Word32) (s : State) : Inner s (offerPart k d s) := inner_takeOffer _ s

theorem inner_offerSlot (k : EventKind) (i : Fin 8) (d : Word32) (s : State) : Inner s (offerSlot k i d s) := inner_takeOffer _ s

theorem inner_offerCue (k : EventKind) (c : Cue) (d : Word32) (s : State) : Inner s (offerCue k c d s) := inner_takeOffer _ s

theorem inner_offerAll (es : List (EventKind × Word32)) (s : State) : Inner s (offerAll es s) :=
  Inner.foldl (fun acc (e : EventKind × Word32) => offerPart e.1 e.2 acc) (fun s e => inner_offerPart e.1 e.2 s) es s

theorem inner_offerEach (k : EventKind) (i : Fin 8) (ds : List Word32) (s : State) : Inner s (offerEach k i ds s) :=
  Inner.foldl _ (fun s d => inner_offerSlot k i d s) ds s

theorem inner_discardFrame (r : DiscardReason) (k : BitVec 8) (n : Nat) (s : State) : Inner s (discardFrame r k n s) :=
  inner_offerPart _ _ s

/-! ## What an offer leaves alone -/

/-- An offer changes the reports, the lost mark and the slots, and nothing else (R139 to R145). -/
def OfferOnly (s t : State) : Prop := t = { s with reports := t.reports, lostMark := t.lostMark, slots := t.slots }

theorem OfferOnly.refl (s : State) : OfferOnly s s := rfl

theorem OfferOnly.trans {s t u : State} (h : OfferOnly s t) (k : OfferOnly t u) : OfferOnly s u := by
  unfold OfferOnly at *
  rw [k, h]

theorem offerOnly_setSlot (s : State) (i : Fin 8) (v : Slot) : OfferOnly s (s.setSlot i v) := rfl

theorem offerOnly_queueNote (r : Report) (s : State) : OfferOnly s (queueNote r s) := by
  unfold queueNote; split <;> rfl

theorem offerOnly_queueFault (r : Report) (s : State) : OfferOnly s (queueFault r s) := by
  unfold queueFault
  split
  · rfl
  · split <;> rfl

theorem offerOnly_freezeSlot (i : Fin 8) (s : State) : OfferOnly s (freezeSlot i s) := by
  unfold freezeSlot; split <;> rfl

theorem offerOnly_takeOffer (r : Report) (s : State) : OfferOnly s (takeOffer r s) := by
  unfold takeOffer takeFault
  split
  · exact OfferOnly.refl s
  · exact offerOnly_queueNote r s
  · split
    · exact offerOnly_queueNote r s
    · split
      · exact offerOnly_queueNote r s
      · split
        · exact (offerOnly_freezeSlot _ s).trans (offerOnly_queueFault _ _)
        · exact (offerOnly_setSlot s _ _).trans (offerOnly_queueFault _ _)

theorem offerOnly_foldl {α : Type} (f : State → α → State) (hf : ∀ s a, OfferOnly s (f s a)) (l : List α) (s : State) :
    OfferOnly s (l.foldl f s) := by
  induction l generalizing s with
  | nil => exact OfferOnly.refl s
  | cons a l ih => exact (hf s a).trans (ih (f s a))

theorem offerOnly_offerPart (k : EventKind) (d : Word32) (s : State) : OfferOnly s (offerPart k d s) := offerOnly_takeOffer _ s

theorem offerOnly_offerSlot (k : EventKind) (i : Fin 8) (d : Word32) (s : State) : OfferOnly s (offerSlot k i d s) :=
  offerOnly_takeOffer _ s

theorem offerOnly_offerCue (k : EventKind) (c : Cue) (d : Word32) (s : State) : OfferOnly s (offerCue k c d s) :=
  offerOnly_takeOffer _ s

theorem offerOnly_offerAll (es : List (EventKind × Word32)) (s : State) : OfferOnly s (offerAll es s) :=
  offerOnly_foldl (fun acc (e : EventKind × Word32) => offerPart e.1 e.2 acc) (fun s e => offerOnly_offerPart e.1 e.2 s) es s

theorem offerOnly_offerEach (k : EventKind) (i : Fin 8) (ds : List Word32) (s : State) : OfferOnly s (offerEach k i ds s) :=
  offerOnly_foldl _ (fun s d => offerOnly_offerSlot k i d s) ds s

end Sys2Proof.Machine
end

