-- ==== Sys2Proof/Laws/Offers.lean ====
section
/-! SUPPORT. What an offer of an event does to the slots and leaves alone (chapter 8). -/

namespace Sys2Proof.Machine

/-- What an offer bound to slot `i` does to the slots: no other slot changes, and of slot `i` at most the fault flag and sequence, and, on a second fault, the state and the run (R143, R144). -/
theorem offerSlot_slots (k : EventKind) (i : Fin 8) (d : Word32) (s : State) :
    (∀ j, j ≠ i → (offerSlot k i d s).slot j = s.slot j) ∧ ∃ st r p q, (offerSlot k i d s).slot i = { s.slot i with state := st, run := r, faultPending := p, faultSequence := q } ∧
      ((st = (s.slot i).state ∧ r = (s.slot i).run) ∨ (st = .frozen ∧ r = none ∧ s.classOf k = .fault ∧ (s.slot i).faultPending = true)) := by
  have hq : ∀ (r : Report) (t : State), (queueFault r t).slots = t.slots := by
    intro r t; unfold queueFault; split
    · rfl
    · split <;> rfl
  have hn : ∀ (r : Report) (t : State), (queueNote r t).slots = t.slots := by
    intro r t; unfold queueNote; split <;> rfl
  have same : ∀ t : State, t.slots = s.slots → (∀ j, j ≠ i → t.slot j = s.slot j) ∧ ∃ st r p q, t.slot i = { s.slot i with state := st, run := r, faultPending := p, faultSequence := q } ∧
      ((st = (s.slot i).state ∧ r = (s.slot i).run) ∨ (st = .frozen ∧ r = none ∧ s.classOf k = .fault ∧ (s.slot i).faultPending = true)) := by
    intro t ht
    refine ⟨fun j _ => slot_congr ht j, (s.slot i).state, (s.slot i).run, (s.slot i).faultPending, (s.slot i).faultSequence, slot_congr ht i, .inl ⟨rfl, rfl⟩⟩
  unfold offerSlot takeOffer
  dsimp only [reportOf]
  split
  · exact same s rfl
  · exact same _ (hn _ _)
  · next hk =>
    unfold takeFault
    split
    · exact same _ (hn _ _)
    · split
      · next hp =>
        have hf : freezeSlot i s = s ∨ freezeSlot i s = s.setSlot i { s.slot i with state := .frozen, run := none } := by
          unfold freezeSlot; split <;> simp
        unfold secondFault
        dsimp only
        rcases hf with hf | hf <;> rw [hf]
        · exact same _ (hq _ _)
        · refine ⟨fun j hj => ?_, .frozen, none, (s.slot i).faultPending, (s.slot i).faultSequence, ?_, .inr ⟨rfl, rfl, hk, hp⟩⟩
          · rw [slot_congr (hq _ _)]; exact slot_setSlot_of_ne _ _ _ _ hj
          · rw [slot_congr (hq _ _)]; simp
      · unfold firstFault
        refine ⟨fun j hj => ?_, (s.slot i).state, (s.slot i).run, true, (s.slot i).faultSequence + 1, ?_, .inl ⟨rfl, rfl⟩⟩
        · rw [slot_congr (hq _ _)]; exact slot_setSlot_of_ne _ _ _ _ hj
        · rw [slot_congr (hq _ _)]; simp

/-- An offer writes no sample. -/
theorem offerSlot_memory (k : EventKind) (i : Fin 8) (d : Word32) (s : State) : (offerSlot k i d s).memory = s.memory := by
  rw [offerOnly_offerSlot k i d s]

/-- A part event touches no slot. -/
theorem offerPart_slots (k : EventKind) (d : Word32) (s : State) : (offerPart k d s).slots = s.slots := by
  have hn : ∀ (r : Report) (t : State), (queueNote r t).slots = t.slots := by
    intro r t; unfold queueNote; split <;> rfl
  unfold offerPart takeOffer; dsimp only [reportOf]; split <;> first | rfl | exact hn _ _

/-- A part event leaves clock, memory and cue table alone. -/
theorem offerPart_eq (k : EventKind) (d : Word32) (s : State) : (offerPart k d s).clock = s.clock ∧ (offerPart k d s).memory = s.memory ∧ (offerPart k d s).cues = s.cues := by
  refine ⟨?_, ?_, ?_⟩ <;> rw [offerOnly_offerPart k d s]

/-- Several offers bound to slot `i` leave of it what one leaves. -/
theorem offerEach_slot (k : EventKind) (i : Fin 8) (ds : List Word32) (s : State) :
    ∃ st r p q, (offerEach k i ds s).slot i = { s.slot i with state := st, run := r, faultPending := p, faultSequence := q } := by
  unfold offerEach
  induction ds generalizing s with
  | nil => exact ⟨_, _, _, _, rfl⟩
  | cons d ds ih =>
    obtain ⟨_, st, r, p, q, h, _⟩ := offerSlot_slots k i d s
    obtain ⟨st', r', p', q', h'⟩ := ih (offerSlot k i d s)
    exact ⟨st', r', p', q', by rw [List.foldl_cons, h', h]⟩

/-- They leave its state, or freeze it (R45). -/
theorem offerEach_state (k : EventKind) (i : Fin 8) (ds : List Word32) (s : State) :
    ((offerEach k i ds s).slot i).state = (s.slot i).state ∨ ((offerEach k i ds s).slot i).state = .frozen := by
  unfold offerEach
  induction ds generalizing s with
  | nil => exact .inl rfl
  | cons d ds ih =>
    obtain ⟨_, st, r, p, q, h, hst⟩ := offerSlot_slots k i d s
    rw [List.foldl_cons]
    rcases ih (offerSlot k i d s) with e | e
    · rw [h] at e
      rcases hst with ⟨h1, _⟩ | ⟨h1, _⟩ <;> rw [h1] at e
      · exact .inl e
      · exact .inr e
    · exact .inr e

/-- No NOTE is found exactly where every record is a fault record (R142). -/
theorem dropNewestNote_eq_none : ∀ l : List Report, dropNewestNote l = none ↔ ∀ q ∈ l, q.isFault = true
  | [] => by simp [dropNewestNote]
  | r :: rs => by
    have ih := dropNewestNote_eq_none rs
    simp only [dropNewestNote]
    cases h : dropNewestNote rs with
    | some x =>
      simp only [reduceCtorEq, false_iff]
      intro hq
      have := ih.2 (fun q hq' => hq q (by simp [hq']))
      rw [h] at this; cases this
    | none =>
      have := ih.1 h
      cases hr : r.isFault <;> simp [hr]
      exact this

/-- The NOTE that leaves is the newest one (R142). -/
theorem dropNewestNote_split (note : Report) (hn : note.isFault = false) (after : List Report) (ha : ∀ q ∈ after, q.isFault = true) :
    ∀ before, dropNewestNote (before ++ note :: after) = some (before ++ after)
  | [] => by simp [dropNewestNote, (dropNewestNote_eq_none after).2 ha, hn]
  | b :: bs => by simp [dropNewestNote, dropNewestNote_split note hn after ha bs]

end Sys2Proof.Machine
end

