-- ==== Sys2Proof/Laws/Strobe.lean ====
section
/-! SUPPORT. Work on one slot leaves the others alone: the strobe's work slot by slot, and the entry to FREE. -/

set_option Elab.async false

namespace Sys2Proof.Machine

/-- What work on slot `i` leaves alone: every other slot and what it handed, memory, lanes, settings, clock and count. -/
def OnlySlot (i : Fin 8) (s t : State) : Prop :=
  (∀ j, j ≠ i → t.slot j = s.slot j) ∧ (∀ j, j ≠ i → t.contributions[j.val] = s.contributions[j.val]) ∧ t.memory = s.memory ∧ t.lanes = s.lanes ∧ t.output = s.output ∧ t.clock = s.clock ∧ t.localCount = s.localCount ∧ t.classes = s.classes

/-- Nothing done. -/
theorem OnlySlot.refl (i : Fin 8) (s : State) : OnlySlot i s s := ⟨fun _ _ => rfl, fun _ _ => rfl, rfl, rfl, rfl, rfl, rfl, rfl⟩

/-- One piece of work after another. -/
theorem OnlySlot.trans {i : Fin 8} {s t u : State} (h : OnlySlot i s t) (k : OnlySlot i t u) : OnlySlot i s u :=
  ⟨fun j hj => (k.1 j hj).trans (h.1 j hj), fun j hj => (k.2.1 j hj).trans (h.2.1 j hj), k.2.2.1.trans h.2.2.1, k.2.2.2.1.trans h.2.2.2.1, k.2.2.2.2.1.trans h.2.2.2.2.1, k.2.2.2.2.2.1.trans h.2.2.2.2.2.1, k.2.2.2.2.2.2.1.trans h.2.2.2.2.2.2.1, k.2.2.2.2.2.2.2.trans h.2.2.2.2.2.2.2⟩

/-- A slot written. -/
theorem onlySlot_setSlot (i : Fin 8) (s : State) (v : Slot) : OnlySlot i s (s.setSlot i v) := ⟨fun _ hj => slot_setSlot_of_ne _ _ _ _ hj, fun _ _ => rfl, rfl, rfl, rfl, rfl, rfl, rfl⟩

/-- An offer bound to the slot. -/
theorem onlySlot_offerSlot (k : EventKind) (i : Fin 8) (d : Word32) (s : State) : OnlySlot i s (offerSlot k i d s) := by
  refine ⟨(offerSlot_slots k i d s).1, fun j _ => ?_, ?_, ?_, ?_, ?_, ?_, ?_⟩ <;> rw [offerOnly_offerSlot k i d s]

/-- Several offers bound to the slot. -/
theorem onlySlot_offerEach (k : EventKind) (i : Fin 8) (ds : List Word32) (s : State) : OnlySlot i s (offerEach k i ds s) := by
  unfold offerEach
  induction ds generalizing s with
  | nil => exact OnlySlot.refl i s
  | cons d ds ih => exact (onlySlot_offerSlot k i d s).trans (ih _)

/-- A slot released. -/
theorem onlySlot_releaseSlot (i : Fin 8) (s : State) : OnlySlot i s (releaseSlot i s) := by
  unfold releaseSlot
  cases (s.slot i).context
  · exact onlySlot_setSlot _ _ _
  · exact ⟨fun _ hj => slot_setSlot_of_ne _ _ _ _ hj, fun _ _ => rfl, rfl, rfl, rfl, rfl, rfl, rfl⟩

/-- The moves of a slot at a strobe. -/
theorem onlySlot_moveSlot (i : Fin 8) (s : State) : OnlySlot i s (moveSlot i s) := by
  unfold moveSlot
  split
  · unfold primingWork
    split
    · exact OnlySlot.refl i s
    · split
      · exact (onlySlot_setSlot _ _ _).trans (onlySlot_offerSlot _ _ _ _)
      · unfold primeOn
        dsimp only
        split
        · exact ((onlySlot_setSlot _ _ _).trans (onlySlot_offerEach _ _ _ _)).trans ((onlySlot_setSlot _ _ _).trans (onlySlot_offerSlot _ _ _ _))
        · exact (onlySlot_setSlot _ _ _).trans (onlySlot_offerEach _ _ _ _)
  · split
    · exact (onlySlot_setSlot _ _ _).trans (onlySlot_offerSlot _ _ _ _)
    · exact OnlySlot.refl i s
  · split
    · exact (onlySlot_setSlot _ _ _).trans (onlySlot_offerSlot _ _ _ _)
    · exact OnlySlot.refl i s
  · split
    · exact (onlySlot_releaseSlot _ _).trans (onlySlot_offerSlot _ _ _ _)
    · exact OnlySlot.refl i s
  · exact OnlySlot.refl i s
  · exact OnlySlot.refl i s

/-- The advance of a slot at a strobe. -/
theorem onlySlot_playSlot (i : Fin 8) (b : Bool) (s : State) : OnlySlot i s (playSlot i b s) := by
  have h : ∀ f, OnlySlot i s (countStarved i b (advanceSlot i f s)) := by
    intro f
    have : OnlySlot i s (advanceSlot i f s) := (onlySlot_setSlot _ _ _).trans (onlySlot_offerEach _ _ _ _)
    unfold countStarved
    split
    · exact this.trans (onlySlot_setSlot _ _ _)
    · exact this
  unfold playSlot
  split <;> first | exact h _ | exact OnlySlot.refl i s

/-- The Renderer's work for a slot (R92). -/
theorem onlySlot_renderSlot (i : Fin 8) (s : State) : OnlySlot i s (renderSlot i s) := by
  unfold renderSlot
  dsimp only
  refine ((onlySlot_moveSlot i s).trans (onlySlot_playSlot i _ _)).trans ⟨fun _ _ => rfl, fun j hj => ?_, rfl, rfl, rfl, rfl, rfl, rfl⟩
  have : i.val ≠ j.val := fun e => hj (Fin.ext e.symm)
  simp [State.withContribution, Vector.getElem_set_ne, this]

/-- What the Renderer's work for several slots leaves of each: its own slot's work, done on a state that holds the slot and Sample Memory as they were (R92, R113). -/
theorem renderSlots_slot (l : List (Fin 8)) (hl : l.Nodup) (s : State) (i : Fin 8) :
    (i ∉ l → (l.foldl (fun acc i => renderSlot i acc) s).slot i = s.slot i ∧ (l.foldl (fun acc i => renderSlot i acc) s).contributions[i.val] = s.contributions[i.val]) ∧
    (l.foldl (fun acc i => renderSlot i acc) s).memory = s.memory ∧ (l.foldl (fun acc i => renderSlot i acc) s).lanes = s.lanes ∧
    (i ∈ l → ∃ u : State, u.slot i = s.slot i ∧ u.memory = s.memory ∧ (l.foldl (fun acc i => renderSlot i acc) s).slot i = (renderSlot i u).slot i ∧ (l.foldl (fun acc i => renderSlot i acc) s).contributions[i.val] = (renderSlot i u).contributions[i.val]) := by
  induction l generalizing s with
  | nil => simp
  | cons a l ih =>
    have hn := List.nodup_cons.1 hl
    obtain ⟨h1, h2, h3, h4⟩ := ih hn.2 (renderSlot a s)
    have g := onlySlot_renderSlot a s
    refine ⟨fun hi => ?_, h2.trans g.2.2.1, h3.trans g.2.2.2.1, fun hi => ?_⟩
    · simp only [List.mem_cons, not_or] at hi
      obtain ⟨p1, p2⟩ := h1 hi.2
      exact ⟨p1.trans (g.1 i hi.1), p2.trans (g.2.1 i hi.1)⟩
    · by_cases ha : i = a
      · subst ha
        obtain ⟨p1, p2⟩ := h1 hn.1
        exact ⟨s, rfl, rfl, p1, p2⟩
      · have hi' : i ∈ l := by simpa [ha] using hi
        obtain ⟨u, u1, u2, u3, u4⟩ := h4 hi'
        exact ⟨u, u1.trans (g.1 i ha), u2.trans g.2.2.1, u3, u4⟩

/-- An offer bound to a slot leaves lanes and memory alone. -/
theorem offerSlot_lanes (k : EventKind) (i : Fin 8) (d : Word32) (s : State) : (offerSlot k i d s).lanes = s.lanes ∧ (offerSlot k i d s).memory = s.memory := (by constructor <;> rw [offerOnly_offerSlot k i d s])

/-- The starve limit and the correction leave lanes and memory alone. -/
theorem settleSlot_frame (i : Fin 8) (s : State) : (settleSlot i s).lanes = s.lanes ∧ (settleSlot i s).memory = s.memory := by
  have hc : ∀ t : State, (correctSlot i t).lanes = t.lanes ∧ (correctSlot i t).memory = t.memory := by
    intro t
    unfold correctSlot
    split
    · exact offerSlot_lanes _ _ _ _
    · split
      · unfold steer; dsimp only; split
        · unfold realignStream; dsimp only; split
          · exact offerSlot_lanes _ _ _ _
          · exact ⟨(offerSlot_lanes _ _ _ _).1.trans (offerSlot_lanes _ _ _ _).1, (offerSlot_lanes _ _ _ _).2.trans (offerSlot_lanes _ _ _ _).2⟩
        · exact ⟨rfl, rfl⟩
      · exact ⟨rfl, rfl⟩
  have hs : ∀ t : State, ((starveCut i t).noteState i).lanes = t.lanes ∧ ((starveCut i t).noteState i).memory = t.memory := fun t => offerSlot_lanes _ _ _ _
  unfold settleSlot
  dsimp only
  split <;> split
  · exact ⟨(hc _).1.trans (hs s).1, (hc _).2.trans (hs s).2⟩
  · exact hs s
  · exact hc s
  · exact ⟨rfl, rfl⟩

/-- So they do for every slot. -/
theorem settleAll_frame (s : State) : (settleAll s).lanes = s.lanes ∧ (settleAll s).memory = s.memory := by
  unfold settleAll
  generalize List.finRange 8 = l
  induction l generalizing s with
  | nil => exact ⟨rfl, rfl⟩
  | cons a l ih => exact ⟨(ih _).1.trans (settleSlot_frame a s).1, (ih _).2.trans (settleSlot_frame a s).2⟩

/-- What the entry to FREE does to one slot (R47). -/
theorem slotOnFree_frame (i : Fin 8) (s : State) : (slotOnFree i s).clock = s.clock ∧ (slotOnFree i s).memory = s.memory ∧ (slotOnFree i s).cues = s.cues ∧
    (∀ j, j ≠ i → (slotOnFree i s).slot j = s.slot j) ∧ ((slotOnFree i s).slot i).state ≠ .playing ∧ ((slotOnFree i s).slot i).state ≠ .starved ∧ ((slotOnFree i s).slot i).state ≠ .draining := by
  have h : ∀ (d : Word32) (t : State), t.clock = s.clock → t.memory = s.memory → t.cues = s.cues → (∀ j, j ≠ i → t.slot j = s.slot j) → ((t.slot i).state = .priming ∨ (t.slot i).state = .closed) →
    (offerPart .clockFree d t).clock = s.clock ∧ (offerPart .clockFree d t).memory = s.memory ∧ (offerPart .clockFree d t).cues = s.cues ∧
    (∀ j, j ≠ i → (offerPart .clockFree d t).slot j = s.slot j) ∧ ((offerPart .clockFree d t).slot i).state ≠ .playing ∧ ((offerPart .clockFree d t).slot i).state ≠ .starved ∧ ((offerPart .clockFree d t).slot i).state ≠ .draining := by
    intro d t h1 h2 h3 h4 h5
    obtain ⟨a, b, c⟩ := offerPart_eq .clockFree d t
    refine ⟨a.trans h1, b.trans h2, c.trans h3, fun j hj => (slot_congr (offerPart_slots _ _ _) j).trans (h4 j hj), ?_⟩
    rw [slot_congr (offerPart_slots _ _ _) i]
    rcases h5 with h5 | h5 <;> simp [h5]
  unfold slotOnFree
  cases hs : (s.slot i).state <;> dsimp only
  case playing => exact h _ _ rfl rfl rfl (fun j hj => slot_setSlot_of_ne _ _ _ _ hj) (.inl (by simp [cutSlot, primed]))
  case starved => exact h _ _ rfl rfl rfl (fun j hj => slot_setSlot_of_ne _ _ _ _ hj) (.inl (by simp [cutSlot, primed]))
  case draining =>
    unfold releaseSlot
    cases (s.slot i).context <;> dsimp only
    · exact h _ _ rfl rfl rfl (fun j hj => slot_setSlot_of_ne _ _ _ _ hj) (.inr (by simp [Slot.closedWith]))
    · exact h _ _ rfl rfl rfl (fun j hj => slot_setSlot_of_ne _ _ _ _ hj) (.inr (by simp [Slot.closedWith, State.slot, State.setSlot]))
  all_goals exact ⟨rfl, rfl, rfl, fun _ _ => rfl, by simp [hs]⟩

/-- What it does to all of them (R47). -/
theorem slotsOnFree_frame (l : List (Fin 8)) (hl : l.Nodup) (s : State) : (l.foldl (fun acc i => slotOnFree i acc) s).clock = s.clock ∧ (l.foldl (fun acc i => slotOnFree i acc) s).memory = s.memory ∧ (l.foldl (fun acc i => slotOnFree i acc) s).cues = s.cues ∧
    (∀ j, j ∉ l → (l.foldl (fun acc i => slotOnFree i acc) s).slot j = s.slot j) ∧ ∀ i ∈ l, ((l.foldl (fun acc i => slotOnFree i acc) s).slot i).state ≠ .playing ∧ ((l.foldl (fun acc i => slotOnFree i acc) s).slot i).state ≠ .starved ∧ ((l.foldl (fun acc i => slotOnFree i acc) s).slot i).state ≠ .draining := by
  induction l generalizing s with
  | nil => simp
  | cons a l ih =>
    have hn := List.nodup_cons.1 hl
    obtain ⟨h1, h2, h3, h4, h5⟩ := ih hn.2 (slotOnFree a s)
    obtain ⟨g1, g2, g3, g4, g5⟩ := slotOnFree_frame a s
    refine ⟨h1.trans g1, h2.trans g2, h3.trans g3, fun j hj => ?_, fun i hi => ?_⟩
    · simp only [List.mem_cons, not_or] at hj
      exact (h4 j hj.2).trans (g4 j hj.1)
    · rcases List.mem_cons.1 hi with rfl | hi
      · rw [List.foldl_cons, h4 i hn.1]; exact g5
      · exact h5 i hi

/-- A part event offered takes no notice of slots and free lists, and changes neither. -/
theorem offerPart_withSlots (k : EventKind) (d : Word32) (s : State) (a : Vector Slot 8) (b : Vector (List Nat) 4) :
    offerPart k d { s with slots := a, freeLists := b } = { offerPart k d s with slots := a, freeLists := b } := by
  have hn : ∀ (r : Report) (t : State), queueNote r { t with slots := a, freeLists := b } = { queueNote r t with slots := a, freeLists := b } := by
    intro r t; unfold queueNote; dsimp only; split <;> rfl
  unfold offerPart takeOffer
  simp only [reportOf, State.classOf, State.houseTime]
  cases s.classes[k.number.val]
  · rfl
  · exact hn _ _
  · exact hn _ _

/-- A part event offered changes no free list. -/
theorem offerPart_freeLists (k : EventKind) (d : Word32) (s : State) : (offerPart k d s).freeLists = s.freeLists := by rw [offerOnly_offerPart k d s]

/-- Several part events likewise. -/
theorem offerAll_withSlots (es : List (EventKind × Word32)) (s : State) (a : Vector Slot 8) (b : Vector (List Nat) 4) :
    offerAll es { s with slots := a, freeLists := b } = { offerAll es s with slots := a, freeLists := b } := by
  unfold offerAll
  induction es generalizing s with
  | nil => rfl
  | cons e es ih => rw [List.foldl_cons, offerPart_withSlots, ih, List.foldl_cons]

/-- The report that the entry to FREE makes of one slot (R47). -/
def freeTold (s : State) (i : Fin 8) : List (EventKind × Word32) :=
  match (s.slot i).state with
  | .playing | .starved => [(.clockFree, bytesWord 0 0 i.val 1)]
  | .draining => [(.clockFree, bytesWord 0 0 i.val 2)]
  | .closed | .priming | .frozen => []

/-- The slot it leaves (R47). -/
def freeSlotLeft (s : State) (v : Slot) : Slot :=
  match v.state with
  | .playing | .starved => primed v (s.nominalOf v)
  | .draining => Slot.closedWith v.faultSequence
  | .closed | .priming | .frozen => v

/-- A region's free list after the entry to FREE has made its slots' blocks free, slot by slot (R39, R47). -/
def freeListLeft (s : State) (r : Fin 4) (l : List (Fin 8)) (free : List Nat) : List Nat :=
  (l.filter fun i => decide ((s.slot i).state = .draining) && (s.slot i).context.any fun c => decide (regionOf s.partition c.streamId = r)).foldl
    (fun free i => returnBlocks (s.slot i).blocks free) free

/-- What the entry to FREE does to one slot: its report, the slot it leaves, its blocks free (R47). -/
theorem slotOnFree_eq (i : Fin 8) (s : State) :
    slotOnFree i s = { offerAll (freeTold s i) s with slots := (slotOnFree i s).slots, freeLists := (slotOnFree i s).freeLists } ∧
    (slotOnFree i s).slot i = freeSlotLeft s (s.slot i) ∧
    ∀ r : Fin 4, (slotOnFree i s).freeLists[r.val] = freeListLeft s r [i] s.freeLists[r.val] := by
  have e : ∀ (d : Word32) (a : Vector Slot 8) (b : Vector (List Nat) 4),
      offerPart .clockFree d { s with slots := a, freeLists := b } = { offerPart .clockFree d s with slots := a, freeLists := b } := fun d a b => offerPart_withSlots _ _ _ _ _
  unfold slotOnFree freeTold freeSlotLeft freeListLeft
  cases hs : (s.slot i).state <;> dsimp only
  case playing =>
    refine ⟨?_, ?_, fun r => ?_⟩
    · rw [show cutSlot i s = { s with slots := (cutSlot i s).slots, freeLists := s.freeLists } from rfl, e]; rfl
    · rw [slot_congr (offerPart_slots _ _ _) i]; simp [cutSlot]
    · rw [show ∀ d, (offerPart .clockFree d (cutSlot i s)).freeLists = s.freeLists from fun d => offerPart_freeLists _ _ _]; simp [hs]
  case starved =>
    refine ⟨?_, ?_, fun r => ?_⟩
    · rw [show cutSlot i s = { s with slots := (cutSlot i s).slots, freeLists := s.freeLists } from rfl, e]; rfl
    · rw [slot_congr (offerPart_slots _ _ _) i]; simp [cutSlot]
    · rw [show ∀ d, (offerPart .clockFree d (cutSlot i s)).freeLists = s.freeLists from fun d => offerPart_freeLists _ _ _]; simp [hs]
  case draining =>
    have hr : releaseSlot i s = { s with slots := (releaseSlot i s).slots, freeLists := (releaseSlot i s).freeLists } := by
      unfold releaseSlot; cases (s.slot i).context <;> rfl
    refine ⟨?_, ?_, fun r => ?_⟩
    · rw [hr, e]; rfl
    · rw [slot_congr (offerPart_slots _ _ _) i]; unfold releaseSlot
      cases (s.slot i).context <;> dsimp only
      · simp
      · simp [State.slot, State.setSlot]
    · rw [offerPart_freeLists]; unfold releaseSlot
      cases hc : (s.slot i).context with
      | none => simp [hs, hc, State.setSlot]
      | some c =>
        simp only [hs, hc, List.filter_cons, List.filter_nil, decide_true, Bool.true_and, Option.any_some]
        by_cases h : regionOf s.partition c.streamId = r
        · subst h; simp
        · have : (regionOf s.partition c.streamId).val ≠ r.val := fun hh => h (Fin.ext hh)
          simp [h, Vector.getElem_set_ne, this]
  all_goals exact ⟨rfl, rfl, fun r => by simp [hs]⟩

/-- The blocks made free one slot after another. -/
theorem freeListLeft_cons (s : State) (r : Fin 4) (i : Fin 8) (l : List (Fin 8)) (free : List Nat) :
    freeListLeft s r (i :: l) free = freeListLeft s r l (freeListLeft s r [i] free) := by
  unfold freeListLeft
  simp only [List.filter_cons, List.filter_nil]
  split <;> rfl

/-- What it does to several slots (R47). -/
theorem slotsOnFree_eq (l : List (Fin 8)) (hl : l.Nodup) (s : State) :
    let t := l.foldl (fun acc i => slotOnFree i acc) s
    t = { offerAll (l.flatMap (freeTold s)) s with slots := t.slots, freeLists := t.freeLists } ∧
    (∀ i, t.slot i = if i ∈ l then freeSlotLeft s (s.slot i) else s.slot i) ∧
    ∀ r : Fin 4, t.freeLists[r.val] = freeListLeft s r l s.freeLists[r.val] := by
  induction l generalizing s with
  | nil => exact ⟨rfl, fun i => by simp, fun r => rfl⟩
  | cons a l ih =>
    have hn := List.nodup_cons.1 hl
    obtain ⟨g1, g2, g3⟩ := slotOnFree_eq a s
    have gf := (slotOnFree_frame a s).2.2.2.1
    obtain ⟨h1, h2, h3⟩ := ih hn.2 (slotOnFree a s)
    have hne : ∀ i ∈ l, i ≠ a := fun i hi h => hn.1 (h ▸ hi)
    have hp : (slotOnFree a s).partition = s.partition := by
      have := congrArg State.partition g1
      refine this.trans ?_
      unfold freeTold; split <;> simp only [offerAll, List.foldl_cons, List.foldl_nil] <;> first | rfl | rw [offerOnly_offerPart]
    have ho : (slotOnFree a s).output = s.output := by
      have := congrArg State.output g1
      refine this.trans ?_
      unfold freeTold; split <;> simp only [offerAll, List.foldl_cons, List.foldl_nil] <;> first | rfl | rw [offerOnly_offerPart]
    have ht : ∀ i ∈ l, freeTold (slotOnFree a s) i = freeTold s i := fun i hi => by unfold freeTold; rw [gf i (hne i hi)]
    have hfm : l.flatMap (freeTold (slotOnFree a s)) = l.flatMap (freeTold s) := by
      simp only [List.flatMap]; congr 1; exact List.map_congr_left ht
    have hleft : ∀ v, freeSlotLeft (slotOnFree a s) v = freeSlotLeft s v := fun v => by
      unfold freeSlotLeft State.nominalOf; rw [ho]
    have hfree : ∀ r free, freeListLeft (slotOnFree a s) r l free = freeListLeft s r l free := fun r free => by
      unfold freeListLeft
      rw [hp, List.filter_congr (fun i hi => by rw [gf i (hne i hi)])]
      generalize hm : l.filter _ = m
      have hm' : ∀ i ∈ m, i ∈ l := fun i hi => (List.mem_filter.1 (hm ▸ hi)).1
      clear hm
      induction m generalizing free with
      | nil => rfl
      | cons b m ihm =>
        rw [List.foldl_cons, List.foldl_cons, gf b (hne b (hm' b (by simp)))]
        exact ihm _ (fun i hi => hm' i (by simp [hi]))
    refine ⟨?_, fun i => ?_, fun r => ?_⟩
    · have key := (congrArg (offerAll (l.flatMap (freeTold s))) g1).trans (offerAll_withSlots _ _ _ _)
      have app : offerAll ((a :: l).flatMap (freeTold s)) s = offerAll (l.flatMap (freeTold s)) (offerAll (freeTold s a) s) := by
        simp only [List.flatMap_cons, offerAll, List.foldl_append]
      refine h1.trans ?_
      rw [hfm, key, app]
      rfl
    · rw [List.foldl_cons, h2 i, hleft]
      by_cases hi : i ∈ l
      · rw [if_pos hi, if_pos (by simp [hi]), gf i (hne i hi)]
      · by_cases ha : i = a
        · subst ha; simp [hi, g2]
        · simp [hi, ha, gf i ha]
    · rw [List.foldl_cons, h3 r, g3 r, hfree]; exact (freeListLeft_cons _ _ _ _ _).symm

/-- After the CLOCK_FREE of the Time Base the slots complete the entry to FREE (R26, R47). -/
theorem slotsOnFree_enters (cause : Nat) (s u : State) (hc : u.clock = freedClock s.clock) (hp : u.partition = s.partition)
    (ho : u.output = s.output) (hf : u.freeLists = s.freeLists) (hsl : ∀ i, u.slot i = s.slot i)
    (hu : ∀ es, offerAll es u = offerAll ((.clockFree, bytesWord cause 0 0xFF 0) :: es) { s with clock := freedClock s.clock }) :
    EntersFree cause s (slotsOnFree u) := by
  obtain ⟨h1, h2, h3⟩ := slotsOnFree_eq (List.finRange 8) (List.nodup_finRange 8) u
  have g1 := (slotsOnFree_frame (List.finRange 8) (List.nodup_finRange 8) u).1
  have hm : ∀ i, i ∈ List.finRange 8 := List.mem_finRange
  unfold EntersFree slotsOnFree
  generalize List.finRange 8 = l at *
  have this : l.flatMap (freeTold u) = l.flatMap (freeTold s) := by
    simp only [List.flatMap]; congr 1
    exact List.map_congr_left (fun i _ => by unfold freeTold; rw [hsl])
  refine ⟨?_, ?_, fun i => ?_, fun r => ?_⟩
  · unfold State.houseTime Machine.translate; rw [g1, hc]; rfl
  · refine h1.trans ?_; rw [this, hu]; rfl
  · rw [h2 i, if_pos (hm i), hsl]
    unfold freeSlotLeft
    cases (s.slot i).state <;> simp [primed, State.nominalOf, ho]
  · rw [h3 r]
    unfold freeListLeft
    simp only [hsl, hp, hf]

/-- What the entry to FREE does (R26, R47). -/
theorem enterFree_enters (cause : Nat) (s : State) : EntersFree cause s (enterFree cause s) := by
  refine slotsOnFree_enters cause s _ (offerPart_eq _ _ _).1 ?_ ?_ (offerPart_freeLists _ _ _) (fun i => slot_congr (offerPart_slots _ _ _) i) (fun es => rfl)
  · rw [offerOnly_offerPart]; rfl
  · rw [offerOnly_offerPart]; rfl

end Sys2Proof.Machine
end

