-- ==== Sys2Proof/Laws/Alike.lean ====
section
/-! SUPPORT. The strobe's work for one slot reads that slot, and of the rest only what no slot's work changes: so what the work of
all slots leaves of one is what its own work leaves (R92, R113). -/

set_option Elab.async false

namespace Sys2Proof.Machine

/-- Two states alike in what work on slot `i` reads: the slot, memory, clock, output settings, count and classes; and, when `full`, the report queue. -/
def Alike (full : Bool) (i : Fin 8) (s u : State) : Prop :=
  u.slot i = s.slot i ∧ u.memory = s.memory ∧ u.clock = s.clock ∧ u.output = s.output ∧ u.localCount = s.localCount ∧ u.classes = s.classes ∧
  (full = true → u.reports = s.reports ∧ u.lostMark = s.lostMark)

/-- The same slot written in both. -/
theorem Alike.setSlot {full : Bool} {i : Fin 8} {s u : State} (h : Alike full i s u) (v : Slot) : Alike full i (s.setSlot i v) (u.setSlot i v) :=
  ⟨by simp, h.2⟩

/-- What a NOTE joining the report queue does (R142). -/
theorem queueNote_parts (r : Report) (s : State) : (queueNote r s).reports = (if s.reports.length < 16 then s.reports ++ [{ r with lost := s.lostMark }] else s.reports) ∧
    (queueNote r s).lostMark = (if s.reports.length < 16 then false else true) ∧ queueNote r s = { s with reports := (queueNote r s).reports, lostMark := (queueNote r s).lostMark } := by
  unfold queueNote joinReport
  split <;> exact ⟨rfl, rfl, rfl⟩

/-- The same NOTE joins both queues alike. -/
theorem Alike.queueNote {full : Bool} {i : Fin 8} {s u : State} (h : Alike full i s u) (r : Report) : Alike full i (queueNote r s) (Machine.queueNote r u) := by
  obtain ⟨a1, a2, a3⟩ := queueNote_parts r s
  obtain ⟨b1, b2, b3⟩ := queueNote_parts r u
  obtain ⟨h1, h2, h3, h4, h5, h6, h7⟩ := h
  refine ⟨?_, ?_, ?_, ?_, ?_, ?_, fun hf => ⟨?_, ?_⟩⟩
  · rw [a3, b3]; exact h1
  · rw [a3, b3]; exact h2
  · rw [a3, b3]; exact h3
  · rw [a3, b3]; exact h4
  · rw [a3, b3]; exact h5
  · rw [a3, b3]; exact h6
  · rw [a1, b1, (h7 hf).1, (h7 hf).2]
  · rw [a2, b2, (h7 hf).1]

/-- A fault record joining changes the report queue and its mark alone (R142). -/
theorem queueFault_parts (r : Report) (s : State) : queueFault r s = { s with reports := (queueFault r s).reports, lostMark := (queueFault r s).lostMark } := by
  unfold queueFault joinReport
  split
  · rfl
  · split <;> rfl

/-- What it does rests on the queue and the mark. -/
theorem queueFault_congr (r : Report) {s u : State} (h1 : u.reports = s.reports) (h2 : u.lostMark = s.lostMark) :
    (queueFault r u).reports = (queueFault r s).reports ∧ (queueFault r u).lostMark = (queueFault r s).lostMark := by
  unfold queueFault joinReport
  rw [h1, h2]
  split
  · exact ⟨rfl, rfl⟩
  · split <;> exact ⟨rfl, rfl⟩

/-- The same fault record joins both queues alike. -/
theorem Alike.queueFault {full : Bool} {i : Fin 8} {s u : State} (h : Alike full i s u) (r : Report) : Alike full i (queueFault r s) (Machine.queueFault r u) := by
  have a := queueFault_parts r s
  have b := queueFault_parts r u
  obtain ⟨h1, h2, h3, h4, h5, h6, h7⟩ := h
  refine ⟨?_, ?_, ?_, ?_, ?_, ?_, fun hf => queueFault_congr r (h7 hf).1 (h7 hf).2⟩
  · rw [a, b]; exact h1
  · rw [a, b]; exact h2
  · rw [a, b]; exact h3
  · rw [a, b]; exact h4
  · rw [a, b]; exact h5
  · rw [a, b]; exact h6

/-- The same event of the slot offered in both (R139 to R146). -/
theorem Alike.offerSlot {full : Bool} {i : Fin 8} {s u : State} (h : Alike full i s u) (k : EventKind) (d : Word32) :
    Alike full i (offerSlot k i d s) (Machine.offerSlot k i d u) := by
  have hr : reportOf k (some i) d none u = reportOf k (some i) d none s := by
    unfold reportOf State.houseTime; rw [h.2.2.1, h.2.2.2.2.1]
  have hc : u.classOf k = s.classOf k := by unfold State.classOf; rw [h.2.2.2.2.2.1]
  unfold Machine.offerSlot
  rw [hr]
  generalize hq : reportOf k (some i) d none s = r
  have hk : r.kind = k := by rw [← hq]; rfl
  have hs : r.slot = some i := by rw [← hq]; rfl
  unfold takeOffer
  rw [hk, hc, hs]
  cases s.classOf k
  · exact h
  · exact h.queueNote r
  · dsimp only
    unfold takeFault
    rw [h.1]
    split
    · exact h.queueNote r
    · split
      · unfold secondFault
        have hz : Alike full i (freezeSlot i s) (freezeSlot i u) := by
          unfold freezeSlot; rw [h.1]
          split <;> first | exact h | exact h.setSlot _
        dsimp only
        rw [h.1, hz.1]
        exact hz.queueFault _
      · unfold firstFault
        dsimp only
        rw [h.1]
        exact (h.setSlot _).queueFault _

/-- Several likewise. -/
theorem Alike.offerEach {full : Bool} {i : Fin 8} {s u : State} (h : Alike full i s u) (k : EventKind) (ds : List Word32) :
    Alike full i (offerEach k i ds s) (Machine.offerEach k i ds u) := by
  unfold Machine.offerEach
  induction ds generalizing s u with
  | nil => exact h
  | cons d ds ih => exact ih (h.offerSlot k d)

/-- The due time is the same (R94). -/
theorem Alike.dueOf {full : Bool} {i : Fin 8} {s u : State} (h : Alike full i s u) (lc : Time) : Machine.dueOf u i lc = Machine.dueOf s i lc := by
  unfold Machine.dueOf dueTime; rw [h.1, h.2.2.1, h.2.2.2.1]

/-- The nominal step is the same. -/
theorem Alike.nominalOf {full : Bool} {i : Fin 8} {s u : State} (h : Alike full i s u) (v : Slot) : u.nominalOf v = s.nominalOf v := by
  unfold State.nominalOf; rw [h.2.2.2.1]

/-- The slot released in both (R39). -/
theorem Alike.releaseSlot {full : Bool} {i : Fin 8} {s u : State} (h : Alike full i s u) : Alike full i (releaseSlot i s) (Machine.releaseSlot i u) := by
  unfold Machine.releaseSlot
  rw [h.1]
  cases (s.slot i).context with
  | none => exact h.setSlot _
  | some c => exact h.setSlot _

/-- The late discard in both (R90). -/
theorem Alike.lateDiscard {full : Bool} {i : Fin 8} {s u : State} (h : Alike full i s u) (due : Int) : Alike full i (lateDiscard i due s) (Machine.lateDiscard i due u) := by
  unfold Machine.lateDiscard
  dsimp only
  rw [h.1]
  exact (h.setSlot _).offerEach _ _

/-- The start in both (R96). -/
theorem Alike.startStream {full : Bool} {i : Fin 8} {s u : State} (h : Alike full i s u) (c : Context) (p : Int) : Alike full i (startStream i c p s) (Machine.startStream i c p u) := by
  unfold Machine.startStream
  dsimp only
  rw [h.1, h.2.2.1, h.2.2.2.1]
  exact (h.setSlot _).offerSlot _ _

/-- The moves of the slot in both (R95 to R97, R106, R107, R109). -/
theorem Alike.moveSlot {full : Bool} {i : Fin 8} {s u : State} (h : Alike full i s u) : Alike full i (moveSlot i s) (Machine.moveSlot i u) := by
  unfold Machine.moveSlot
  rw [h.1]
  cases (s.slot i).state <;> dsimp only
  · exact h
  · unfold primingWork
    rw [h.2.2.2.2.1, h.dueOf]
    split
    · exact h
    · split
      · unfold spanCut cutSlot
        rw [h.1, h.nominalOf]
        exact (h.setSlot _).offerSlot _ _
      · next c o d _ _ =>
        unfold primeOn
        have hl := h.lateDiscard (dueIndex c.rate o d)
        dsimp only
        have hg : startGate (Machine.lateDiscard i (dueIndex c.rate o d) u) ((Machine.lateDiscard i (dueIndex c.rate o d) u).slot i) (dueIndex c.rate o d) =
            startGate (Machine.lateDiscard i (dueIndex c.rate o d) s) ((Machine.lateDiscard i (dueIndex c.rate o d) s).slot i) (dueIndex c.rate o d) := by
          unfold startGate; rw [hl.1, hl.2.2.1]
        rw [hg]
        split
        · exact hl.startStream _ _
        · exact hl
  · have hb : isBeyond u i .playing = isBeyond s i .playing := by unfold isBeyond; rw [h.1]
    rw [hb]
    split
    · unfold starveStream; rw [h.1]; exact (h.setSlot _).offerSlot _ _
    · exact h
  · have hb : resumesNow u i = resumesNow s i := by unfold resumesNow; rw [h.1]
    rw [hb]
    split
    · unfold resumeStream; rw [h.1]; exact (h.setSlot _).offerSlot _ _
    · exact h
  · have hb : isBeyond u i .draining = isBeyond s i .draining := by unfold isBeyond; rw [h.1]
    rw [hb]
    split
    · unfold drainStream; rw [h.1]; exact h.releaseSlot.offerSlot _ _
    · exact h
  · exact h

/-- The advance of the slot in both (R100). -/
theorem Alike.playSlot {full : Bool} {i : Fin 8} {s u : State} (h : Alike full i s u) (b : Bool) : Alike full i (playSlot i b s) (Machine.playSlot i b u) := by
  have ha : ∀ f, Alike full i (countStarved i b (advanceSlot i f s)) (countStarved i b (advanceSlot i f u)) := by
    intro f
    have : Alike full i (advanceSlot i f s) (advanceSlot i f u) := by
      unfold advanceSlot; dsimp only; rw [h.1]; exact (h.setSlot _).offerEach _ _
    unfold countStarved
    rw [this.1]
    split
    · exact this.setSlot _
    · exact this
  unfold Machine.playSlot
  rw [h.1]
  split <;> first | exact ha _ | exact h

/-- What a slot hands rests on the slot and Sample Memory (R98, R99). -/
theorem handedBy_congr {s u : State} (h : u.memory = s.memory) (v : Slot) : handedBy u v = handedBy s v := by
  have hs : ∀ c ch x y, sampleOf u v c ch x y = sampleOf s v c ch x y := fun c ch x y => by unfold sampleOf; rw [h]
  have hc : ∀ c f ch, channelValue u v c f ch = channelValue s v c f ch := fun c f ch => by unfold channelValue; simp only [hs]
  unfold handedBy
  cases v.context with
  | none => rfl
  | some c =>
    cases v.readPos with
    | none => rfl
    | some f => cases v.state <;> simp only [funext (hc c f)]

/-- The Renderer's work for the slot in both, with what it hands (R92). -/
theorem Alike.renderSlot {full : Bool} {i : Fin 8} {s u : State} (h : Alike full i s u) :
    Alike full i (renderSlot i s) (Machine.renderSlot i u) ∧ (Machine.renderSlot i u).contributions[i.val] = (Machine.renderSlot i s).contributions[i.val] := by
  unfold Machine.renderSlot
  dsimp only
  have hm := h.moveSlot
  have hp := hm.playSlot (decide ((s.slot i).state = .starved))
  rw [h.1]
  refine ⟨hp, ?_⟩
  simp only [State.withContribution, Vector.getElem_set_self]
  rw [hp.1, handedBy_congr hm.2.1, hm.1]

/-- A slot that is CLOSED or FROZEN hands nothing and is left as it was. -/
theorem renderSlot_still {i : Fin 8} {s : State} (h : (s.slot i).state = .closed ∨ (s.slot i).state = .frozen) : renderSlot i s = s.withContribution i none := by
  unfold renderSlot
  have hm : moveSlot i s = s := by unfold moveSlot; rcases h with h | h <;> rw [h]
  have hp : ∀ b, playSlot i b s = s := fun b => by unfold playSlot; rcases h with h | h <;> rw [h]
  have hh : handedBy s (s.slot i) = none := by unfold handedBy; rcases h with h | h <;> rw [h] <;> cases (s.slot i).context <;> cases (s.slot i).readPos <;> rfl
  dsimp only
  rw [hm, hp, hh]

/-- What the Renderer's work for several slots leaves of slot `i` among them: what its own work leaves, and, where no other slot is at work, of the report queue too. -/
theorem renderSlots_alike (l : List (Fin 8)) (hl : l.Nodup) (i : Fin 8) (hi : i ∈ l) (s : State) (full : Bool)
    (hf : full = true → ∀ j, j ≠ i → (s.slot j).state = .closed ∨ (s.slot j).state = .frozen) :
    Alike full i (renderSlot i s) (l.foldl (fun acc i => renderSlot i acc) s) ∧
      (l.foldl (fun acc i => renderSlot i acc) s).contributions[i.val] = (renderSlot i s).contributions[i.val] := by
  have still : ∀ (l : List (Fin 8)) (s : State), i ∉ l → l.Nodup → (full = true → ∀ j, j ≠ i → (s.slot j).state = .closed ∨ (s.slot j).state = .frozen) →
      Alike full i s (l.foldl (fun acc i => renderSlot i acc) s) ∧ (l.foldl (fun acc i => renderSlot i acc) s).contributions[i.val] = s.contributions[i.val] := by
    intro l
    induction l with
    | nil => intro s _ _ _; exact ⟨⟨rfl, rfl, rfl, rfl, rfl, rfl, fun _ => ⟨rfl, rfl⟩⟩, rfl⟩
    | cons a l ih =>
      intro s hni hnd hq
      simp only [List.mem_cons, not_or] at hni
      have hn := List.nodup_cons.1 hnd
      have g := onlySlot_renderSlot a s
      have hq' : full = true → ∀ j, j ≠ i → ((renderSlot a s).slot j).state = .closed ∨ ((renderSlot a s).slot j).state = .frozen := by
        intro hf j hj
        by_cases ha : j = a
        · subst ha; rw [renderSlot_still (hq hf j hj)]; exact hq hf j hj
        · rw [g.1 j ha]; exact hq hf j hj
      obtain ⟨h1, h2⟩ := ih (renderSlot a s) hni.2 hn.2 hq'
      have hb : Alike full i s (renderSlot a s) := by
        refine ⟨g.1 i hni.1, g.2.2.1, g.2.2.2.2.2.1, g.2.2.2.2.1, g.2.2.2.2.2.2.1, g.2.2.2.2.2.2.2, fun hf => ?_⟩
        rw [renderSlot_still (hq hf a (Ne.symm hni.1))]; exact ⟨rfl, rfl⟩
      rw [List.foldl_cons]
      refine ⟨⟨h1.1.trans hb.1, h1.2.1.trans hb.2.1, h1.2.2.1.trans hb.2.2.1, h1.2.2.2.1.trans hb.2.2.2.1, h1.2.2.2.2.1.trans hb.2.2.2.2.1, h1.2.2.2.2.2.1.trans hb.2.2.2.2.2.1, fun hf => ?_⟩, h2.trans (g.2.1 i hni.1)⟩
      exact ⟨(h1.2.2.2.2.2.2 hf).1.trans (hb.2.2.2.2.2.2 hf).1, (h1.2.2.2.2.2.2 hf).2.trans (hb.2.2.2.2.2.2 hf).2⟩
  have tr : ∀ {a b c : State}, Alike full i a b → Alike full i b c → Alike full i a c := fun h k =>
    ⟨k.1.trans h.1, k.2.1.trans h.2.1, k.2.2.1.trans h.2.2.1, k.2.2.2.1.trans h.2.2.2.1, k.2.2.2.2.1.trans h.2.2.2.2.1, k.2.2.2.2.2.1.trans h.2.2.2.2.2.1,
      fun hf => ⟨(k.2.2.2.2.2.2 hf).1.trans (h.2.2.2.2.2.2 hf).1, (k.2.2.2.2.2.2 hf).2.trans (h.2.2.2.2.2.2 hf).2⟩⟩
  have quiet : ∀ (a : Fin 8) (s : State), a ≠ i → (full = true → ∀ j, j ≠ i → (s.slot j).state = .closed ∨ (s.slot j).state = .frozen) →
      Alike full i s (renderSlot a s) ∧ (full = true → ∀ j, j ≠ i → ((renderSlot a s).slot j).state = .closed ∨ ((renderSlot a s).slot j).state = .frozen) := by
    intro a s hai hq
    have g := onlySlot_renderSlot a s
    refine ⟨⟨g.1 i (Ne.symm hai), g.2.2.1, g.2.2.2.2.2.1, g.2.2.2.2.1, g.2.2.2.2.2.2.1, g.2.2.2.2.2.2.2, fun hf => ?_⟩, fun hf j hj => ?_⟩
    · rw [renderSlot_still (hq hf a hai)]; exact ⟨rfl, rfl⟩
    · by_cases ha : j = a
      · subst ha; rw [renderSlot_still (hq hf j hj)]; exact hq hf j hj
      · rw [g.1 j ha]; exact hq hf j hj
  induction l generalizing s with
  | nil => simp at hi
  | cons a l ih =>
    have hn := List.nodup_cons.1 hl
    rw [List.foldl_cons]
    by_cases ha : i = a
    · subst ha
      have hq' : full = true → ∀ j, j ≠ i → ((renderSlot i s).slot j).state = .closed ∨ ((renderSlot i s).slot j).state = .frozen := fun h j hj => by
        rw [(onlySlot_renderSlot i s).1 j hj]; exact hf h j hj
      exact still l (renderSlot i s) hn.1 hn.2 hq'
    · obtain ⟨q1, q2⟩ := quiet a s (Ne.symm ha) hf
      obtain ⟨h1, h2⟩ := ih hn.2 (by simpa [ha] using hi) (renderSlot a s) q2
      exact ⟨tr q1.renderSlot.1 h1, h2.trans q1.renderSlot.2⟩

/-- What a strobe's rendering leaves beside slots and reports (R113). -/
theorem renderAll_parts (s : State) : (renderAll s).strobed = some s.localCount ∧ (renderAll s).mixDue = true ∧ (renderAll s).memory = s.memory ∧ (renderAll s).lanes = s.lanes ∧ (renderAll s).clock = s.clock ∧ (renderAll s).output = s.output := by
  have cl : ∀ (l : List (Fin 8)) (s : State), (l.foldl (fun acc i => renderSlot i acc) s).memory = s.memory ∧ (l.foldl (fun acc i => renderSlot i acc) s).lanes = s.lanes ∧ (l.foldl (fun acc i => renderSlot i acc) s).clock = s.clock ∧ (l.foldl (fun acc i => renderSlot i acc) s).output = s.output := by
    intro l
    induction l with
    | nil => exact fun s => ⟨rfl, rfl, rfl, rfl⟩
    | cons a l ih =>
      intro s
      have g := onlySlot_renderSlot a s
      have k := ih (renderSlot a s)
      exact ⟨k.1.trans g.2.2.1, k.2.1.trans g.2.2.2.1, k.2.2.1.trans g.2.2.2.2.2.1, k.2.2.2.trans g.2.2.2.2.1⟩
  unfold renderAll
  generalize List.finRange 8 = l
  exact ⟨rfl, rfl, (cl l s).1, (cl l s).2.1, (cl l s).2.2.1, (cl l s).2.2.2⟩

/-- What a strobe's rendering leaves of a slot, given what the work for that slot alone leaves (R92, R113). -/
theorem renderAll_slot {s : State} {i : Fin 8} {u : State} {handed : Option (List Int)} (h : renderSlot i s = u.withContribution i handed)
    (hh : handed = none ∨ (u.slot i).context.isSome = true) :
    (renderAll s).slot i = u.slot i ∧ ((renderAll s).contributions[i.val]).values = handed ∧
      ((∀ j, j ≠ i → (s.slot j).state = .closed ∨ (s.slot j).state = .frozen) →
        (renderAll s).reports = u.reports ∧ (renderAll s).lostMark = u.lostMark) := by
  have al := fun full => renderSlots_alike (List.finRange 8) (List.nodup_finRange 8) i (List.mem_finRange i) s full
  obtain ⟨h1, h2⟩ := al false (by simp)
  unfold renderAll
  generalize List.finRange 8 = l at *
  rw [h] at h1 h2
  dsimp only
  refine ⟨h1.1, ?_, fun hq => ?_⟩
  · refine (congrArg Contribution.values h2).trans ?_
    simp only [State.withContribution, Vector.getElem_set_self, contributionOf]
    cases hx : (u.slot i).context with
    | none =>
      rcases hh with hh | hh
      · rw [hh]; rfl
      · rw [hx] at hh; cases hh
    | some c => rfl
  · have := (al true (fun _ => hq)).1.2.2.2.2.2.2 rfl
    rw [h] at this; exact this

end Sys2Proof.Machine
end

