-- ==== Sys2Proof/Laws/Blocks.lean ====
section
/-! SUPPORT. Blocks moving between free lists and rings: opening, closing and partitioning keep every block in exactly
one place (R33). -/

set_option Elab.async false

namespace Sys2Proof.Machine

/-! ## Counting -/

/-- Four terms, one of them changed. -/
theorem sum_four (f : Fin 4 → Nat) (i : Fin 4) (a : Nat) :
    ((List.finRange 4).map fun j => if j = i then a else f j).sum + f i = ((List.finRange 4).map f).sum + a := by
  rw [← Fin.sum_univ_def, ← Fin.sum_univ_def]
  fin_cases i <;> simp [Fin.sum_univ_four] <;> omega

/-- Eight terms, one of them changed. -/
theorem sum_eight (f : Fin 8 → Nat) (i : Fin 8) (a : Nat) :
    ((List.finRange 8).map fun j => if j = i then a else f j).sum + f i = ((List.finRange 8).map f).sum + a := by
  rw [← Fin.sum_univ_def, ← Fin.sum_univ_def]
  fin_cases i <;> simp [Fin.sum_univ_eight] <;> omega

/-- The block count after one slot and one free list are written. -/
theorem blockCount_update (s : State) (i : Fin 8) (v : Slot) (r : Fin 4) (l : List Nat) (b : Nat) :
    blockCount { s.setSlot i v with freeLists := s.freeLists.set r.val l r.isLt } b
        + ((s.freeLists[r.val]).count b + (s.slot i).blocks.count b)
      = blockCount s b + (l.count b + v.blocks.count b) := by
  have h4 := sum_four (fun q => (s.freeLists[q.val]).count b) r (l.count b)
  have h8 := sum_eight (fun j => (s.slot j).blocks.count b) i (v.blocks.count b)
  have e4 : (fun q : Fin 4 => ((s.freeLists.set r.val l r.isLt)[q.val]).count b)
      = fun q => if q = r then l.count b else (s.freeLists[q.val]).count b := by
    funext q
    by_cases h : q = r
    · subst h; simp
    · have h' : r.val ≠ q.val := fun e => h (Fin.ext e.symm)
      simp [h, Vector.getElem_set_ne, h']
  have e8 : (fun j : Fin 8 => ((s.setSlot i v).slot j).blocks.count b)
      = fun j => if j = i then v.blocks.count b else (s.slot j).blocks.count b := by
    funext j
    rw [slot_setSlot]
    split <;> rfl
  have e8' : (fun j : Fin 8 => (({ s.setSlot i v with freeLists := s.freeLists.set r.val l r.isLt } : State).slot j).blocks.count b)
      = fun j => if j = i then v.blocks.count b else (s.slot j).blocks.count b := e8
  simp only [blockCount, e4, e8'] at *
  omega

/-- A block put into a free list. -/
theorem count_insertBlock (b x : Nat) (l : List Nat) : (insertBlock x l).count b = l.count b + [x].count b := by
  induction l with
  | nil => simp [insertBlock]
  | cons y ys ih =>
    simp only [insertBlock]
    split
    · simp only [List.count_cons, List.count_nil]; omega
    · simp only [List.count_cons, ih, List.count_nil]; omega

/-- Blocks returned to a free list. -/
theorem count_returnBlocks (b : Nat) (bs free : List Nat) : (returnBlocks bs free).count b = free.count b + bs.count b := by
  unfold returnBlocks
  induction bs generalizing free with
  | nil => simp
  | cons x xs ih =>
    simp only [List.foldl_cons, ih, count_insertBlock, List.count_cons, List.count_nil]
    omega

/-- The lowest blocks taken and those left. -/
theorem count_take_drop (b n : Nat) (l : List Nat) : (l.take n).count b + (l.drop n).count b = l.count b := by
  rw [← List.count_append, List.take_append_drop]

/-- A whole partition's free lists hold each of the 128 blocks once. -/
theorem count_fullFreeLists (m : PartitionMode) (b : Nat) :
    ((List.finRange 4).map fun r => ((fullFreeLists m)[r.val]).count b).sum = if b < 128 then 1 else 0 := by
  rw [← Fin.sum_univ_def, Fin.sum_univ_four]
  have hr : ∀ a n : Nat, (List.range' a n).count b = if a ≤ b ∧ b < a + n then 1 else 0 := by
    intro a n
    rw [List.Nodup.count (List.nodup_range' (step := 1))]
    simp [List.mem_range'_1]
  have h0 : ∀ n : Nat, (List.range n).count b = if b < n then 1 else 0 := by
    intro n
    rw [List.range_eq_range', hr]
    simp
  cases m <;> simp [fullFreeLists, hr, h0] <;> (repeat' split) <;> omega

/-! ## Closing, opening, partitioning -/

/-- The slots of a state all CLOSED and sound hold no block. -/
theorem noBlocks_of_closed {s : State} (hb : blocksSound s) (hc : ∀ i : Fin 8, (s.slot i).state = .closed) (i : Fin 8) :
    (s.slot i).blocks = [] := (hb.2 i).2.1 ((hb.2 i).1.1 (hc i))

/-- New whole free lists while every slot is CLOSED keep the blocks sound (R36, R160). -/
theorem blocksSound_full {s t : State} (m : PartitionMode) (hf : t.freeLists = fullFreeLists m) (ht : t.slots = s.slots)
    (hb : blocksSound s) (hc : ∀ i : Fin 8, (s.slot i).state = .closed) : blocksSound t := by
  have e : ∀ i, t.slot i = s.slot i := slot_congr ht
  refine ⟨fun b => ?_, fun i => by rw [e i]; exact hb.2 i⟩
  have h8 : ((List.finRange 8).map fun i => (t.slot i).blocks.count b).sum = 0 := by
    simp [e, noBlocks_of_closed hb hc]
  rw [blockCount, h8, hf, count_fullFreeLists]
  rfl

/-- The closing of a slot (R39). -/
theorem inner_releaseSlot (i : Fin 8) (s : State) : Inner s (releaseSlot i s) := by
  unfold releaseSlot
  split
  · next h =>
    refine Inner.setSlot s i _ (fun hb => ⟨?_, ?_, ?_⟩) fun _ _ => slotQueueSound_closed _
    · rw [(hb.2 i).2.1 h]; rfl
    · rw [h]; rfl
    · exact ⟨fun _ => (hb.2 i).1.2 h, fun _ => rfl⟩
  · next c h =>
    refine { queues := fun _ => queuesSound_setSlot fun _ => slotQueueSound_closed _
             blocks := fun hb => ⟨⟨fun b => ?_, fun j => ?_⟩, fun j hj => ?_⟩ }
    · have := blockCount_update s i (Slot.closedWith (s.slot i).faultSequence) (regionOf s.partition c.streamId)
        (returnBlocks (s.slot i).blocks s.freeLists[(regionOf s.partition c.streamId).val]) b
      rw [count_returnBlocks] at this
      simp only [Slot.closedWith, List.count_nil] at this
      have hb' := hb.1 b
      simp only [Slot.closedWith]
      omega
    · show (_ ↔ _) ∧ _ ∧ _
      have := slot_setSlot s i j (Slot.closedWith (s.slot i).faultSequence)
      have e : State.slot { s.setSlot i (Slot.closedWith (s.slot i).faultSequence) with
          freeLists := s.freeLists.set (regionOf s.partition c.streamId).val
            (returnBlocks (s.slot i).blocks s.freeLists[(regionOf s.partition c.streamId).val]) (regionOf s.partition c.streamId).isLt } j
          = if j = i then Slot.closedWith (s.slot i).faultSequence else s.slot j := this
      rw [e]
      split
      · simp [Slot.closedWith]
      · exact hb.2 j
    · have := slot_setSlot s i j (Slot.closedWith (s.slot i).faultSequence)
      show ((s.setSlot i (Slot.closedWith (s.slot i).faultSequence)).slot j).state = _
      rw [this]
      split
      · rfl
      · exact hj

/-- The opening of a CLOSED slot whose region has room keeps the blocks sound (R38). -/
theorem blocksSound_openIn (i : Fin 8) (c : Context) (s : State) (hb : blocksSound s) (hc : (s.slot i).state = .closed)
    (hl : c.ringSize ≤ (s.freeLists[(regionOf s.partition c.streamId).val]).length) : blocksSound (openIn i c s) := by
  have hn : (s.slot i).blocks = [] := (hb.2 i).2.1 ((hb.2 i).1.1 hc)
  refine ⟨fun b => ?_, fun j => ?_⟩
  · have := blockCount_update s i
      (openedSlot c ((s.freeLists[(regionOf s.partition c.streamId).val]).take c.ringSize) (nominalStep c.rate s.output.rate)
        (s.slot i).faultSequence)
      (regionOf s.partition c.streamId) ((s.freeLists[(regionOf s.partition c.streamId).val]).drop c.ringSize) b
    have ht := count_take_drop b c.ringSize (s.freeLists[(regionOf s.partition c.streamId).val])
    rw [hn] at this
    simp only [openedSlot, List.count_nil] at this
    have hb' := hb.1 b
    simp only [openIn, openedSlot]
    omega
  · have e : State.slot (openIn i c s) j = if j = i then openedSlot c
        ((s.freeLists[(regionOf s.partition c.streamId).val]).take c.ringSize) (nominalStep c.rate s.output.rate)
        (s.slot i).faultSequence else s.slot j := slot_setSlot s i j _
    rw [e]
    split
    · refine ⟨by simp [openedSlot], by simp [openedSlot], ?_⟩
      intro d hd
      simp only [openedSlot, Option.some.injEq] at hd
      subst hd
      simp [openedSlot, hl]
    · exact hb.2 j

end Sys2Proof.Machine
end

