-- ==== Sys2Proof/Laws/Clock.lean ====
section
/-! SUPPORT. The Stream Table's and the Time Base's work: what it keeps (chapters 1 and 2). -/

set_option Elab.async false

namespace Sys2Proof.Machine

/-! ## The Stream Table -/

/-- Ending a stream (R41). -/
theorem inner_endSlot (i : Fin 8) (s : State) : Inner s (endSlot i s) := by
  unfold endSlot
  split
  · exact inner_releaseSlot i s
  all_goals first
    | exact Inner.refl s
    | next h => exact Inner.setSlot_of s i _ rfl rfl (by simp [h])

/-- What the entry to FREE does to one slot (R47). -/
theorem inner_slotOnFree (i : Fin 8) (s : State) : Inner s (slotOnFree i s) := by
  unfold slotOnFree
  split
  · next h => exact (inner_cutSlot i s (.inl (by simp [h]))).trans (inner_offerPart _ _ _)
  · next h => exact (inner_cutSlot i s (.inl (by simp [h]))).trans (inner_offerPart _ _ _)
  · exact (inner_releaseSlot i s).trans (inner_offerPart _ _ _)
  all_goals exact Inner.refl s

/-- The entry to FREE at the Stream Table (R47). -/
theorem inner_slotsOnFree (s : State) : Inner s (slotsOnFree s) :=
  Inner.foldl (fun acc i => slotOnFree i acc) (fun s i => inner_slotOnFree i s) (List.finRange 8) s

/-! ## The Time Base -/

/-- A Time Base whose drift words and settings stay sound where another's are. -/
def ClockLike (c d : TimeBase) : Prop :=
  (-Config.driftLimit ≤ c.epsilon ∧ c.epsilon ≤ Config.driftLimit → -Config.driftLimit ≤ d.epsilon ∧ d.epsilon ≤ Config.driftLimit) ∧
  d.nominalDrift = c.nominalDrift ∧ d.settings = c.settings

theorem ClockLike.refl (c : TimeBase) : ClockLike c c := ⟨id, rfl, rfl⟩

theorem ClockLike.trans {c d e : TimeBase} (h : ClockLike c d) (k : ClockLike d e) : ClockLike c e :=
  ⟨k.1 ∘ h.1, k.2.1.trans h.2.1, k.2.2.trans h.2.2⟩

/-- The same drift word, nominal drift and settings. -/
theorem ClockLike.of_eq {c d : TimeBase} (h1 : d.epsilon = c.epsilon) (h2 : d.nominalDrift = c.nominalDrift)
    (h3 : d.settings = c.settings) : ClockLike c d := ⟨fun h => by rw [h1]; exact h, h2, h3⟩

/-- A clock put in place of the state's. -/
theorem Inner.setClock_of (s : State) (c : TimeBase) (hd : driftSound s → driftSound (s.setClock c))
    (hx : settingsSound s → settingsSound (s.setClock c)) : Inner s (s.setClock c) :=
  { drift := hd, settings := hx }

/-- A clock of sound drift and the same settings put in place of the state's. -/
theorem Inner.setClock (s : State) (c : TimeBase) (h : ClockLike s.clock c) : Inner s (s.setClock c) :=
  Inner.setClock_of s c (fun hd => ⟨h.1 hd.1, by rw [State.setClock_clock, h.2.1]; exact hd.2⟩)
    (fun hs => by unfold settingsSound; rw [State.setClock_clock, h.2.2]; exact hs)

/-- The drift word after a frequency step stays within its clamp (R20). -/
theorem driftAfter_bound (x e d g : Int) (h : -Config.driftLimit ≤ x ∧ x ≤ Config.driftLimit) :
    -Config.driftLimit ≤ (driftAfter x e d g).1 ∧ (driftAfter x e d g).1 ≤ Config.driftLimit := by
  unfold driftAfter
  split
  · exact h
  · simp only [clampTo, Config.driftLimit]; omega

/-- The update of the model (R19). -/
theorem clockLike_updateModel (lk : Bool) (c : TimeBase) (a : Anchor) (b : Heard) (lc p : Time) (e : Int) (now : Time) :
    ClockLike c (updateModel lk c a b lc p e now).1 :=
  ⟨fun h => driftAfter_bound c.epsilon e _ _ h, rfl, rfl⟩

theorem clockLike_beginRun (c : TimeBase) (b : Heard) (lc now : Time) : ClockLike c (beginRun c b lc now) :=
  ClockLike.of_eq rfl rfl rfl

theorem clockLike_judgeOutlier (c : TimeBase) (b : Heard) (lc now : Time) (e : Int) : ClockLike c (judgeOutlier c b lc now e).1 := by
  unfold judgeOutlier; split <;> exact ClockLike.of_eq rfl rfl rfl

theorem clockLike_acceptAcquiring (c : TimeBase) (a : Anchor) (b : Heard) (lc p : Time) (e : Int) (now : Time) :
    ClockLike c (acceptAcquiring c a b lc p e now).1 := by
  unfold acceptAcquiring
  split
  · exact clockLike_beginRun c b lc now
  · dsimp only
    generalize (if |e| ≤ ↑c.settings.window then c.lockRun + 1 else 1) = n
    split
    · exact (ClockLike.of_eq rfl rfl rfl : ClockLike c { c with state := .locked, lockRun := 4, outlierRun := 0 }).trans
        (clockLike_updateModel _ _ _ _ _ _ _ _)
    · exact (ClockLike.of_eq rfl rfl rfl : ClockLike c { c with lockRun := n, outlierRun := 0 }).trans
        (clockLike_updateModel _ _ _ _ _ _ _ _)

theorem clockLike_acceptLocked (c : TimeBase) (a : Anchor) (b : Heard) (lc p : Time) (e : Int) (now : Time) :
    ClockLike c (acceptLocked c a b lc p e now).1 := by
  unfold acceptLocked
  split
  · exact (ClockLike.of_eq rfl rfl rfl : ClockLike c { c with state := .acquiring, lockRun := 1, outlierRun := 0 }).trans
      (clockLike_updateModel _ _ _ _ _ _ _ _)
  · exact (ClockLike.of_eq rfl rfl rfl : ClockLike c { c with outlierRun := 0 }).trans (clockLike_updateModel _ _ _ _ _ _ _ _)

theorem clockLike_acceptHoldover (c : TimeBase) (a : Anchor) (b : Heard) (lc p : Time) (e : Int) (now : Time) :
    ClockLike c (acceptHoldover c a b lc p e now).1 := by
  unfold acceptHoldover
  split
  · exact (ClockLike.of_eq rfl rfl rfl : ClockLike c { c with state := .locked, outlierRun := 0 }).trans
      (clockLike_updateModel _ _ _ _ _ _ _ _)
  · exact clockLike_beginRun c b lc now

/-- The judging of a beacon that has an LC_b (R13 to R23). -/
theorem clockLike_judgeTimed (c : TimeBase) (b : Heard) (lc now : Time) : ClockLike c (judgeTimed c b lc now).1 := by
  unfold judgeTimed
  split
  · exact clockLike_beginRun c b lc now
  · exact clockLike_beginRun c b lc now
  · dsimp only
    split
    · exact clockLike_judgeOutlier c b lc now _
    · split
      · exact clockLike_acceptHoldover _ _ _ _ _ _ _
      · exact clockLike_acceptLocked _ _ _ _ _ _ _
      · exact clockLike_acceptAcquiring _ _ _ _ _ _ _
      · exact clockLike_acceptAcquiring _ _ _ _ _ _ _

/-- The judging of any beacon (1.5). -/
theorem clockLike_judge (c : TimeBase) (b : Heard) (now : Time) : ClockLike c (judge c b now).1 := by
  unfold judge
  split
  · exact ClockLike.refl c
  · split
    · exact ClockLike.refl c
    · split
      · exact ClockLike.refl c
      · exact clockLike_judgeTimed c b _ now

/-- A beacon heard (R7 to R15). -/
theorem clockLike_hearBeacon (c : TimeBase) (arrival now : Time) (m q : BitVec 16) (ht : Time) :
    ClockLike c (hearBeacon c arrival now m q ht).1 := by
  have h1 : ClockLike c (latchMet c) := by unfold latchMet; split <;> exact ClockLike.of_eq rfl rfl rfl
  have h2 : ClockLike (latchMet c) (adoptMaster m (latchMet c)) := by
    unfold adoptMaster; split <;> exact ClockLike.of_eq rfl rfl rfl
  exact ((h1.trans h2).trans (clockLike_judge _ ⟨m, q, ht, captured c arrival⟩ now)).trans (ClockLike.of_eq rfl rfl rfl)

/-- A beacon at the Time Base (R15). -/
theorem inner_clockBeacon (arrival : Time) (m q : BitVec 16) (ht : Time) (s : State) : Inner s (clockBeacon arrival m q ht s) :=
  (Inner.setClock s _ (clockLike_hearBeacon s.clock arrival s.localCount m q ht)).trans (inner_offerAll _ _)

/-- An edge latched (R8). -/
theorem inner_latchEdge (s : State) : Inner s (latchEdge s) := by
  unfold latchEdge
  split
  · exact Inner.setClock s _ (ClockLike.of_eq rfl rfl rfl)
  · exact (Inner.setClock s { s.clock with latch := .overrun s.localCount } (ClockLike.of_eq rfl rfl rfl)).trans (inner_offerPart _ _ _)
  · exact (Inner.setClock s { s.clock with latch := .overrun s.localCount } (ClockLike.of_eq rfl rfl rfl)).trans (inner_offerPart _ _ _)

/-- The entry to FREE (R26, R47). -/
theorem inner_enterFree (cause : Nat) (s : State) : Inner s (enterFree cause s) :=
  ((Inner.setClock_of s (freedClock s.clock) (fun h => ⟨h.2, h.2⟩) id).trans (inner_offerPart _ _ _)).trans (inner_slotsOnFree _)

/-- The silence timer's expiry (R24). -/
theorem inner_silenceExpiry (s : State) : Inner s (silenceExpiry s) := by
  unfold silenceExpiry
  split
  · exact (Inner.setClock s { s.clock with state := .holdover, holdoverStart := s.localCount } (ClockLike.of_eq rfl rfl rfl)).trans
      (inner_offerPart _ _ _)
  · exact inner_enterFree 1 s
  all_goals exact Inner.refl s

/-- Settings made of fields in range are in range (R4, R5). -/
theorem clockSettingsOf_range {m : BitVec 16} {src : BitVec 8} {l k e : BitVec 16} {g w : Word32} {x : ClockSettings}
    (h : clockSettingsOf m src l k e g w = some x) :
    (1 ≤ x.holdoverLimit ∧ x.holdoverLimit ≤ 600) ∧ (246 ≤ x.gate ∧ x.gate ≤ 245760) ∧ (25 ≤ x.window ∧ x.window ≤ 24576) := by
  unfold clockSettingsOf natIn at h
  split at h
  · next h1 h2 h3 h4 =>
    cases h
    simp only [Option.ite_none_right_eq_some, Option.some.injEq] at h2 h3 h4
    obtain ⟨h2, rfl⟩ := h2
    obtain ⟨h3, rfl⟩ := h3
    obtain ⟨h4, rfl⟩ := h4
    exact ⟨h2, h3, h4⟩
  · cases h

/-- A CLOCK-SET's settings taken (R5, R6). -/
theorem inner_takeSettings (x : ClockSettings) (s : State)
    (hx : (1 ≤ x.holdoverLimit ∧ x.holdoverLimit ≤ 600) ∧ (246 ≤ x.gate ∧ x.gate ≤ 245760) ∧ (25 ≤ x.window ∧ x.window ≤ 24576)) :
    Inner s (takeSettings x s) := by
  have h1 : Inner s (s.setClock (withSettings s.clock x)) := Inner.setClock_of s _ id (fun _ => hx)
  have hr : ∀ t : State, Inner t (t.setClock (restartAcquisition t.clock s.localCount)) :=
    fun t => Inner.setClock t _ (ClockLike.of_eq rfl rfl rfl)
  unfold takeSettings
  dsimp only
  split
  · split
    · exact h1.trans (inner_enterFree 2 _)
    · exact h1
  · split
    · exact h1
    · exact (h1.trans (hr _)).trans (inner_offerPart _ _ _)
    · exact h1.trans (hr _)
    · exact h1.trans (hr _)

end Sys2Proof.Machine
end

