-- ==== Sys2Proof/Laws/Codes.lean ====
section
/-! SUPPORT. Codes and words read back: fields of words, route entries, class tables, contexts, cue entries. -/

namespace Sys2Proof.Machine

/-- A ones' complement sum of two 16-bit numbers is one (R63). -/
theorem onesAdd_lt (a b : Nat) (ha : a < 65536) (hb : b < 65536) : onesAdd a b < 65536 := by
  unfold onesAdd; omega

/-- A check word is a 16-bit number (R63). -/
theorem onesSum_lt (ws : List Word32) : onesSum ws < 65536 := by
  unfold onesSum
  suffices ∀ a, a < 65536 → ws.foldl (fun acc w => onesAdd (onesAdd acc (w.extractLsb' 16 16).toNat) (w.extractLsb' 0 16).toNat) a < 65536 from this 0 (by omega)
  induction ws with
  | nil => intro a h; simpa
  | cons w ws ih =>
    intro a h; rw [List.foldl_cons]; apply ih
    exact onesAdd_lt _ _ (onesAdd_lt _ _ h (w.extractLsb' 16 16).isLt) (w.extractLsb' 0 16).isLt

/-- A field of a word given by its value. -/
theorem field_natWord (n lo len : Nat) (h : n < 2^32) : (Decode.field (natWord n) lo len).toNat = n / 2^lo % 2^len := by
  have h' : n % 2 ^ 32 = n := Nat.mod_eq_of_lt h
  rw [Decode.field, natWord, BitVec.extractLsb'_toNat, BitVec.toNat_ofNat, h', Nat.shiftRight_eq_div_pow]

/-- The four bytes of a word put together from four bytes. -/
theorem field_bytesWord (a b c d : Nat) (ha : a < 256) (hb : b < 256) (hc : c < 256) (hd : d < 256) :
    (Decode.field (bytesWord a b c d) 24 8).toNat = a ∧ (Decode.field (bytesWord a b c d) 16 8).toNat = b ∧
    (Decode.field (bytesWord a b c d) 8 8).toNat = c ∧ (Decode.field (bytesWord a b c d) 0 8).toNat = d := by
  have h : a % 256 * 16777216 + b % 256 * 65536 + c % 256 * 256 + d % 256 < 2 ^ 32 := by omega
  refine ⟨?_, ?_, ?_, ?_⟩ <;> rw [bytesWord, field_natWord _ _ _ h] <;> omega

/-- The lower half of a word whose last two bytes are those of a 16-bit number. -/
theorem field_bytesWord_half (a b n : Nat) (_ha : a < 256) (hb : b < 256) (hn : n < 65536) :
    (Decode.field (bytesWord a b (n / 256) n) 0 16).toNat = n := by
  have h : a % 256 * 16777216 + b % 256 * 65536 + n / 256 % 256 * 256 + n % 256 < 2 ^ 32 := by omega
  rw [bytesWord, field_natWord _ _ _ h]; omega

/-- The two halves of a word put together from halves. -/
theorem field_halvesWord (a b : Nat) (ha : a < 65536) (hb : b < 65536) :
    (Decode.field (halvesWord a b) 16 16).toNat = a ∧ (Decode.field (halvesWord a b) 0 16).toNat = b := by
  have h : a % 65536 * 65536 + b % 65536 < 2 ^ 32 := by omega
  refine ⟨?_, ?_⟩ <;> rw [halvesWord, field_natWord _ _ _ h] <;> omega

/-- The word of a used route entry is a 32-bit number. -/
theorem routeWord_lt (r : Route) : 2147483648 + r.slot.val * 16777216 + r.channel.val * 1048576 + r.lane.val * 65536 + r.gain.toNat < 2^32 := by
  have := r.slot.isLt; have := r.channel.isLt; have := r.lane.isLt; have := r.gain.isLt; omega

/-- A route entry's word reads back as that entry (R168). -/
theorem routeOfWord_routeWord (r : Route) : routeOfWord (routeWord (some r)) = some r := by
  have h := routeWord_lt r
  have h1 := r.slot.isLt; have h2 := r.channel.isLt; have h3 := r.lane.isLt; have h4 := r.gain.isLt
  have f1 : (Decode.field (routeWord (some r)) 24 4).toNat = r.slot.val := by
    rw [routeWord, field_natWord _ _ _ h]; omega
  have f2 : (Decode.field (routeWord (some r)) 20 4).toNat = r.channel.val := by
    rw [routeWord, field_natWord _ _ _ h]; omega
  have f3 : (Decode.field (routeWord (some r)) 16 4).toNat = r.lane.val := by
    rw [routeWord, field_natWord _ _ _ h]; omega
  have f4 : Decode.field (routeWord (some r)) 0 16 = r.gain := by
    apply BitVec.eq_of_toNat_eq; rw [routeWord, field_natWord _ _ _ h]; omega
  have g1 : indexBelow 8 r.slot.val = some r.slot := by simp [indexBelow]
  have g2 : indexBelow 2 r.channel.val = some r.channel := by unfold indexBelow; rw [dif_pos h2]
  have g3 : indexBelow 4 r.lane.val = some r.lane := by simp [indexBelow]
  rw [routeOfWord, f1, f2, f3, f4, g1, g2, g3]

/-- The word of any entry, used or unused, reads back as that entry (R168). -/
theorem presetEntry_routeWord (e : Option Route) : presetEntry (routeWord e) = some e := by
  cases e with
  | none => rfl
  | some r =>
    have f : Decode.field (routeWord (some r)) 31 1 ≠ 0 := by
      intro h0
      have h := routeWord_lt r
      have : (Decode.field (routeWord (some r)) 31 1).toNat = 0 := by rw [h0]; rfl
      rw [routeWord, field_natWord _ _ _ h] at this
      omega
    rw [presetEntry, if_neg f, routeOfWord_routeWord]; rfl

/-- A vector of sixteen, written out. -/
theorem vector_sixteen {α} (t : Vector α 16) : t = #v[t[0],t[1],t[2],t[3],t[4],t[5],t[6],t[7],t[8],t[9],t[10],t[11],t[12],t[13],t[14],t[15]] := by
  ext i hi
  interval_cases i <;> rfl

/-- A class code reads back as its class. -/
theorem classOfCode_code (c : EventClass) : classOfCode c.code = some c := by cases c <;> rfl

/-- A class code is a byte. -/
theorem eventClass_code_lt (c : EventClass) : c.code < 256 := by cases c <;> decide

/-- Four classes read from the four bytes of a word. -/
theorem classesOfWord_of {w : Word32} {a b c d : EventClass} (h1 : (Decode.field w 24 8).toNat = a.code)
    (h2 : (Decode.field w 16 8).toNat = b.code) (h3 : (Decode.field w 8 8).toNat = c.code) (h4 : (Decode.field w 0 8).toNat = d.code) :
    classesOfWord w = some [a, b, c, d] := by
  unfold classesOfWord
  rw [h1, h2, h3, h4]
  simp only [classOfCode_code]

/-- Four classes' word reads back as those classes (R171). -/
theorem classesOfWord_bytes (a b c d : EventClass) : classesOfWord (bytesWord a.code b.code c.code d.code) = some [a, b, c, d] :=
  let h := field_bytesWord a.code b.code c.code d.code (eventClass_code_lt a) (eventClass_code_lt b) (eventClass_code_lt c) (eventClass_code_lt d)
  classesOfWord_of h.1 h.2.1 h.2.2.1 h.2.2.2

/-- The class table's words read back as the classes (R171). -/
theorem classesOfWords_classWords : ∀ l : List EventClass, l.length % 4 = 0 → classesOfWords (classWords l) = some l
  | [], _ => rfl
  | [_], h => by simp at h
  | [_, _], h => by simp at h
  | [_, _, _], h => by simp at h
  | a :: b :: c :: d :: rest, h => by
    have : rest.length % 4 = 0 := by simp at h; omega
    simp [classWords, classesOfWords, classesOfWord_bytes, classesOfWords_classWords rest this]

/-- The boot preset read back from its word (R171). -/
theorem bootPresetOf_bootWord (b : Option (Fin 8)) (m : PartitionMode) : bootPresetOf (Decode.field (bootWord b m) 8 8) = some b := by
  cases b with
  | none => cases m <;> rfl
  | some b => cases m <;> revert b <;> decide

/-- The partition mode read back from its word (R171). -/
theorem modeOfCode_bootWord (b : Option (Fin 8)) (m : PartitionMode) : modeOfCode (Decode.field (bootWord b m) 0 8).toNat = some m := by
  cases b with
  | none => cases m <;> rfl
  | some b => cases m <;> revert b <;> decide

/-- A vector rebuilt from its list. -/
theorem ofFn_getD (v : Vector EventClass 32) : Vector.ofFn (fun i : Fin 32 => v.toList.getD i.val .ignore) = v := by
  ext i hi
  simp

/-- A slot number below eight names its slot. -/
theorem indexBelow_eight (i : Fin 8) : indexBelow 8 (BitVec.ofNat 16 i.val).toNat = some i :=
  (by decide : ∀ i : Fin 8, indexBelow 8 (BitVec.ofNat 16 i.val).toNat = some i) i

/-- A record that names slot `i` works on slot `i`. -/
theorem onSlot_slot (i : Fin 8) (w : Fin 8 → State × Answer) (s : State) : onSlot (BitVec.ofNat 16 i.val) w s = w i := by
  unfold onSlot; rw [indexBelow_eight]

/-- An index below sixteen names its entry. -/
theorem indexBelow_sixteen (i : Fin 16) : indexBelow 16 (BitVec.ofNat 16 i.val).toNat = some i :=
  (by decide : ∀ i : Fin 16, indexBelow 16 (BitVec.ofNat 16 i.val).toNat = some i) i

/-- A number below four names its lane. -/
theorem indexBelow_four (i : Fin 4) : indexBelow 4 (BitVec.ofNat 16 i.val).toNat = some i :=
  (by decide : ∀ i : Fin 4, indexBelow 4 (BitVec.ofNat 16 i.val).toNat = some i) i

/-- A format byte reads back as rate, channels and width (R168). -/
theorem formatOf_formatByte (c : Context) : formatOf (BitVec.ofNat 8 c.formatByte) = some (c.rate, c.channels, c.width) := by
  cases c with | mk id r ch w p n t l => cases r <;> cases ch <;> cases w <;> simp [Context.formatByte, Rate.code, Width.code, Channels.count, formatOf, rateOfCode, channelsOfCode, widthOfCode]

/-- A trim in range reads back from its word (R46). -/
theorem trimOf_signedWord (v : Int) (h : -2457600 ≤ v ∧ v ≤ 2457600) : trimOf (signedWord v) = some v := by
  have : (signedWord v).toInt = v := by
    rw [signedWord, BitVec.toInt_ofInt]; exact Int.bmod_eq_of_le (by omega) (by omega)
  unfold trimOf signedIn; rw [this, if_pos h]

/-- A context in range reads back from the fields of its OPEN record (R37). -/
theorem openContext_of_inRange (c : Context) (h : contextInRange c) : openContext c.streamId (BitVec.ofNat 8 c.formatByte) (BitVec.ofNat 8 c.priority.val) (BitVec.ofNat 8 c.ringSize) (signedWord c.trim) (BitVec.ofNat 16 c.starveLimit) = some c := by
  obtain ⟨h1, h2, h3⟩ := h
  unfold openContext
  have e1 : indexBelow 4 (BitVec.ofNat 8 c.priority.val).toNat = some c.priority := (by decide : ∀ i : Fin 4, indexBelow 4 (BitVec.ofNat 8 i.val).toNat = some i) _
  have e2 : (BitVec.ofNat 8 c.ringSize).toNat = c.ringSize := by rw [BitVec.toNat_ofNat]; omega
  have e3 : (BitVec.ofNat 16 c.starveLimit).toNat = c.starveLimit := by rw [BitVec.toNat_ofNat]; omega
  rw [formatOf_formatByte, e1, e2, e3, trimOf_signedWord _ h2]
  simp [natIn, h1, h3]

/-- A cue id in the argument field is within range. -/
theorem indexBelow_cueId (id : BitVec 8) : indexBelow 256 (id.setWidth 16).toNat = some ⟨id.toNat, id.isLt⟩ := by
  have : (id.setWidth 16).toNat = id.toNat := by have := id.isLt; simp; omega
  unfold indexBelow; simp only [this]; rw [dif_pos id.isLt]

/-- A cue id read back from the argument field. -/
theorem cueId_setWidth (id : BitVec 8) : (id.setWidth 16).setWidth 8 = id := by
  apply BitVec.eq_of_toNat_eq; simp

/-- Where an entry joins the cue table (R125). -/
theorem insertCue_split (x : Cue) : ∀ l : List Cue, ∃ b a, l = b ++ a ∧ insertCue x l = b ++ x :: a ∧ (∀ c ∈ b, Machine.sdiff c.fireTime x.fireTime ≤ 0) ∧ (∀ c, a.head? = some c → 0 < Machine.sdiff c.fireTime x.fireTime)
  | [] => ⟨[], [], rfl, rfl, by simp, by simp⟩
  | c :: cs => by
    by_cases h : 0 < Machine.sdiff c.fireTime x.fireTime
    · exact ⟨[], c :: cs, rfl, by simp [insertCue, h], by simp, by simpa using h⟩
    · obtain ⟨b, a, h1, h2, h3, h4⟩ := insertCue_split x cs
      refine ⟨c :: b, a, by simp [h1], by simp [insertCue, h, h2], ?_, h4⟩
      intro d hd
      rcases List.mem_cons.1 hd with rfl | hd
      · omega
      · exact h3 d hd

end Sys2Proof.Machine
end

