-- ==== Sys2Proof/Laws/Render.lean ====
section
/-! SUPPORT. The Playout Queues', the Renderer's, the Lane Mixer's and the Cue Unit's work: what it keeps (chapters 4 to 7). -/

set_option Elab.async false

namespace Sys2Proof.Machine

/-! ## The Renderer (chapter 5) -/

/-- A slot's context read through its due time is present. -/
theorem dueOf_context {s : State} {i : Fin 8} {lc : Time} {x : Context × Time × Time} (h : dueOf s i lc = some x) :
    (s.slot i).context = some x.1 := by
  unfold dueOf at h
  split at h
  · next c o hc ho =>
    cases hd : dueTime s c lc with
    | none => simp [hd] at h
    | some d => simp only [hd, Option.map_some, Option.some.injEq] at h; subst h; exact hc
  · cases h

/-- Contributions written. -/
theorem Inner.setContributions (s : State) (v : Vector Contribution 8) : Inner s { s with contributions := v } := {}

/-- The cut for the span limit of a slot that has a context (R95, R105). -/
theorem inner_spanCut (i : Fin 8) (s : State) (h : (s.slot i).context ≠ none) : Inner s (spanCut i s) :=
  (inner_cutSlot i s (.inr h)).trans (inner_offerSlot _ _ _ _)

/-- The late discard (R90). -/
theorem inner_lateDiscard (i : Fin 8) (due : Int) (s : State) : Inner s (lateDiscard i due s) :=
  (Inner.setSlot_of s i { s.slot i with queue := keptRecords (s.slot i).queue due } rfl rfl Iff.rfl
    fun _ h => slotQueueSound_kept h due).trans (inner_offerEach _ _ _ _)

/-- The late discard leaves the context (R90). -/
theorem lateDiscard_context (i : Fin 8) (due : Int) (s : State) : ((lateDiscard i due s).slot i).context = (s.slot i).context := by
  obtain ⟨st, r, p, q, h⟩ := offerEach_slot .chunkLate i
    ((passedRecords (s.slot i).queue due).map (fun r => r.sequence.setWidth 32))
    (s.setSlot i { s.slot i with queue := keptRecords (s.slot i).queue due })
  unfold lateDiscard
  dsimp only
  rw [h, slot_setSlot, if_pos rfl]

/-- The start of a PRIMING stream (R96). -/
theorem inner_startStream (i : Fin 8) (c : Context) (p : Int) (s : State) (h : (s.slot i).state = .priming)
    (hc : (s.slot i).context = some c) : Inner s (startStream i c p s) :=
  (Inner.setSlot_of s i { s.slot i with
      state := .playing, readPos := some (p * 4096), queue := rebase c (baseOf (s.slot i)) (floorF (p * 4096)) (s.slot i).queue,
      step := nominalStep c.rate s.output.rate + clockTerm (nominalStep c.rate s.output.rate) s.clock.epsilon,
      phase := 0, starveCount := 0 } rfl rfl (by simp [h])
    fun hd hq => slotQueueSound_rebased hq hc hc rfl rfl (step_nonneg _ _ _ 0 hd.1).1).trans (inner_offerSlot _ _ _ _)

/-- A PRIMING stream's work (R95, R96). -/
theorem inner_primeOn (i : Fin 8) (c : Context) (o d : Time) (s : State) (hc : (s.slot i).context = some c) :
    Inner s (primeOn i c o d s) := by
  unfold primeOn
  dsimp only
  split
  · next h =>
    refine (inner_lateDiscard i _ s).trans (inner_startStream i c _ _ ?_ ((lateDiscard_context i _ s).trans hc))
    simp only [startGate, Bool.and_eq_true, decide_eq_true_eq] at h
    exact h.1.1
  · exact inner_lateDiscard i _ s

theorem inner_primingWork (i : Fin 8) (s : State) : Inner s (primingWork i s) := by
  unfold primingWork
  split
  · exact Inner.refl s
  · next h =>
    split
    · exact inner_spanCut i s (by rw [dueOf_context h]; simp)
    · exact inner_primeOn _ _ _ _ _ (dueOf_context h)

/-- STREAM_STARVED from PLAYING (R106). -/
theorem inner_starveStream (i : Fin 8) (s : State) (h : (s.slot i).state = .playing) : Inner s (starveStream i s) :=
  (Inner.setSlot_of s i { s.slot i with state := .starved } rfl rfl (by simp [h])).trans (inner_offerSlot _ _ _ _)

/-- STREAM_RESUMED from STARVED (R107). -/
theorem inner_resumeStream (i : Fin 8) (s : State) (h : (s.slot i).state = .starved) : Inner s (resumeStream i s) :=
  (Inner.setSlot_of s i { s.slot i with state := .playing, starveCount := 0 } rfl rfl (by simp [h])).trans (inner_offerSlot _ _ _ _)

/-- A drain completion (R109). -/
theorem inner_drainStream (i : Fin 8) (s : State) : Inner s (drainStream i s) :=
  (inner_releaseSlot i s).trans (inner_offerSlot _ _ _ _)

/-- The moves before a value is formed (R95 to R97). -/
theorem inner_moveSlot (i : Fin 8) (s : State) : Inner s (moveSlot i s) := by
  unfold moveSlot
  split
  · exact inner_primingWork i s
  · next h => split; exact inner_starveStream i s h; exact Inner.refl s
  · next h => split; exact inner_resumeStream i s h; exact Inner.refl s
  · split; exact inner_drainStream i s; exact Inner.refl s
  all_goals exact Inner.refl s

/-- The advance (R100, R88). -/
theorem inner_advanceSlot (i : Fin 8) (f : Int) (s : State) (hf : (s.slot i).readPos = some f) : Inner s (advanceSlot i f s) :=
  (Inner.setSlot_of s i { s.slot i with
      readPos := some (f + (s.slot i).step), queue := retireTo (floorF (f + (s.slot i).step)) (s.slot i).queue,
      phase := ((s.slot i).phase + 1) % 64, correctionDue := decide (((s.slot i).phase + 1) % 64 = 0) } rfl rfl Iff.rfl
    fun _ h => slotQueueSound_advanced h hf _ _).trans (inner_offerEach _ _ _ _)

theorem inner_countStarved (i : Fin 8) (w : Bool) (s : State) : Inner s (countStarved i w s) := by
  unfold countStarved
  split
  · exact Inner.setSlot_of s i _ rfl rfl Iff.rfl
  · exact Inner.refl s

theorem inner_playSlot (i : Fin 8) (w : Bool) (s : State) : Inner s (playSlot i w s) := by
  unfold playSlot
  split
  all_goals first
    | exact Inner.refl s
    | next hf => exact (inner_advanceSlot i _ s hf).trans (inner_countStarved i w _)

/-- The Renderer's work for one slot (R92). -/
theorem inner_renderSlot (i : Fin 8) (s : State) : Inner s (renderSlot i s) :=
  ((inner_moveSlot i s).trans (inner_playSlot i _ _)).trans (Inner.setContributions _ _)

/-- A cut for the starve limit, of a slot that is STARVED (R108). -/
theorem inner_starveCut (i : Fin 8) (s : State) (h : (s.slot i).state = .starved) : Inner s (starveCut i s) :=
  (inner_cutSlot i s (.inl (by simp [h]))).trans (inner_offerSlot _ _ _ _)

/-- A slot whose starve limit is reached is STARVED. -/
theorem starved_of_starveSpent {s : State} {i : Fin 8} (h : starveSpent s i = true) : (s.slot i).state = .starved := by
  simp only [starveSpent, Bool.and_eq_true, decide_eq_true_eq] at h
  exact h.1

/-- A realign (R103, R104). -/
theorem inner_realignStream (i : Fin 8) (c : Context) (d : Time) (p e : Int) (s : State) (hc : (s.slot i).context = some c) :
    Inner s (realignStream i c d p e s) := by
  have h := (Inner.setSlot_of s i { s.slot i with
      readPos := some (p * 4096), queue := rebase c (baseOf (s.slot i)) (floorF (p * 4096)) (s.slot i).queue,
      step := nominalStep c.rate s.output.rate + clockTerm (nominalStep c.rate s.output.rate) s.clock.epsilon,
      realigns := joinHistory (s.slot i).realigns d } rfl rfl Iff.rfl
    fun hd hq => slotQueueSound_rebased hq hc hc rfl rfl (step_nonneg _ _ _ 0 hd.1).1).trans
    (inner_offerSlot .realign i (clamp32 e) _)
  unfold realignStream
  dsimp only
  split
  · exact h
  · exact h.trans (inner_offerSlot _ _ _ _)

theorem inner_steer (i : Fin 8) (c : Context) (o d : Time) (f : Int) (s : State) (hc : (s.slot i).context = some c) :
    Inner s (steer i c o d f s) := by
  unfold steer
  dsimp only
  split
  · exact inner_realignStream _ _ _ _ _ _ hc
  · exact Inner.setSlot_of s i _ rfl rfl Iff.rfl fun hd hq => ⟨(step_nonneg _ _ _ _ hd.1).2, hq.2⟩

theorem inner_correctionMade (i : Fin 8) (s : State) : Inner s (s.correctionMade i) :=
  Inner.setSlot_of s i _ rfl rfl Iff.rfl

/-- A stream that has outlived the span limit at its correction point has a context. -/
theorem context_of_correctionSpent {s : State} {i : Fin 8} (h : correctionSpent s i = true) : (s.slot i).context ≠ none := by
  simp only [correctionSpent, Bool.and_eq_true] at h
  have h2 := h.2
  split at h2
  · cases h2
  · next hd => rw [dueOf_context hd]; simp

/-- A PRIMING stream that has outlived the span limit has a context. -/
theorem context_of_primingSpent {s : State} {i : Fin 8} (h : primingSpent s i = true) : (s.slot i).context ≠ none := by
  simp only [primingSpent, Bool.and_eq_true] at h
  have h2 := h.2
  split at h2
  · cases h2
  · next hd => rw [dueOf_context hd]; simp

/-- A correction point (R101). -/
theorem inner_correctSlot (i : Fin 8) (s : State) : Inner s (correctSlot i s) := by
  unfold correctSlot
  split
  · next h => exact inner_spanCut i s (context_of_correctionSpent h)
  · split
    · next hd _ => exact (inner_correctionMade i s).trans (inner_steer _ _ _ _ _ _ (by simpa [State.correctionMade] using dueOf_context hd))
    · exact inner_correctionMade i s

/-- What is owed to a slot after its advance (R100). -/
theorem inner_settleSlot (i : Fin 8) (s : State) : Inner s (settleSlot i s) := by
  have h1 : Inner s (if starveSpent s i then (starveCut i s).noteState i else s) := by
    split
    · next h => exact (inner_starveCut i s (starved_of_starveSpent h)).trans (Inner.setContributions _ _)
    · exact Inner.refl s
  unfold settleSlot
  dsimp only
  generalize (if starveSpent s i then (starveCut i s).noteState i else s) = s1 at h1
  split
  · exact (h1.trans (inner_correctSlot i _)).trans (Inner.setContributions _ _)
  · exact h1

theorem inner_settleAll (s : State) : Inner s (settleAll s) :=
  Inner.foldl (fun acc i => settleSlot i acc) (fun s i => inner_settleSlot i s) (List.finRange 8) s

/-! ## The Lane Mixer (chapter 6) -/

/-- The duck gain moved stays within 0..16,384 (R120). -/
theorem moveGain_le (g t : Nat) (hg : g ≤ 16384) (ht : t ≤ 16384) : moveGain g t ≤ 16384 := by
  unfold moveGain
  split
  · omega
  · split <;> omega

/-- The duck target is 16,384 or the lane's level (R119). -/
theorem duckTarget_le (s : State) (l : Fin 4) (h : (s.lanes[l.val]).level ≤ 16384) : duckTarget s l ≤ 16384 := by
  unfold duckTarget
  split
  · split
    · omega
    · split
      · exact h
      · omega
  · omega

/-- A lane in place of another, its level and gain in range. -/
theorem Inner.setLane (s : State) (l : Fin 4) (x : Lane)
    (h : (s.lanes[l.val]).gain ≤ 16384 ∧ (s.lanes[l.val]).level ≤ 16384 → x.gain ≤ 16384 ∧ x.level ≤ 16384) :
    Inner s (s.setLane l x) := by
  refine { lanes := fun hs => ⟨fun m => ?_, hs.2⟩ }
  simp only [State.setLane_lanes, Vector.getElem_set]
  split
  · exact h (hs.1 l)
  · exact hs.1 m

/-- Setting a lane's duck level (R121, R127). -/
theorem inner_setDuckLevel (l : Fin 4) (v : Nat) (s : State) (hv : v ≤ 16384) : Inner s (setDuckLevel l v s) :=
  Inner.setLane s l _ fun h => ⟨h.1, hv⟩

/-- The mix (R114, R122). -/
theorem inner_mixLanes (s : State) : Inner s (mixLanes s) := by
  refine { lanes := fun hs => ⟨fun m => ?_, hs.2⟩ }
  have h : ∀ l : Fin 4, (mixedLane s l).gain ≤ 16384 ∧ (mixedLane s l).level ≤ 16384 := fun l =>
    ⟨moveGain_le _ _ (hs.1 l).1 (duckTarget_le s l (hs.1 l).2), (hs.1 l).2⟩
  fin_cases m <;> exact h _

theorem inner_finishMix (s : State) : Inner s (finishMix s) := (inner_settleAll s).trans (inner_mixLanes _)

/-- The route table replaced by one without like entries. -/
theorem Inner.setRoutes (s : State) (t : RouteTable) (h : tablesSound s → RoutesDistinct t) : Inner s { s with routes := t } :=
  { tables := fun hs => ⟨hs.1, hs.2.1, h hs⟩ }

/-! ## The Cue Unit (chapter 7) -/

theorem Inner.setPass (s : State) (p : Option CuePass) : Inner s { s with cuePass := p } := {}

theorem inner_openPass (s : State) : Inner s s.openPass := Inner.setPass s _

/-- A cue's action applied, but for a RECALL's (R126 to R128). A CUT cue that is not void finds its slot open. -/
theorem inner_applyCue (a : CueAction) (s : State) (hv : cueVoid a s = false) (hr : ∀ p, a ≠ .recall p)
    (hd : ∀ l v, a = .duck l v → v ≤ 16384) : Inner s (applyCue a s) := by
  match a, hv, hr, hd with
  | .cut i, hv, _, _ =>
    simp only [cueVoid, decide_eq_false_iff_not, not_or] at hv
    exact inner_cutSlot i s (.inl hv.1)
  | .ending i, _, _, _ => exact inner_endSlot i s
  | .gain e g, _, _, _ => exact Inner.setRoutes s _ fun h => h.2.2.setGain e g
  | .duck l v, _, _, hd => exact inner_setDuckLevel l v s (hd l v rfl)
  | .recall p, _, hr, _ => exact absurd rfl (hr p)
  | .mute b, _, _, _ => exact {}
  | .mark m, _, _, _ => exact {}

/-- A held entry removed, a RECALL's staged table released with it, the pass gone on with (R129, R133). -/
theorem Inner.removeCue (s : State) (c : Cue) (p : Option CuePass) (hc : c ∈ s.cues) :
    Inner s { s with cues := withoutId c.id s.cues, staged := if c.isRecall then .free else s.staged, cuePass := p } :=
  { cues := fun h => (withoutId_length _).trans h
    tables := fun h => ⟨withoutId_nodup h.1, stagedSound_withoutId h.1 h.2.1 hc rfl rfl, h.2.2⟩
    lanes := fun h => ⟨h.1, fun d hd => h.2 d (mem_withoutId.1 hd).1⟩ }

/-- A firing (R129): the entry is held, and a RECALL's staged table is READY. -/
theorem inner_fireCue (a : Time) (c : Cue) (rest : List (BitVec 8)) (s : State) (hc : c ∈ s.cues)
    (hr : c.isRecall = true → s.stagedReady = true) : Inner s (fireCue a c rest s) := by
  have h2 : Inner s (if cueVoid c.action { s with cues := withoutId c.id s.cues, cuePass := some { acoustic := a, due := rest } }
      then { s with cues := withoutId c.id s.cues, cuePass := some { acoustic := a, due := rest } }
      else applyCue c.action { s with cues := withoutId c.id s.cues, cuePass := some { acoustic := a, due := rest } }) := by
    have h0 := Inner.removeCue s c (some { acoustic := a, due := rest }) hc
    by_cases hrec : c.isRecall = true
    · obtain ⟨p, hp⟩ : ∃ p, c.action = .recall p := by
        cases hact : c.action <;> simp [Cue.isRecall, hact] at hrec ⊢
      obtain ⟨t, ht⟩ : ∃ t, s.staged = .ready t := by
        have := hr hrec
        unfold State.stagedReady at this
        split at this
        · next t ht => exact ⟨t, ht⟩
        all_goals cases this
      rw [hrec] at h0
      simp only [hp, cueVoid, Bool.false_eq_true, if_false, applyCue, ht]
      exact { cues := h0.cues, lanes := h0.lanes, tables := fun h => ⟨(h0.tables h).1, (h0.tables h).2.1, h.2.1.2.2 t ht⟩ }
    · have hrec' : c.isRecall = false := by simpa using hrec
      rw [hrec'] at h0
      have h1 : Inner s { s with cues := withoutId c.id s.cues, cuePass := some { acoustic := a, due := rest } } := h0
      split
      · exact h1
      · next hv =>
        have hv' : cueVoid c.action { s with cues := withoutId c.id s.cues, cuePass := some { acoustic := a, due := rest } } = false := by
          simpa using hv
        have hnr : ∀ p, c.action ≠ .recall p := fun p hp => by simp [Cue.isRecall, hp] at hrec'
        by_cases hd : ∀ l v, c.action = .duck l v → v ≤ 16384
        · exact h1.trans (inner_applyCue c.action _ hv' hnr hd)
        · push Not at hd
          obtain ⟨l, v, ha, hlt⟩ := hd
          have hbad : ¬ lanesSound s := fun hs => by
            have := hs.2 c hc
            simp only [Cue.levelSound, ha] at this
            omega
          rw [ha]
          exact { cues := h1.cues, tables := h1.tables, lanes := fun hs => absurd hs hbad }
  unfold fireCue
  dsimp only
  generalize (if cueVoid c.action { s with cues := withoutId c.id s.cues, cuePass := some { acoustic := a, due := rest } }
      then { s with cues := withoutId c.id s.cues, cuePass := some { acoustic := a, due := rest } }
      else applyCue c.action { s with cues := withoutId c.id s.cues, cuePass := some { acoustic := a, due := rest } }) = s2 at h2
  refine Inner.trans ?_ (inner_offerCue _ _ _ _)
  split
  · exact h2.trans (inner_offerCue _ _ _ _)
  · exact h2

/-- What the next firing finds. -/
theorem nextCue_mem {s : State} {a : Time} {c : Cue} {rest : List (BitVec 8)} (h : s.nextCue = some (a, c, rest)) :
    c ∈ s.cues ∧ (c.isRecall = true → s.stagedReady = true) := by
  unfold State.nextCue at h
  split at h
  · cases h
  · next p _ =>
    cases hf : nextFiring s.cues s.stagedReady p.due with
    | none => simp [hf] at h
    | some y =>
      simp only [hf, Option.map_some, Option.some.injEq, Prod.mk.injEq] at h
      obtain ⟨_, rfl, rfl⟩ := h
      exact nextFiring_mem hf

/-- One firing of a pass (R129). -/
theorem inner_cueStep (s : State) : Inner s (cueStep s) := by
  unfold cueStep
  split
  · exact Inner.refl s
  · next h => exact inner_fireCue _ _ _ s (nextCue_mem h).1 (nextCue_mem h).2

theorem inner_cueSteps (n : Nat) (s : State) : Inner s (cueSteps n s) := by
  induction n generalizing s with
  | zero => exact Inner.refl s
  | succ n ih =>
    simp only [cueSteps]
    split
    · exact Inner.refl s
    · exact (inner_cueStep s).trans (ih _)

/-! ## The strobe (R113, R156) -/

/-- The strobe noted as worked, its mix owed, its pass open. -/
theorem Inner.setStrobed (s : State) (n : Option Time) (p : Option CuePass) :
    Inner s { s with strobed := n, mixDue := true, cuePass := p } := {}

theorem inner_renderAll (s : State) : Inner s (renderAll s) := by
  have h := Inner.foldl (fun acc i => renderSlot i acc) (fun s i => inner_renderSlot i s) (List.finRange 8) s
  unfold renderAll
  dsimp only
  generalize (List.finRange 8).foldl (fun acc i => renderSlot i acc) s = s1 at h
  exact h.trans (Inner.setStrobed s1 _ _)

theorem inner_finishStrobe (s : State) : Inner s (finishStrobe s) := by
  have h1 : Inner s (if s.strobeBegun then renderAll s else s) := by
    split
    · exact inner_renderAll s
    · exact Inner.refl s
  unfold finishStrobe
  dsimp only
  generalize (if s.strobeBegun then renderAll s else s) = s1 at h1
  refine h1.trans ?_
  split
  · exact (inner_finishMix _).trans (inner_cueSteps _ _)
  · exact inner_cueSteps _ _

end Sys2Proof.Machine
end

