-- ==== Sys2Proof/Laws/Flash.lean ====
section
/-! SUPPORT. The Image Port's work, start-up and the resets: what they keep (chapter 10). -/

set_option Elab.async false

namespace Sys2Proof.Machine

/-! ## The Image Port -/

/-- The Image Port in a state other than start-up's image read. -/
theorem Inner.withPort (s : State) (p : Port) (ops : List FlashOp)
    (h : (∃ ph, p = .startImage ph) → ∃ ph, s.port = .startImage ph) : Inner s (s.withPort p ops) :=
  { port := h }

/-- A preset read asked for (R165, R166). -/
theorem inner_requestRead {r : PresetRead} {s t : State} (h : requestRead r s = some t) : Inner s t := by
  unfold requestRead at h
  split at h <;> first
    | cases h; exact Inner.withPort s _ _ (by simp)
    | cases h

/-- A preset read asked for changes the Image Port alone. -/
theorem requestRead_frame {r : PresetRead} {s t : State} (h : requestRead r s = some t) :
    t = { s with port := t.port, flashOut := t.flashOut } := by
  unfold requestRead at h
  split at h <;> first
    | cases h; rfl
    | cases h

theorem inner_beginWrite (j : WriteJob) (ws : List Word32) (s : State) : Inner s (beginWrite j ws s) :=
  Inner.withPort s _ _ (by simp)

theorem inner_stepWrite (w : SectorWrite) (s : State) : Inner s (stepWrite w s) := Inner.withPort s _ _ (by simp)

theorem inner_pollWrite (w : SectorWrite) (b u : Bool) (s : State) : Inner s (pollWrite w b u s) := by
  unfold pollWrite
  split
  · split
    · split <;> exact inner_stepWrite _ s
    · split <;> exact inner_stepWrite _ s
    all_goals exact inner_stepWrite _ s
  · exact Inner.withPort s _ _ (by simp)

theorem inner_pollSuspended (w : SectorWrite) (el : Int) (is : Bool) (r : PresetRead) (ph : SuspendPhase) (b : Bool) (s : State) :
    Inner s (pollSuspended w el is r ph b s) := by
  unfold pollSuspended
  split
  · exact Inner.refl s
  · split <;> exact Inner.withPort s _ _ (by simp)
  · split <;> exact Inner.withPort s _ _ (by simp)

/-- A status-poll's report (R158). -/
theorem inner_statusPollStep (b u : Bool) (s : State) : Inner s (statusPollStep b u s) := by
  unfold statusPollStep
  split
  · next h =>
    have hp : ∀ q : Port, (∃ ph, q = .startImage ph) → ∃ ph, s.port = .startImage ph := fun _ _ => ⟨_, h⟩
    split
    · exact Inner.withPort s _ _ (hp _)
    · split <;> exact Inner.withPort s _ _ (hp _)
  · split
    · exact Inner.withPort s _ _ (by simp)
    · exact Inner.withPort s _ _ id
  · split
    · exact Inner.withPort s _ _ (by simp)
    · exact Inner.withPort s _ _ id
  · exact inner_pollWrite _ _ _ _
  · exact inner_pollSuspended _ _ _ _ _ _ _
  all_goals exact Inner.refl s

/-- The end of a preset read at its requester, a good preset being without like entries (R117, R135). -/
theorem inner_readEnd (r : PresetRead) (o : PresetOutcome) (s : State) (h : ∀ t, o = .good t → RoutesDistinct t) :
    Inner s (readEnd r o s) := by
  unfold readEnd liveReadEnd stagedReadEnd
  split
  · split
    · next t => exact Inner.setRoutes s t fun _ => h t rfl
    · exact Inner.refl s
  · split
    · next t hf => exact { tables := fun hs => ⟨hs.1, stagedSound_ready hs.2.1 hf (h t rfl) rfl rfl, hs.2.2⟩ }
    · exact
        { cues := fun hs => (List.length_filter_le _ _).trans hs
          tables := fun hs => ⟨hs.1.sublist (List.filter_sublist.map _), stagedSound_dropped rfl rfl, hs.2.2⟩
          lanes := fun hs => ⟨hs.1, fun c hc => hs.2 c (List.mem_of_mem_filter hc)⟩ }
    all_goals exact Inner.refl s

theorem inner_readEvent (r : PresetRead) (o : PresetOutcome) (s : State) : Inner s (readEvent r o s) := by
  unfold readEvent; split <;> exact inner_offerPart _ _ _

theorem inner_resumeWrite (w : SectorWrite) (el : Int) (is : Bool) (s : State) : Inner s (resumeWrite w el is s) := by
  unfold resumeWrite; split <;> exact Inner.withPort s _ _ (by simp)

theorem inner_failRead (r : PresetRead) (s : State) : Inner s (failRead r s) :=
  (inner_readEnd _ _ s fun _ h => by cases h).trans (inner_offerPart _ _ _)

theorem inner_failWrite (j : WriteJob) (c : Cause) (s : State) : Inner s (failWrite j c s) := inner_offerPart _ _ s

/-! ## Start-up and the resets -/

/-- The end of start-up (R161). -/
theorem keeps_finishStartup (b : BootOutcome) (s : State) : Keeps s (finishStartup b s) := by
  have h := inner_offerPart .imageStatus (imageStatusDetail s b) s
  unfold finishStartup
  generalize offerPart .imageStatus (imageStatusDetail s b) s = t at h
  refine h.keeps.trans { rings := fun hr => ⟨blocksSound_congr rfl rfl hr.1, ?_, ?_⟩ }
  · intro ph hp; cases hp
  · intro hr; cases hr

theorem keeps_defaulted (c : Cause) (s : State) : Keeps s (defaulted c s) := by
  have h : Inner s { s with imageStatus := .defaulted, defaultCause := some c } := {}
  exact h.keeps.trans (keeps_finishStartup _ _)

/-- A good image's drift and settings are in range (R159, R4). -/
theorem imageOf_range {ws : Vector Word32 23} {x : Image} (h : imageOf ws = some x) :
    ((1 ≤ x.settings.holdoverLimit ∧ x.settings.holdoverLimit ≤ 600) ∧ (246 ≤ x.settings.gate ∧ x.settings.gate ≤ 245760) ∧
      (25 ≤ x.settings.window ∧ x.settings.window ≤ 24576)) ∧
    (-Config.driftLimit ≤ x.nominalDrift ∧ x.nominalDrift ≤ Config.driftLimit) := by
  unfold imageOf at h
  split at h
  · next cs nd out bp m cl h1 h2 _ _ _ _ =>
    split at h
    · cases h
    · cases h
      refine ⟨clockSettingsOf_range h1, ?_⟩
      unfold signedIn at h2
      simp only [Option.ite_none_right_eq_some, Option.some.injEq] at h2
      obtain ⟨h2, rfl⟩ := h2
      exact h2
  · cases h

theorem judgeImage_range {ws : Vector Word32 23} {x : Image} (h : judgeImage ws = .good x) :
    ((1 ≤ x.settings.holdoverLimit ∧ x.settings.holdoverLimit ≤ 600) ∧ (246 ≤ x.settings.gate ∧ x.settings.gate ≤ 245760) ∧
      (25 ≤ x.settings.window ∧ x.settings.window ≤ 24576)) ∧
    (-Config.driftLimit ≤ x.nominalDrift ∧ x.nominalDrift ≤ Config.driftLimit) := by
  unfold judgeImage at h
  split at h
  · cases h
  · split at h
    · cases h
    · split at h
      · cases h
      · split at h
        · cases h
        · split at h
          · cases h
          · next hi => cases h; exact imageOf_range hi

/-- A good image taken by a part whose start-up is reading it (R160). -/
theorem keeps_takeImage (x : Image) (s : State) {ph : ReadPhase} (hp : s.port = .startImage ph)
    (hx : (1 ≤ x.settings.holdoverLimit ∧ x.settings.holdoverLimit ≤ 600) ∧ (246 ≤ x.settings.gate ∧ x.settings.gate ≤ 245760) ∧
      (25 ≤ x.settings.window ∧ x.settings.window ≤ 24576))
    (hd : -Config.driftLimit ≤ x.nominalDrift ∧ x.nominalDrift ≤ Config.driftLimit) : Keeps s (takeImage x s) := by
  exact { drift := fun _ => ⟨hd, hd⟩, settings := fun _ => hx
          rings := fun hr => ⟨blocksSound_full (s := s) x.partition rfl rfl hr.1 (hr.2.2 (hr.2.1 ph hp)).2, hr.2⟩ }

theorem keeps_afterImage (s : State) : Keeps s (afterImage s) := by
  unfold afterImage
  split
  · exact keeps_finishStartup _ s
  · exact (Inner.withPort s _ _ (by simp)).keeps

/-- A flash wait's end by its bound (R158). -/
theorem keeps_waitTimeout (s : State) : Keeps s (waitTimeout s) := by
  have hi : Inner s (s.withPort .idle s.flashOut) := Inner.withPort s _ _ (by simp)
  unfold waitTimeout
  split
  · exact keeps_defaulted _ s
  · exact keeps_finishStartup _ s
  · exact (hi.trans (inner_failRead _ _)).keeps
  · exact (hi.trans (inner_failWrite _ _ _)).keeps
  · exact ((hi.trans (inner_failRead _ _)).trans (inner_failWrite _ _ _)).keeps
  · exact Keeps.refl s

/-- Blocks after a reset (R33, R49). -/
theorem blocksSound_reset : blocksSound State.reset := by
  have e : ∀ i, State.reset.slot i = Slot.closedWith 0 := by
    intro i; fin_cases i <;> rfl
  refine ⟨fun b => ?_, fun i => ?_⟩
  · have h := count_fullFreeLists .one b
    have h8 : ((List.finRange 8).map fun i => (State.reset.slot i).blocks.count b).sum = 0 := by simp [e, Slot.closedWith]
    rw [blockCount, h8]
    exact h
  · rw [e i]; simp [Slot.closedWith]

/-- A state whose slots and free lists are those of a reset, and which is STARTING with no frame in hand. -/
theorem ringsSound_of_reset {t : State} (hs : t.slots = State.reset.slots) (hf : t.freeLists = State.reset.freeLists)
    (hr : t.run = .starting) (hi : t.interp = none) : ringsSound t := by
  have e : ∀ i, (t.slot i).state = .closed := by
    intro i; rw [slot_congr hs]; fin_cases i <;> rfl
  exact ⟨blocksSound_congr hf hs blocksSound_reset, fun _ _ => hr, fun _ => ⟨hi, e⟩⟩

/-- Lanes after a reset (R124). -/
theorem lanesSound_reset {t : State} (hl : t.lanes = State.reset.lanes) (hc : t.cues = []) : lanesSound t := by
  refine ⟨fun l => ?_, by simp [hc]⟩
  rw [show t.lanes = Vector.replicate 4 Lane.reset from hl, Vector.getElem_replicate]
  simp [Lane.reset]

/-- Tables after a reset (R124, R136). -/
theorem tablesSound_reset {t : State} (hc : t.cues = []) (hs : t.staged = .free) (hr : t.routes = State.reset.routes) : tablesSound t := by
  refine ⟨by simp [hc], ⟨by simp [hc], by simp [hc, hs], fun x hx => by rw [hs] at hx; cases hx⟩, ?_⟩
  rw [hr]
  exact RoutesDistinct.empty

/-- Queues after a reset (R49, R74). -/
theorem queuesSound_reset {t : State} (hs : t.slots = State.reset.slots) : queuesSound t := by
  intro i
  rw [slot_congr hs]
  have : State.reset.slot i = Slot.closedWith 0 := by fin_cases i <;> rfl
  rw [this]
  exact slotQueueSound_closed 0

/-- A line reset (R160). -/
theorem keeps_lineReset (s : State) : Keeps s { State.reset with pending := s.pending } :=
  { memory := fun _ => rfl, reports := fun _ => by simp [reportsBounded, State.reset], cues := fun _ => by simp [cuesBounded, State.reset]
    tables := fun _ => tablesSound_reset rfl rfl rfl
    drift := fun _ => by simp [driftSound, State.reset, TimeBase.reset, Config.driftLimit]
    queues := fun _ _ => queuesSound_reset rfl
    settings := fun _ => by simp [settingsSound, State.reset, TimeBase.reset, ClockSettings.default]
    lanes := fun _ => lanesSound_reset rfl rfl, rings := fun _ => ringsSound_of_reset rfl rfl rfl rfl
    reply := fun _ => ⟨by simp [State.reset], by simp [State.reset]⟩
    bound := fun _ => ⟨by simp [State.reset], by simp [State.reset], by simp [State.reset]⟩ }

/-- A restart, with the reply buffer not RESERVED (R157). -/
theorem keeps_restarted (s : State) (h : replySound s → s.replyBuffer ≠ .reserved) : Keeps s (restarted s) :=
  { reports := fun _ => by simp [reportsBounded, restarted, State.reset], cues := fun _ => by simp [cuesBounded, restarted, State.reset]
    tables := fun _ => tablesSound_reset rfl rfl rfl
    drift := fun _ => by simp [driftSound, restarted, State.reset, TimeBase.reset, Config.driftLimit]
    queues := fun _ _ => queuesSound_reset rfl
    settings := fun _ => by simp [settingsSound, restarted, State.reset, TimeBase.reset, ClockSettings.default]
    lanes := fun _ => lanesSound_reset rfl rfl, rings := fun _ => ringsSound_of_reset rfl rfl rfl rfl
    reply := fun hr => ⟨by simp [restarted, State.reset, h hr], by simp [restarted, State.reset]⟩
    bound := fun hr => ⟨by simp [restarted, State.reset], hr.2.1, by simp [restarted, State.reset]⟩ }

/-- The route table replaced at start-up's end by a good boot preset (R161). -/
theorem keeps_bootRoutes {ws : Vector Word32 17} {t : RouteTable} (s : State) (h : judgePreset ws = .good t) :
    Keeps s { s with routes := t } := (Inner.setRoutes s t fun _ => judgePreset_distinct h).keeps

end Sys2Proof.Machine
end

