-- ==== Sys2Proof/Laws/Frames.lean ====
section
/-! SUPPORT. Audio frames: what the walk over the options answers, and the payload in the words of R61 to R63. -/

set_option Elab.async false

namespace Sys2Proof.Machine

/-- How often a known option type has been met. -/
def Options.met (o : Options) (k : Nat) : Nat :=
  match k with
  | 1 => if o.format.isSome then 1 else 0
  | 2 => if o.run then 1 else 0
  | 3 => if o.check.isSome then 1 else 0
  | 4 => if o.trace then 1 else 0
  | _ => 0

/-- What a list of options adds to those met before. -/
def Options.with (o : Options) (os : List (List Word32)) : Options :=
  { format := o.format.or ((os.find? fun x => decide (optionType x = 1)).map fun x => (x.getD 0 0).extractLsb' 0 8)
    run := o.run || os.any fun x => decide (optionType x = 2)
    check := o.check.or ((os.find? fun x => decide (optionType x = 3)).map fun x => (x.getD 1 0).extractLsb' 0 16)
    trace := o.trace || os.any fun x => decide (optionType x = 4) }

/-- The number of options of a type. -/
def typeCount (os : List (List Word32)) (k : Nat) : Nat := (os.filter fun x => decide (optionType x = k)).length

/-- The cases of an option's type. -/
theorem type_cases (n : Nat) : n = 1 ∨ n = 2 ∨ n = 3 ∨ n = 4 ∨ n = 0 ∨ 5 ≤ n := by omega

/-- An option that is taken, met by the step of the walk (R59, R60). -/
theorem takeOption_taken {cont : Bool} {h : Word32} {xt : List Word32} {second : Word32} {o : Options} (hx : optionTaken cont (h :: xt))
    (hm : ∀ k, 1 ≤ k → k ≤ 4 → optionType (h :: xt) = k → o.met k = 0) (hs : optionType (h :: xt) = 3 → second = (h :: xt).getD 1 0) :
    takeOption cont h second o = some (o.with [h :: xt]) := by
  obtain ⟨-, hl, h12, h3, h4, h5⟩ := hx
  have ht : optionType (h :: xt) = (Decode.field h 24 8).toNat := rfl
  have hl' : (Decode.field h 16 8).toNat = (h :: xt).length := hl
  have f1 : ∀ w : Word32, w.extractLsb' 0 8 = Decode.field w 0 8 := fun _ => rfl
  have f2 : ∀ w : Word32, w.extractLsb' 0 16 = Decode.field w 0 16 := fun _ => rfl
  unfold takeOption Options.with
  simp only [hl', f1, f2]
  rcases type_cases (optionType (h :: xt)) with e | e | e | e | e
  · obtain ⟨e1, e2⟩ := h12 (.inl e)
    have hm1 := hm 1 (by omega) (by omega) e
    have hf : o.format = none := by simpa [Options.met] using hm1
    simp [ht.symm.trans e, e, e1, e2, hf, List.find?]
  · obtain ⟨e1, e2⟩ := h12 (.inr e)
    have hm1 := hm 2 (by omega) (by omega) e
    have hf : o.run = false := by simpa [Options.met] using hm1
    simp [ht.symm.trans e, e, e1, e2, hf, List.find?]
  · have hm1 := hm 3 (by omega) (by omega) e
    have hf : o.check = none := by simpa [Options.met] using hm1
    have hs' := hs e
    simp [ht.symm.trans e, e, h3 e, hf, List.find?, hs']
  · have hm1 := hm 4 (by omega) (by omega) e
    have hf : o.trace = false := by simpa [Options.met] using hm1
    simp [ht.symm.trans e, e, h4 e, hf, List.find?]
  · have hsk : Decode.field h 8 1 = 1 := h5 e
    have n1 : optionType (h :: xt) ≠ 1 := by omega
    have n2 : optionType (h :: xt) ≠ 2 := by omega
    have n3 : optionType (h :: xt) ≠ 3 := by omega
    have n4 : optionType (h :: xt) ≠ 4 := by omega
    have m1 := fun x => n1 (ht.trans x)
    have m2 := fun x => n2 (ht.trans x)
    have m3 := fun x => n3 (ht.trans x)
    have m4 := fun x => n4 (ht.trans x)
    split
    · next x => exact absurd x m1
    · next x => exact absurd x m2
    · next x => exact absurd x m3
    · next x => exact absurd x m4
    · simp [hsk, List.find?, n1, n2, n3, n4]

/-- What a step of the walk that answers has found (R59, R60). -/
theorem takeOption_some {cont : Bool} {h : Word32} {xt : List Word32} {second : Word32} {o o' : Options}
    (hl : (Decode.field h 16 8).toNat = (h :: xt).length) (ho : takeOption cont h second o = some o') :
    optionTaken cont (h :: xt) ∧ ∀ k, 1 ≤ k → k ≤ 4 → o'.met k = o.met k + typeCount [h :: xt] k ∧ o'.met k ≤ 1 := by
  have hb : ∀ p : Options, ∀ k, p.met k ≤ 1 := fun p k => by unfold Options.met; split <;> first | (split <;> omega) | omega
  have ht : optionType (h :: xt) = (Decode.field h 24 8).toNat := rfl
  unfold takeOption at ho
  rw [← ht] at ho
  dsimp only at ho
  have tk : ∀ (e : optionType (h :: xt) = 1 ∨ optionType (h :: xt) = 2 → (h :: xt).length = 1 ∧ cont = false)
      (e3 : optionType (h :: xt) = 3 → (h :: xt).length = 2) (e4 : optionType (h :: xt) = 4 → (h :: xt).length = 1)
      (e5 : optionType (h :: xt) = 0 ∨ 5 ≤ optionType (h :: xt) → Decode.field h 8 1 = 1), optionTaken cont (h :: xt) :=
    fun e e3 e4 e5 => ⟨by simp, hl, e, e3, e4, e5⟩
  split at ho
  · next e =>
    split at ho
    · next hc =>
      cases ho
      refine ⟨tk (fun _ => ⟨hl ▸ hc.1, hc.2.2⟩) (by omega) (by omega) (by omega), fun k h1 h2 => ⟨?_, hb _ _⟩⟩
      have : k = 1 ∨ k = 2 ∨ k = 3 ∨ k = 4 := by omega
      rcases this with rfl | rfl | rfl | rfl <;> simp [Options.met, typeCount, e, hc.2.1]
    · cases ho
  · next e =>
    split at ho
    · next hc =>
      cases ho
      refine ⟨tk (fun _ => ⟨hl ▸ hc.1, hc.2.2⟩) (by omega) (by omega) (by omega), fun k h1 h2 => ⟨?_, hb _ _⟩⟩
      have : k = 1 ∨ k = 2 ∨ k = 3 ∨ k = 4 := by omega
      rcases this with rfl | rfl | rfl | rfl <;> simp [Options.met, typeCount, e, hc.2.1]
    · cases ho
  · next e =>
    split at ho
    · next hc =>
      cases ho
      refine ⟨tk (by omega) (fun _ => hl ▸ hc.1) (by omega) (by omega), fun k h1 h2 => ⟨?_, hb _ _⟩⟩
      have : k = 1 ∨ k = 2 ∨ k = 3 ∨ k = 4 := by omega
      rcases this with rfl | rfl | rfl | rfl <;> simp [Options.met, typeCount, e, hc.2]
    · cases ho
  · next e =>
    split at ho
    · next hc =>
      cases ho
      refine ⟨tk (by omega) (by omega) (fun _ => hl ▸ hc.1) (by omega), fun k h1 h2 => ⟨?_, hb _ _⟩⟩
      have : k = 1 ∨ k = 2 ∨ k = 3 ∨ k = 4 := by omega
      rcases this with rfl | rfl | rfl | rfl <;> simp [Options.met, typeCount, e, hc.2]
    · cases ho
  · next e1 e2 e3 e4 =>
    split at ho
    · next hc =>
      cases ho
      refine ⟨tk (fun x => absurd x (not_or.2 ⟨e1, e2⟩)) (fun x => absurd x e3) (fun x => absurd x e4) (fun _ => hc), fun k h1 h2 => ⟨?_, hb _ _⟩⟩
      have : optionType (h :: xt) ≠ k := by
        have hk : k = 1 ∨ k = 2 ∨ k = 3 ∨ k = 4 := by omega
        rcases hk with rfl | rfl | rfl | rfl <;> assumption
      simp [typeCount, this]
    · cases ho

/-- Options one after another. -/
theorem Options.with_cons (o : Options) (x : List Word32) (os : List (List Word32)) : (o.with [x]).with os = o.with (x :: os) := by
  unfold Options.with
  cases o with
  | mk f r c t =>
    simp only [List.find?_cons, List.any_cons, List.find?_nil, List.any_nil, Options.mk.injEq, Bool.or_false, Bool.or_assoc, and_true, true_and]
    constructor
    · cases f <;> by_cases h : optionType x = 1 <;> simp [h]
    · cases c <;> by_cases h : optionType x = 3 <;> simp [h]

/-- How often a type has been met after more options. -/
theorem Options.with_met (o : Options) (x : List Word32) (k : Nat) (h1 : 1 ≤ k) (h2 : k ≤ 4) (h : o.met k + typeCount [x] k ≤ 1) :
    (o.with [x]).met k = o.met k + typeCount [x] k := by
  have : k = 1 ∨ k = 2 ∨ k = 3 ∨ k = 4 := by omega
  unfold Options.with
  cases o with
  | mk f r c t =>
    rcases this with rfl | rfl | rfl | rfl
    · by_cases hx : optionType x = 1 <;> cases f <;> simp_all [Options.met, typeCount]
    · by_cases hx : optionType x = 2 <;> cases r <;> simp_all [Options.met, typeCount]
    · by_cases hx : optionType x = 3 <;> cases c <;> simp_all [Options.met, typeCount]
    · by_cases hx : optionType x = 4 <;> cases t <;> simp_all [Options.met, typeCount]

/-- The count of one option and of those after it. -/
theorem typeCount_cons (x : List Word32) (os : List (List Word32)) (k : Nat) : typeCount (x :: os) k = typeCount [x] k + typeCount os k := by
  unfold typeCount
  by_cases h : optionType x = k <;> simp [h]; omega

/-- Options that are all taken, no known type twice, are walked to their end (R59, R60). -/
theorem walkOptions_taken (cont : Bool) : ∀ (os : List (List Word32)) (n : Nat) (o : Options), os.flatten.length ≤ n →
    (∀ x ∈ os, optionTaken cont x) → (∀ k, 1 ≤ k → k ≤ 4 → o.met k + typeCount os k ≤ 1) →
    walkOptions cont n os.flatten o = some (o.with os)
  | [], n, o, _, _, _ => by
    cases o with
    | mk f r c t => cases n <;> simp [walkOptions, Options.with]
  | [] :: os, _, _, _, h, _ => absurd (h [] (by simp)).1 (by simp)
  | (h :: xt) :: os, 0, _, hn, _, _ => by simp at hn
  | (h :: xt) :: os, n + 1, o, hn, ht, hm => by
    have hx := ht (h :: xt) (by simp)
    have hl : (Decode.field h 16 8).toNat = xt.length + 1 := hx.2.1
    have hm' : ∀ k, 1 ≤ k → k ≤ 4 → o.met k + typeCount [h :: xt] k + typeCount os k ≤ 1 := fun k h1 h2 => by
      have := hm k h1 h2; rw [typeCount_cons] at this; omega
    have hs : optionType (h :: xt) = 3 → (xt ++ os.flatten).getD 0 0 = (h :: xt).getD 1 0 := fun e => by
      have := hx.2.2.2.1 e
      cases xt with
      | nil => simp at this
      | cons y ys => rfl
    have hk : takeOption cont h ((xt ++ os.flatten).getD 0 0) o = some (o.with [h :: xt]) :=
      takeOption_taken hx (fun k h1 h2 e => by have := hm' k h1 h2; simp [typeCount, e] at this; omega) hs
    rw [List.flatten_cons, List.cons_append, walkOptions]
    rw [if_neg (by simp [hl]), hk]
    dsimp only
    rw [show (xt ++ os.flatten).drop ((Decode.field h 16 8).toNat - 1) = os.flatten by rw [hl]; simp]
    rw [walkOptions_taken cont os n (o.with [h :: xt]) (by rw [List.flatten_cons, List.length_append, List.length_cons] at hn; omega) (fun x hx' => ht x (by simp [hx']))
      (fun k h1 h2 => by have := hm' k h1 h2; rw [Options.with_met o _ k h1 h2 (by omega)]; exact this)]
    rw [Options.with_cons]

/-- A walk that answers has found such options (R59, R60). -/
theorem walkOptions_some (cont : Bool) : ∀ (n : Nat) (ws : List Word32) (o o' : Options), walkOptions cont n ws o = some o' →
    ∃ os : List (List Word32), ws = os.flatten ∧ (∀ x ∈ os, optionTaken cont x) ∧
      ((∀ k, 1 ≤ k → k ≤ 4 → o.met k ≤ 1) → ∀ k, 1 ≤ k → k ≤ 4 → o.met k + typeCount os k ≤ 1)
  | _, [], o, o', _ => ⟨[], rfl, by simp, fun h k h1 h2 => by simpa [typeCount] using h k h1 h2⟩
  | 0, h :: rest, o, o', ho => by simp [walkOptions] at ho
  | n + 1, h :: rest, o, o', ho => by
    rw [walkOptions] at ho
    split at ho
    · cases ho
    · next hc =>
      split at ho
      · cases ho
      · next p hp =>
        obtain ⟨os, h1, h2, h3⟩ := walkOptions_some cont n _ p o' ho
        have hl : (Decode.field h 16 8).toNat = (h :: rest.take ((Decode.field h 16 8).toNat - 1)).length := by
          simp only [List.length_cons, List.length_take]; omega
        obtain ⟨g1, g2⟩ := takeOption_some hl hp
        refine ⟨(h :: rest.take ((Decode.field h 16 8).toNat - 1)) :: os, ?_, ?_, fun _ k k1 k2 => ?_⟩
        · rw [List.flatten_cons, ← h1]; simp
        · intro x hx
          rcases List.mem_cons.1 hx with rfl | hx
          · exact g1
          · exact h2 x hx
        · have := h3 (fun k k1 k2 => (g2 k k1 k2).2) k k1 k2
          rw [typeCount_cons, ← Nat.add_assoc, ← (g2 k k1 k2).1]; exact this

/-- The words of a frame laid out: its options and its payload where the parser looks for them, and enough of them. -/
theorem laidOut_words {cont : Bool} {f : LinkFrame} {os : List (List Word32)} {payload : List Word32} (h : laidOut cont f os payload) :
    optionWords f (if cont then 2 else 4) = os.flatten ∧ payloadOf f (if cont then 2 else 4) = payload ∧
    (if cont then 2 else 4) + optionCount (frameWord f 0) ≤ f.words.length := by
  obtain ⟨fixed, h1, h2, h3, -, -⟩ := h
  unfold optionWords payloadOf
  rw [← h3, ← h2, h1]
  refine ⟨?_, ?_, ?_⟩
  · rw [List.append_assoc, List.drop_left]; exact List.take_left
  · rw [← List.length_append]; exact List.drop_left
  · simp

/-- The walk over the options of a frame laid out (R59, R60). -/
theorem laidOut_walk {cont : Bool} {f : LinkFrame} {os : List (List Word32)} {payload : List Word32} (h : laidOut cont f os payload) :
    walkOptions cont 15 (optionWords f (if cont then 2 else 4)) Options.none = some (Options.none.with os) := by
  rw [(laidOut_words h).1]
  obtain ⟨fixed, -, -, h3, h4, h5⟩ := h
  refine walkOptions_taken cont os 15 _ ?_ h4 (fun k k1 k2 => ?_)
  · rw [h3, optionCount]; have := (Decode.field (frameWord f 0) 16 4).isLt; omega
  · have h0 : Options.none.met k = 0 := by unfold Options.met Options.none; split <;> rfl
    rw [h0, Nat.zero_add]; exact h5 k k1 k2

/-- A frame long enough whose options are walked to their end is laid out (R58 to R60). -/
theorem laidOut_of_walk {cont : Bool} {f : LinkFrame} {o : Options}
    (hl : (if cont then 2 else 4) + optionCount (frameWord f 0) ≤ f.words.length)
    (hw : walkOptions cont 15 (optionWords f (if cont then 2 else 4)) Options.none = some o) : ∃ os payload, laidOut cont f os payload := by
  obtain ⟨os, h1, h2, h3⟩ := walkOptions_some cont 15 _ _ _ hw
  have h0 : ∀ k, Options.none.met k = 0 := fun k => by unfold Options.met Options.none; split <;> rfl
  have h3' := h3 (fun k _ _ => by rw [h0]; omega)
  refine ⟨os, payloadOf f (if cont then 2 else 4), f.words.take (if cont then 2 else 4), ?_, ?_, ?_, h2, fun k k1 k2 => ?_⟩
  · rw [← h1]
    unfold optionWords payloadOf
    rw [List.append_assoc, ← List.drop_drop, List.take_append_drop, List.take_append_drop]
  · rw [List.length_take]; omega
  · rw [← h1]; unfold optionWords; rw [List.length_take, List.length_drop]; omega
  · have := h3' k k1 k2; rw [h0, Nat.zero_add] at this; exact this

/-- A format datum names a context's format exactly when it is the context's format byte (R60, R168). -/
theorem formatOf_eq_some (c : Context) (d : BitVec 8) : formatOf d = some (c.rate, c.channels, c.width) ↔ d.toNat = c.formatByte := by
  have hd := d.isLt
  constructor
  · intro h
    unfold formatOf rateOfCode channelsOfCode widthOfCode at h
    unfold Context.formatByte
    split at h
    · next r ch w h1 h2 h3 =>
      simp only [Option.some.injEq, Prod.mk.injEq] at h
      obtain ⟨rfl, rfl, rfl⟩ := h
      have e1 : d.toNat / 16 = c.rate.code := by
        split at h1 <;> simp only [Option.some.injEq, reduceCtorEq] at h1 <;> rw [← h1] <;> assumption
      have e2 : d.toNat / 4 % 4 = c.channels.count := by
        split at h2 <;> simp only [Option.some.injEq, reduceCtorEq] at h2 <;> rw [← h2] <;> assumption
      have e3 : d.toNat % 4 = c.width.code := by
        split at h3 <;> simp only [Option.some.injEq, reduceCtorEq] at h3 <;> rw [← h3] <;> assumption
      omega
    · cases h
  · intro h
    have : d = BitVec.ofNat 8 c.formatByte := by apply BitVec.eq_of_toNat_eq; rw [BitVec.toNat_ofNat, ← h]; omega
    subst this
    cases c with
    | mk id r ch w p n t l =>
      cases r <;> cases ch <;> cases w <;>
        simp [Context.formatByte, Rate.code, Width.code, Channels.count, formatOf, rateOfCode, channelsOfCode, widthOfCode]

/-- The FORMAT of a frame laid out, against the context (R60). -/
theorem mismatchOf_with (c : Context) (os : List (List Word32)) : mismatchOf c (Options.none.with os) = formatOff c os := by
  unfold mismatchOf formatOff Options.with Options.none
  simp only [Option.none_or]
  congr 1
  funext d
  unfold formatAgrees
  rw [decide_eq_decide.2 (formatOf_eq_some c d)]

/-- The length test (R61). -/
theorem lengthRight_iff (c : Context) (n : Nat) (payload : List Word32) : lengthRight c n payload = true ↔ payloadFits c n payload := by
  unfold lengthRight payloadFits payloadWords
  exact decide_eq_true_iff.trans and_assoc.symm

/-- The samples (R62). -/
theorem unpack_eq (c : Context) (n : Nat) (payload : List Word32) : unpack c n payload = payloadSamples c n payload := rfl

/-- One half added with its carry around (R63). -/
theorem onesAdd_fold (a h : Nat) (ha : a < 65536) (hh : h < 65536) (s : Nat) (e : a = if s = 0 then 0 else (s - 1) % 65535 + 1) :
    onesAdd a h = if s + h = 0 then 0 else (s + h - 1) % 65535 + 1 := by
  unfold onesAdd
  split at e <;> split <;> omega

/-- The ones' complement sum is the plain sum folded into 16 bits (R63). -/
theorem onesSum_eq (ws : List Word32) :
    onesSum ws = (let t := (ws.map fun w => (w.extractLsb' 16 16).toNat + (w.extractLsb' 0 16).toNat).sum
      if t = 0 then 0 else (t - 1) % 65535 + 1) := by
  have gen : ∀ (ws : List Word32) (a s : Nat), a < 65536 → a = (if s = 0 then 0 else (s - 1) % 65535 + 1) →
      ws.foldl (fun acc w => onesAdd (onesAdd acc (w.extractLsb' 16 16).toNat) (w.extractLsb' 0 16).toNat) a =
        (let t := s + (ws.map fun w => (w.extractLsb' 16 16).toNat + (w.extractLsb' 0 16).toNat).sum
          if t = 0 then 0 else (t - 1) % 65535 + 1) := by
    intro ws
    induction ws with
    | nil => intro a s _ h; simpa using h
    | cons w ws ih =>
      intro a s ha h
      have b1 : (w.extractLsb' 16 16).toNat < 65536 := (w.extractLsb' 16 16).isLt
      have b2 : (w.extractLsb' 0 16).toNat < 65536 := (w.extractLsb' 0 16).isLt
      have e1 := onesAdd_fold a _ ha b1 s h
      have l1 : onesAdd a (w.extractLsb' 16 16).toNat < 65536 := by rw [e1]; split <;> omega
      have e2 := onesAdd_fold _ _ l1 b2 _ e1
      have l2 : onesAdd (onesAdd a (w.extractLsb' 16 16).toNat) (w.extractLsb' 0 16).toNat < 65536 := by rw [e2]; split <;> omega
      rw [List.foldl_cons, ih _ _ l2 e2]
      simp only [List.map_cons, List.sum_cons, Nat.add_assoc]
  have := gen ws 0 0 (by omega) rfl
  simpa [onesSum] using this

/-- CHECK of a frame laid out (R63). -/
theorem checkFails_with (os : List (List Word32)) (payload : List Word32) : checkFails (Options.none.with os) payload = checkOff os payload := by
  unfold checkFails checkOff Options.with Options.none
  simp only [Option.none_or]
  rw [onesSum_eq]
  cases os.find? fun x => decide (optionType x = 3) <;> simp

end Sys2Proof.Machine
end

