-- ==== Sys2Proof/Laws/Records.lean ====
section
/-! SUPPORT. The command records, the frame in hand and the frames on the link: what they keep (chapters 3, 8, 9). -/

set_option Elab.async false

namespace Sys2Proof.Machine

/-! ## Owners (chapter 9's index) -/

theorem inner_onSlot (slot : BitVec 16) (work : Fin 8 → State × Answer) (s : State) (h : ∀ i, Inner s (work i).1) :
    Inner s (onSlot slot work s).1 := by
  unfold onSlot; split
  · exact Inner.refl s
  · exact h _

theorem inner_closeOwner (slot : BitVec 16) (s : State) : Inner s (closeOwner slot s).1 :=
  inner_onSlot _ _ _ fun i => by split; exact Inner.refl s; exact inner_releaseSlot i s

theorem inner_endOwner (slot : BitVec 16) (s : State) : Inner s (endOwner slot s).1 :=
  inner_onSlot _ _ _ fun i => by split <;> first | exact Inner.refl s | exact inner_endSlot i s

theorem inner_cutOwner (slot : BitVec 16) (s : State) : Inner s (cutOwner slot s).1 :=
  inner_onSlot _ _ _ fun i => by
    split <;> first
      | exact Inner.refl s
      | next h => exact inner_cutSlot i s (.inl (by simp [h]))

theorem inner_clearOwner (slot : BitVec 16) (s : State) : Inner s (clearOwner slot s).1 :=
  inner_onSlot _ _ _ fun i => by
    split
    · next h =>
      exact Inner.setSlot s i _ (fun _ => ⟨rfl, rfl, by simp [primed, h]⟩)
        fun _ _ => slotQueueSound_primed _ (nominalOf_nonneg _ _)
    · exact Inner.refl s

theorem inner_trimOwner (slot : BitVec 16) (v : Word32) (s : State) : Inner s (trimOwner slot v s).1 :=
  inner_onSlot _ _ _ fun i => by
    split
    · exact Inner.refl s
    · split
      · exact Inner.refl s
      · exact Inner.refl s
      · refine Inner.setSlot s i _ (fun _ => ⟨rfl, by simp only [Slot.withTrim, Option.map_map]; rfl, Iff.rfl⟩)
          fun _ h => ⟨h.1, fun c hc => ?_⟩
        simp only [Slot.withTrim, Option.map_eq_some_iff] at hc
        obtain ⟨d, hd, rfl⟩ := hc
        exact h.2 d hd

theorem inner_routePutOwner (x : BitVec 16) (e : Word32) (s : State) : Inner s (routePutOwner x e s).1 := by
  unfold routePutOwner
  split
  · split
    · exact Inner.refl s
    · split
      · exact Inner.refl s
      · next hnew =>
        refine Inner.setRoutes s _ fun h => h.2.2.set _ _ fun r hr j hj q hq hh => hnew ?_
        cases hr
        simp only [routeTaken, List.any_eq_true, Bool.and_eq_true, decide_eq_true_eq]
        refine ⟨j, List.mem_finRange j, hj, ?_⟩
        rw [hq]
        simp [hh.1, hh.2.1, hh.2.2]
  · exact Inner.refl s

theorem inner_routeDropOwner (x : BitVec 16) (s : State) : Inner s (routeDropOwner x s).1 := by
  unfold routeDropOwner
  split
  · exact Inner.refl s
  · split
    · exact Inner.refl s
    · exact Inner.setRoutes s _ fun h => h.2.2.set _ _ fun _ hr => by cases hr

theorem inner_routeRecallOwner (p : BitVec 16) (s : State) : Inner s (routeRecallOwner p s).1 := by
  unfold routeRecallOwner
  split
  · exact Inner.refl s
  · split
    · exact Inner.refl s
    · next h => exact inner_requestRead h

theorem inner_duckSetOwner (l : BitVec 16) (v : Word32) (s : State) : Inner s (duckSetOwner l v s).1 := by
  unfold duckSetOwner
  split
  · next h1 h2 =>
    unfold natIn at h2
    simp only [Option.ite_none_right_eq_some, Option.some.injEq] at h2
    exact inner_setDuckLevel _ _ s (by omega)
  · exact Inner.refl s

theorem inner_outputSetOwner (r k t : Word32) (s : State) : Inner s (outputSetOwner r k t s).1 := by
  unfold outputSetOwner
  split
  · exact Inner.refl s
  · split
    · exact Inner.refl s
    · exact {}

/-- A cue's action read from its fields has a level in range (R127, R132). -/
theorem cueActionOf_level {a t : BitVec 8} {g : BitVec 16} {l : Fin 4} {v : Nat} (h : cueActionOf a t g = some (.duck l v)) :
    v ≤ 16384 := by
  unfold cueActionOf at h
  split at h
  · cases hb : indexBelow 8 t.toNat <;> simp [hb] at h
  · cases hb : indexBelow 8 t.toNat <;> simp [hb] at h
  · cases hb : indexBelow 16 t.toNat <;> simp [hb] at h
  · split at h
    · next h1 h2 =>
      cases h
      unfold natIn at h2
      simp only [Option.ite_none_right_eq_some, Option.some.injEq] at h2
      omega
    · cases h
  · cases hb : indexBelow 8 g.toNat <;> simp [hb] at h
  · split at h <;> simp at h
  · split at h <;> simp at h
  · cases h

/-- An entry of a new id, no RECALL, added to a table with room (R132). -/
theorem inner_addCue (x : Cue) (s : State) (hl : s.cues.length < 16) (hx : x.levelSound) (hid : ∀ c ∈ s.cues, c.id ≠ x.id)
    (hr : x.isRecall = false) : Inner s (addCue x s) :=
  { cues := fun _ => by simp only [cuesBounded, addCue, insertCue_length]; omega
    tables := fun h => ⟨insertCue_nodup h.1 hid, stagedSound_insert h.2.1 hr rfl rfl, h.2.2⟩
    lanes := fun h => ⟨h.1, fun c hc => (insertCue_mem.1 hc).elim (fun e => e ▸ hx) (h.2 c)⟩ }

/-- A RECALL added, its staged table FILLING (R134). -/
theorem inner_addRecall (x : Cue) (s : State) (hl : s.cues.length < 16) (hx : x.levelSound) (hid : ∀ c ∈ s.cues, c.id ≠ x.id)
    (hr : x.isRecall = true) (hno : s.cues.any Cue.isRecall = false) : Inner s { addCue x s with staged := .filling } :=
  { cues := fun _ => by simp only [cuesBounded, addCue, insertCue_length]; omega
    tables := fun h => ⟨insertCue_nodup h.1 hid, stagedSound_insertRecall hno hr rfl rfl, h.2.2⟩
    lanes := fun h => ⟨h.1, fun c hc => (insertCue_mem.1 hc).elim (fun e => e ▸ hx) (h.2 c)⟩ }

theorem inner_cueAddOwner (id' : BitVec 16) (f : Time) (a t : BitVec 8) (g : BitVec 16) (s : State) :
    Inner s (cueAddOwner id' f a t g s).1 := by
  unfold cueAddOwner
  split
  · next act _ hact =>
    have hlev : ∀ b : Bool, Cue.levelSound { id := id'.setWidth 8, fireTime := f, action := act, late := b } := by
      intro b
      match act, hact with
      | .duck l v, hact => exact cueActionOf_level hact
      | .cut _, _ | .ending _, _ | .gain _ _, _ | .recall _, _ | .mute _, _ | .mark _, _ => trivial
    dsimp only
    split
    · exact Inner.refl s
    · next hdup =>
      have hid : ∀ c ∈ s.cues, c.id ≠ id'.setWidth 8 := by simpa using hdup
      split
      · exact Inner.refl s
      · next hfull =>
        have hroom : s.cues.length < 16 := by omega
        split
        · exact Inner.refl s
        · split
          · split
            · exact Inner.refl s
            · next hno =>
              split
              · exact Inner.refl s
              · next s1 hr =>
                have hc : s1.cues = s.cues := by rw [requestRead_frame hr]
                exact (inner_requestRead hr).trans (inner_addRecall _ s1 (by rw [hc]; exact hroom) (hlev (cueLateMark f s))
                  (by rw [hc]; exact hid) rfl (by rw [hc]; simpa using hno))
          all_goals exact inner_addCue _ s hroom (hlev _) hid rfl
  · exact Inner.refl s

theorem inner_cueCancelOwner (id' : BitVec 16) (s : State) : Inner s (cueCancelOwner id' s).1 := by
  unfold cueCancelOwner
  split
  · exact Inner.refl s
  · split
    · exact Inner.refl s
    · next h => exact Inner.removeCue s _ _ (List.mem_of_find?_eq_some h)

theorem inner_clockSetOwner (m : BitVec 16) (src : BitVec 8) (l k e : BitVec 16) (g w : Word32) (s : State) :
    Inner s (clockSetOwner m src l k e g w s).1 := by
  unfold clockSetOwner
  split
  · exact Inner.refl s
  · next h => exact inner_takeSettings _ s (clockSettingsOf_range h)

theorem inner_classSetOwner (k c : BitVec 8) (s : State) : Inner s (classSetOwner k c s).1 := by
  unfold classSetOwner
  split
  · exact {}
  · exact Inner.refl s

theorem inner_ackOwner (sl q : BitVec 8) (s : State) : Inner s (ackOwner sl q s).1 := by
  unfold ackOwner
  split
  · exact Inner.refl s
  · split
    · exact Inner.setSlot_of s _ _ rfl rfl Iff.rfl
    · exact Inner.refl s

theorem inner_saveOwner (t : BitVec 16) (b : BitVec 8) (s : State) : Inner s (saveOwner t b s).1 := by
  unfold saveOwner
  split
  · exact Inner.refl s
  · split
    · exact Inner.refl s
    · split
      · exact inner_beginWrite _ _ s
      · exact Inner.refl s

theorem inner_presetPutOwner (p : BitVec 16) (s : State) : Inner s (presetPutOwner p s).1 := by
  unfold presetPutOwner
  split
  · exact Inner.refl s
  · split
    · exact inner_beginWrite _ _ s
    · exact Inner.refl s

/-- OPEN on a RUNNING part (R37, R38). -/
theorem keeps_openOwner (sl : BitVec 16) (id' fm pr rg : BitVec 8) (tr : Word32) (lm : BitVec 16) (s : State)
    (hr : startSound s → s.run = .running) : Keeps s (openOwner sl id' fm pr rg tr lm s).1 := by
  unfold openOwner
  split
  · next i c _ _ =>
    dsimp only
    split
    · exact Keeps.refl s
    · next hclosed =>
      split
      · exact Keeps.refl s
      · split
        · exact Keeps.refl s
        · split
          · exact Keeps.refl s
          · next hroom =>
            refine { queues := fun _ => queuesSound_setSlot fun _ => slotQueueSound_opened _ _ _ _
                     rings := fun h => ⟨?_, ?_, ?_⟩ }
            · exact blocksSound_openIn i c s h.1 (by simpa using hclosed) (by omega)
            · exact h.2.1
            · intro hs
              have : s.run = .starting := hs
              rw [hr h.2] at this
              cases this
  · exact Keeps.refl s

/-- PARTITION (R36). -/
theorem inner_partitionOwner (m : BitVec 16) (s : State) : Inner s (partitionOwner m s).1 := by
  unfold partitionOwner
  split
  · exact Inner.refl s
  · split
    · next h =>
      refine { blocks := fun hb => ⟨?_, fun _ => id⟩ }
      refine blocksSound_full (s := s) _ rfl rfl hb fun i => ?_
      simp only [State.allClosed, List.all_eq_true, decide_eq_true_eq] at h
      exact h i (List.mem_finRange i)
    · exact Inner.refl s

/-! ## Sizes of the owners' answers (R152, R170) -/

theorem onSlot_size {slot : BitVec 16} {work : Fin 8 → State × Answer} {s : State} {n : Nat}
    (h : ∀ i, (work i).2.results.length ≤ n) : (onSlot slot work s).2.results.length ≤ n := by
  unfold onSlot; split
  · simp [refusal, refusedWith]
  · exact h _

theorem historyWords_length (c : TimeBase) : (historyWords c).length = 72 := by
  simp [historyWords, optTimeWords, timeWords]

theorem slotWords_length (v : Slot) : (slotWords v).length = 6 := by
  unfold slotWords; split <;> rfl

theorem snapshotWords_length (s : State) : (snapshotWords s).length = 54 := by
  simp [snapshotWords, optTimeWords, timeWords, List.length_flatMap, slotWords_length]

@[simp] theorem done_results (ws : List Word32) : (done ws).results = ws := rfl
@[simp] theorem acceptedWith_results (ws : List Word32) : (acceptedWith ws).results = ws := rfl
@[simp] theorem busyAnswer_results : busyAnswer.results = [] := rfl
@[simp] theorem unknownAnswer_results : unknownAnswer.results = [] := rfl
@[simp] theorem refusedWith_results (r : Reason) (ws : List Word32) : (refusedWith r ws).results = ws := rfl
@[simp] theorem refusal_results (r : Reason) : (refusal r).results = [] := rfl

theorem size_identifyOwner (s : State) : (identifyOwner s).2.results.length ≤ 4 := by simp [identifyOwner]
theorem size_snapshotOwner (s : State) : (snapshotOwner s).2.results.length ≤ 54 := by simp [snapshotOwner, snapshotWords_length]
theorem size_clockHistoryOwner (s : State) : (clockHistoryOwner s).2.results.length ≤ 72 := by simp [clockHistoryOwner, historyWords_length]

theorem size_openOwner (sl : BitVec 16) (id' fm pr rg : BitVec 8) (tr : Word32) (lm : BitVec 16) (s : State) :
    (openOwner sl id' fm pr rg tr lm s).2.results.length ≤ 2 := by
  unfold openOwner
  split
  · dsimp only
    repeat' split
    all_goals simp
  · simp

theorem size_closeOwner (sl : BitVec 16) (s : State) : (closeOwner sl s).2.results.length ≤ 1 := onSlot_size fun i => by split <;> simp
theorem size_endOwner (sl : BitVec 16) (s : State) : (endOwner sl s).2.results.length ≤ 1 := onSlot_size fun i => by split <;> simp
theorem size_cutOwner (sl : BitVec 16) (s : State) : (cutOwner sl s).2.results.length ≤ 1 := onSlot_size fun i => by split <;> simp
theorem size_clearOwner (sl : BitVec 16) (s : State) : (clearOwner sl s).2.results.length ≤ 0 := onSlot_size fun i => by split <;> simp

theorem size_trimOwner (sl : BitVec 16) (v : Word32) (s : State) : (trimOwner sl v s).2.results.length ≤ 1 :=
  onSlot_size fun i => by
    repeat' split
    all_goals simp

theorem size_partitionOwner (m : BitVec 16) (s : State) : (partitionOwner m s).2.results.length ≤ 1 := by
  unfold partitionOwner
  repeat' split
  all_goals simp

theorem size_routePutOwner (x : BitVec 16) (e : Word32) (s : State) : (routePutOwner x e s).2.results.length ≤ 1 := by
  unfold routePutOwner
  repeat' split
  all_goals simp

theorem size_routeDropOwner (x : BitVec 16) (s : State) : (routeDropOwner x s).2.results.length ≤ 1 := by
  unfold routeDropOwner
  repeat' split
  all_goals simp

theorem size_routeRecallOwner (p : BitVec 16) (s : State) : (routeRecallOwner p s).2.results.length ≤ 0 := by
  unfold routeRecallOwner
  repeat' split
  all_goals simp

theorem size_duckSetOwner (l : BitVec 16) (v : Word32) (s : State) : (duckSetOwner l v s).2.results.length ≤ 2 := by
  unfold duckSetOwner
  repeat' split
  all_goals simp

theorem size_outputSetOwner (r k t : Word32) (s : State) : (outputSetOwner r k t s).2.results.length ≤ 3 := by
  unfold outputSetOwner
  repeat' split
  all_goals simp

theorem size_cueAddOwner (id' : BitVec 16) (f : Time) (a t : BitVec 8) (g : BitVec 16) (s : State) :
    (cueAddOwner id' f a t g s).2.results.length ≤ 1 := by
  unfold cueAddOwner
  split
  · dsimp only
    repeat' split
    all_goals simp [cueCount]
  · simp

theorem size_cueCancelOwner (id' : BitVec 16) (s : State) : (cueCancelOwner id' s).2.results.length ≤ 3 := by
  unfold cueCancelOwner
  repeat' split
  all_goals simp [timeWords]

theorem size_clockSetOwner (m : BitVec 16) (src : BitVec 8) (l k e : BitVec 16) (g w : Word32) (s : State) : (clockSetOwner m src l k e g w s).2.results.length ≤ 0 := by
  unfold clockSetOwner
  repeat' split
  all_goals simp

theorem size_classSetOwner (k c : BitVec 8) (s : State) : (classSetOwner k c s).2.results.length ≤ 1 := by
  unfold classSetOwner
  repeat' split
  all_goals simp

theorem size_ackOwner (sl q : BitVec 8) (s : State) : (ackOwner sl q s).2.results.length ≤ 2 := by
  unfold ackOwner
  repeat' split
  all_goals simp

theorem size_saveOwner (t : BitVec 16) (b : BitVec 8) (s : State) : (saveOwner t b s).2.results.length ≤ 0 := by
  unfold saveOwner
  repeat' split
  all_goals simp

theorem size_presetPutOwner (p : BitVec 16) (s : State) : (presetPutOwner p s).2.results.length ≤ 0 := by
  unfold presetPutOwner
  repeat' split
  all_goals simp

/-! ## The reply under construction -/

/-- The frame in hand changed for another, the rest as it was. -/
theorem Keeps.setInterp (s : State) (x : Option Interp) (h : x.isSome = s.interp.isSome)
    (hb : replyBounded s → ∀ p, x = some p → recordsWords p.records ≤ 382 ∧ (p.remaining ≠ 0 → recordsWords p.records < 382)) :
    Keeps s { s with interp := x } := by
  refine { rings := fun hr => ⟨blocksSound_congr rfl rfl hr.1, hr.2.1, fun hs => ⟨?_, (hr.2.2 hs).2⟩⟩, reply := fun hr => ⟨?_, hr.2⟩
           bound := fun hr => ⟨hb hr, hr.2⟩ }
  · have := (hr.2.2 hs).1
    rw [this] at h
    cases x with
    | none => rfl
    | some _ => simp at h
  · show (x.isSome = true ↔ _)
    rw [h]
    exact hr.1

/-- A reply record joins the reply: its words join the reply's (R149). -/
theorem recordsWords_append (rs : List ReplyRecord) (r : ReplyRecord) :
    recordsWords (rs ++ [r]) = recordsWords rs + (1 + r.answer.results.length) := by simp [recordsWords]

/-- A reply record that leaves a word free (R152). -/
theorem keeps_reply (s : State) (code : BitVec 8) (a : Answer)
    (h : ∀ p, s.interp = some p → p.used + (1 + a.results.length) < 382) : Keeps s (s.reply code a) := by
  refine Keeps.setInterp s _ (by simp) fun _ q hq => ?_
  obtain ⟨p, hp, rfl⟩ := Option.map_eq_some_iff.1 hq
  have := h p hp
  have e : recordsWords (p.answered code a).records = p.used + (1 + a.results.length) := recordsWords_append _ _
  omega

/-- A last reply record of one word, put to a frame that still names records (R150, R152). -/
theorem keeps_lastReply (s : State) (code : BitVec 8) (a : Answer) (ha : a.results = [])
    (h : ∀ p, s.interp = some p → p.remaining ≠ 0) : Keeps s (s.lastReply code a) := by
  refine Keeps.setInterp s _ (by simp) fun hb q hq => ?_
  obtain ⟨p, hp, rfl⟩ := Option.map_eq_some_iff.1 hq
  have := (hb.1 p hp).2 (h p hp)
  have e : recordsWords (p.stopped code a).records = recordsWords p.records + (1 + a.results.length) := recordsWords_append _ _
  rw [ha] at e
  exact ⟨by simp only [List.length_nil] at e; omega, fun h => absurd rfl h⟩

/-- A record in hand is one that the frame names (R149). -/
theorem remaining_of_handing {i : Instr} {s : State} (h : s.handing i = true) (p : Interp) (hp : s.interp = some p) :
    p.remaining ≠ 0 := by
  intro h0
  simp [State.handing, hp, Interp.next, Decode.next, h0] at h

/-- Room for a reply (R152). -/
theorem used_of_replyRoom {n : Nat} {s : State} (h : s.replyRoom n = true) (p : Interp) (hp : s.interp = some p) :
    p.used + n + 1 ≤ 382 := by
  simpa [State.replyRoom, hp, Interp.hasRoom] using h

/-- The reply placed (R149). -/
theorem keeps_placeReply (s : State) : Keeps s (placeReply s) := by
  unfold placeReply
  split
  · exact Keeps.refl s
  · exact { rings := fun hr => ⟨blocksSound_congr rfl rfl hr.1, hr.2.1, fun hs => ⟨rfl, (hr.2.2 hs).2⟩⟩
            reply := fun _ => ⟨by simp, fun _ _ _ => ⟨_, rfl⟩⟩
            bound := fun hr => ⟨by simp, by rintro r ⟨⟩; exact (hr.1 _ (by assumption)).1, hr.2.2⟩ }

/-- Where a record is in hand or stands alone, the part is RUNNING. -/
theorem running_of_handing {i : Instr} {s : State} (h : s.handing i = true ∨ s.standsAlone = true) (hs : startSound s) :
    s.run = .running := by
  rcases h with h | h
  · cases hr : s.run with
    | running => rfl
    | starting =>
      have := (hs.2 hr).1
      simp [State.handing, this] at h
  · simp only [State.standsAlone, Bool.and_eq_true, decide_eq_true_eq] at h
    exact h.1

/-- A record handed to an owner (R151, R152). -/
theorem keeps_handOver (i : Instr) (owner : State → State × Answer) (s : State)
    (h : (startSound s → s.run = .running) → Keeps s (owner s).1) (hi : (owner s).1.interp = s.interp)
    (hn : ∀ code n, recordShape i = some (code, n) → 1 + (owner s).2.results.length ≤ n) : Keeps s (handOver i owner s) := by
  unfold handOver
  split
  · next hh =>
    have ho := h (running_of_handing (.inl hh))
    split
    · exact Keeps.refl s
    · next code n hsh =>
      split
      · next hr =>
        refine ho.trans (keeps_reply _ _ _ fun p hp => ?_)
        have := used_of_replyRoom hr p (hi ▸ hp)
        have := hn code n hsh
        omega
      · exact keeps_lastReply _ _ _ rfl (remaining_of_handing hh)
  · split
    · next hh => exact h (running_of_handing (i := i) (.inr hh))
    · exact Keeps.refl s

theorem keeps_handOver_inner (i : Instr) (owner : State → State × Answer) (s : State) (h : Inner s (owner s).1)
    (hn : ∀ code n, recordShape i = some (code, n) → 1 + (owner s).2.results.length ≤ n) :
    Keeps s (handOver i owner s) := keeps_handOver i owner s (fun _ => h.keeps) h.interp hn

/-- The interpreter going on (R149). -/
theorem keeps_proceed (s : State) : Keeps s (proceed s) := by
  unfold proceed
  split
  · exact Keeps.refl s
  · split
    · exact keeps_placeReply s
    · split
      · next p hp _ _ _ hr =>
        refine keeps_reply _ _ _ fun q hq => ?_
        have := used_of_replyRoom (n := 1) (s := s) (by simpa [State.replyRoom, hp] using hr) q hq
        simp only [refusal, refusedWith, List.length_nil]
        omega
      · next p hp _ _ hw _ =>
        refine keeps_lastReply _ _ _ rfl fun q hq h0 => ?_
        rw [hp] at hq
        cases hq
        simp [Interp.next, Decode.next, h0] at hw
    · exact Keeps.refl s

/-- RESTART (R157). -/
theorem keeps_restartRecord (s : State) : Keeps s (restartRecord s) := by
  unfold restartRecord
  split
  · next hh =>
    split
    · refine ((keeps_lastReply s _ _ rfl (remaining_of_handing hh)).trans (keeps_placeReply _)).trans (keeps_restarted _ fun _ => ?_)
      obtain ⟨p, hp⟩ : ∃ p, s.interp = some p := by
        cases hp : s.interp with
        | none => simp [State.handing, hp] at hh
        | some p => exact ⟨p, rfl⟩
      simp [placeReply, State.lastReply, hp]
    · exact keeps_lastReply _ _ _ rfl (remaining_of_handing hh)
  · split
    · next h =>
      simp only [State.standsAlone, Bool.and_eq_true, Option.isNone_iff_eq_none] at h
      have h1 : Keeps s { s with replyBuffer := .full loneRestartReply } :=
        { rings := fun hr => ⟨blocksSound_congr rfl rfl hr.1, hr.2⟩
          reply := fun _ => ⟨by simp [h.2], fun _ _ _ => ⟨_, rfl⟩⟩
          bound := fun hr => ⟨hr.1, by rintro r ⟨⟩; decide, hr.2.2⟩ }
      exact h1.trans (keeps_restarted _ fun _ hb => by cases hb)
    · exact Keeps.refl s

theorem keeps_malformedRecord (c : BitVec 8) (s : State) : Keeps s (malformedRecord c s) := by
  unfold malformedRecord
  split
  · next hh => exact keeps_lastReply _ _ _ rfl (remaining_of_handing hh)
  · exact Keeps.refl s

theorem keeps_openRecord (sl : BitVec 16) (id' fm pr rg : BitVec 8) (tr : Word32) (lm : BitVec 16) (s : State) :
    Keeps s (openRecord sl id' fm pr rg tr lm s) := by
  refine keeps_handOver _ _ s (keeps_openOwner _ _ _ _ _ _ _ s) ?_ ?_
  · unfold openOwner
    split
    · dsimp only
      repeat' split
      all_goals rfl
    · rfl
  · rintro _ _ ⟨⟩
    have := size_openOwner sl id' fm pr rg tr lm s
    omega

/-- A record whose owner does inner work and whose answer fits its largest reply record (R152). -/
theorem keeps_record {i : Instr} {code : BitVec 8} {n : Nat} {owner : State → State × Answer} {s : State}
    (h : Inner s (owner s).1) (hs : recordShape i = some (code, n + 1)) (ha : (owner s).2.results.length ≤ n) :
    Keeps s (handOver i owner s) :=
  keeps_handOver_inner i owner s h fun c m e => by rw [hs] at e; cases e; omega

/-- Any record dealt with (R151). -/
theorem keeps_dealRecord (i : Instr) (s : State) : Keeps s (dealRecord i s) := by
  cases i <;> simp only [dealRecord] <;> first
    | exact Keeps.refl s
    | exact keeps_record (Inner.refl s) rfl (size_identifyOwner s)
    | exact keeps_record (Inner.refl s) rfl (size_clockHistoryOwner s)
    | exact keeps_record (Inner.refl s) rfl (Nat.le_refl 0)
    | exact keeps_record (inner_finishStrobe s) rfl (size_snapshotOwner s)
    | exact keeps_restartRecord s
    | exact keeps_malformedRecord _ s
    | exact keeps_openRecord _ _ _ _ _ _ _ s
    | exact keeps_record (inner_closeOwner _ s) rfl (size_closeOwner _ s)
    | exact keeps_record (inner_endOwner _ s) rfl (size_endOwner _ s)
    | exact keeps_record (inner_cutOwner _ s) rfl (size_cutOwner _ s)
    | exact keeps_record (inner_clearOwner _ s) rfl (size_clearOwner _ s)
    | exact keeps_record (inner_trimOwner _ _ s) rfl (size_trimOwner _ _ s)
    | exact keeps_record (inner_partitionOwner _ s) rfl (size_partitionOwner _ s)
    | exact keeps_record (inner_routePutOwner _ _ s) rfl (size_routePutOwner _ _ s)
    | exact keeps_record (inner_routeDropOwner _ s) rfl (size_routeDropOwner _ s)
    | exact keeps_record (inner_routeRecallOwner _ s) rfl (size_routeRecallOwner _ s)
    | exact keeps_record (inner_duckSetOwner _ _ s) rfl (size_duckSetOwner _ _ s)
    | exact keeps_record (inner_outputSetOwner _ _ _ s) rfl (size_outputSetOwner _ _ _ s)
    | exact keeps_record (inner_cueAddOwner _ _ _ _ _ s) rfl (size_cueAddOwner _ _ _ _ _ s)
    | exact keeps_record (inner_cueCancelOwner _ s) rfl (size_cueCancelOwner _ s)
    | exact keeps_record (inner_clockSetOwner _ _ _ _ _ _ _ s) rfl (size_clockSetOwner _ _ _ _ _ _ _ s)
    | exact keeps_record (inner_classSetOwner _ _ s) rfl (size_classSetOwner _ _ s)
    | exact keeps_record (inner_ackOwner _ _ s) rfl (size_ackOwner _ _ s)
    | exact keeps_record (inner_saveOwner _ _ s) rfl (size_saveOwner _ _ s)
    | exact keeps_record (inner_presetPutOwner _ s) rfl (size_presetPutOwner _ s)

theorem keeps_dealStep (s : State) : Keeps s (dealStep s) := by
  unfold dealStep
  split
  · exact Keeps.refl s
  · split
    · exact keeps_dealRecord _ s
    · exact keeps_proceed s
    · exact keeps_proceed s

theorem keeps_dealSteps (n : Nat) (s : State) : Keeps s (dealSteps n s) := by
  induction n generalizing s with
  | zero => exact Keeps.refl s
  | succ n ih =>
    simp only [dealSteps]
    split
    · exact Keeps.refl s
    · exact (keeps_dealStep s).trans (ih _)

/-- The frame in hand finished (R53). -/
theorem keeps_finishFrame (s : State) : Keeps s (finishFrame s) := by
  unfold finishFrame
  split
  · exact Keeps.refl s
  · exact keeps_dealSteps _ s

/-! ## Frames (chapter 3) -/

/-- With no frame in hand there is nothing to finish. -/
theorem finishFrame_idle {s : State} (h : s.interp = none) : finishFrame s = s := by simp [finishFrame, h]

/-- The inbound assembly changed (R50). -/
theorem keeps_withInbound (s : State) (f : Option LinkFrame) : Keeps s (s.withInbound f) := {}

/-- No outbound frame. -/
theorem keeps_dropOutbound (s : State) : Keeps s { s with outbound := none } :=
  { reply := fun hr => ⟨hr.1, fun o ho => by cases ho⟩, bound := fun hr => ⟨hr.1, hr.2.1, fun o ho => by cases ho⟩ }

/-- A select-fall (R50). -/
theorem keeps_selectFall (s : State) : Keeps s (selectFall s) :=
  (keeps_dropOutbound s).trans (keeps_withInbound { s with outbound := none } _)

/-- A REPLY frame has its two words and its records' (R152, R170). -/
theorem replyWords_length (tag : BitVec 16) (r : Reply) : (replyWords tag r).length = 2 + recordsWords r.records := by
  have : ∀ rs : List ReplyRecord, (rs.flatMap ReplyRecord.words).length = recordsWords rs := by
    intro rs
    simp only [List.length_flatMap, recordsWords]
    exact congrArg List.sum (List.map_congr_left fun x _ => by simp [ReplyRecord.words, Nat.add_comm])
  simp only [replyWords, List.length_cons, this]
  omega

/-- A READ that carries a reply carries the buffer's (R70). -/
theorem chooseOutbound_reply {s : State} (h : (chooseOutbound s).content = .reply) :
    ∃ r, s.replyBuffer = .full r ∧ (chooseOutbound s).words = replyWords s.deviceTag r := by
  unfold chooseOutbound at *
  split at h
  · next r e => exact ⟨r, e, by simp⟩
  all_goals (split at h <;> cases h)

/-- The choice made at the word 0 of a READ (R70). -/
theorem keeps_chosenAt (f g : LinkFrame) (s : State) : Keeps s (chosenAt f g s) := by
  unfold chosenAt
  split
  · refine { reply := fun hr => ⟨hr.1, fun o ho hc => ?_⟩, bound := fun hr => ⟨hr.1, hr.2.1, fun o ho hc => ?_⟩ }
    all_goals
      cases ho
      obtain ⟨r, h, hw⟩ := chooseOutbound_reply hc
    · exact ⟨r, h⟩
    · rw [hw, replyWords_length]
      have := hr.2.1 r h
      omega
  · exact Keeps.refl s

/-- Bits clocked in (R50, R52, R70). -/
theorem keeps_shiftIn (ws : List Word32) (n : Nat) (s : State) : Keeps s (shiftIn ws n s) := by
  unfold shiftIn
  split
  · exact Keeps.refl s
  · dsimp only
    split
    · exact Keeps.refl s
    · split
      · exact (keeps_chosenAt _ _ s).trans (keeps_withInbound _ _)
      · split
        · exact (inner_discardFrame _ _ _ s).keeps.trans (keeps_withInbound _ _)
        · exact keeps_withInbound s _

/-- A select-rise, whatever its row's work keeps (R50). -/
theorem keeps_selectRise (row : BitVec 8 → Bool) (rise : LinkFrame → State → State) (s : State) (h : ∀ f t, Keeps t (rise f t)) :
    Keeps s (selectRise row rise s) := by
  unfold selectRise
  split
  · exact Keeps.refl s
  · split
    · exact keeps_withInbound s none
    · split
      · exact (keeps_withInbound s none).trans (h _ _)
      · exact Keeps.refl s

/-- A moment of a frame, whatever its row's work at the select-rise keeps (R50). -/
theorem keeps_linkMoment (stage : LinkStage) (row : BitVec 8 → Bool) (rise : LinkFrame → State → State) (s : State)
    (h : ∀ f t, Keeps t (rise f t)) : Keeps s (linkMoment stage row rise s) := by
  unfold linkMoment
  split
  · exact keeps_selectFall s
  · exact keeps_shiftIn _ _ s
  · exact keeps_selectRise row rise s h

/-- A frame that is no READ at its select-rise, whatever the parser keeps on a RUNNING part (R51, R53). -/
theorem keeps_receive (parse : LinkFrame → State → State) (f : LinkFrame) (s : State) (h : ∀ t, t.run = .running → Keeps t (parse f t)) :
    Keeps s (receive parse f s) := by
  unfold receive
  split
  · exact (inner_discardFrame _ _ _ s).keeps
  · split
    · next hr => exact (keeps_finishFrame s).trans (h _ hr)
    · exact keeps_finishFrame s

/-- A frame of its row's kind that the Link Port assembled goes to what its row makes of it (R50, R51). -/
theorem selectRise_fits {f : LinkFrame} {s : State} {k : BitVec 8} {row : BitVec 8 → Bool} (rise : LinkFrame → State → State)
    (hi : s.inbound = some f) (hg : f.ignored = false) (hk : f.kindCode = some k) (hrow : row k = true) :
    selectRise row rise s = rise f (s.withInbound none) := by
  have he : f.isEmpty = false := by
    cases hw : f.words with
    | nil => simp [LinkFrame.kindCode, hw] at hk
    | cons x xs => simp [LinkFrame.isEmpty, hw]
  simp [selectRise, hi, hg, he, LinkFrame.fits, hk, hrow]

/-- A frame that arrives at the parser is parsed. -/
theorem selectRise_arrives {k : BitVec 8} {f : LinkFrame} {s : State} {row : BitVec 8 → Bool} (parse : LinkFrame → State → State)
    (h : Arrives k f s) (hrow : row k = true) : selectRise row (receive parse) s = parse f (s.withInbound none) := by
  obtain ⟨hi, hg, ht, hk, hr, hp⟩ := h
  rw [selectRise_fits _ hi hg hk hrow]
  have : (s.withInbound none).interp = none := hp
  have hr' : (s.withInbound none).run = .running := hr
  rw [receive, if_neg (by simp [ht]), finishFrame_idle this, if_pos hr']

theorem inner_parseBeacon (f : LinkFrame) (s : State) : Inner s (parseBeacon f s) := by
  unfold parseBeacon
  split
  · exact inner_discardFrame _ _ _ s
  · split
    · exact inner_discardFrame _ _ _ s
    · split
      · exact inner_discardFrame _ _ _ s
      · exact inner_clockBeacon _ _ _ _ s

/-- A CONTROL frame taken by an EMPTY reply buffer (R57). -/
theorem keeps_takeControl (f : LinkFrame) (s : State) (hb : s.replyBuffer = .empty) (hrun : s.run = .running) :
    Keeps s (takeControl f s) := by
  refine { rings := fun hr => ⟨blocksSound_congr rfl rfl hr.1, hr.2.1, fun hs => ?_⟩
           reply := fun hr => ⟨by simp [takeControl], fun o ho hc => ?_⟩
           bound := fun hr => ⟨by rintro p ⟨⟩; simp [recordsWords], by simp [takeControl], hr.2.2⟩ }
  · have : s.run = .starting := hs
    rw [hrun] at this
    cases this
  · obtain ⟨r, h⟩ := hr.2 o ho hc
    rw [hb] at h
    cases h

theorem keeps_parseControl (f : LinkFrame) (s : State) (hr : s.run = .running) : Keeps s (parseControl f s) := by
  have hd : ∀ r, Keeps s (discardFrame r (frameKind f) 0 s) := fun r => (inner_discardFrame _ _ _ s).keeps
  unfold parseControl
  split
  · exact hd _
  · split
    · exact hd _
    · split
      · exact Keeps.refl s
      · split
        · exact hd _
        · next hb =>
          split
          · exact hd _
          · exact keeps_takeControl f s (by simpa using hb) hr

/-- A chunk filed by the rules (R86). -/
theorem inner_fileChunk (i : Fin 8) (c : Context) (k : Chunk) (st : Int) (s : State) (hc : (s.slot i).context = some c)
    (hk : 1 ≤ k.count) (hf : fateOf s (s.slot i) c k st = .filed) : Inner s (fileChunk i c k st s) := by
  have hopen : fateOpen s (s.slot i) c k st = .filed := by
    unfold fateOf at hf
    split at hf
    · cases hf
    · cases hf
    · cases hf
    all_goals (split at hf; cases hf; exact hf)
  unfold fileChunk
  refine (Inner.setSlot_of s i { s.slot i with
      queue := insertRecord (filedRecord (s.slot i) k st) (s.slot i).queue,
      origin := if (s.slot i).origin.isSome then (s.slot i).origin else k.pt } rfl rfl Iff.rfl
    fun _ h => ⟨h.1, fun c' hc' => ?_⟩).trans { memory := fun h => writeSamples_wf _ _ _ _ _ _ _ h }
  have : c' = c := by
    have h1 : (s.slot i).context = some c' := hc'
    rw [hc] at h1; cases h1; rfl
  subst this
  exact queueFits_filed (h.2 c' hc) hk hopen

/-- The insertion rule (R79). A chunk of no frames is never filed, so none is handed over (R61). -/
theorem inner_insertChunk (i : Fin 8) (c : Context) (k : Chunk) (s : State) (hc : (s.slot i).context = some c)
    (hk : k.mismatch = none → 1 ≤ k.count) : Inner s (insertChunk i c k s).1 := by
  unfold insertChunk
  dsimp only
  split
  · next hf =>
    have hm : k.mismatch = none := by
      unfold fateOf at hf
      cases hm : k.mismatch with
      | none => rfl
      | some d => split at hf <;> simp [hm] at hf
    exact inner_fileChunk _ _ _ _ s hc (hk hm) hf
  · exact Inner.refl s

theorem inner_offerFate (i : Fin 8) (e : Option Event) (s : State) : Inner s (offerFate i e s) := by
  unfold offerFate
  split
  · exact Inner.refl s
  · exact inner_offerSlot _ _ _ s

theorem inner_handAudio (i : Fin 8) (c : Context) (k : Chunk) (o : Options) (s : State) (hc : (s.slot i).context = some c)
    (hk : k.mismatch = none → 1 ≤ k.count) : Inner s (handAudio i c k o s) := by
  have h := inner_insertChunk i c k s hc hk
  unfold handAudio
  dsimp only
  generalize insertChunk i c k s = r at h
  exact (h.trans (Inner.setSlot_of r.1 i { r.1.slot i with run := runAfter k o r.2.1, traceFlag := o.trace } rfl rfl Iff.rfl)).trans
    (inner_offerFate _ _ _)

theorem inner_handCont (i : Fin 8) (c : Context) (k : Chunk) (s : State) (hc : (s.slot i).context = some c)
    (hk : k.mismatch = none → 1 ≤ k.count) : Inner s (handCont i c k s) := by
  have h0 : Inner s (s.setSlot i { s.slot i with run := some { sequence := k.sequence, start := k.index.getD 0, count := k.count } }) :=
    Inner.setSlot_of s i _ rfl rfl Iff.rfl
  exact (h0.trans (inner_insertChunk i c k _ (by simpa using hc) hk)).trans (inner_offerFate _ _ _)

theorem inner_breakRun (i : Fin 8) (x r : BitVec 16) (s : State) : Inner s (breakRun i x r s) :=
  (Inner.setSlot_of s i { s.slot i with run := none } rfl rfl Iff.rfl).trans (inner_offerSlot _ _ _ _)

/-- The slot a frame is traffic of has the context it is read with (R58). -/
theorem slotFor_context {f : LinkFrame} {s : State} {i : Fin 8} {c : Context} (h : slotFor f s = some (i, c)) :
    (s.slot i).context = some c := by
  unfold slotFor at h
  split at h
  · cases h
  · split at h
    · cases h
    · simp only [Option.map_eq_some_iff, Prod.mk.injEq] at h
      obtain ⟨d, hd, rfl, rfl⟩ := h
      exact hd

/-- A chunk of the stream's own format holds a frame at least (R61). -/
theorem readAudio_count {f : LinkFrame} {c : Context} {k : Chunk} {o : Options} (h : readAudio f c = .chunk k o) :
    k.mismatch = none → 1 ≤ k.count := by
  intro hm
  unfold readAudio at h
  split at h
  · cases h
  · split at h
    · cases h
    · split at h
      · cases h; cases hm
      · split at h
        · cases h
        · next hl =>
          cases h
          simp only [lengthRight, decide_eq_false_iff_not, not_not] at hl
          exact hl.1

theorem readCont_count {f : LinkFrame} {v : Slot} {c : Context} {k : Chunk} {o : Options} (h : readCont f v c = .chunk k o) :
    1 ≤ k.count := by
  unfold readCont at h
  split at h
  · cases h
  · split at h
    · cases h
    · split at h
      · cases h
      · next hl =>
        split at h
        · cases h
        · split at h
          · cases h
          · cases h
            simp only [lengthRight, decide_eq_false_iff_not, not_not] at hl
            exact hl.1

theorem inner_parseAudio (f : LinkFrame) (s : State) : Inner s (parseAudio f s) := by
  unfold parseAudio
  split
  · exact inner_discardFrame _ _ _ s
  · split
    · exact Inner.refl s
    · next hs =>
      split
      · exact inner_discardFrame _ _ _ s
      · exact Inner.refl s
      · next hk => exact inner_handAudio _ _ _ _ s (slotFor_context hs) (readAudio_count hk)

theorem inner_parseCont (f : LinkFrame) (s : State) : Inner s (parseCont f s) := by
  unfold parseCont
  split
  · exact inner_discardFrame _ _ _ s
  · split
    · exact Inner.refl s
    · next hs =>
      split
      · exact inner_discardFrame _ _ _ s
      · exact inner_breakRun _ _ _ s
      · next hk => exact inner_handCont _ _ _ s (slotFor_context hs) fun _ => readCont_count hk

/-! ## READ (R70, R71) -/

theorem keeps_readDiscarded (s : State) : Keeps s (readDiscarded s) := by
  unfold readDiscarded
  split
  · exact (keeps_finishFrame s).trans (inner_discardFrame _ _ _ _).keeps
  · exact keeps_finishFrame s

/-- What a READ carried removed (R71). -/
theorem keeps_removed (o : Outbound) (s : State) (ho : s.outbound = some o) :
    Keeps s (removeContent o.content { s with outbound := none }) := by
  unfold removeContent
  split
  · next hc =>
    refine { reply := fun hr => ⟨?_, fun o ho => by cases ho⟩, bound := fun hr => ⟨hr.1, by simp, by simp⟩ }
    obtain ⟨r, hf⟩ := hr.2 o ho hc
    have hn : s.interp.isSome ≠ true := fun h => by rw [hr.1.1 h] at hf; cases hf
    show (s.interp.isSome = true ↔ _)
    simp [hn]
  · refine (keeps_dropOutbound s).trans { reports := fun h => ?_ }
    unfold reportsBounded at *
    simp only [List.length_drop]
    simp only at h
    omega
  · exact keeps_dropOutbound s

theorem keeps_readEnded (f : LinkFrame) (s : State) : Keeps s (readEnded f s) := by
  unfold readEnded
  split
  · exact keeps_receive _ f s fun t _ => Keeps.refl t
  · split
    · exact (keeps_dropOutbound s).trans (keeps_readDiscarded _)
    · split
      · exact Keeps.refl s
      · next o ho =>
        split
        · exact keeps_removed o s ho
        · exact keeps_dropOutbound s

end Sys2Proof.Machine
end

