-- ==== Sys2Proof/Laws/Rings.lean ====
section
/-! SUPPORT. Rings: where ring words lie, that they do not meet, and a chunk read back from them (R33, R34, R86). -/

set_option Elab.async false

namespace Sys2Proof.Machine

/-- Sound blocks put every ring inside Sample Memory (R33). -/
theorem ringsLocated_of_blocksSound {s : State} (h : blocksSound s) : s.ringsLocated = true := by
  unfold State.ringsLocated
  rw [List.all_eq_true]
  intro i _
  have hc : (s.slots[i.val]) = s.slot i := rfl
  rw [hc]
  cases hx : (s.slot i).context with
  | none => rfl
  | some c =>
    simp only [Bool.and_eq_true, decide_eq_true_eq, List.all_eq_true]
    refine ⟨(h.2 i).2.2 c hx, fun b hb => ?_⟩
    have h1 := h.1 b
    by_contra hlt
    rw [if_neg hlt] at h1
    have h2 : (s.slot i).blocks.count b ≤ ((List.finRange 8).map fun i => (s.slot i).blocks.count b).sum :=
      List.single_le_sum (by intro x _; omega) _ (List.mem_map.2 ⟨i, List.mem_finRange i, rfl⟩)
    have h3 := List.count_pos_iff.2 hb
    unfold blockCount at h1
    omega

/-- A ring holds no block twice (R33). -/
theorem blocks_nodup_of_blocksSound {s : State} (h : blocksSound s) (i : Fin 8) : (s.slot i).blocks.Nodup := by
  rw [List.nodup_iff_count_le_one]
  intro b
  have h1 := h.1 b
  have h2 : (s.slot i).blocks.count b ≤ ((List.finRange 8).map fun i => (s.slot i).blocks.count b).sum :=
      List.single_le_sum (by intro x _; omega) _ (List.mem_map.2 ⟨i, List.mem_finRange i, rfl⟩)
  unfold blockCount at h1
  split at h1 <;> omega

/-- A stream has one channel or two (R30). -/
theorem channels_cases (c : Context) : c.channels.count = 1 ∨ c.channels.count = 2 := by cases c.channels <;> simp [Channels.count]

/-- A ring word lies in the ring (R34). -/
theorem ringWord_lt (c : Context) (x : Int) (ch : Nat) (hch : ch < c.channels.count) (h : 0 < ringFrames c) : ringWord c x ch < c.ringSize * 512 := by
  unfold ringWord
  have h1 : x % (ringFrames c : Int) < ringFrames c := Int.emod_lt_of_pos _ (by omega)
  have h2 : 0 ≤ x % (ringFrames c : Int) := Int.emod_nonneg _ (by omega)
  have h3 : (x % (ringFrames c : Int)).toNat + 1 ≤ ringFrames c := by omega
  have h4 := Nat.mul_le_mul_right c.channels.count h3
  have h5 : ringFrames c * c.channels.count ≤ c.ringSize * 512 := Nat.div_mul_le_self _ _
  rw [Nat.add_mul] at h4; omega

/-- Different places of a ring have different ring words (R34). -/
theorem ringWord_inj (c : Context) (x y : Int) (a b : Nat) (ha : a < c.channels.count) (hb : b < c.channels.count) (h : 0 < ringFrames c)
    (he : ringWord c x a = ringWord c y b) : x % (ringFrames c : Int) = y % (ringFrames c : Int) ∧ a = b := by
  unfold ringWord at he
  have h1 : 0 ≤ x % (ringFrames c : Int) := Int.emod_nonneg _ (by omega)
  have h2 : 0 ≤ y % (ringFrames c : Int) := Int.emod_nonneg _ (by omega)
  rcases channels_cases c with hc | hc <;> rw [hc] at he ha hb <;> omega

/-- Different ring words of a ring without a repeated block lie at different addresses (R34). -/
theorem ringAddress_inj {blocks : List Nat} (hn : blocks.Nodup) (a b : Nat) (ha : a < blocks.length * 512) (hb : b < blocks.length * 512)
    (he : ringAddress blocks a = ringAddress blocks b) : a = b := by
  unfold ringAddress at he
  have h1 : a / 512 < blocks.length := by omega
  have h2 : b / 512 < blocks.length := by omega
  rw [List.getD_eq_getElem _ _ h1, List.getD_eq_getElem _ _ h2] at he
  have h3 : blocks[a / 512] = blocks[b / 512] := by omega
  have h4 := (List.Nodup.getElem_inj_iff hn).1 h3
  omega

/-- A ring word lies in Sample Memory (R33, R34). -/
theorem ringAddress_lt {blocks : List Nat} (hb : ∀ b ∈ blocks, b < 128) (a : Nat) (ha : a < blocks.length * 512) : ringAddress blocks a < memoryWords := by
  unfold ringAddress memoryWords
  have h1 : a / 512 < blocks.length := by omega
  rw [List.getD_eq_getElem _ _ h1]
  have := hb _ (List.getElem_mem h1)
  omega

/-- A word that a sample of a chunk goes to, and no other sample of it, holds that sample afterwards (R34, R86). -/
theorem readWord_writeSamples_at (c : Context) (blocks : List Nat) (k front : Int) (xs : List Sample) : ∀ (j : Nat) (m : Memory) (n : Nat) (hn : n < xs.length),
    front ≤ k + ((j + n) / c.channels.count : Nat) → sampleAddress c blocks k (j + n) < memoryWords →
    (∀ q, j ≤ q → q < j + xs.length → q ≠ j + n → front ≤ k + (q / c.channels.count : Nat) → sampleAddress c blocks k (j + n) ≠ sampleAddress c blocks k q) →
    readWord (writeSamples c blocks k front j xs m) (sampleAddress c blocks k (j + n)) = some xs[n] := by
  induction xs with
  | nil => intro j m n hn; simp at hn
  | cons x xs ih =>
    intro j m n hn hf ha hd
    simp only [writeSamples]
    cases n with
    | zero =>
      rw [Nat.add_zero] at *
      rw [readWord_writeSamples_of_ne]
      · rw [if_neg (by omega)]; exact readWord_writeWord_same _ _ _ ha
      · intro q h1 h2 h3; exact hd q (by omega) (by simp only [List.length_cons]; omega) (by omega) h3
    | succ n =>
      have e : j + (n + 1) = (j + 1) + n := by omega
      rw [e] at hf ha hd ⊢
      have := ih (j + 1) (if k + (j / c.channels.count : Nat) < front then m else writeWord m (ringAddress blocks (ringWord c (k + (j / c.channels.count : Nat)) (j % c.channels.count))) x) n (by simpa using hn) hf ha
        (fun q h1 h2 h3 h4 => hd q (by omega) (by simp only [List.length_cons]; omega) h3 h4)
      rw [this]; simp

/-- Samples written at their ring words, those before `front` left out: each of the others can be read there, and every other word
reads as before (R34, R86). -/
theorem writeSamples_reads {s : State} (hs : blocksSound s) (i : Fin 8) (c : Context) (hctx : (s.slot i).context = some c) (start front : Int)
    (n : Nat) (xs : List Sample) (m : Memory) (hlen : xs.length = n * c.channels.count) (hcount : n ≤ ringFrames c) :
    let word := fun (j : Nat) => ringAddress (s.slot i).blocks (ringWord c (start + (j / c.channels.count : Nat)) (j % c.channels.count))
    let kept := fun (j : Nat) => j < xs.length ∧ front ≤ start + (j / c.channels.count : Nat)
    (∀ j, kept j → readWord (writeSamples c (s.slot i).blocks start front 0 xs m) (word j) = xs[j]?) ∧
    ∀ a, (∀ j, kept j → a ≠ word j) → readWord (writeSamples c (s.slot i).blocks start front 0 xs m) a = readWord m a := by
  have hlb := (hs.2 i).2.2 c hctx
  have hnd := blocks_nodup_of_blocksSound hs i
  have hb : ∀ b ∈ (s.slot i).blocks, b < 128 := by
    intro b hb
    have h1 := hs.1 b
    by_contra hlt
    rw [if_neg hlt] at h1
    have h2 : (s.slot i).blocks.count b ≤ ((List.finRange 8).map fun i => (s.slot i).blocks.count b).sum :=
      List.single_le_sum (by intro x _; omega) _ (List.mem_map.2 ⟨i, List.mem_finRange i, rfl⟩)
    have h3 := List.count_pos_iff.2 hb
    unfold blockCount at h1
    omega
  have hcc := channels_cases c
  have hpos : ∀ j, j < xs.length → 0 < ringFrames c := by
    intro j hj; rw [hlen] at hj; rcases hcc with h | h <;> rw [h] at hj <;> omega
  have hchpos : 0 < c.channels.count := by rcases hcc with h | h <;> omega
  have hlt : ∀ j, j < xs.length → ringWord c (start + (j / c.channels.count : Nat)) (j % c.channels.count) < (s.slot i).blocks.length * 512 := by
    intro j hj; rw [hlb]; exact ringWord_lt c _ _ (Nat.mod_lt _ hchpos) (hpos j hj)
  have hadr : ∀ j, j < xs.length → sampleAddress c (s.slot i).blocks start j < memoryWords := fun j hj => ringAddress_lt hb _ (hlt j hj)
  have hinj : ∀ j q, j < xs.length → q < xs.length → sampleAddress c (s.slot i).blocks start j = sampleAddress c (s.slot i).blocks start q → j = q := by
    intro j q hj hq he
    have h1 := ringAddress_inj hnd _ _ (hlt j hj) (hlt q hq) he
    obtain ⟨h2, h3⟩ := ringWord_inj c _ _ _ _ (Nat.mod_lt _ hchpos) (Nat.mod_lt _ hchpos) (hpos j hj) h1
    have h4 : (j / c.channels.count : Nat) < n := by rw [Nat.div_lt_iff_lt_mul hchpos, ← hlen]; exact hj
    have h5 : (q / c.channels.count : Nat) < n := by rw [Nat.div_lt_iff_lt_mul hchpos, ← hlen]; exact hq
    have h6 : (j / c.channels.count : Nat) = (q / c.channels.count : Nat) := by
      generalize (j / c.channels.count : Nat) = x at *
      generalize (q / c.channels.count : Nat) = y at *
      have hd : (ringFrames c : Int) ∣ ((start + x) - (start + y)) := Int.dvd_of_emod_eq_zero (by rw [Int.sub_emod, h2]; simp)
      obtain ⟨z, hz⟩ := hd
      have hz0 : z = 0 := by
        have p1 : -(ringFrames c : Int) < (ringFrames c : Int) * z := by omega
        have p2 : (ringFrames c : Int) * z < ringFrames c := by omega
        by_contra hne
        rcases lt_or_gt_of_ne hne with h | h
        · nlinarith
        · nlinarith
      subst hz0; omega
    have hA := Nat.div_add_mod j c.channels.count
    have hB := Nat.div_add_mod q c.channels.count
    rw [h6, h3] at hA; omega
  refine ⟨fun j hj => ?_, fun a hna => ?_⟩
  · have := readWord_writeSamples_at c (s.slot i).blocks start front xs 0 m j hj.1 (by simpa using hj.2) (by simpa using hadr j hj.1)
      (fun q _ h2 h3 _ hq => h3 (by have := hinj j q hj.1 (by simpa using h2) (by simpa using hq); omega))
    rw [List.getElem?_eq_getElem hj.1, ← this]; simp [sampleAddress]
  · exact readWord_writeSamples_of_ne _ _ _ _ _ _ _ _ (fun n _ h2 h3 => hna n ⟨by simpa using h2, h3⟩)

end Sys2Proof.Machine
end

