-- ==== Sys2Proof/Tests/Slice0.lean ====
section
/-! SUPPORT. The model's own tests: ill-formed commands, worked examples of the spec, and for every statement with
hypotheses a concrete state and operands that meet them, clause by clause. -/

set_option Elab.async false

namespace Sys2Proof.Tests

open Sys2Proof Sys2Proof.Machine

/-! ## Small states and frames -/

/-- The part after a start-up without an image: RUNNING, everything else as after reset. -/
def run1 : State := { State.reset with run := .running, port := .idle }

/-- The part RUNNING, its flash at work on something. -/
def porting (p : Port) : State := { State.reset with run := .running, port := p }

/-- The part with a control frame of these words in hand. -/
def inHand (n : Nat) (ws : List Word32) (s : State) : State :=
  { s with replyBuffer := .reserved, interp := some { sequence := 1, remaining := n, words := ws, records := [] } }

/-- The part LOCKED, house time 1,000 ticks ahead of the local count. -/
def locked (s : State) : State :=
  { s with clock := { s.clock with
      state := .locked, anchor := some { lc := 0, ht := 1000 }, lockRun := 4, settle := 2, adopted := some 49,
      lastSequence := some 1 } }

/-- A stereo stream of 24-bit samples at 48,000 Hz in two blocks. -/
def stereo : Context :=
  { streamId := 17, rate := .r48000, channels := .stereo, width := .w24, priority := 0, ringSize := 2, trim := 0,
    starveLimit := 100 }

/-- The part with that stream open in slot 0. -/
def open1 : State := openIn 0 stereo run1

/-- Slot 0 of `open1` in another state, with a queue, an origin and a read position. -/
def slotIn (x : SlotState) (q : List ChunkRecord) (o : Option Time) (f : Option Int) (s : State) : State :=
  s.setSlot 0 { open1.slot 0 with state := x, queue := q, origin := o, readPos := f }

/-- A record of `n` samples from index `k`. -/
def record (k : Int) (n : Nat) : ChunkRecord := { start := k, count := n, sequence := 7, bad := false, trace := false }

/-- A link frame that fell at local count 0, its words clocked in whole. -/
def frame (ws : List Word32) : LinkFrame := { arrival := 0, ignored := false, words := ws, count := ws.length, tail := 0 }

/-- The part with that frame at its Link Port. -/
def assembling (f : LinkFrame) (s : State) : State := { s with inbound := some f }

theorem arrives_assembling (k : BitVec 8) (f : LinkFrame) (s : State)
    (h : f.ignored = false ∧ f.tail = 0 ∧ f.kindCode = some k ∧ s.run = .running ∧ s.interp = none) : Arrives k f (assembling f s) :=
  ⟨rfl, h⟩

/-- The settings of a fresh part as an image. -/
def plain (b : Option (Fin 8)) : Image := settingsInForce 0x0203 b run1

/-- Words of an image sector. -/
def imageSector (x : Image) : Vector Word32 23 := Vector.ofFn fun i => (imageWords x).getD i.val 0

/-- Words of a preset sector. -/
def presetSector (t : RouteTable) : Vector Word32 17 := Vector.ofFn fun i => (presetWords t).getD i.val 0

/-- A route table with one entry. -/
def oneRoute : RouteTable := run1.routes.set 3 (some { slot := 1, channel := 1, lane := 2, gain := 5 })

/-- The next state after a command, if there is one. -/
def after (i : Instr) (s : State) : Option State :=
  match exec i s with
  | .next t => some t
  | .fault _ => none
  | .refused _ => none

/-! ## Ill-formed commands are refused -/

theorem test_ill_formed_moments :
    ∀ l ∈ [LinkStage.shift [] 32, .shift [0x01100011] 4000],
      (Instr.audio l).wellFormed = false ∧ (Instr.cont l).wellFormed = false ∧ (Instr.beacon l).wellFormed = false ∧
      (Instr.read l).wellFormed = false ∧ (Instr.control (.link l)).wellFormed = false ∧
      (Instr.unknownKindFrame l).wellFormed = false := by decide

theorem test_ill_formed_records :
    (Instr.unknown 0x10 1).wellFormed = false ∧ (Instr.unknown 0xE7 0).wellFormed = false ∧
    (Instr.sectorWriteEnd (List.replicate 22 0)).wellFormed = false := by decide

theorem test_well_formed :
    (Instr.audio (.shift [0x01100011] 31)).wellFormed = true ∧ (Instr.unknownKindFrame .rise).wellFormed = true ∧
    (Instr.unknown 0xE7 3).wellFormed = true ∧ (Instr.sectorWriteEnd (List.replicate 17 0)).wellFormed = true := by decide

/-! ## Worked examples of the spec -/

/-- 1.10: one beacon in LOCKED. -/
theorem test_one_beacon_in_locked :
    let s : State := { run1 with clock := { run1.clock with
      state := .locked, anchor := some { lc := 1000000000, ht := 5000000000 }, epsilon := -214700, lockRun := 4, settle := 2,
      lastSequence := some 1, adopted := some 49 } }
    let f := { frame [0x03100031, 0x00020000, 1, 729607472] with arrival := 1024576000 }
    (after (.beacon .rise) (assembling f s)).map (fun t => (t.clock.anchor, t.clock.epsilon)) =
      some (some { lc := 1024576000, ht := 5024574771 }, -214743) := by decide +kernel

/-- 2.13: where the frames of a stereo stream in blocks 64 to 79 go. -/
theorem test_where_frames_go :
    ([0, 700, -3, 4796] : List Int).map (fun k => ringAddress (List.range' 64 16) (ringWord { stereo with ringSize := 16 } k 1))
      = [32769, 34169, 40955, 34169] := by decide +kernel

/-- 3.9: the sum over a payload, and its samples. -/
theorem test_check_and_samples :
    onesSum [0x1234FFFE, 0x01000000] = 0x1333 ∧
    (unpack { stereo with channels := .mono, width := .w16 } 3 [0x1234FFFE, 0x01000000]).map (·.toInt) = [1192960, -512, 65536] := by
  decide +kernel

/-- 4.9: an index at 44,100 Hz, from a PT rounded and from a PT truncated. -/
theorem test_index_at_44100 :
    indexOfPt .r44100 3000000000 3000055728 = 100 ∧ indexOfPt .r44100 3000000000 3000055727 = 100 := by decide

/-- 5.10 and 5.12: due positions, steps and values. -/
theorem test_due_positions_and_steps :
    duePosition .r48000 0 10240 = 1310720 ∧ duePosition .r44100 0 137 = 16111 ∧ duePosition .r44100 0 32904 = 3869510 ∧
    nominalStep .r44100 .r48000 = 246625075 ∧ clockTerm 246625075 (-214743) = -12330 ∧ clockTerm 268435456 4295 = 268 ∧
    slewOf 246625075 75 = 1200 ∧ interpolate 1000 3000 16111 = 1492 := by decide

/-- 6.8: a route gain and a duck gain, rounded half up. -/
theorem test_mix_arithmetic :
    scaleBy (scaleBy 1000003 16384) 8192 = 500002 ∧ scaleBy (-2500001) 20000 = -3051759 ∧
    scaleBy (-8000000) 20000 = -9765625 ∧ clampTo (-8388608) 8388607 (500000 - 9765625) = -8388608 := by decide

/-- 6.9: the duck gain's moves. -/
theorem test_duck_gain_moves :
    moveGain 4096 16384 = 4112 ∧ moveGain 16384 4096 = 16368 ∧ moveGain 4096 4096 = 4096 := by decide

/-- R113: at 48,000 Hz the counts that 512 divides are strobes. -/
theorem test_strobe_counts :
    { run1 with localCount := 1024 }.strobeDue = true ∧ { run1 with localCount := 1025 }.strobeDue = false := by decide

/-- R150, R151: records of 11.2 read from their words. -/
theorem test_records_read :
    Decode.next 1 [0x15020001, 0xFFFFFFFF] = .record (.trim 1 0xFFFFFFFF) ∧ Decode.next 1 [0x13010009] = .record (.cut 9) ∧
    Decode.next 1 [0x11280000, 0] = .record (.malformed 0x11) ∧ Decode.next 1 [0xE7010000] = .record (.unknown 0xE7 1) ∧
    Decode.next 1 [0x02020000, 0] = .wrongLength 0x02 := by decide +kernel

/-- 11.2: OPEN, CUE-ADD and CLOCK-SET read from their words, every field in its place. -/
theorem test_long_records_read :
    Decode.next 1 [0x10040003, 0x11350204, 0xFFFFFFFE, 0x00000064] = .record (.openSlot 3 0x11 0x35 2 4 0xFFFFFFFE 100) ∧
    Decode.next 1 [0x30040007, 0x00000002, 0x00000005, 0x04020800] = .record (.cueAdd 7 0x200000005 4 2 0x800) ∧
    Decode.next 1 [0x40050031, 0x0100001E, 0x012C0010, 2458, 246] = .record (.clockSet 0x31 1 30 300 16 2458 246) := by
  decide +kernel

/-- R52: TOOLONG is offered at the first bit of the 385th word, and the rest of the frame comes to nothing. -/
theorem test_too_long_at_once :
    let s := assembling (frame (List.replicate 384 0x01100011)) { run1 with classes := Vector.replicate 32 .note }
    (after (.audio (.shift [] 1)) s).map (fun t => (t.reports.length, (after (.audio .rise) t).map (fun u => (u.reports.length, u.inbound))))
      = some (1, some (1, none)) := by decide +kernel

/-- R7: the arrival count of a beacon is the local count of its select-fall. -/
theorem test_arrival_is_latched :
    ((after (.beacon .fall) { run1 with localCount := 77 }).bind fun t =>
      (after (.beacon (.shift [0x03100031, 0x00020000, 0, 9] 0)) { t with localCount := 99 }).bind fun u =>
        (after (.beacon .rise) u).bind (·.clock.anchor)) = some { lc := 77, ht := 9 } := by decide +kernel

/-- R159, R63 (log 33): an erased preset sector passes its sum and fails at its entries. -/
theorem test_erased_preset : judgePreset (Vector.replicate 17 0xFFFFFFFF) = .bad .content := by decide +kernel

/-! ## Witnesses: steps and sound states -/

/-- A RUNNING part with an edge waiting; the default capture source makes the edge change nothing (R8). -/
def waiting : State := { run1 with pending := [.edgeRise] }

theorem blocksSound_run1 : blocksSound run1 := by
  refine ⟨fun b => ?_, fun i => ?_⟩
  · have h8 : ((List.finRange 8).map fun i => (run1.slot i).blocks.count b).sum = 0 := by
      rw [show (List.finRange 8).map (fun i => (run1.slot i).blocks.count b) = List.replicate 8 0 from rfl]; rfl
    rw [blockCount, h8, Nat.add_zero]
    exact count_fullFreeLists .one b
  · revert i; decide +kernel

theorem ringsSound_waiting : ringsSound waiting :=
  ⟨blocksSound_run1, ⟨fun _ h => (by cases h), fun h => (by cases h)⟩⟩

theorem blocksSound_open1 : blocksSound open1 :=
  blocksSound_openIn 0 stereo run1 blocksSound_run1 (by decide) (by decide +kernel)

theorem ringsSound_open1 : ringsSound open1 :=
  ⟨blocksSound_open1, ⟨fun _ h => (by cases h), fun h => (by cases h)⟩⟩

theorem witness_StepTakesFrontCommand :
    { run1 with pending := [.edgeRise, .lineReset] }.pending = Instr.edgeRise :: [.lineReset] := rfl

theorem witness_EmptyQueueWorksOrTicks :
    run1.pending = [] ∧ owed run1 = some (.sampleStrobe .render) ∧ owed { run1 with localCount := 1 } = none := by decide +kernel

theorem witness_SoundStepsGoOnSoundly : ringsSound waiting := ringsSound_waiting

theorem witness_StepsKeepMemoryForm :
    memorySound { waiting with memory := [(0, 1), (65535, 2)] } ∧
    step { waiting with memory := [(0, 1), (65535, 2)] } = .next { run1 with memory := [(0, 1), (65535, 2)] } :=
  ⟨by unfold memorySound; decide, rfl⟩

/-- A part whose tables all hold something: a RECALL whose preset is still being read, a route, a queue of two records. -/
def holding : State :=
  { open1.setSlot 0 { open1.slot 0 with queue := [record 0 128, record 128 128] } with
    pending := [.edgeRise], routes := oneRoute, staged := .filling
    cues := [{ id := 255, fireTime := 5, action := .recall 7, late := false }] }

theorem queueFits_two (c : Context) (v : Slot) (h : v.queue = [record 0 128, record 128 128]) (hp : v.readPos = none)
    (hc : c = stereo) : queueFits v c := by
  subst hc
  have hb : baseOf v = some 0 := by simp [baseOf, h, hp, record]
  refine ⟨by rw [h]; decide, by rw [h]; decide, by rw [h]; decide, fun b e => ?_⟩
  rw [hb] at e; cases e; rw [h]; decide

theorem queuesSound_holding : queuesSound holding := by
  intro i
  by_cases h : i = 0
  · subst h
    refine ⟨by decide +kernel, fun c hc => ?_⟩
    have e : (holding.slot 0).context = some stereo := by decide +kernel
    rw [e] at hc
    exact queueFits_two c _ (by decide +kernel) (by decide +kernel) (Option.some.inj hc).symm
  · refine slotQueueSound_of_nil ?_ ?_ <;> revert i <;> decide +kernel

theorem tablesSound_holding : tablesSound holding :=
  ⟨by decide +kernel, ⟨by decide +kernel, by decide +kernel, fun _ h => (by cases h)⟩, routesDistinct_of (by decide +kernel)⟩

theorem witness_StepsKeepTableBounds :
    step holding = .next { holding with pending := [] } ∧ reportsBounded holding ∧ cuesBounded holding ∧ tablesSound holding ∧
    driftSound holding ∧ queuesSound holding :=
  ⟨rfl, by unfold reportsBounded; decide +kernel, by unfold cuesBounded; decide +kernel, tablesSound_holding,
   by unfold driftSound; decide +kernel, queuesSound_holding⟩

theorem witness_StepsKeepClockRanges : driftSound waiting ∧ settingsSound waiting ∧ step waiting = .next run1 := by
  refine ⟨?_, ?_, rfl⟩
  · unfold driftSound; decide
  · unfold settingsSound; decide

theorem witness_StepsKeepLaneRanges : lanesSound waiting ∧ step waiting = .next run1 :=
  ⟨⟨by decide, fun _ h => by cases h⟩, rfl⟩

/-- A part that waits, and one with a reply of 381 words and a record still to come, whose next step is that record. -/
theorem witness_StepsKeepReplyBuffer :
    (replySound waiting ∧ replyBounded waiting ∧ step waiting = .next run1) ∧
    (let s : State := { inHand 1 [0x14010000] run1 with
       pending := [.edgeRise]
       interp := some { sequence := 1, remaining := 1, words := [0x14010000],
                        records := [{ code := 0x41, answer := done (List.replicate 380 0) }] } }
     replyBounded s ∧ ∃ t, step s = .next t) := by
  refine ⟨⟨⟨by decide, fun _ h => by cases h⟩, ⟨fun _ h => (by cases h), fun _ h => (by cases h), fun _ h => (by cases h)⟩, rfl⟩,
    ⟨fun p h => ?_, fun _ h => (by cases h), fun _ h => (by cases h)⟩, _, rfl⟩
  cases h
  decide +kernel

/-! ## Witnesses: resets and start-up -/

/-- RESTART as the record in hand (R157). -/
def restarting : State := inHand 1 [0x03010000] run1

theorem witness_RestartKeepsCountAndReply :
    (∃ p, restarting.interp = some p ∧ restarting.handing .restart = true ∧ p.hasRoom 1 = true) ∧
    run1.run = .running ∧ run1.interp = none :=
  ⟨⟨_, rfl, by decide +kernel, by decide⟩, rfl, rfl⟩

/-- The part at the end of start-up's image read. -/
def reading0 : State := { State.reset with port := .startImage .clocking }

theorem witness_ImageReadEndsStartUp :
    reading0.port = .startImage .clocking ∧
    (judgeImage (imageSector (plain none)) = .good (plain none) ∧ (plain none).bootPreset = none) ∧
    (judgeImage (imageSector (plain (some 7))) = .good (plain (some 7)) ∧ (plain (some 7)).bootPreset = some 7) ∧
    judgeImage (Vector.replicate 23 0) = .bad .magic := by decide +kernel

/-- Images whose words are right but for one: the magic, the version, the length, the check word, and, with a right check word,
a tag that is no tag. -/
theorem witness_ImageReadEndsStartUp_causes :
    let ws := imageSector (plain none)
    let bad := imageSector { plain none with deviceTag := 0xFFFF }
    let halves := fun (w : Word32) => (w.extractLsb' 16 16).toNat + (w.extractLsb' 0 16).toNat
    (judgeImage (ws.set 0 0) = .bad .magic ∧ judgeImage (ws.set 1 2) = .bad .version ∧ judgeImage (ws.set 2 18) = .bad .length ∧
      judgeImage (ws.set 3 0) = .bad .check ∧ judgeImage bad = .bad .range) ∧
    (bad[0] = 0x54313801 ∧ bad[1] = 1 ∧ bad[2] = 19) ∧
    (((bad.toList.drop 4).map halves).sum - 1) % 65535 + 1 = (bad[3].extractLsb' 0 16).toNat ∧
    bad[4].extractLsb' 0 16 = 0xFFFF := by decide +kernel

/-- The part at the end of start-up's preset read. -/
def reading1 : State := { State.reset with port := .startPreset 0 .clocking, imageStatus := .loaded }

theorem witness_BootPresetEndsStartUp :
    reading1.port = .startPreset 0 .clocking ∧ reading1.imageStatus = .loaded ∧ reading1.defaultCause = none ∧
    judgePreset (presetSector oneRoute) = .good oneRoute ∧ judgePreset (Vector.replicate 17 1) = .bad .check ∧
    judgePreset (presetSector (oneRoute.set 4 oneRoute[3])) = .bad .content := by decide +kernel

/-- Settings at the ends of their ranges. -/
def edgeImage : Image :=
  { plain (some 0) with
    settings := { (plain none).settings with holdoverLimit := 600, gate := 246, window := 24576 }, nominalDrift := -1288490,
    output := { rate := .r96000, ko := 245760, rt := 2458 } }

theorem witness_SavedImageReadsBack :
    (imageSector edgeImage).toList = imageWords edgeImage ∧ edgeImage.deviceTag ≠ 0xFFFF ∧
    (1 ≤ edgeImage.settings.holdoverLimit ∧ edgeImage.settings.holdoverLimit ≤ 600) ∧
    (246 ≤ edgeImage.settings.gate ∧ edgeImage.settings.gate ≤ 245760) ∧
    (25 ≤ edgeImage.settings.window ∧ edgeImage.settings.window ≤ 24576) ∧
    (-Config.driftLimit ≤ edgeImage.nominalDrift ∧ edgeImage.nominalDrift ≤ Config.driftLimit) ∧
    edgeImage.output.ko ≤ 245760 ∧ (2458 ≤ edgeImage.output.rt ∧ edgeImage.output.rt ≤ 983040) := by decide +kernel

theorem witness_StoredPresetReadsBack :
    (presetSector oneRoute).toList = presetWords oneRoute ∧ routesDistinct oneRoute.toList = true := by decide +kernel

/-! ## Witnesses: the Image Port -/

/-- The part waiting to read preset 7, since local count 0. -/
def recalling : State := porting (.reading { preset := 7, dest := .live } (.waiting false 0))

/-- A wait at its bound and one tick before it. -/
theorem witness_ReadWaitEnds :
    ∀ d ∈ [ReadDest.live, .staged], ∀ n ∈ [49152000, 49151999],
      let s := { porting (.reading { preset := 7, dest := d } (.waiting false 0)) with localCount := BitVec.ofNat 48 n, staged := .filling }
      s.port = .reading { preset := 7, dest := d } (.waiting false 0) ∧ s.staged = .filling ∧
      (49152000 ≤ Machine.sdiff s.localCount 0 ↔ n = 49152000) := by decide +kernel

/-- Start-up's two waits, a resume asked for or not, each at its bound and one tick before it. -/
theorem witness_ReadWaitEnds_startUp :
    ∀ b ∈ [true, false], ∀ n ∈ [49152000, 49151999],
      ({ State.reset with port := .startImage (.waiting b 0), localCount := BitVec.ofNat 48 n }.port = .startImage (.waiting b 0)) ∧
      (let s := { reading1 with port := .startPreset 7 (.waiting b 0), localCount := BitVec.ofNat 48 n }
       s.port = .startPreset 7 (.waiting b 0) ∧ s.imageStatus = .loaded ∧ s.defaultCause = none) ∧
      (49152000 ≤ Machine.sdiff (BitVec.ofNat 48 n) 0 ↔ n = 49152000) := by decide +kernel

/-- The part reading preset 0 over a SAVE. -/
def readingOver (ph : SuspendPhase) : State :=
  porting (.suspended { job := .save, content := [1, 2], step := .erasing, since := 0 } 5 false { preset := 0, dest := .staged } ph)

theorem witness_ReadWaitEnds_suspended :
    ∀ n ∈ [49152009, 49152008],
      (∃ w, { readingOver (.suspending 9) with localCount := BitVec.ofNat 48 n }.port = .suspended w 5 false { preset := 0, dest := .staged } (.suspending 9)) ∧
      (∃ w, { readingOver (.deciding 9) with localCount := BitVec.ofNat 48 n }.port = .suspended w 5 false { preset := 0, dest := .staged } (.deciding 9)) ∧
      (49152000 ≤ Machine.sdiff (BitVec.ofNat 48 n) 9 ↔ n = 49152009) :=
  fun n hn => ⟨⟨_, rfl⟩, ⟨_, rfl⟩, by revert n; decide +kernel⟩

/-- A SAVE of two words at a step. -/
def saving (x : WriteStep) : SectorWrite := { job := .save, content := [1, 2], step := x, since := 0 }

/-- Every step of a write, its wait at its bound and one tick before it. -/
theorem witness_WriteGoesInOrder :
    (∀ (x : WriteStep) (n : Time), { porting (.writing (saving x)) with localCount := n }.port = .writing (saving x) ∧
      (saving x).step = x ∧ (saving x).since = 0) ∧
    49152000 ≤ Machine.sdiff 49152000 0 ∧ Machine.sdiff 49151999 0 < 49152000 :=
  ⟨fun _ _ => ⟨rfl, rfl, rfl⟩, by decide +kernel⟩

/-- A read that ends in READING and one that ends in SUSPENDED, at every step of the write beneath, with a suspend issued or without. -/
theorem witness_RecallReadReplacesRoutes :
    (∀ d, (porting (.reading { preset := 0, dest := d } .clocking)).port = .reading { preset := 0, dest := d } .clocking) ∧
    (∀ x b d, (porting (.suspended (saving x) 5 b { preset := 0, dest := d } .clocking)).port =
      .suspended (saving x) 5 b { preset := 0, dest := d } .clocking) ∧
    judgePreset (presetSector oneRoute) = .good oneRoute ∧ judgePreset (Vector.replicate 17 1) = .bad .check :=
  ⟨fun _ => rfl, fun _ _ _ => rfl, by decide +kernel, by decide +kernel⟩

/-- A record commanded with no frame in hand. -/
theorem taken_alone (i : Instr) (s : State) (h : s.standsAlone = true) : Taken i s := Or.inl h

/-- A record in hand whose reply fits. -/
theorem taken_inHand (i : Instr) (s : State) (code : BitVec 8) (n : Nat) (h : s.handing i = true)
    (hs : recordShape i = some (code, n)) (hr : s.replyRoom n = true) : Taken i s := Or.inr ⟨h, code, n, hs, hr⟩

theorem witness_WritesBeginFromIdle :
    (0xFFFE : BitVec 16) ≠ 0xFFFF ∧ Taken (.save 0xFFFE (BitVec.ofNat 8 (7 : Fin 8).val)) run1 ∧
    (Taken (.save 0xFFFE 0xFF) (locked run1) ∧ (locked run1).clock.state = .locked ∧ (locked run1).port = .idle) ∧
    Taken (.save 0xFFFE (BitVec.ofNat 8 (7 : Fin 8).val)) (inHand 1 [0x6002FFFE, 7] run1) ∧
    Taken (.presetPut (BitVec.ofNat 16 (0 : Fin 8).val)) (inHand 1 [0x61010000] recalling) ∧ recalling.port ≠ .idle :=
  ⟨by decide, taken_alone _ _ rfl, ⟨taken_alone _ _ rfl, rfl, rfl⟩, taken_inHand _ _ 0x60 1 (by decide +kernel) rfl (by decide),
   taken_inHand _ _ 0x61 1 (by decide +kernel) rfl (by decide), by decide⟩

/-! ## Witnesses: frames -/

/-- The clauses of an assembly, at 384 words, at the first bit past them, at a READ, at bits left over, in an ignored frame
and in an empty one. -/
theorem witness_LinkPortScreensFrames :
    (run1.ringsLocated = true ∧ run1.run = .running ∧ State.reset.run = .starting ∧ run1.inbound = none) ∧
    (∀ f, (assembling f run1).inbound = some f ∧ (assembling f run1).ringsLocated = run1.ringsLocated) ∧
    ({ frame [] with ignored := true }.ignored = true ∧ (frame []).words = [] ∧ (frame []).tail = 0) ∧
    (let f := frame (List.replicate 384 0x01100011)
     f.ignored = false ∧ f.kindCode ≠ some 0x05 ∧ f.count + ([] : List Word32).length = 384 ∧ max f.tail 0 = 0 ∧ 0 < max f.tail 1) ∧
    ((frame []).count + (List.replicate 385 (0x01100011 : Word32)).length = 385 ∧
      (frame [0x05100000]).kindCode = some 0x05) ∧
    (∀ k ∈ [(1 : BitVec 8), 2, 3, 4, 0, 6, 255], { frame [k ++ (0x100000 : BitVec 24)] with tail := 1 }.kindCode = some k) ∧
    ({ frame [] with tail := 31 }.words = [] ∧ 0 < { frame [] with tail := 31 }.tail) := by
  refine ⟨by decide +kernel, fun _ => ⟨rfl, rfl⟩, by decide, by decide +kernel, by decide +kernel, by decide +kernel, by decide⟩

theorem witness_ParserDiscardsByReason :
    Arrives 0x06 (frame [0x06200000]) (assembling (frame [0x06200000]) run1) ∧
    (∀ w ∈ ([0x03200000, 0x03110000, 0x03100000] : List Word32), Arrives 0x03 (frame [w, 0, 0]) (assembling (frame [w, 0, 0]) run1)) ∧
    versionOne 0x03200000 = false ∧ (versionOne 0x03110000 = true ∧ optionCount 0x03110000 ≠ 0) ∧
    (versionOne 0x03100000 = true ∧ optionCount 0x03100000 = 0 ∧ (frame [0x03100000, 0, 0]).words.length ≠ 4) := by
  refine ⟨arrives_assembling _ _ _ (by decide), fun w hw => ?_, by decide, by decide, by decide⟩
  simp only [List.mem_cons, List.not_mem_nil, or_false] at hw
  rcases hw with rfl | rfl | rfl <;> exact arrives_assembling _ _ _ (by decide)

/-- CONTROL frames of another version, with an option, and of one word. -/
theorem witness_ParserDiscardsByReason_control :
    (∀ f ∈ [frame [0x0420FFFE, 0], frame [0x0411FFFE, 0], frame [0x0410FFFF]], Arrives 0x04 f (assembling f run1)) ∧
    versionOne 0x0420FFFE = false ∧ (versionOne 0x0411FFFE = true ∧ optionCount 0x0411FFFE ≠ 0) ∧
    (versionOne 0x0410FFFF = true ∧ optionCount 0x0410FFFF = 0 ∧ kindField 0x0410FFFF = 0xFFFF ∧ run1.replyBuffer = .empty) := by
  refine ⟨fun f hf => ?_, by decide, by decide, by decide⟩
  simp only [List.mem_cons, List.not_mem_nil, or_false] at hf
  rcases hf with rfl | rfl | rfl <;> exact arrives_assembling _ _ _ (by decide)

/-- An audio frame of stream 17, AUDIO or CONT, of one stereo sample and sequence 5: bits 23..8 of its word 0, and what follows its
fixed header. -/
def streamFrame (cont : Bool) (x : BitVec 16) (ws : List Word32) : LinkFrame :=
  frame ((if cont then [(0x02 : BitVec 8) ++ x ++ (17 : BitVec 8), 0x00050001] else [(0x01 : BitVec 8) ++ x ++ (17 : BitVec 8), 0x00050001, 0, 5]) ++ ws)

theorem arrives_streamFrame (cont : Bool) (x : BitVec 16) (hx : x ∈ ([0x2000, 0x1100, 0x1000] : List (BitVec 16))) (ws : List Word32)
    (s : State) (h : s.run = .running ∧ s.interp = none) :
    Arrives (if cont then 0x02 else 0x01) (streamFrame cont x ws) (assembling (streamFrame cont x ws) s) := by
  refine arrives_assembling _ _ _ ⟨rfl, rfl, ?_, h.1, h.2⟩
  simp only [List.mem_cons, List.not_mem_nil, or_false] at hx
  rcases hx with rfl | rfl | rfl <;> cases cont <;> rfl

/-- A frame without options is laid out as header and payload. -/
theorem laidOut_plain {cont : Bool} {f : LinkFrame} {fixed payload : List Word32} (h : f.words = fixed ++ payload)
    (hl : fixed.length = if cont then 2 else 4) (h0 : optionCount (frameWord f 0) = 0) : laidOut cont f [] payload :=
  ⟨fixed, by simpa using h, hl, h0.symm, by simp, by simp⟩

/-- An AUDIO and a CONT of another version, for a FROZEN slot, shorter than its options, with an option of an unknown type that is not
marked skippable, and with one word of payload too few and one too many. -/
theorem witness_ParserDiscardsByReason_audio (cont : Bool) :
    (∀ x ∈ ([0x2000, 0x1100, 0x1000] : List (BitVec 16)), ∀ ws s, s.run = .running → s.interp = none →
      Arrives (if cont then 0x02 else 0x01) (streamFrame cont x ws) (assembling (streamFrame cont x ws) s)) ∧
    (∀ f, (assembling f open1).ringsLocated = true) ∧
    (versionOne (frameWord (streamFrame cont 0x2000 []) 0) = false ∧ versionOne (frameWord (streamFrame cont 0x1000 []) 0) = true ∧
      versionOne (frameWord (streamFrame cont 0x1100 []) 0) = true) ∧
    (let s := slotIn .frozen [] none none open1
     s.ringsLocated = true ∧ (s.slot 0).state = .frozen ∧ ∀ j : Fin 8, j ≠ 0 → (s.slot j).state = .closed) ∧
    (∀ x ∈ ([(0x1100, []), (0x1100, [0x05010000, 1, 2]), (0x1000, [1]), (0x1000, [1, 2, 3])] : List (BitVec 16 × List Word32)),
      slotFor (streamFrame cont x.1 x.2) (assembling (streamFrame cont x.1 x.2) open1) = some (0, stereo)) ∧
    (streamFrame cont 0x1100 []).words.length < (if cont then 2 else 4) + optionCount (frameWord (streamFrame cont 0x1100 []) 0) ∧
    (¬ ∃ os payload, laidOut cont (streamFrame cont 0x1100 [0x05010000, 1, 2]) os payload) ∧
    (∀ payload ∈ ([[1], [1, 2, 3]] : List (List Word32)),
      laidOut cont (streamFrame cont 0x1000 payload) [] payload ∧ ¬ payloadFits stereo 1 payload) ∧ formatOff stereo [] = none := by
  refine ⟨fun x hx ws s h h' => arrives_streamFrame cont x hx ws s ⟨h, h'⟩, fun _ => show open1.ringsLocated = true by decide +kernel,
    by cases cont <;> decide, by decide +kernel, by cases cont <;> decide +kernel, by cases cont <;> decide, ?_, ?_, rfl⟩
  · rintro ⟨os, payload, h⟩
    have := laidOut_walk h
    revert this
    have e : walkOptions cont 15 (optionWords (streamFrame cont 0x1100 [0x05010000, 1, 2]) (if cont then 2 else 4)) Options.none = none := by
      cases cont <;> decide
    rw [e]; exact fun h => by cases h
  · intro payload hp
    simp only [List.mem_cons, List.not_mem_nil, or_false] at hp
    rcases hp with rfl | rfl <;>
      exact ⟨laidOut_plain (fixed := (streamFrame cont 0x1000 []).words) (by cases cont <;> rfl) (by cases cont <;> rfl)
        (by cases cont <;> decide), by unfold payloadFits; decide⟩

/-- A CONTROL frame of one record. -/
def controlFrame (w : Word32) : LinkFrame := frame [w, 0x00010001, 0x01010000]

theorem witness_ControlFrameMeetsReplyBuffer :
    (∀ w ∈ ([0x0410FFFE, 0x0410FFFF, 0x04100000] : List Word32),
      Arrives 0x04 (controlFrame w) (assembling (controlFrame w) run1) ∧ versionOne w = true ∧ optionCount w = 0) ∧
    kindField 0x0410FFFE = run1.deviceTag ∧ kindField 0x0410FFFF = 0xFFFF ∧ run1.replyBuffer = .empty ∧
    Arrives 0x04 (controlFrame 0x0410FFFE)
      (assembling (controlFrame 0x0410FFFE) { run1 with replyBuffer := .full { sequence := 1, records := [] } }) ∧
    (kindField 0x04100000 ≠ run1.deviceTag ∧ kindField 0x04100000 ≠ 0xFFFF) := by
  refine ⟨fun w hw => ?_, by decide, by decide, rfl, arrives_assembling _ _ _ (by decide), by decide⟩
  simp only [List.mem_cons, List.not_mem_nil, or_false] at hw
  rcases hw with rfl | rfl | rfl <;> exact ⟨arrives_assembling _ _ _ (by decide), by decide, by decide⟩

/-- A frame of each kind, and a READ of another version, that find a control frame in hand: one record to answer, or a RESTART. -/
theorem witness_ControlFrameMeetsReplyBuffer_inHand :
    ∀ r ∈ ([0x01010000, 0x03010000] : List Word32),
      ∀ w ∈ ([0x01100011, 0x02100011, 0x03100031, 0x0410FFFE, 0x06100000, 0x05200000] : List Word32),
        let s := assembling (frame [w]) (inHand 1 [r] run1)
        s.inbound = some (frame [w]) ∧ (frame [w]).ignored = false ∧ s.run = .running ∧ s.interp ≠ none ∧ ringsSound s ∧
        (frame [w]).tail = 0 ∧ (frame [w]).kindCode = some (w.extractLsb' 24 8) ∧
        (w = 0x05200000 → versionOne (frameWord (frame [w]) 0) = false) := by
  intro r _ w hw
  refine ⟨rfl, rfl, rfl, fun h => (by cases h), ⟨blocksSound_run1, fun _ h => (by cases h), fun h => (by cases h)⟩, rfl, rfl, ?_⟩
  rintro rfl
  decide

/-- A RESTART in hand is finished before an AUDIO frame that arrives, which it abandons (R53). -/
theorem test_restart_in_hand_abandons :
    (after (.audio .rise) (assembling (frame [0x01200011]) restarting)).map (fun t => (t.run, t.reports.length, t.inbound)) =
      some (.starting, 0, none) := by decide +kernel

/-- A part whose READ, its word 0 in, carries this content. -/
def shifting (c : OutContent) : State :=
  { assembling (frame [0x05100000]) run1 with outbound := some { content := c, words := [0x0A10FFFE] } }

/-- A READ with nothing in, with word 0 in, and with its one outbound word clocked out to the last bit or to the last but one. -/
theorem witness_ReadChoosesAndRemoves :
    ((assembling (frame []) run1).inbound = some (frame []) ∧ (frame []).ignored = false ∧ (frame []).words = []) ∧
    ((0x05100000 : Word32).extractLsb' 24 8 = 0x05 ∧ (0x05200000 : Word32).extractLsb' 24 8 = 0x05) ∧
    (versionOne 0x05100000 = true ∧ versionOne 0x05200000 = false) ∧
    ((assembling (frame [0x05200000]) run1).run = .running ∧ (assembling (frame [0x05200000]) run1).interp = none) ∧
    (∀ c : OutContent, (shifting c).inbound = some (frame [0x05100000]) ∧ ∃ o, (shifting c).outbound = some o ∧ o.content = c ∧
      32 * (o.words.length + 1) ≤ 32 * 2 + 0 ∧ 32 * 1 + 31 < 32 * (o.words.length + 1)) :=
  ⟨⟨rfl, rfl, rfl⟩, by decide, by decide, ⟨rfl, rfl⟩, fun _ => ⟨rfl, _, rfl, rfl, by simp, by simp⟩⟩

/-- R70: the outbound frame's first word goes out with the READ's second word, and zeros go out after its end. -/
theorem test_words_out :
    (shifting .empty).wordOut = 0x0A10FFFE ∧
    (after (.read (.shift [0] 0)) (shifting .empty)).map State.wordOut = some 0 := by decide +kernel

/-- `open1` with slot 0 replaced by one of its stream, a frame at the Link Port. -/
def withFrame (g : LinkFrame) (v : Slot) : State := assembling g (open1.setSlot 0 v)

theorem ringsSound_withFrame (g : LinkFrame) (v : Slot) (hb : v.blocks = (open1.slot 0).blocks) (hc : v.context = (open1.slot 0).context)
    (hx : v.state ≠ .closed) : ringsSound (withFrame g v) := by
  have hs : ∀ i : Fin 8, ((withFrame g v).slot i).blocks = (open1.slot i).blocks ∧
      ((withFrame g v).slot i).context = (open1.slot i).context ∧
      (((withFrame g v).slot i).state = .closed ↔ (open1.slot i).state = .closed) := by
    intro i
    by_cases h : i = 0
    · subst h
      have e : (withFrame g v).slot 0 = v := rfl
      rw [e]
      exact ⟨hb, hc, ⟨fun h => absurd h hx, fun h => absurd h (by decide +kernel)⟩⟩
    · have e : (withFrame g v).slot i = open1.slot i := by
        have h' : (0 : Nat) ≠ i.val := fun e => h (Fin.ext e.symm)
        simp [withFrame, assembling, State.setSlot, State.slot, h']
      rw [e]; exact ⟨rfl, rfl, Iff.rfl⟩
  refine ⟨⟨fun b => ?_, fun i => ?_⟩, fun _ h => (by cases h), fun h => (by cases h)⟩
  · rw [← blocksSound_open1.1 b]
    unfold blockCount
    rw [List.map_congr_left (g := fun i => (open1.slot i).blocks.count b) fun i _ => by rw [(hs i).1]]
    rfl
  · rw [(hs i).1, (hs i).2.1, (hs i).2.2]; exact blocksSound_open1.2 i

/-- An AUDIO frame of stream 17: two stereo samples at PT 5. -/
def audioFrame : LinkFrame := frame [0x01100011, 0x00010002, 0, 5, 1, 2, 3, 4]

/-- A CONT frame of stream 17 with this sequence and count: one stereo sample. -/
def contFrame (w1 : Word32) : LinkFrame := frame [0x02100011, w1, 1, 2]

/-- A run whose newest frame has sequence 4 and holds indices 10 to 12. -/
def run4 : Run := { sequence := 4, start := 10, count := 3 }

/-- Slot 0 of `open1` in another state, with a queue, an origin and a read position. -/
def slotAs (x : SlotState) (q : List ChunkRecord) (o : Option Time) (f : Option Int) (r : Option Run) : Slot :=
  { open1.slot 0 with state := x, queue := q, origin := o, readPos := f, run := r }

/-- An AUDIO frame, and a CONT frame in sequence with its run, for a slot in any state that takes them. -/
theorem witness_AudioFilesItsChunk (x : SlotState) (hx : x ≠ .closed) (hf : x ≠ .frozen) (q : List ChunkRecord) (o : Option Time)
    (f : Option Int) (r : Option Run) :
    (Arrives 0x01 audioFrame (withFrame audioFrame (slotAs x q o f r)) ∧ ringsSound (withFrame audioFrame (slotAs x q o f r)) ∧
      versionOne (frameWord audioFrame 0) = true ∧ slotFor audioFrame (withFrame audioFrame (slotAs x q o f r)) = some (0, stereo) ∧
      laidOut false audioFrame [] [1, 2, 3, 4] ∧ formatOff stereo [] = none ∧ payloadFits stereo 2 [1, 2, 3, 4]) ∧
    (let g := contFrame 0x00050001
     Arrives 0x02 g (withFrame g (slotAs x q o f (some run4))) ∧ ringsSound (withFrame g (slotAs x q o f (some run4))) ∧
      versionOne (frameWord g 0) = true ∧ slotFor g (withFrame g (slotAs x q o f (some run4))) = some (0, stereo) ∧
      laidOut true g [] [1, 2] ∧ payloadFits stereo 1 [1, 2] ∧ (0x00050001 : Word32).extractLsb' 16 16 = run4.sequence + 1) := by
  have h17 : ∀ g : LinkFrame, g = audioFrame ∨ g = contFrame 0x00050001 → ∀ r, slotFor g (withFrame g (slotAs x q o f r)) = some (0, stereo) := by
    intro g hg r
    rcases hg with rfl | rfl <;> cases x <;> first | exact absurd rfl hx | exact absurd rfl hf | rfl
  exact ⟨⟨arrives_assembling _ _ _ ⟨rfl, rfl, by decide, rfl, rfl⟩, ringsSound_withFrame _ _ rfl rfl hx, by decide, h17 _ (.inl rfl) r,
      laidOut_plain (fixed := [0x01100011, 0x00010002, 0, 5]) rfl rfl (by decide), rfl, by unfold payloadFits; decide⟩,
    arrives_assembling _ _ _ ⟨rfl, rfl, by decide, rfl, rfl⟩, ringsSound_withFrame _ _ rfl rfl hx, by decide, h17 _ (.inr rfl) _,
    laidOut_plain (fixed := [0x02100011, 0x00050001]) rfl rfl (by decide), by unfold payloadFits; decide, by decide⟩

/-- The chunk of the AUDIO frame, or of a CONT frame at index 13. -/
def chunkOf (pt : Option Time) (index : Option Int) : Chunk :=
  { pt := pt, index := index, count := 2, sequence := 1, samples := [1, 2, 3, 4], bad := false, trace := false, mismatch := none }

/-- The fate of a chunk in each case of R79, among them floor(F) inside the chunk, which is filed (R86), a queue of 31 records, one
that ends the ring's window at 512 frames, and a CONT chunk 13 frames on, met again and filed. -/
theorem witness_AudioFilesItsChunk_fates :
    let at_ := fun (x : SlotState) (q : List ChunkRecord) (o : Option Time) (f : Option Int) => withFrame audioFrame (slotAs x q o f none)
    let fate := fun (s : State) (c : Context) (k : Chunk) => fateOf s (s.slot 0) c k (startIndex (s.slot 0) c k)
    let k := chunkOf (some 5) none
    let away := fun (d : Time) => { at_ .priming [] none none with clock := { (locked run1).clock with anchor := some { lc := 0, ht := 5 - d } } }
    let ones := fun (n : Nat) => (List.range n).map fun j => record (2 + j) 1
    fate (at_ .draining [] none none) stereo k = .refused .closing ∧
    fate (at_ .priming [] none none) stereo { k with mismatch := some 0x15, count := 600 } = .mismatch ∧
    fate (at_ .priming [] none none) stereo { k with count := 513 } = .refused .tooBig ∧
    fate (at_ .playing [] (some 5) (some (2 * 2 ^ 28))) stereo k = .late ∧
    fate (away 196608001) stereo k = .refused .far ∧ fate (away 196608000) stereo k = .filed ∧
    fate (at_ .priming [record 0 1] (some 5) none) stereo k = .refused .duplicate ∧
    fate (at_ .priming [record 1 1] (some 5) none) stereo k = .refused .overlap ∧
    fate (at_ .priming (ones 32) (some 5) none) stereo k = .refused .full ∧
    fate (at_ .priming (ones 31) (some 5) none) stereo k = .filed ∧
    fate (at_ .priming [record 512 1] (some 5) none) stereo k = .refused .noSpace ∧
    fate (at_ .priming [record 511 1] (some 5) none) stereo k = .filed ∧
    fate (at_ .playing [] (some 5) (some (2 ^ 28))) stereo k = .filed ∧
    filedStart ((at_ .playing [] (some 5) (some (2 ^ 28))).slot 0) 0 = 1 ∧
    fate (at_ .priming [record 13 1] (some 5) none) stereo (chunkOf none (some 13)) = .refused .duplicate ∧
    fate (at_ .priming [record 11 2] (some 5) none) stereo (chunkOf none (some 13)) = .filed := by decide +kernel

/-- A frame whose FORMAT names another format, and one whose CHECK fails (R60, R63). -/
theorem witness_AudioFilesItsChunk_options :
    (laidOut false (frame [0x01110011, 0x00010002, 0, 5, 0x01010015, 1, 2]) [[0x01010015]] [1, 2] ∧
      formatOff stereo [[0x01010015]] = some 0x15) ∧
    (laidOut false (frame [0x01120011, 0x00010002, 0, 5, 0x03020000, 1, 1, 2, 3, 4]) [[0x03020000, 1]] [1, 2, 3, 4] ∧
      checkOff [[0x03020000, 1]] [1, 2, 3, 4] = true ∧ checkOff [[0x03020000, 10]] [1, 2, 3, 4] = false) := by
  refine ⟨⟨⟨[0x01110011, 0x00010002, 0, 5], rfl, rfl, by decide, ?_, fun k h1 h2 => ?_⟩, by decide⟩,
    ⟨⟨[0x01120011, 0x00010002, 0, 5], rfl, rfl, by decide, ?_, fun k h1 h2 => ?_⟩, by decide⟩⟩
  · unfold optionTaken; decide
  · exact (List.length_filter_le _ _).trans (by decide)
  · unfold optionTaken; decide
  · exact (List.length_filter_le _ _).trans (by decide)

/-- R76 at the two ends of the range. -/
theorem witness_RoundedPtMeetsItsIndex :
    (-(2 ^ 37) ≤ (-(2 ^ 37) : Int) ∧ (-(2 ^ 37) : Int) ≤ 2 ^ 37) ∧
    indexOfPt .r32000 7 (addSpan 7 (roundHalfUp (2 ^ 37 * 24576000) 32000)) = 2 ^ 37 ∧
    indexOfPt .r44100 7 (addSpan 7 (roundHalfUp (-(2 ^ 37) * 24576000) 44100)) = -(2 ^ 37) := by decide +kernel

/-- A CONT in sequence, out of sequence, without a run, one whose count does not fit its payload, and one whose option does not parse. -/
theorem witness_ContMovesOrBreaksItsRun :
    (∀ g ∈ [contFrame 0x00050001, contFrame 0x00060001, contFrame 0x00050002, frame [0x02110011, 0x00050001, 0x05010000, 1, 2]],
      ∀ r ∈ [none, some run4], let s := withFrame g (slotAs .priming [] (some 0) none r)
      Arrives 0x02 g s ∧ s.ringsLocated = true ∧ versionOne (frameWord g 0) = true ∧ slotFor g s = some (0, stereo) ∧ (s.slot 0).run = r) ∧
    (∀ w1 ∈ ([0x00050001, 0x00060001, 0x00050002] : List Word32), laidOut true (contFrame w1) [] [1, 2]) ∧ payloadFits stereo 1 [1, 2] ∧ ¬ payloadFits stereo 2 [1, 2] ∧
    ((0x00050001 : Word32).extractLsb' 16 16 = run4.sequence + 1 ∧ (0x00060001 : Word32).extractLsb' 16 16 ≠ run4.sequence + 1) ∧
    ¬ ∃ os payload, laidOut true (frame [0x02110011, 0x00050001, 0x05010000, 1, 2]) os payload := by
  refine ⟨fun g hg r hr => ?_, fun w hw => ?_, by unfold payloadFits; decide,
    by unfold payloadFits; decide, by decide, ?_⟩
  · simp only [List.mem_cons, List.not_mem_nil, or_false] at hg hr
    rcases hg with rfl | rfl | rfl | rfl <;> rcases hr with rfl | rfl <;>
      exact ⟨arrives_assembling _ _ _ ⟨rfl, rfl, by decide, rfl, rfl⟩, by decide +kernel, by decide, by decide +kernel, rfl⟩
  · simp only [List.mem_cons, List.not_mem_nil, or_false] at hw
    rcases hw with rfl | rfl | rfl <;> exact laidOut_plain (fixed := [0x02100011, _]) rfl rfl (by decide)
  · rintro ⟨os, payload, h⟩
    have := laidOut_walk h
    rw [show walkOptions true 15 (optionWords (frame [0x02110011, 0x00050001, 0x05010000, 1, 2]) (if true = true then 2 else 4))
      Options.none = none by decide] at this
    cases this

/-! ## Witnesses: the Time Base -/

/-- A BEACON of master 49. -/
def beaconWords : List Word32 := [0x03100031, 0x00020000, 1, 729607472]

/-- A clock that follows master 49 on a source, its latch and last sequence as given. -/
def clockOn (x : CaptureSource) (l : EdgeLatch) (q : Option (BitVec 16)) (t : TimeBase) : State :=
  assembling (frame beaconWords) { run1 with clock := { t with
    settings := { ClockSettings.default with source := x }, latch := l, lastSequence := q, adopted := some 49 } }

/-- A BEACON that is FOREIGN, STALE by its own sequence again, UNPAIRED by an EMPTY and by an OVERRUN latch, and one that meets a
FREE clock with a local count under link and under edge capture. -/
theorem witness_BeaconBuildsModelOrIsForeign :
    (∀ t : State, t.run = .running → t.interp = none → Arrives 0x03 (frame beaconWords) (assembling (frame beaconWords) t)) ∧
    (frame beaconWords).words = [0x03100031, 0x00020000, 1, 729607472] ∧ versionOne 0x03100031 = true ∧ optionCount 0x03100031 = 0 ∧
    (let s : State := { run1 with clock := { run1.clock with settings := { ClockSettings.default with masterId := 50 } } }
     s.clock.settings.masterId ≠ 0 ∧ some s.clock.settings.masterId ≠ some (kindField 0x03100031)) ∧
    (run1.clock.settings.masterId = 0 ∧ run1.clock.adopted = none ∧ run1.clock.lastSequence = none ∧ run1.clock.state = .free ∧
      run1.clock.settings.source = .link) ∧
    (let s := clockOn .link .empty (some 2) run1.clock
     s.clock.adopted = some (kindField 0x03100031) ∧ s.clock.lastSequence = some 2 ∧
       ¬ 0 < ((0x00020000 : Word32).extractLsb' 16 16 - 2).toInt) ∧
    (∀ l ∈ [EdgeLatch.empty, .overrun 9], (clockOn .edge l (some 1) run1.clock).clock.settings.source = .edge ∧
      (clockOn .edge l (some 1) run1.clock).clock.latch = l ∧ 0 < ((0x00020000 : Word32).extractLsb' 16 16 - 1).toInt) ∧
    ((clockOn .edge (.held 9) none run1.clock).clock.latch = .held 9 ∧ (clockOn .edge (.held 9) none run1.clock).clock.state = .free) :=
  ⟨fun _ h h' => arrives_assembling _ _ _ ⟨rfl, rfl, by decide, h, h'⟩, rfl, by decide⟩

/-- The LOCKED clock of 1.10. -/
def lockedClock : State :=
  { run1 with clock := { run1.clock with
      state := .locked, anchor := some { lc := 1000000000, ht := 5000000000 }, epsilon := -214700, lockRun := 4, settle := 2,
      lastSequence := some 1, adopted := some 49 } }

/-- A clock with a model on a drift word of 0, 24,576,000 ticks old, and a beacon whose error is `e`. -/
def steerable (st : ClockState) (lockRun outlierRun settle : Nat) : State :=
  { run1 with clock := { run1.clock with
      state := st, anchor := some { lc := 0, ht := 1000 }, lockRun := lockRun, outlierRun := outlierRun, settle := settle,
      lastSequence := some 1, adopted := some 49 } }

/-- The beacon whose error at `steerable` is `e`. -/
def beaconOff (e : Int) : LinkFrame :=
  { frame [0x03100031, 0x00020000, 0, BitVec.ofInt 32 (24577000 + e)] with arrival := 24576000 }

/-- Errors at W, 4 W and G and one beyond each, of either sign, at every kind of clock with a model: gated, its first and third
outlier, each lock run from 0 to 3, a span at its two ends. -/
theorem witness_LockedBeaconSteersModel :
    (∀ st lockRun outlierRun settle e, Arrives 0x03 (beaconOff e) (assembling (beaconOff e) (steerable st lockRun outlierRun settle)) ∧
      (beaconOff e).words = [0x03100031, 0x00020000, 0, BitVec.ofInt 32 (24577000 + e)] ∧
      (steerable st lockRun outlierRun settle).clock.anchor = some { lc := 0, ht := 1000 } ∧
      (steerable st lockRun outlierRun settle).clock.settings.masterId = 0 ∧
      (steerable st lockRun outlierRun settle).clock.adopted = some (kindField 0x03100031) ∧
      (steerable st lockRun outlierRun settle).clock.lastSequence = some 1 ∧
      (steerable st lockRun outlierRun settle).clock.state = st ∧ (steerable st lockRun outlierRun settle).clock.lockRun = lockRun ∧
      (steerable st lockRun outlierRun settle).clock.outlierRun = outlierRun ∧
      (steerable st lockRun outlierRun settle).clock.settle = settle) ∧
    (let s : State := { steerable .acquiring 0 0 0 with
       clock := { (steerable .acquiring 0 0 0).clock with adopted := none, lastSequence := none } }
     Arrives 0x03 (beaconOff 0) (assembling (beaconOff 0) s) ∧ s.clock.settings.masterId = 0 ∧ s.clock.adopted = none) ∧
    (versionOne 0x03100031 = true ∧ optionCount 0x03100031 = 0 ∧ 0 < ((0x00020000 : Word32).extractLsb' 16 16 - 1).toInt) ∧
    (∀ e ∈ ([246, 247, 984, 985, 2458, 2459, -246, -247, -984, -985, -2458, -2459] : List Int),
      Machine.sdiff (Decode.time48 0 (BitVec.ofInt 32 (24577000 + e))) (throughAnchor { lc := 0, ht := 1000 } 0 24576000) = e) ∧
    (ClockSettings.default.window = 246 ∧ ClockSettings.default.gate = 2458) ∧ (1 + 1 < 3 ∧ 3 ≤ 2 + 1) ∧ (4 ≤ 3 + 1 ∧ 2 + 1 < 4) ∧
    (245760 ≤ Machine.sdiff 24576000 0 ∧ Machine.sdiff 24576000 0 ≤ 2 ^ 31) :=
  ⟨fun _ _ _ _ _ => ⟨arrives_assembling _ _ _ ⟨rfl, rfl, rfl, rfl, rfl⟩, rfl, rfl, rfl, rfl, rfl, rfl, rfl, rfl, rfl⟩,
   ⟨arrives_assembling _ _ _ ⟨rfl, rfl, rfl, rfl, rfl⟩, rfl, rfl⟩, by decide, by decide +kernel, by decide, by decide, by decide, by decide +kernel⟩

theorem witness_EdgeIsLatched :
    run1.run = .running ∧ { run1.clock.settings with source := .edge }.source = .edge ∧
    State.reset.run = .starting ∧ run1.clock.settings.source = .link := by decide

theorem witness_SilenceEntersHoldover :
    (lockedClock.clock.state = .locked ∧ (steerable .acquiring 1 0 1).clock.state = .acquiring) ∧
    49152000 ≤ Machine.sdiff { lockedClock with localCount := 49152000 }.localCount lockedClock.clock.silenceStart ∧
    Machine.sdiff { lockedClock with localCount := 49151999 }.localCount lockedClock.clock.silenceStart < 49152000 := by
  decide +kernel

/-- A HOLDOVER at its limit and one tick before it, streams in every state a slot can have. -/
theorem witness_HoldoverEndsInFree :
    ∀ n ∈ [737280000, 737279999], ∀ x ∈ [SlotState.closed, .priming, .playing, .starved, .draining, .frozen],
      let s := { slotIn x [record 0 128] (some 5) (some 0) open1 with
        localCount := BitVec.ofNat 48 n, clock := { lockedClock.clock with state := .holdover } }
      s.clock.state = .holdover ∧ (s.slot 0).state = x ∧
      (s.clock.settings.holdoverLimit * 24576000 ≤ Machine.sdiff s.localCount s.clock.holdoverStart ↔ n = 737280000) := by decide +kernel

theorem witness_ClockSetReplacesSettings :
    let x : ClockSettings := { ClockSettings.default with linkLatency := 300, gate := 245760, window := 25, holdoverLimit := 600 }
    (1 ≤ x.holdoverLimit ∧ x.holdoverLimit ≤ 600) ∧ (246 ≤ x.gate ∧ x.gate ≤ 245760) ∧ (25 ≤ x.window ∧ x.window ≤ 24576) ∧
    x.masterId = run1.clock.settings.masterId ∧ x.source = run1.clock.settings.source ∧ run1.clock.state ≠ .holdover ∧
    (inHand 1 [0x40050000, 0x00000258, 0x012C0000, 245760, 25] run1).handing (.clockSet x.masterId
      (BitVec.ofNat 8 x.source.code) (BitVec.ofNat 16 x.holdoverLimit) x.linkLatency x.edgeLatency (natWord x.gate)
      (natWord x.window)) = true ∧
    (inHand 1 [0x40050000, 0x00000258, 0x012C0000, 245760, 25] run1).replyRoom 1 = true := by decide +kernel

/-- CLOCK-SET of another master, in each clock state; and of the same one in HOLDOVER, its time at the new limit and one past it. -/
theorem witness_ClockSetReplacesSettings_changes :
    (∀ i st n, let s := { steerable st 1 0 1 with localCount := n }; Taken i s ∧ s.clock.state = st ∧
      (ClockSettings.default.masterId = s.clock.settings.masterId ∧ ClockSettings.default.source = s.clock.settings.source)) ∧
    ¬ ((7 : BitVec 16) = (steerable .locked 1 0 1).clock.settings.masterId) ∧
    ClockSettings.default.holdoverLimit = 30 ∧ (steerable .holdover 1 0 1).clock.holdoverStart = 0 ∧
    Machine.sdiff 737280000 0 ≤ (30 : Nat) * 24576000 ∧ (30 : Nat) * 24576000 < Machine.sdiff 737280001 0 :=
  ⟨fun _ _ _ => ⟨taken_alone _ _ rfl, rfl, rfl, rfl⟩, by decide, by decide, by decide, by decide +kernel⟩

/-! ## Witnesses: the Stream Table -/

/-- A stream with the largest ring. -/
def large : Context := { stereo with ringSize := 64, trim := -2457600, starveLimit := 10000 }

theorem contextInRange_large : contextInRange large := by unfold contextInRange; decide

theorem witness_OpenTakesLowestBlocks :
    contextInRange large ∧ Taken (openCommand 7 large) run1 ∧ (run1.slot 7).state = .closed ∧
    lookupSlot run1 large.streamId = none ∧ large.ringSize ≤ regionBlocks run1.partition ∧
    large.ringSize ≤ (run1.freeLists[(regionOf run1.partition large.streamId).val]).length :=
  ⟨contextInRange_large, taken_alone _ _ rfl, by decide, by decide +kernel, by decide, by decide +kernel⟩

/-- The part in four regions. -/
def fourRegions : State := { run1 with partition := .four, freeLists := fullFreeLists .four }

theorem witness_OpenRefusesInOrder :
    contextInRange large ∧ (Taken (openCommand 0 large) open1 ∧ (open1.slot 0).state ≠ .closed) ∧
    (Taken (openCommand 1 large) open1 ∧ (open1.slot 1).state = .closed ∧ lookupSlot open1 large.streamId ≠ none) ∧
    (Taken (openCommand 0 large) fourRegions ∧ (fourRegions.slot 0).state = .closed ∧
      lookupSlot fourRegions large.streamId = none ∧ regionBlocks fourRegions.partition < large.ringSize) :=
  ⟨contextInRange_large, ⟨taken_alone _ _ rfl, by decide +kernel⟩,
   ⟨taken_alone _ _ rfl, by decide +kernel, by decide +kernel⟩,
   ⟨taken_alone _ _ rfl, by decide +kernel, by decide +kernel, by decide⟩⟩

theorem witness_OpenRefusesInOrder_nospace :
    let s := { run1 with freeLists := #v[List.range' 65 63, [], [], []] }
    Taken (openCommand 0 large) s ∧ (s.slot 0).state = .closed ∧ lookupSlot s large.streamId = none ∧
    large.ringSize ≤ regionBlocks s.partition ∧
    (s.freeLists[(regionOf s.partition large.streamId).val]).length < large.ringSize :=
  ⟨taken_alone _ _ rfl, by decide, by decide +kernel, by decide, by decide +kernel⟩

/-- A slot of `open1` in any state keeps its context and its records are taken. -/
theorem witness_CloseAndEndLetStreamsGo (x : SlotState) :
    let s := slotIn x [record 0 128] (some 5) (some 0) open1
    (s.slot 0).context = some stereo ∧ (s.slot 0).state = x ∧ ∀ i, Taken i s :=
  ⟨by cases x <;> decide +kernel, by cases x <;> decide +kernel, fun _ => taken_alone _ _ (by cases x <;> rfl)⟩

theorem witness_CloseAndEndLetStreamsGo_refused :
    Taken (.closeSlot (BitVec.ofNat 16 (1 : Fin 8).val)) open1 ∧ Taken (.endStream (BitVec.ofNat 16 (1 : Fin 8).val)) open1 ∧
    (open1.slot 1).state = .closed := ⟨taken_alone _ _ rfl, taken_alone _ _ rfl, by decide +kernel⟩

theorem witness_CutClearAndTrimActOnOpenSlots :
    let s := slotIn .frozen [record 0 128] (some 5) (some 0) open1
    (s.slot 0).context = some stereo ∧ (s.slot 0).state = .frozen ∧ Taken (.clear 0) s ∧
    ((-2457600 : Int) ≤ 2457600 ∧ (2457600 : Int) ≤ 2457600) ∧ Taken (.trim 0 (signedWord 2457600)) s ∧
    Taken (.cut (BitVec.ofNat 16 (0 : Fin 8).val)) open1 ∧ (open1.slot 0).state = .priming :=
  ⟨by decide +kernel, by decide +kernel, taken_alone _ _ rfl, by decide, taken_alone _ _ rfl, taken_alone _ _ rfl,
   by decide +kernel⟩

/-- CUT on a CLOSED and on a FROZEN slot, CLEAR on a CLOSED and on an open one, TRIM on a CLOSED one. -/
theorem witness_CutClearAndTrimActOnOpenSlots_refused :
    (∀ i, Taken i run1 ∧ Taken i open1 ∧ Taken i (slotIn .frozen [] none none open1)) ∧ (run1.slot 0).state = .closed ∧
    (open1.slot 0).state ≠ .frozen ∧ ((slotIn .frozen [] none none open1).slot 0).state = .frozen :=
  ⟨fun _ => ⟨taken_alone _ _ rfl, taken_alone _ _ rfl, taken_alone _ _ rfl⟩, by decide, by decide +kernel, by decide +kernel⟩

/-- The first value beyond each range, of every width the statement names. -/
theorem witness_ArgumentsOutOfRangeAreRefused :
    (∀ i, Taken i run1) ∧
    (∀ x ∈ [(4, (4 : BitVec 16)), (8, 8), (16, 16), (256, 256), (601, 601), (10001, 10001), (16385, 16385)], x.1 ≤ x.2.toNat) ∧
    (∀ x ∈ [(1, (0 : BitVec 16)), (10, 9)], x.2.toNat < x.1) ∧
    ((3 : BitVec 16).toNat ≠ 1 ∧ (3 : BitVec 16).toNat ≠ 2 ∧ (3 : BitVec 16).toNat ≠ 4) ∧
    (∀ x ∈ [(2, (2 : BitVec 8)), (3, 3), (4, 4), (8, 8), (16, 16), (32, 32), (65, 65)], x.1 ≤ x.2.toNat) ∧
    (∀ b ∈ ([0x05, 0x65, 0x31, 0x3D, 0x34, 0x37] : List (BitVec 8)),
      (b.toNat / 16 < 1 ∨ 5 < b.toNat / 16) ∨ (b.toNat / 4 % 4 < 1 ∨ 2 < b.toNat / 4 % 4) ∨ (b.toNat % 4 < 1 ∨ 2 < b.toNat % 4)) ∧
    (∀ x ∈ [(16385, (16385 : Word32)), (245761, 245761), (24577, 24577), (983041, 983041)], x.1 ≤ x.2.toNat) ∧
    (∀ x ∈ [(2458, (2457 : Word32)), (246, 245), (25, 24)], x.2.toNat < x.1) ∧
    ((BitVec.ofInt 32 (-2457601)).toInt < -2457600 ∧ 2457600 < (2457601 : Word32).toInt ∧
      8 ≤ ((0x88000000 : Word32).extractLsb' 24 4).toNat ∧ 2 ≤ ((0x80200000 : Word32).extractLsb' 20 4).toNat ∧
      4 ≤ ((0x80040000 : Word32).extractLsb' 16 4).toNat) :=
  ⟨fun _ => taken_alone _ _ rfl, by decide, by decide, by decide, by decide, by decide, by decide, by decide, by decide⟩

/-- A mono stream open in slot 0. -/
def mono1 : State := openIn 0 { stereo with channels := .mono } run1

/-- ROUTE-PUT of channel 1 of a slot whose stream has one channel. -/
theorem witness_ArgumentsOutOfRangeAreRefused_channel :
    Taken (.routePut 15 0x80100000) mono1 ∧
    ∃ (i : Fin 8) (x : Context), i.val = ((0x80100000 : Word32).extractLsb' 24 4).toNat ∧ (mono1.slot i).state ≠ .closed ∧
      (mono1.slot i).context = some x ∧ x.channels.count ≤ ((0x80100000 : Word32).extractLsb' 20 4).toNat :=
  ⟨taken_alone _ _ rfl, 0, { stereo with channels := .mono }, by decide +kernel⟩

theorem witness_PartitionNeedsAllClosed :
    Taken (.partition (BitVec.ofNat 16 PartitionMode.four.regions)) run1 ∧ (∀ i : Fin 8, (run1.slot i).state = .closed) ∧
    Taken (.partition (BitVec.ofNat 16 PartitionMode.four.regions)) open1 ∧ ∃ i : Fin 8, (open1.slot i).state ≠ .closed :=
  ⟨taken_alone _ _ rfl, by decide +kernel, taken_alone _ _ rfl, 0, by decide +kernel⟩

/-! ## Witnesses: the Renderer and the Lane Mixer -/

/-- Slots at a strobe with the index at 0: PLAYING, STARVED and DRAINING with it held and with it beyond every record, PLAYING in a gap
before a later record, and CLOSED; each alone at work. -/
theorem witness_StrobeAdvancesStreams :
    ∀ x ∈ [SlotState.playing, .starved, .draining, .closed, .frozen], ∀ q ∈ [[record 0 128], [record (-1) 1], [record 1 128]],
      let s := slotIn x q (some 1000) (some 0) open1
      s.ringsLocated = true ∧ s.strobeDue = true ∧ (s.slot 0).state = x ∧ (s.slot 0).context = some stereo ∧
      (s.slot 0).readPos = some 0 ∧ (s.slot 0).queue = q ∧ (∀ j : Fin 8, j ≠ 0 → (s.slot j).state = .closed) ∧
      ((∃ r ∈ q, r.start ≤ (0 : Int) / 2 ^ 28 ∧ (0 : Int) / 2 ^ 28 ≤ r.endIndex) ↔ q = [record 0 128]) ∧
      ((∀ r ∈ q, r.endIndex < (0 : Int) / 2 ^ 28) ↔ q = [record (-1) 1]) := by decide +kernel

/-- A PRIMING slot without a due time, one whose due time lies right at the span limit, one tick before it, and one whose due index is
128: its first record is late and its second starts it, or waits where it begins at 129. -/
theorem witness_StrobeAdvancesStreams_priming :
    (let s := slotIn .priming [record 0 128] none none open1
     s.ringsLocated = true ∧ s.strobeDue = true ∧ (s.slot 0).state = .priming ∧ (s.slot 0).readPos = none ∧ (s.slot 0).origin = none) ∧
    (∀ t ∈ ([1000 - 2 ^ 46, 1001 - 2 ^ 46, 1000 - 65536] : List Int), ∀ k ∈ ([128, 129] : List Int),
      let o : Time := BitVec.ofInt 48 t
      let s := locked (slotIn .priming [record 0 128, record k 128] (some o) none open1)
      let d := addSpan (addSpan 1000 s.output.ko) (-stereo.trim)
      s.ringsLocated = true ∧ s.strobeDue = true ∧ s.clock.state = .locked ∧ s.houseTime = some 1000 ∧ (s.slot 0).origin = some o ∧
      (s.slot 0).context = some stereo ∧ (s.slot 0).readPos = none ∧ (2 ^ 46 ≤ Machine.sdiff d o ↔ t = 1000 - 2 ^ 46) ∧
      (t = 1000 - 65536 → Machine.sdiff d o * stereo.rate.hz / 375 / 65536 = 128 ∧
        (s.slot 0).queue.filter (fun r => !decide (r.endIndex < 128)) = [record k 128] ∧
        ((offerEach .chunkLate 0 [7] (s.setSlot 0 { s.slot 0 with queue := [record k 128] })).slot 0).state = .priming)) := by
  decide +kernel

/-- Two PLAYING streams of different priorities at work on one lane. -/
theorem witness_MixFormsLaneValues :
    let s : State := { open1 with
      mixDue := true
      contributions := #v[{ state := .playing, priority := 0, channels := 2, values := some [1000003, -5] },
        { state := .playing, priority := 1, channels := 1, values := some [-2500001] }, .none, .none, .none, .none, .none, .none]
      routes := (oneRoute.set 4 (some { slot := 0, channel := 0, lane := 2, gain := 16384 })).set 5
        (some { slot := 1, channel := 0, lane := 2, gain := 20000 }) }
    s.ringsLocated = true ∧ s.mixDue = true := by decide +kernel

theorem witness_StreamStartsWhenDue :
    let s := locked (slotIn .priming [record 0 128] (some 1000) none open1)
    s.strobeDue = true ∧ (s.slot 0).state = .priming ∧ s.clock.state = .locked ∧
    dueOf s 0 s.localCount = some (stereo, 1000, 1000) ∧ Machine.sdiff 1000 1000 < 2 ^ 46 ∧ (s.slot 0).readPos = none ∧
    (s.slot 0).queue = [record 0 128] ∧ (∀ r ∈ [record 0 128], dueIndex .r48000 1000 1000 ≤ r.endIndex) ∧
    (record 0 128).start ≤ dueIndex .r48000 1000 1000 := by decide +kernel

theorem witness_StarvedResumesDrainedCloses :
    (let s := slotIn .starved [record 0 128] (some 1000) (some 0) open1
     s.strobeDue = true ∧ (s.slot 0).readPos = some 0 ∧ (s.slot 0).state = .starved ∧
       findIndex (s.slot 0).queue (floorF 0) = .held (record 0 128)) ∧
    (let s := slotIn .draining [] (some 1000) (some 0) open1
     (s.slot 0).context = some stereo ∧ s.strobeDue = true ∧ (s.slot 0).readPos = some 0 ∧ (s.slot 0).state = .draining ∧
       findIndex (s.slot 0).queue (floorF 0) = .beyond) := by decide +kernel

/-- A STARVED stream at its limit and one strobe before it, a fault pending or none, under each class, the report queue with room. -/
theorem witness_StarveLimitCuts :
    ∀ n ∈ [4800, 4799], ∀ b ∈ [true, false], ∀ k ∈ [EventClass.ignore, .note, .fault],
      let s : State := { open1.setSlot 0 { open1.slot 0 with state := .starved, starveCount := n, faultPending := b } with
        mixDue := true, classes := open1.classes.set 14 k }
      s.mixDue = true ∧ (s.slot 0).state = .starved ∧ (s.slot 0).context = some stereo ∧
      (stereo.starveLimit * s.output.rate.hz / 1000 ≤ (s.slot 0).starveCount ↔ n = 4800) ∧ s.classOf .starveLimit = k ∧
      (s.slot 0).faultPending = b ∧ s.reports.length < 16 := by decide +kernel

/-- Slot 0 PLAYING at its correction point, its strobe worked. -/
def correcting (o : Time) (f : Int) : State :=
  let s := locked (slotIn .playing [record 0 128] (some o) (some f) open1)
  { s.setSlot 0 { s.slot 0 with correctionDue := true } with mixDue := true, strobed := some 0 }

/-- The position error stands right at the resync limit. -/
theorem witness_CorrectionSlewsStep :
    let s := correcting 1000 ((65536 - 12582912) * 4096)
    s.mixDue = true ∧ correctionOwed s 0 = true ∧ (s.slot 0).readPos = some ((65536 - 12582912) * 4096) ∧
    dueOf s 0 (nextStrobeCount s) = some (stereo, 1000, 1512) ∧ Machine.sdiff 1512 1000 < 2 ^ 46 ∧
    |duePosition stereo.rate 1000 1512 - ((65536 - 12582912) * 4096 : Int).tdiv 4096| ≤ s.output.rt * stereo.rate.hz / 375 := by
  decide +kernel

/-- One beyond the resync limit, the oldest of four realigns a second ago. -/
theorem witness_CorrectionSlewsStep_realigns :
    let f : Int := (65535 - 12582912) * 4096
    let s := correcting 1000 f
    let t := s.setSlot 0 { s.slot 0 with realigns := [1512 - 24576000, 1, 2, 3] }
    t.mixDue = true ∧ correctionOwed t 0 = true ∧ (t.slot 0).readPos = some f ∧
    dueOf t 0 (nextStrobeCount t) = some (stereo, 1000, 1512) ∧
    t.output.rt * stereo.rate.hz / 375 < |duePosition stereo.rate 1000 1512 - f.tdiv 4096| ∧
    (t.slot 0).realigns = [1512 - 24576000, 1, 2, 3] ∧ |Machine.sdiff 1512 (1512 - 24576000)| ≤ 24576000 := by decide +kernel

/-- A due time right at the span limit and one tick before it, PRIMING and PLAYING. -/
theorem witness_SpanLimitCuts :
    ∀ n ∈ [0, 1],
      (let s := locked (slotIn .priming [record 0 128] (some (1000 - 2 ^ 46 + BitVec.ofNat 48 n)) none open1)
       s.strobeDue = true ∧ (s.slot 0).state = .priming ∧
         dueOf s 0 s.localCount = some (stereo, 1000 - 2 ^ 46 + BitVec.ofNat 48 n, 1000) ∧
         (2 ^ 46 ≤ Machine.sdiff 1000 (1000 - 2 ^ 46 + BitVec.ofNat 48 n) ↔ n = 0)) ∧
      (let s := correcting (1512 - 2 ^ 46 + BitVec.ofNat 48 n) 0
       s.mixDue = true ∧ (s.slot 0).state = .playing ∧ (s.slot 0).correctionDue = true ∧
         dueOf s 0 (nextStrobeCount s) = some (stereo, 1512 - 2 ^ 46 + BitVec.ofNat 48 n, 1512) ∧
         (2 ^ 46 ≤ Machine.sdiff 1512 (1512 - 2 ^ 46 + BitVec.ofNat 48 n) ↔ n = 0)) := by decide +kernel

/-- A route of the stream in slot 0. -/
def route0 : Route := { slot := 0, channel := 1, lane := 3, gain := 0xFFFF }

theorem witness_RoutePutAndDropEditEntries :
    ((∀ c, (open1.slot route0.slot).state ≠ .closed → (open1.slot route0.slot).context = some c → route0.channel.val < c.channels.count) ∧
      (¬ ∃ x : Fin 16, x ≠ 15 ∧ ∃ q, open1.routes[x.val] = some q ∧
        q.slot = route0.slot ∧ q.channel = route0.channel ∧ q.lane = route0.lane) ∧
      Taken (.routePut (BitVec.ofNat 16 (15 : Fin 16).val) (routeWord (some route0))) open1) ∧
    ({ run1 with routes := oneRoute }.routes[(3 : Fin 16).val] = some { slot := 1, channel := 1, lane := 2, gain := 5 } ∧
      Taken (.routeDrop (BitVec.ofNat 16 (3 : Fin 16).val)) { run1 with routes := oneRoute }) := by
  refine ⟨⟨fun c _ h => ?_, ?_, taken_alone _ _ rfl⟩, by decide +kernel, taken_alone _ _ rfl⟩
  · have e : (open1.slot route0.slot).context = some stereo := by decide +kernel
    rw [e] at h; cases h; decide
  · have e : ∀ x : Fin 16, open1.routes[x.val] = none := by decide +kernel
    rintro ⟨x, _, q, h, _⟩; rw [e x] at h; cases h

/-- A channel the open stream does not have, a slot, channel and lane that entry 3 has, and an unused entry. -/
theorem witness_RoutePutAndDropEditEntries_refused :
    (∀ i, Taken i mono1 ∧ Taken i { run1 with routes := oneRoute }) ∧
    (∃ c, (mono1.slot route0.slot).state ≠ .closed ∧ (mono1.slot route0.slot).context = some c ∧ ¬ route0.channel.val < c.channels.count) ∧
    (let r : Route := { slot := 1, channel := 1, lane := 2, gain := 9 }
     (run1.slot r.slot).state = .closed ∧ ∃ x : Fin 16, x ≠ 2 ∧ ∃ q, (oneRoute[x.val] : Option Route) = some q ∧
       q.slot = r.slot ∧ q.channel = r.channel ∧ q.lane = r.lane) ∧ (oneRoute[(2 : Fin 16).val] : Option Route) = none :=
  ⟨fun _ => ⟨taken_alone _ _ rfl, taken_alone _ _ rfl⟩, ⟨{ stereo with channels := .mono }, by decide +kernel⟩,
   ⟨by decide, 3, by decide, _, rfl, by decide⟩, by decide +kernel⟩

theorem witness_RouteRecallBeginsRead :
    (Taken (.routeRecall (BitVec.ofNat 16 (7 : Fin 8).val)) run1 ∧ run1.port = .idle) ∧
    (∀ x, Taken (.routeRecall 7) (porting (.writing (saving x))) ∧ (porting (.writing (saving x))).port = .writing (saving x)) ∧
    (∀ p ∈ [recalling.port, (readingOver (.suspending 9)).port, (readingOver (.deciding 9)).port, (readingOver .clocking).port],
      Taken (.routeRecall 7) (porting p) ∧ (porting p).port ≠ .idle ∧ ∀ w, (porting p).port ≠ .writing w) := by
  refine ⟨⟨taken_alone _ _ rfl, rfl⟩, fun _ => ⟨taken_alone _ _ rfl, rfl⟩, fun p hp => ⟨taken_alone _ _ rfl, ?_⟩⟩
  simp only [List.mem_cons, List.not_mem_nil, or_false] at hp
  rcases hp with rfl | rfl | rfl | rfl <;> exact ⟨by decide, fun _ h => (by cases h)⟩

theorem witness_DuckSetReplacesLevel :
    16384 ≤ 16384 ∧ Taken (.duckSet (BitVec.ofNat 16 (3 : Fin 4).val) (natWord 16384)) run1 := ⟨le_refl _, taken_alone _ _ rfl⟩

theorem witness_OutputSetReplacesSettings :
    (245760 ≤ 245760 ∧ 2458 ≤ 2458 ∧ 2458 ≤ 983040) ∧ (∀ i, Taken i run1 ∧ Taken i open1) ∧
    run1.output.rate = .r48000 ∧ OutputRate.r96000 ≠ run1.output.rate ∧ (∀ j : Fin 8, (run1.slot j).state = .closed) ∧
    OutputRate.r96000 ≠ open1.output.rate ∧ ∃ j : Fin 8, (open1.slot j).state ≠ .closed :=
  ⟨by decide, fun _ => ⟨taken_alone _ _ rfl, taken_alone _ _ rfl⟩, rfl, by decide, by decide +kernel, by decide, 0,
   by decide +kernel⟩

/-! ## Witnesses: cues -/

/-- A MARK cue. -/
def markCue (id : BitVec 8) (fire : Time) : Cue := { id := id, fireTime := fire, action := .mark .high, late := false }

theorem witness_CueAddKeepsTableOrder :
    let s := locked { run1 with cues := (List.range 15).map fun n => markCue (BitVec.ofNat 8 n) 2000 }
    Taken (.cueAdd ((255 : BitVec 8).setWidth 16) (1000 + 2 ^ 40) 7 0 2) s ∧ (∀ c ∈ s.cues, c.id ≠ 255) ∧ s.cues.length < 16 ∧
    s.acousticTime = some 1000 ∧ Machine.sdiff (1000 + 2 ^ 40) 1000 ≤ 2 ^ 40 :=
  ⟨taken_alone _ _ rfl, by decide +kernel, by decide, by decide +kernel, by decide +kernel⟩

/-- The refusals of CUE-ADD: an id held, a table of 16, a time one tick too far. -/
theorem witness_CueAddKeepsTableOrder_refused :
    let s := locked { run1 with cues := (List.range 16).map fun n => markCue (BitVec.ofNat 8 n) 2000 }
    (∀ i, Taken i s) ∧ (∃ c ∈ s.cues, c.id = 15) ∧ (¬ (∃ c ∈ s.cues, c.id = 16) ∧ 16 ≤ s.cues.length) ∧
    2 ^ 40 < Machine.sdiff (1001 + 2 ^ 40) 1000 :=
  ⟨fun _ => taken_alone _ _ rfl, by decide +kernel, by decide +kernel, by decide +kernel⟩

/-- A RECALL added in each state of the Image Port, and to a table that holds one; any action's level in its range. -/
theorem witness_CueAddKeepsTableOrder_recall :
    (∀ p i, Taken i (porting p) ∧ (porting p).port = p ∧ (∀ c ∈ (porting p).cues, c.isRecall = false)) ∧
    (∀ i, Taken i holding ∧ ∃ c ∈ holding.cues, c.isRecall = true) ∧
    Cue.levelSound { id := 0, fireTime := 0, action := .duck 3 16384, late := false } ∧ cuesOrdered run1 ∧
    timesNear [markCue 1 0, markCue 2 (2 ^ 45)] :=
  ⟨fun _ _ => ⟨taken_alone _ _ rfl, rfl, by intro c h; cases h⟩, fun _ => ⟨taken_alone _ _ rfl, by decide +kernel⟩, le_refl _,
   List.Pairwise.nil, 0, by decide +kernel⟩

theorem witness_CueCancelRemovesEntry :
    let s := { run1 with cues := [markCue 1 5, markCue 2 5], cuePass := some { acoustic := 5, due := [2] } }
    markCue 2 5 ∈ s.cues ∧ (markCue 2 5).id = 2 ∧ (∀ d ∈ s.cues, d.id = 2 → d = markCue 2 5) ∧
    (∀ n : BitVec 8, Taken (.cueCancel (n.setWidth 16)) s) ∧ ∀ c ∈ s.cues, c.id ≠ 255 :=
  ⟨by decide, rfl, by decide, fun _ => taken_alone _ _ rfl, by decide⟩

theorem witness_DueCueActs (x : CueAction) :
    let c : Cue := { id := 7, fireTime := 1000, action := x, late := false }
    let s : State := { run1 with cuePass := some { acoustic := 1000, due := [7] }, staged := .ready oneRoute, cues := [c] }
    s.cueWork = some { acoustic := 1000, due := c.id :: [] } ∧ c ∈ s.cues ∧ (∀ d ∈ s.cues, d.id = c.id → d = c) ∧
    (c.isRecall = true → ∃ t, s.staged = .ready t) :=
  ⟨rfl, List.mem_singleton.2 rfl, fun _ h _ => List.mem_singleton.1 h, fun _ => ⟨_, rfl⟩⟩

/-- A CUT and an END that fire on a slot in every state a slot can have. -/
theorem witness_DueCueActs_slots :
    ∀ x ∈ [SlotState.priming, .playing, .starved, .draining, .frozen], ∀ act ∈ [CueAction.cut 0, .ending 0],
      let c : Cue := { id := 7, fireTime := 1000, action := act, late := false }
      let s : State := { slotIn x [] none none open1 with cuePass := some { acoustic := 1000, due := [7] }, cues := [c] }
      s.cueWork = some { acoustic := 1000, due := c.id :: [] } ∧ c ∈ s.cues ∧ (∀ d ∈ s.cues, d.id = c.id → d = c) ∧
      c.isRecall = false ∧ (s.slot 0).state = x ∧ (s.slot 0).context = some stereo := by decide +kernel

/-- A strobe whose pass is not open, one in FREE, and a pass with none left. -/
theorem witness_DueCueActs_pass :
    (locked run1).cuePass = none ∧ (locked run1).strobeDue = true ∧ (locked run1).acousticTime = some 1000 ∧
    (run1.cuePass = none ∧ run1.acousticTime = none) ∧ (locked run1).cueWork = some { acoustic := 1000, due := [] } := by
  decide +kernel

/-- A RECALL that becomes READY, and a cue added, after the pass was opened wait for the next strobe (R129, R132, R134). -/
theorem test_pass_is_compared_once :
    let s : State := { locked run1 with
      cuePass := some { acoustic := 1000, due := [2] }, staged := .ready oneRoute
      cues := [{ id := 1, fireTime := 5, action := .recall 0, late := false }, markCue 2 6, markCue 3 7] }
    (after .cueFire s).map (fun t => (t.cues.map (·.id), t.mark, (after .cueFire t).map (·.cues.length))) =
      some ([1, 3], true, some 2) := by decide +kernel

/-! ## Witnesses: the Report Unit -/

theorem witness_FirstFaultIsNumbered :
    open1.classOf .starveLimit = .fault ∧ (open1.slot 0).state ≠ .closed ∧ (open1.slot 0).faultPending = false := by
  decide +kernel

theorem witness_SecondFaultFreezes :
    ∀ x ∈ [SlotState.draining, .frozen],
      let s := open1.setSlot 0 { open1.slot 0 with state := x, faultPending := true }
      s.classOf .starveLimit = .fault ∧ (s.slot 0).faultPending = true ∧ (s.slot 0).state = x := by decide +kernel

/-- A report of a class. -/
def reportIn (fault : Bool) : Report := { reportOf .flashDone none 0 none run1 with isFault := fault }

theorem witness_FaultSparesOldestReports :
    (let s := { run1 with reports := List.replicate 9 (reportIn false) ++ List.replicate 7 (reportIn true) }
     s.reports.length = 16 ∧ s.reports.drop 8 = [] ++ reportIn false :: List.replicate 7 (reportIn true) ∧
       (reportIn false).isFault = false ∧ ∀ q ∈ List.replicate 7 (reportIn true), q.isFault = true) ∧
    (let s := { run1 with reports := List.replicate 8 (reportIn false) ++ List.replicate 8 (reportIn true) }
     s.reports.length = 16 ∧ ∀ q ∈ s.reports.drop 8, q.isFault = true) := by decide +kernel

/-- Kinds of each class, a FAULT-class kind for a CLOSED slot, and a queue with room, with a record's room and without. -/
theorem witness_FaultSparesOldestReports_notes :
    run1.classes[EventKind.beaconOutlier.number.val] = .ignore ∧ run1.classes[EventKind.lockGained.number.val] = .note ∧
    (run1.classes[EventKind.starveLimit.number.val] = .fault ∧ (run1.slot 0).state = .closed) ∧
    (List.replicate 15 (reportIn false)).length < 16 ∧ ¬ (List.replicate 16 (reportIn false)).length < 16 := by decide +kernel

theorem witness_ClassSetAndAckAnswer :
    Taken (.classSet (BitVec.ofNat 8 (31 : Fin 32).val) (BitVec.ofNat 8 EventClass.fault.code)) run1 ∧
    Taken (.ack (BitVec.ofNat 8 (7 : Fin 8).val) 255) (inHand 1 [0x510107FF] run1) :=
  ⟨taken_alone _ _ rfl, taken_inHand _ _ 0x51 3 (by decide +kernel) rfl (by decide)⟩

/-! ## Witnesses: the Command Interpreter -/

theorem witness_QueriesChangeNothing :
    Taken .identify (inHand 1 [0x01010000] run1) ∧ Taken .clockHistory (inHand 1 [0x41010000] run1) ∧
    (Taken .snapshot (inHand 1 [0x02010000] run1) ∧ run1.mixDue = false ∧ run1.cuePass = none) :=
  ⟨taken_inHand _ _ 0x01 5 (by decide +kernel) rfl (by decide), taken_inHand _ _ 0x41 73 (by decide +kernel) rfl (by decide),
   taken_inHand _ _ 0x02 55 (by decide +kernel) rfl (by decide), rfl, rfl⟩

/-- The part with a stream open, a strobe rendered and not yet mixed, and SNAPSHOT in hand. -/
def midStrobe : State := { inHand 1 [0x02010000] open1 with mixDue := true, strobed := some 0 }

theorem witness_QueriesChangeNothing_midStrobe :
    Taken .snapshot midStrobe ∧ ringsSound midStrobe ∧ midStrobe.mixDue = true :=
  ⟨taken_inHand _ _ 0x02 55 (by decide +kernel) rfl (by decide),
   ⟨⟨fun b => blocksSound_open1.1 b, fun i => blocksSound_open1.2 i⟩, fun _ h => (by cases h), fun h => (by cases h)⟩, rfl⟩

theorem witness_InterpreterAnswersByItself :
    (inHand 1 [0xE7020000, 9] run1).handing (.unknown 0xE7 2) = true ∧ (inHand 2 [] run1).handing (.malformed 0) = true ∧
    ((inHand 1 [0x02020000, 9] run1).interp.map Interp.next = some (.wrongLength 0x02)) ∧
    ((inHand 1 [0x02020000, 9] run1).interp.map (fun p => p.hasRoom 1) = some true) ∧
    ((inHand 0 [] run1).interp.map (·.remaining) = some 0) := by decide +kernel

theorem witness_RefusedRecordsChangeNothing :
    let s := inHand 1 [0x13010009] run1
    ∃ t p, s.interp = some p ∧ s.handing (.cut 9) = true ∧ recordShape (.cut 9) = some (0x13, 2) ∧ Instr.cut 9 ≠ .restart ∧
      exec (.cut 9) s = .next t :=
  ⟨_, _, rfl, by decide +kernel, rfl, by decide, rfl⟩

/-- A frame in hand whose reply has grown to 380 of its 382 words. -/
def nearlyFull : State :=
  { inHand 1 [0x13010000] run1 with
    interp := some { sequence := 1, remaining := 1, words := [0x13010000],
                     records := [{ code := 0x41, answer := done (List.replicate 379 0) }] } }

theorem witness_FullReplyStopsFrame :
    ∃ p, nearlyFull.interp = some p ∧ nearlyFull.handing (.cut 0) = true ∧ recordShape (.cut 0) = some (0x13, 2) ∧
      p.hasRoom 2 = false ∧ ∀ c, Instr.cut 0 ≠ .malformed c :=
  ⟨_, rfl, by decide +kernel, rfl, by decide +kernel, fun _ h => (by cases h)⟩

end Sys2Proof.Tests
end

section
/-! SUPPORT. Steps: what every command keeps, one lemma a row and then `exec_keeps`, and the statements about single steps,
the reset state and the ranges of the clock. -/

namespace Sys2Proof.Machine

/-! ## Rows, one by one -/

/-- A command record's row is the record dealt with (R151). -/
theorem exec_record {i : Instr} (h : (recordShape i).isSome = true) (s : State) : exec i s = .next (dealRecord i s) := by
  cases i
  case lineReset | imageReadEnd | bootPresetReadEnd | audio | cont | beacon | read | edgeRise | silenceTimer | holdoverTimer |
      sampleStrobe | streamStarted | streamResumed | starveLimit | streamDrained | correctionPoint | spanLimit | cueFire |
      statusPoll | flashWaitTimeout | sectorWriteEnd | presetReadEnd | control | unknownKindFrame => cases h
  all_goals rfl

/-- A row whose condition does not hold changes nothing (log 6). -/
theorem Keeps.ite {s t : State} {c : Prop} [Decidable c] (h : c → Keeps s t) : Keeps s (if c then t else s) := by
  split
  · next hc => exact h hc
  · exact Keeps.refl s

/-- A piece of a strobe's work that opens its cue pass (R129). -/
theorem keeps_openPass {s t : State} (h : Inner s t) : Keeps s t.openPass := (h.trans (inner_openPass t)).keeps

/-- A piece of a strobe's work whose outcome is noted for the mix (R113). -/
theorem keeps_noteState {s t : State} (i : Fin 8) (h : Inner s t) : Keeps s (t.noteState i) :=
  (h.trans (Inner.setContributions t _)).keeps

/-- IMAGE_READ_END (R160). -/
theorem keeps_imageReadEnd {ws : Vector Word32 23} {s t : State} (h : execImageReadEnd ws s = .next t) : Keeps s t := by
  cases h
  split
  · next hp =>
    split
    · next x hx => exact (keeps_takeImage x s hp (judgeImage_range hx).1 (judgeImage_range hx).2).trans (keeps_afterImage _)
    · exact keeps_defaulted _ s
  · exact Keeps.refl s

/-- BOOT_PRESET_READ_END (R161). -/
theorem keeps_bootPresetReadEnd {ws : Vector Word32 17} {s t : State} (h : execBootPresetReadEnd ws s = .next t) : Keeps s t := by
  cases h
  split
  · split
    · next x hx => exact (keeps_bootRoutes s hx).trans (keeps_finishStartup _ _)
    · exact keeps_finishStartup _ s
  · exact Keeps.refl s

/-- A moment of an AUDIO or CONT frame (R58, R66). -/
theorem keeps_audioMoment {stage : LinkStage} {kind : BitVec 8} {parse : LinkFrame → State → State} {s t : State}
    (hp : ∀ f u, Inner u (parse f u)) (h : audioMoment stage kind parse s = .next t) : Keeps s t := by
  unfold audioMoment at h
  split at h
  · cases h
  · cases h
    exact keeps_linkMoment _ _ _ s fun f u => keeps_receive _ f u fun v _ => (hp f v).keeps

/-- CONTROL: a moment of the frame, or the interpreter going on (R57, R149). -/
theorem keeps_control {stage : ControlStage} {s t : State} (h : execControl stage s = .next t) : Keeps s t := by
  cases h
  split
  · exact keeps_linkMoment _ _ _ s fun f u => keeps_receive _ f u fun v hv => keeps_parseControl f v hv
  · exact keeps_proceed s

/-- SAMPLE_STROBE (R113). -/
theorem keeps_sampleStrobe {stage : StrobeStage} {s t : State} (h : execSampleStrobe stage s = .next t) : Keeps s t := by
  unfold execSampleStrobe at h
  split at h
  · cases h
    split
    · exact Keeps.ite fun _ => (inner_renderAll s).keeps
    · exact Keeps.ite fun _ => (inner_finishMix s).keeps
  · cases h

/-- SPAN_LIMIT, at either of its places (R95, R105). -/
theorem keeps_spanLimit {i : Fin 8} {s t : State} (h : execSpanLimit i s = .next t) : Keeps s t := by
  cases h
  split
  · next hp => exact keeps_openPass (inner_spanCut i s (context_of_primingSpent hp.2))
  · exact Keeps.ite fun hc => keeps_noteState i (inner_spanCut i s (context_of_correctionSpent hc.2))

/-- SECTOR_WRITE_END (R164). -/
theorem keeps_sectorWriteEnd {ws : List Word32} {s t : State} (h : execSectorWriteEnd ws s = .next t) : Keeps s t := by
  have hi : Inner s (s.withPort .idle s.flashOut) := Inner.withPort s _ _ (by simp)
  cases h
  split
  · refine Keeps.ite fun _ => ?_
    split
    · exact (hi.trans (inner_offerPart _ _ _)).keeps
    · exact (hi.trans (inner_failWrite _ _ _)).keeps
  · exact Keeps.refl s

/-- PRESET_READ_END (R165, R166). -/
theorem keeps_presetReadEnd {ws : Vector Word32 17} {s t : State} (h : execPresetReadEnd ws s = .next t) : Keeps s t := by
  have hi : Inner s (s.withPort .idle s.flashOut) := Inner.withPort s _ _ (by simp)
  have hend : ∀ (r : PresetRead) (u : State), Inner u (readEvent r (judgePreset ws) (readEnd r (judgePreset ws) u)) :=
    fun r u => (inner_readEnd r _ u fun _ hg => judgePreset_distinct hg).trans (inner_readEvent r _ _)
  cases h
  split
  · exact (hi.trans (hend _ _)).keeps
  · exact ((hend _ s).trans (inner_resumeWrite _ _ _ _)).keeps
  · exact Keeps.refl s

/-- STREAM_RESUMED is for STARVED slots. -/
theorem starved_of_resumesNow {s : State} {i : Fin 8} (h : resumesNow s i = true) : (s.slot i).state = .starved := by
  simp only [resumesNow, Bool.and_eq_true, decide_eq_true_eq] at h
  exact h.1

/-! ## Every command -/

/-- What every command keeps. -/
theorem exec_keeps {i : Instr} {s t : State} (h : exec i s = .next t) : Keeps s t := by
  cases i
  case lineReset => cases h; exact keeps_lineReset s
  case imageReadEnd ws => exact keeps_imageReadEnd h
  case bootPresetReadEnd ws => exact keeps_bootPresetReadEnd h
  case audio stage => exact keeps_audioMoment inner_parseAudio h
  case cont stage => exact keeps_audioMoment inner_parseCont h
  case beacon stage =>
    cases h; exact keeps_linkMoment _ _ _ s fun f u => keeps_receive _ f u fun v _ => (inner_parseBeacon f v).keeps
  case read stage => cases h; exact keeps_linkMoment _ _ _ s keeps_readEnded
  case control stage => exact keeps_control h
  case unknownKindFrame stage =>
    cases h; exact keeps_linkMoment _ _ _ s fun f u => keeps_receive _ f u fun v _ => (inner_discardFrame _ _ _ v).keeps
  case edgeRise => cases h; exact Keeps.ite fun _ => (inner_latchEdge s).keeps
  case silenceTimer => cases h; exact Keeps.ite fun _ => (inner_silenceExpiry s).keeps
  case holdoverTimer => cases h; exact Keeps.ite fun _ => (inner_enterFree 2 s).keeps
  case sampleStrobe stage => exact keeps_sampleStrobe h
  case streamStarted i => cases h; exact Keeps.ite fun _ => keeps_openPass (inner_primingWork i s)
  case streamResumed i =>
    cases h; exact Keeps.ite fun hc => keeps_openPass (inner_resumeStream i s (starved_of_resumesNow hc.2))
  case streamDrained i => cases h; exact Keeps.ite fun _ => keeps_openPass (inner_drainStream i s)
  case starveLimit i =>
    cases h; exact Keeps.ite fun hc => keeps_noteState i (inner_starveCut i s (starved_of_starveSpent hc.2))
  case correctionPoint i => cases h; exact Keeps.ite fun _ => keeps_noteState i (inner_correctSlot i s)
  case spanLimit i => exact keeps_spanLimit h
  case cueFire => cases h; exact (inner_cueStep s).keeps
  case statusPoll busy suspended => cases h; exact (inner_statusPollStep busy suspended s).keeps
  case flashWaitTimeout => cases h; exact Keeps.ite fun _ => keeps_waitTimeout s
  case sectorWriteEnd ws => exact keeps_sectorWriteEnd h
  case presetReadEnd ws => exact keeps_presetReadEnd h
  all_goals
    rw [exec_record rfl] at h
    cases h
    exact keeps_dealRecord _ s

/-! ## Steps -/

/-- A step takes the front command of the queue (log 1). -/
theorem step_cons {s : State} {c : Instr} {rest : List Instr} (h : s.pending = c :: rest) :
    step s = exec c { s with pending := rest } := by simp [step, h]

/-- On an empty queue the part goes on by itself (log 1). -/
theorem step_nil {s : State} (h : s.pending = []) : step s = idle s := by simp [step, h]

/-- A local tick moves no table, queue, buffer or setting (R1). -/
theorem keeps_tick (s : State) : Keeps s (tick s) := {}

/-- What the part does by itself keeps what every command keeps. -/
theorem idle_keeps {s t : State} (h : idle s = .next t) : Keeps s t := by
  unfold idle at h
  split at h
  · exact exec_keeps h
  · cases h; exact keeps_tick s

/-- What every step keeps, of the state whose queue has lost what the step took. -/
theorem step_keeps {s t : State} (h : step s = .next t) : ∃ rest, Keeps { s with pending := rest } t := by
  cases hp : s.pending with
  | nil => exact ⟨s.pending, idle_keeps (step_nil hp ▸ h)⟩
  | cons c rest => exact ⟨rest, exec_keeps (step_cons hp ▸ h)⟩

/-! ## The statements about steps -/

/-- Settles O7: the drift word changes in an accepted beacon within its clamp, at an entry to FREE and at a good image, the
settings in CLOCK-SET and a good image; `step_keeps` gathers them. -/
theorem stepsKeepClockRanges : Obligations.StepsKeepClockRanges := by
  intro s t hdrift hsettings hstep
  obtain ⟨rest, keeps⟩ := step_keeps hstep
  exact ⟨keeps.drift hdrift, keeps.settings hsettings⟩

/-- Settles O1. -/
theorem stepTakesFrontCommand : Obligations.StepTakesFrontCommand := fun _ _ _ h => step_cons h

/-- Settles O2: by what is owed. -/
theorem emptyQueueWorksOrTicks : Obligations.EmptyQueueWorksOrTicks := by
  intro s hp
  rw [step_nil hp]
  exact ⟨fun i hi => by simp [idle, hi], fun hn => by simp [idle, hn, tick, strobeRateAt]⟩

/-- Settles O3: bounds and ranges by the reset values, tables, rings, lanes and queues by the lemmas about them after a reset. -/
theorem resetIsSound : Obligations.ResetIsSound := by
  refine ⟨rfl, Nat.zero_le 16, Nat.zero_le 16, ?drift, ?settings, lanesSound_reset rfl rfl, ?reply, ?bound,
    ringsSound_of_reset rfl rfl rfl rfl, tablesSound_reset rfl rfl rfl, queuesSound_reset rfl⟩
  case drift => unfold driftSound; decide
  case settings => unfold settingsSound; decide
  case reply => exact ⟨by simp [State.reset], fun _ h => (by cases h)⟩
  case bound => exact ⟨fun _ h => (by cases h), fun _ h => (by cases h), fun _ h _ => (by cases h)⟩

end Sys2Proof.Machine
end

section
/-! SUPPORT. The Time Base by itself: the edge latch, the two timers and CLOCK-SET (R4 to R6, R8, R24 to R26). -/

namespace Sys2Proof.Machine

/-! ## The edge latch (R8) -/

/-- An edge latched, as one choice between an EMPTY latch and another. -/
theorem latchEdge_eq (s : State) :
    latchEdge s = if s.clock.latch = .empty then s.setClock { s.clock with latch := .held s.localCount }
      else offerPart .edgeOverrun 0 (s.setClock { s.clock with latch := .overrun s.localCount }) := by
  unfold latchEdge
  split
  · next h => rw [if_pos h]
  all_goals next h => rw [if_neg (by simp [h])]

/-- Settles O29: by whether the part listens to edges, then by `latchEdge_eq`. -/
theorem edgeIsLatched : Obligations.EdgeIsLatched := by
  intro s
  refine ⟨fun hrun hsource => ?_, fun hdeaf => ?_⟩
  · show Host.Outcome.next (if _ then _ else _) = _
    rw [if_pos ⟨hrun, hsource⟩, latchEdge_eq]
    rfl
  · have hn : ¬ (s.run = .running ∧ s.clock.settings.source = .edge) := by
      rintro ⟨hrun, hsource⟩
      rcases hdeaf with h | h
      · simp [hrun] at h
      · simp [hsource] at h
    show Host.Outcome.next (if _ then _ else _) = _
    rw [if_neg hn]

/-! ## The timers (R24, R25) -/

/-- When the silence timer has expired: it runs in ACQUIRING and LOCKED (R24). -/
theorem silenceExpired_iff (s : State) : s.silenceExpired = true ↔
    (s.clock.state = .acquiring ∨ s.clock.state = .locked) ∧ 49152000 ≤ sdiff s.localCount s.clock.silenceStart := by
  unfold State.silenceExpired
  cases h : s.clock.state
  case acquiring | locked => exact decide_eq_true_iff.trans (by simp [Config.twoSeconds])
  case free | holdover => simp

/-- When the holdover timer has expired (R25). -/
theorem holdoverExpired_iff (s : State) : s.holdoverExpired = true ↔
    s.clock.state = .holdover ∧ s.clock.settings.holdoverLimit * 24576000 ≤ sdiff s.localCount s.clock.holdoverStart := by
  rw [State.holdoverExpired, Bool.and_eq_true, decide_eq_true_iff, decide_eq_true_iff]
  rfl

/-- SILENCE_TIMER with the timer expired is its expiry. -/
theorem exec_silenceTimer_expired {s : State} (h : s.silenceExpired = true) : exec .silenceTimer s = .next (silenceExpiry s) := by
  show Host.Outcome.next (if _ then _ else _) = _
  rw [if_pos h]

/-- SILENCE_TIMER changes nothing otherwise. -/
theorem exec_silenceTimer_idle {s : State} (h : ¬ s.silenceExpired = true) : exec .silenceTimer s = .next s := by
  show Host.Outcome.next (if _ then _ else _) = _
  rw [if_neg h]

/-- HOLDOVER_TIMER with the timer expired is the entry to FREE. -/
theorem exec_holdoverTimer_expired {s : State} (h : s.holdoverExpired = true) : exec .holdoverTimer s = .next (enterFree 2 s) := by
  show Host.Outcome.next (if _ then _ else _) = _
  rw [if_pos h]

/-- HOLDOVER_TIMER changes nothing otherwise. -/
theorem exec_holdoverTimer_idle {s : State} (h : ¬ s.holdoverExpired = true) : exec .holdoverTimer s = .next s := by
  show Host.Outcome.next (if _ then _ else _) = _
  rw [if_neg h]

/-- Settles O30: LOCKED and ACQUIRING by their own expiry, everything else by the timer not running out. -/
theorem silenceEntersHoldover : Obligations.SilenceEntersHoldover := by
  intro s
  refine ⟨fun hspan => ⟨fun hlocked => ?_, fun hacquiring => ?_⟩, fun hstill => ?_⟩
  · rw [exec_silenceTimer_expired ((silenceExpired_iff s).2 ⟨.inr hlocked, hspan⟩)]
    simp only [silenceExpiry, hlocked, State.setClock]
  · rw [exec_silenceTimer_expired ((silenceExpired_iff s).2 ⟨.inl hacquiring, hspan⟩)]
    have he : silenceExpiry s = enterFree 1 s := by simp only [silenceExpiry, hacquiring]
    exact ⟨_, rfl, he ▸ enterFree_enters 1 s⟩
  · refine exec_silenceTimer_idle fun hexp => ?_
    obtain ⟨hstate, hspan⟩ := (silenceExpired_iff s).1 hexp
    rcases hstill with h | h | h
    · omega
    · simp [h] at hstate
    · simp [h] at hstate

/-- Settles O31: the expiry is the entry to FREE. -/
theorem holdoverEndsInFree : Obligations.HoldoverEndsInFree := by
  intro s
  refine ⟨fun hstate hspan => ?_, fun hstill => exec_holdoverTimer_idle fun hexp => ?_⟩
  · exact ⟨_, exec_holdoverTimer_expired ((holdoverExpired_iff s).2 ⟨hstate, hspan⟩), enterFree_enters 2 s⟩
  · obtain ⟨hstate, hspan⟩ := (holdoverExpired_iff s).1 hexp
    rcases hstill with h | h
    · exact h hstate
    · omega

/-! ## CLOCK-SET (R4 to R6) -/

/-- A number in its range is read as itself. -/
theorem natIn_of_le {lo hi n : Nat} (h1 : lo ≤ n) (h2 : n ≤ hi) : natIn lo hi n = some n := if_pos ⟨h1, h2⟩

/-- A capture source's code reads back (R168). -/
theorem sourceOfCode_code (x : CaptureSource) : sourceOfCode (BitVec.ofNat 8 x.code).toNat = some x := by cases x <;> rfl

/-- Clock settings in range read back from a CLOCK-SET's fields (R4, R5). -/
theorem clockSettingsOf_fields {x : ClockSettings} (hlimit : 1 ≤ x.holdoverLimit ∧ x.holdoverLimit ≤ 600)
    (hgate : 246 ≤ x.gate ∧ x.gate ≤ 245760) (hwindow : 25 ≤ x.window ∧ x.window ≤ 24576) :
    clockSettingsOf x.masterId (BitVec.ofNat 8 x.source.code) (BitVec.ofNat 16 x.holdoverLimit) x.linkLatency x.edgeLatency
      (natWord x.gate) (natWord x.window) = some x := by
  have h1 : (BitVec.ofNat 16 x.holdoverLimit).toNat = x.holdoverLimit := by
    rw [BitVec.toNat_ofNat]; omega
  have h2 : (natWord x.gate).toNat = x.gate := by rw [natWord, BitVec.toNat_ofNat]; omega
  have h3 : (natWord x.window).toNat = x.window := by rw [natWord, BitVec.toNat_ofNat]; omega
  simp only [clockSettingsOf, sourceOfCode_code, h1, h2, h3, natIn_of_le hlimit.1 hlimit.2, natIn_of_le hgate.1 hgate.2,
    natIn_of_le hwindow.1 hwindow.2]

/-- A CLOCK-SET in range that is taken is the settings' taking and DONE (R5). -/
theorem exec_clockSet_taken {s : State} {x : ClockSettings} (hlimit : 1 ≤ x.holdoverLimit ∧ x.holdoverLimit ≤ 600)
    (hgate : 246 ≤ x.gate ∧ x.gate ≤ 245760) (hwindow : 25 ≤ x.window ∧ x.window ≤ 24576)
    (h : Taken (.clockSet x.masterId (BitVec.ofNat 8 x.source.code) (BitVec.ofNat 16 x.holdoverLimit) x.linkLatency x.edgeLatency
      (natWord x.gate) (natWord x.window)) s) :
    exec (.clockSet x.masterId (BitVec.ofNat 8 x.source.code) (BitVec.ofNat 16 x.holdoverLimit) x.linkLatency x.edgeLatency
      (natWord x.gate) (natWord x.window)) s = .next ((takeSettings x s).reply 0x40 (done [])) := by
  refine congrArg Host.Outcome.next (handOver_next h rfl ?_ (inner_takeSettings x s ⟨hlimit, hgate, hwindow⟩).interp)
  simp only [clockSetOwner, clockSettingsOf_fields hlimit hgate hwindow]

/-- Settings that keep master id and source change nothing else of the Time Base (R5). -/
theorem withSettings_keeps {c : TimeBase} {x : ClockSettings} (h : x.masterId = c.settings.masterId ∧ x.source = c.settings.source) :
    withSettings c x = { c with settings := x } := by simp [withSettings, h]

/-- CLOCK-SET that keeps master id and source (R5, R25). -/
theorem takeSettings_keeps {s : State} {x : ClockSettings}
    (h : x.masterId = s.clock.settings.masterId ∧ x.source = s.clock.settings.source) :
    takeSettings x s =
      if s.clock.state = .holdover ∧ x.holdoverLimit * 24576000 < sdiff s.localCount s.clock.holdoverStart then
        enterFree 2 (s.setClock { s.clock with settings := x })
      else s.setClock { s.clock with settings := x } := by
  simp only [takeSettings, if_pos h, withSettings_keeps h, ClockSettings.limitTicks]

/-- CLOCK-SET that changes master id or source, by the clock's state (R6). -/
theorem takeSettings_changes {s : State} {x : ClockSettings}
    (h : ¬ (x.masterId = s.clock.settings.masterId ∧ x.source = s.clock.settings.source)) :
    takeSettings x s =
      let begun := s.setClock (restartAcquisition (withSettings s.clock x) s.localCount)
      match s.clock.state with
      | .free => s.setClock (withSettings s.clock x)
      | .locked => offerPart .lockLost 0 begun
      | .acquiring | .holdover => begun := by
  simp only [takeSettings, if_neg h]
  rfl

/-- Settles O32: by whether master id and source are kept, then by the clock's state. -/
theorem clockSetReplacesSettings : Obligations.ClockSetReplacesSettings := by
  intro s x hlimit hgate hwindow i keeps kept set begun htaken
  rw [exec_clockSet_taken hlimit hgate hwindow htaken]
  refine ⟨fun hk hstay => ?_, fun hk hh hpast => ?_, fun hk hst => ?_, fun hk hst => ?_, fun hk hst => ?_⟩
  · rw [takeSettings_keeps hk, if_neg]
    · rfl
    · rintro ⟨hh, hpast⟩
      rcases hstay with h | h
      · exact h hh
      · omega
  · rw [takeSettings_keeps hk, if_pos ⟨hh, hpast⟩]
    exact ⟨_, rfl, enterFree_enters 2 kept⟩
  · simp only [takeSettings_changes hk, hst]
    rfl
  · rcases hst with hst | hst
    all_goals
      simp only [takeSettings_changes hk, hst]
      rfl
  · simp only [takeSettings_changes hk, hst]
    rfl

end Sys2Proof.Machine
end

section
/-! SUPPORT. Beacons at the Time Base: capture and adoption, the checks of 1.5 in order, and what a beacon that passes them does
to a model by the clock's state (R7 to R23). -/

namespace Sys2Proof.Machine

/-! ## Capture and adoption (R7, R9, R10) -/

/-- The local count of a beacon, by capture source and latch (R7, R9). -/
theorem captured_eq (c : TimeBase) (arrival : Time) :
    captured c arrival = match c.settings.source, c.latch with
      | .link, _ => some (arrival - c.settings.linkLatency.setWidth 48)
      | .edge, .held n => some (n - c.settings.edgeLatency.setWidth 48)
      | .edge, _ => none := by
  unfold captured
  cases c.settings.source
  · rfl
  · cases c.latch <;> rfl

/-- The Time Base once a beacon of master `m` has met the latch and the adoption (R9, R10). -/
theorem adoptMaster_latchMet (m : BitVec 16) (c : TimeBase) :
    adoptMaster m (latchMet c) = { c with
      latch := if c.settings.source = .edge then .empty else c.latch
      adopted := if c.settings.masterId = 0 ∧ c.adopted = none then some m else c.adopted } := by
  have hlatch : latchMet c = { c with latch := if c.settings.source = .edge then .empty else c.latch } := by
    unfold latchMet
    cases h : c.settings.source <;> rfl
  rw [hlatch, adoptMaster]
  by_cases h : c.settings.masterId = 0 ∧ c.adopted = none
  · simp only [if_pos h]
  · simp only [if_neg h]

/-- A part that adopts a beacon's master, or follows it already, has it in force (R10). -/
theorem masterInForce_adoptMaster {m : BitVec 16} {c : TimeBase}
    (h : (c.settings.masterId = 0 ∧ c.adopted = none) ∨ masterInForce c = some m) :
    masterInForce (adoptMaster m (latchMet c)) = some m := by
  rw [adoptMaster_latchMet]
  unfold masterInForce at *
  by_cases hid : c.settings.masterId = 0
  · rcases h with h | h
    · simp [h]
    · rw [if_pos hid] at h
      simp [hid, h]
  · rcases h with h | h
    · exact absurd h.1 hid
    · rw [if_neg hid] at h ⊢
      exact h

/-- A sequence is stale unless it is after the last one (R11). -/
theorem isStale_eq_false_iff (c : TimeBase) (seq : BitVec 16) :
    isStale c seq = false ↔ ∀ l, c.lastSequence = some l → 0 < (seq - l).toInt := by
  unfold isStale
  cases c.lastSequence <;> simp

/-! ## The checks in order (1.5) -/

/-- FOREIGN (R10). -/
theorem judge_foreign {c : TimeBase} {b : Heard} (now : Time) (h : masterInForce c ≠ some b.master) :
    judge c b now = (c, .foreign, none, [(.beaconForeign, b.master.setWidth 32)]) := by simp [judge, h]

/-- STALE (R11). -/
theorem judge_stale {c : TimeBase} {b : Heard} (now : Time) (hm : masterInForce c = some b.master)
    (h : isStale c b.sequence = true) : judge c b now = (c, .stale, none, [(.beaconStale, b.sequence.setWidth 32)]) := by
  simp [judge, hm, h]

/-- UNPAIRED (R12). -/
theorem judge_unpaired {c : TimeBase} {b : Heard} (now : Time) (hm : masterInForce c = some b.master)
    (hq : isStale c b.sequence = false) (h : b.lc = none) :
    judge c b now = (c, .unpaired, none, [(.beaconUnpaired, b.sequence.setWidth 32)]) := by simp [judge, hm, hq, h]

/-- A beacon past the first three checks is judged by its time (R13). -/
theorem judge_timed {c : TimeBase} {b : Heard} (now : Time) {n : Time} (hm : masterInForce c = some b.master)
    (hq : isStale c b.sequence = false) (h : b.lc = some n) : judge c b now = judgeTimed c b n now := by simp [judge, hm, hq, h]

/-! ## A beacon frame at the Time Base (R15, R56) -/

/-- The capture window drops what is older than the eight newest (R15). -/
theorem joinWindow_eq (w : List CaptureRecord) (r : CaptureRecord) : joinWindow w r = (w ++ [r]).drop (w.length - 7) := by
  rw [joinWindow, Nat.add_sub_add_right w.length 1 7]

/-- A beacon frame as the Time Base has it: its words, and its local count if it has one (R56). -/
def heardOf (w0 w1 w2 w3 : Word32) (lc : Option Time) : Heard :=
  { master := kindField w0, sequence := w1.extractLsb' 16 16, ht := Decode.time48 w2 w3, lc := lc }

/-- The capture window's record of a beacon (R15). -/
def Heard.record (b : Heard) (v : Verdict) (e : Option Int) : CaptureRecord :=
  { verdict := v, master := b.master, sequence := b.sequence, lc := b.lc, ht := b.ht, error := e }

/-- A whole beacon frame, by what the Time Base judges: the model after it, noted in the window, then the events (R15). -/
theorem exec_beacon_judged {s : State} {f : LinkFrame} {w0 w1 w2 w3 : Word32} (harr : Arrives 0x03 f s)
    (hwords : f.words = [w0, w1, w2, w3]) (hver : versionOne w0 = true) (hopt : optionCount w0 = 0)
    {lc : Option Time} {met c : TimeBase} {v : Verdict} {e : Option Int} {es : List Event}
    (hlc : captured s.clock f.arrival = lc) (hmet : adoptMaster (kindField w0) (latchMet s.clock) = met)
    (hj : judge met (heardOf w0 w1 w2 w3 lc) s.localCount = (c, v, e, es)) :
    exec (.beacon .rise) s = .next (offerAll es { s with
      inbound := none
      clock := { c with window := (c.window ++ [(heardOf w0 w1 w2 w3 lc).record v e]).drop (c.window.length - 7) } }) := by
  have hparse : parseBeacon f (s.withInbound none) =
      clockBeacon f.arrival (kindField w0) (w1.extractLsb' 16 16) (Decode.time48 w2 w3) (s.withInbound none) := by
    simp [parseBeacon, frameWord, hwords, hver, hopt, Decode.field]
  have hrise : exec (.beacon .rise) s = .next (parseBeacon f (s.withInbound none)) :=
    congrArg Host.Outcome.next (selectRise_arrives parseBeacon harr rfl)
  have hheard : hearBeacon s.clock f.arrival s.localCount (kindField w0) (w1.extractLsb' 16 16) (Decode.time48 w2 w3) =
      ({ c with window := joinWindow c.window ((heardOf w0 w1 w2 w3 lc).record v e) }, es) := by
    unfold heardOf at hj
    simp only [hearBeacon, hlc, hmet, hj]
    rfl
  rw [hrise, hparse, clockBeacon, State.withInbound_clock, State.withInbound_localCount, hheard, joinWindow_eq]
  rfl

/-! ## What a beacon that has a local count does (1.6) -/

/-- A FREE clock begins a run on any such beacon (R17). -/
theorem judgeTimed_free {c : TimeBase} (b : Heard) (lc now : Time) (h : c.state = .free) :
    judgeTimed c b lc now = (beginRun c b lc now, .accepted, none, []) := by
  unfold judgeTimed
  rw [h]

section
variable {c c' : TimeBase} {a : Anchor} {b : Heard} {lc now p : Time} {e : Int} {es : List Event}

/-- An error beyond the gate, where it applies (R13). -/
theorem judgeTimed_outlier (ha : c.anchor = some a) (hp : throughAnchor a c.epsilon lc = p) (he : sdiff b.ht p = e)
    (hg : gateApplies c = true) (hbeyond : (c.settings.gate : Int) < |e|) (ho : judgeOutlier c b lc now e = (c', es)) :
    judgeTimed c b lc now = (c', .outlier, some e, es) := by
  unfold judgeTimed
  cases hst : c.state
  case free => simp [gateApplies, hst] at hg
  all_goals simp only [ha, hp, he, if_pos (And.intro hg hbeyond), ho]

/-- What acceptance does by the clock's state (R18 to R23). -/
def acceptTimed (c : TimeBase) (a : Anchor) (b : Heard) (lc p : Time) (e : Int) (now : Time) : TimeBase × List Event :=
  match c.state with
  | .holdover => acceptHoldover c a b lc p e now
  | .locked => acceptLocked c a b lc p e now
  | .acquiring | .free => acceptAcquiring c a b lc p e now

theorem acceptTimed_locked (h : c.state = .locked) : acceptTimed c a b lc p e now = acceptLocked c a b lc p e now := by
  simp only [acceptTimed, h]

theorem acceptTimed_acquiring (h : c.state = .acquiring) : acceptTimed c a b lc p e now = acceptAcquiring c a b lc p e now := by
  simp only [acceptTimed, h]

theorem acceptTimed_holdover (h : c.state = .holdover) : acceptTimed c a b lc p e now = acceptHoldover c a b lc p e now := by
  simp only [acceptTimed, h]

/-- A beacon that the gate lets by (R13). -/
theorem judgeTimed_accepted (ha : c.anchor = some a) (hp : throughAnchor a c.epsilon lc = p) (he : sdiff b.ht p = e)
    (hst : c.state ≠ .free) (hby : ¬ (gateApplies c = true ∧ (c.settings.gate : Int) < |e|))
    (hr : acceptTimed c a b lc p e now = (c', es)) : judgeTimed c b lc now = (c', .accepted, some e, es) := by
  unfold judgeTimed
  unfold acceptTimed at hr
  cases h : c.state
  case free => exact absurd h hst
  all_goals
    simp only [h] at hr
    simp only [ha, hp, he, if_neg hby, hr]

end

/-! ## Steering (R19, R20) -/

/-- The drift word after a beacon: a step of the frequency reading over `gain`, where the span allows a reading, held within
the clamp (R19, R20). -/
def driftSteered (epsilon e span gain : Int) : Int :=
  if 245760 ≤ span ∧ span ≤ 2 ^ 31 then max (-1288490) (min 1288490 (epsilon + ((e * 2 ^ 32).tdiv span).tdiv gain)) else epsilon

/-- DRIFT_LIMIT, where the clamp cuts the step (R20). -/
def driftCut (epsilon e span gain : Int) : List Event :=
  if (245760 ≤ span ∧ span ≤ 2 ^ 31) ∧ (epsilon + ((e * 2 ^ 32).tdiv span).tdiv gain < -1288490 ∨
      1288490 < epsilon + ((e * 2 ^ 32).tdiv span).tdiv gain) then
    [(.driftLimit, signedWord (driftSteered epsilon e span gain))] else []

/-- `driftAfter` answers the steered drift word and whether it is reported as cut. -/
theorem driftAfter_steers (epsilon e span gain : Int) :
    (driftAfter epsilon e span gain).1 = driftSteered epsilon e span gain ∧
    (if (driftAfter epsilon e span gain).2 then [(EventKind.driftLimit, signedWord (driftAfter epsilon e span gain).1)] else []) =
      driftCut epsilon e span gain := by
  unfold driftAfter driftCut driftSteered
  by_cases hspan : 245760 ≤ span ∧ span ≤ 2 ^ 31
  · have hn : ¬ (span < 245760 ∨ 2 ^ 31 < span) := by omega
    simp only [if_neg hn, hspan, true_and, and_self, if_true, decide_eq_true_eq]
    exact ⟨rfl, rfl⟩
  · have hn : span < 245760 ∨ 2 ^ 31 < span := by omega
    simp only [if_pos hn, hspan, false_and, if_false, Bool.false_eq_true, and_self]

/-- A model steered by a beacon into a clock state and lock run, with LOCKED or ACQUIRING gains (R19). -/
def steered (c : TimeBase) (a : Anchor) (b : Heard) (lc p : Time) (e : Int) (now : Time) (st : ClockState) (run : Nat)
    (locked : Bool) : TimeBase :=
  { c with
    state := st, lockRun := run, outlierRun := 0, settle := min 2 (c.settle + 1), lastSequence := some b.sequence,
    silenceStart := now, epsilon := driftSteered c.epsilon e (sdiff lc a.lc) (if locked then 16 else 2)
    anchor := some { lc := lc, ht := if locked then addSpan p (e.tdiv 4) else b.ht } }

/-- The update of phase and frequency is the steering, with DRIFT_LIMIT where the clamp cuts (R19, R20). -/
theorem updateModel_steers (locked : Bool) (c : TimeBase) (a : Anchor) (b : Heard) (lc p : Time) (e : Int) (now : Time)
    (st : ClockState) (run : Nat) :
    updateModel locked { c with state := st, lockRun := run, outlierRun := 0 } a b lc p e now =
      (steered c a b lc p e now st run locked, driftCut c.epsilon e (sdiff lc a.lc) (if locked then 16 else 2)) := by
  obtain ⟨hword, hcut⟩ := driftAfter_steers c.epsilon e (sdiff lc a.lc) (if locked then 16 else 2)
  unfold updateModel steered
  rw [← hcut, ← hword]
  rfl

section
variable {c : TimeBase} {a : Anchor} {b : Heard} {lc p : Time} {e : Int} {now : Time}

/-- LOCKED within 4 W: LOCKED gains (R22). -/
theorem acceptLocked_within (hst : c.state = .locked) (he : |e| ≤ 4 * (c.settings.window : Int)) :
    acceptLocked c a b lc p e now =
      (steered c a b lc p e now .locked c.lockRun true, driftCut c.epsilon e (sdiff lc a.lc) 16) := by
  rw [acceptLocked, if_neg (not_lt.2 he), ← hst]
  exact updateModel_steers true c a b lc p e now c.state c.lockRun

/-- LOCKED beyond 4 W: unlocked, ACQUIRING gains, LOCK_LOST (R22). -/
theorem acceptLocked_beyond (he : 4 * (c.settings.window : Int) < |e|) :
    acceptLocked c a b lc p e now =
      (steered c a b lc p e now .acquiring 1 false, driftCut c.epsilon e (sdiff lc a.lc) 2 ++ [(.lockLost, clamp32 e)]) := by
  rw [acceptLocked, if_pos he, updateModel_steers]
  rfl

/-- ACQUIRING with a lock run of 0 begins a run (R18). -/
theorem acceptAcquiring_begins (hrun : c.lockRun = 0) :
    acceptAcquiring c a b lc p e now = (beginRun c b lc now, reanchorIfBeyond c e) := by rw [acceptAcquiring, if_pos hrun]

/-- ACQUIRING within W with the run at 4: LOCKED, LOCKED gains, LOCK_GAINED (R21). -/
theorem acceptAcquiring_locks (hrun : c.lockRun ≠ 0) (he : |e| ≤ c.settings.window) (hfull : 4 ≤ c.lockRun + 1) :
    acceptAcquiring c a b lc p e now =
      (steered c a b lc p e now .locked 4 true, driftCut c.epsilon e (sdiff lc a.lc) 16 ++ [(.lockGained, 0)]) := by
  simp only [acceptAcquiring, if_neg hrun, if_pos he, if_pos hfull, updateModel_steers, if_true]

/-- ACQUIRING within W with the run below 4: the run goes on (R21). -/
theorem acceptAcquiring_counts (hst : c.state = .acquiring) (hrun : c.lockRun ≠ 0) (he : |e| ≤ c.settings.window)
    (hshort : c.lockRun + 1 < 4) :
    acceptAcquiring c a b lc p e now =
      (steered c a b lc p e now .acquiring (c.lockRun + 1) false, driftCut c.epsilon e (sdiff lc a.lc) 2) := by
  simp only [acceptAcquiring, if_neg hrun, if_pos he, if_neg (not_le.2 hshort), ← hst]
  exact updateModel_steers false c a b lc p e now c.state (c.lockRun + 1)

/-- ACQUIRING beyond W: the run is back at 1 (R21). -/
theorem acceptAcquiring_restarts (hst : c.state = .acquiring) (hrun : c.lockRun ≠ 0) (he : (c.settings.window : Int) < |e|) :
    acceptAcquiring c a b lc p e now =
      (steered c a b lc p e now .acquiring 1 false, driftCut c.epsilon e (sdiff lc a.lc) 2) := by
  rw [acceptAcquiring, if_neg hrun, if_neg (not_le.2 he), if_neg (by decide), ← hst]
  exact updateModel_steers false c a b lc p e now c.state 1

/-- HOLDOVER within W: locked again (R23). -/
theorem acceptHoldover_locks (he : |e| ≤ c.settings.window) :
    acceptHoldover c a b lc p e now =
      (steered c a b lc p e now .locked c.lockRun true, driftCut c.epsilon e (sdiff lc a.lc) 16 ++ [(.lockGained, 0)]) := by
  rw [acceptHoldover, if_pos he, updateModel_steers true c a b lc p e now .locked c.lockRun]
  rfl

/-- HOLDOVER beyond W begins a run (R23). -/
theorem acceptHoldover_begins (he : (c.settings.window : Int) < |e|) :
    acceptHoldover c a b lc p e now = (beginRun c b lc now, reanchorIfBeyond c e) := by rw [acceptHoldover, if_neg (not_le.2 he)]

/-- The first two outliers in a row are counted (R13). -/
theorem judgeOutlier_counts (h : c.outlierRun + 1 < 3) :
    judgeOutlier c b lc now e = ({ c with outlierRun := c.outlierRun + 1 }, [(.beaconOutlier, clamp32 e)]) := by
  rw [judgeOutlier, if_pos h]

/-- The third begins a run (R14). -/
theorem judgeOutlier_begins (h : 3 ≤ c.outlierRun + 1) :
    judgeOutlier c b lc now e = (beginRun c b lc now,
      [(.beaconOutlier, clamp32 e), (.reanchor, clamp32 e)] ++ (if c.state = .locked then [(.lockLost, 0)] else [])) := by
  rw [judgeOutlier, if_neg (not_lt.2 h)]

/-- The gate applies while LOCKED and while ACQUIRING with the settle count at 2 (R13). -/
theorem gateApplies_iff : gateApplies c = true ↔ c.state = .locked ∨ (c.state = .acquiring ∧ c.settle = 2) := by
  unfold gateApplies
  cases c.state <;> simp

end

/-! ## The statements about beacons -/

/-- Settles O27: the checks in order, each by its own lemma. -/
theorem beaconBuildsModelOrIsForeign : Obligations.BeaconBuildsModelOrIsForeign := by
  intro s f w0 w1 w2 w3 harr hwords hver hopt x m seq ht lc c followed fresh noted
  have hc : adoptMaster m (latchMet s.clock) = c := adoptMaster_latchMet m s.clock
  have hlc : captured s.clock f.arrival = lc := captured_eq s.clock f.arrival
  have hstale : isStale c seq = false ↔ fresh := isStale_eq_false_iff c seq
  have hfollowed : masterInForce c = followed := rfl
  have hnoted : ∀ {c' : TimeBase} {v : Verdict} {es : List Event},
      judge c (heardOf w0 w1 w2 w3 lc) s.localCount = (c', v, none, es) →
      exec (.beacon .rise) s = .next (offerAll es (noted v c')) := fun hj => exec_beacon_judged harr hwords hver hopt hlc hc hj
  refine ⟨fun hother => ?_, fun hm hold => ?_, fun hm hfresh hnone => ?_, fun hm hfresh n hn hfree => ?_⟩
  · exact hnoted (judge_foreign s.localCount hother)
  · exact hnoted (judge_stale s.localCount hm (Bool.eq_true_of_not_eq_false fun h => hold (hstale.1 h)))
  · exact hnoted (judge_unpaired s.localCount hm (hstale.2 hfresh) hnone)
  · have htimed := judge_timed (b := heardOf w0 w1 w2 w3 lc) s.localCount (hfollowed.trans hm) (hstale.2 hfresh) hn
    exact hnoted (htimed.trans (judgeTimed_free _ n _ hfree))

/-- Settles O28: the beacon passes the first three checks, so it is judged by its time; then by the gate and the clock's state. -/
theorem lockedBeaconSteersModel : Obligations.LockedBeaconSteersModel := by
  intro s f w0 w1 w2 w3 a n harr hwords hver hopt hanchor x m seq ht adopts hmaster hfresh hn p e span moved spanFits drift limited
    c steered' begun beyondGate after gated
  have hc : adoptMaster m (latchMet s.clock) = c := adoptMaster_latchMet m s.clock
  have hlc : captured s.clock f.arrival = some n := (captured_eq s.clock f.arrival).trans hn
  have hforce : masterInForce c = some m := hc ▸ masterInForce_adoptMaster hmaster
  have hstate : c.state = s.clock.state := rfl
  have hgate : gateApplies c = true ↔ gated := gateApplies_iff
  have htimed := judge_timed (b := heardOf w0 w1 w2 w3 (some n)) s.localCount hforce ((isStale_eq_false_iff c seq).2 hfresh) rfl
  have houtlier : ∀ {c' : TimeBase} {es : List Event}, gated → x.gate < |e| →
      judgeOutlier c (heardOf w0 w1 w2 w3 (some n)) n s.localCount e = (c', es) →
      exec (.beacon .rise) s = .next (after .outlier c' es) := fun hg he ho =>
    exec_beacon_judged harr hwords hver hopt hlc hc (htimed.trans (judgeTimed_outlier hanchor rfl rfl (hgate.2 hg) he ho))
  have haccepted : ∀ {c' : TimeBase} {es : List Event}, s.clock.state ≠ .free → ¬ (gated ∧ x.gate < |e|) →
      acceptTimed c a (heardOf w0 w1 w2 w3 (some n)) n p e s.localCount = (c', es) →
      exec (.beacon .rise) s = .next (after .accepted c' es) := fun hst hby hr =>
    exec_beacon_judged harr hwords hver hopt hlc hc
      (htimed.trans (judgeTimed_accepted hanchor rfl rfl hst (fun h => hby ⟨hgate.1 h.1, h.2⟩) hr))
  have hlocked : ∀ {c' : TimeBase} {es : List Event}, s.clock.state = .locked → |e| ≤ x.gate →
      acceptLocked c a (heardOf w0 w1 w2 w3 (some n)) n p e s.localCount = (c', es) →
      exec (.beacon .rise) s = .next (after .accepted c' es) := fun hst he hr =>
    haccepted (by simp [hst]) (fun h => not_lt.2 he h.2) ((acceptTimed_locked (hstate.trans hst)).trans hr)
  have hacquiring : ∀ {c' : TimeBase} {es : List Event}, s.clock.state = .acquiring → s.clock.settle ≠ 2 ∨ |e| ≤ x.gate →
      acceptAcquiring c a (heardOf w0 w1 w2 w3 (some n)) n p e s.localCount = (c', es) →
      exec (.beacon .rise) s = .next (after .accepted c' es) := by
    refine fun hst he hr => haccepted (by simp [hst]) ?_ ((acceptTimed_acquiring (hstate.trans hst)).trans hr)
    rintro ⟨hg | hg, hbeyond⟩
    · simp [hst] at hg
    · exact he.elim (fun h => h hg.2) fun h => not_lt.2 h hbeyond
  have hholdover : ∀ {c' : TimeBase} {es : List Event}, s.clock.state = .holdover →
      acceptHoldover c a (heardOf w0 w1 w2 w3 (some n)) n p e s.localCount = (c', es) →
      exec (.beacon .rise) s = .next (after .accepted c' es) := fun hst hr =>
    haccepted (by simp [hst]) (by simp [gated, hst]) ((acceptTimed_holdover (hstate.trans hst)).trans hr)
  refine ⟨fun hg he => ⟨fun hrun => ?_, fun hrun => ?_⟩, fun hst he => ⟨fun hw => ?_, fun hw => ?_⟩,
    fun hst he => ⟨fun hrun => ?_, fun hrun hw hfull => ?_, fun hrun hw hshort => ?_, fun hrun hw => ?_⟩,
    fun hst => ⟨fun hw => ?_, fun hw => ?_⟩⟩
  · exact houtlier hg he (judgeOutlier_counts hrun)
  · exact houtlier hg he (judgeOutlier_begins hrun)
  · exact hlocked hst he (acceptLocked_within hst hw)
  · exact hlocked hst he (acceptLocked_beyond hw)
  · exact hacquiring hst he (acceptAcquiring_begins hrun)
  · exact hacquiring hst he (acceptAcquiring_locks hrun hw hfull)
  · exact hacquiring hst he (acceptAcquiring_counts hst hrun hw hshort)
  · exact hacquiring hst he (acceptAcquiring_restarts hst hrun hw)
  · exact hholdover hst (acceptHoldover_locks hw)
  · exact hholdover hst (acceptHoldover_begins hw)

end Sys2Proof.Machine
end

section
/-! SUPPORT. Arguments out of range: each reader of an operand answers none, and each owner then answers REFUSED BADARG. -/

namespace Sys2Proof.Machine

/-! ## Numbers and codes out of range -/

/-- No index stands at or above the bound. -/
theorem indexBelow_eq_none {k n : Nat} (h : k ≤ n) : indexBelow k n = none := dif_neg (not_lt.2 h)

/-- A number outside its range. -/
theorem natIn_eq_none {lo hi n : Nat} (h : n < lo ∨ hi < n) : natIn lo hi n = none := if_neg (by omega)

/-- A trim outside 100 ms either way (R30). -/
theorem trimOf_eq_none {w : Word32} (h : w.toInt < -2457600 ∨ 2457600 < w.toInt) : trimOf w = none := if_neg (by omega)

/-- The source rate codes are 1 to 5 (R168). -/
theorem rateOfCode_eq_none {n : Nat} (h : n < 1 ∨ 5 < n) : rateOfCode n = none := by
  unfold rateOfCode
  split
  case h_6 => rfl
  all_goals omega

/-- The channel codes are 1 and 2 (R168). -/
theorem channelsOfCode_eq_none {n : Nat} (h : n < 1 ∨ 2 < n) : channelsOfCode n = none := by
  unfold channelsOfCode
  split
  case h_3 => rfl
  all_goals omega

/-- The width codes are 1 and 2 (R168). -/
theorem widthOfCode_eq_none {n : Nat} (h : n < 1 ∨ 2 < n) : widthOfCode n = none := by
  unfold widthOfCode
  split
  case h_3 => rfl
  all_goals omega

/-- The output rate codes are 3 and 5 (R168). -/
theorem outputRateOfCode_eq_none {n : Nat} (h : n ≠ 3 ∧ n ≠ 5) : outputRateOfCode n = none := by
  unfold outputRateOfCode
  split
  case h_3 => rfl
  all_goals omega

/-- The capture source codes are 0 and 1 (R168). -/
theorem sourceOfCode_eq_none {n : Nat} (h : 2 ≤ n) : sourceOfCode n = none := by
  unfold sourceOfCode
  split
  case h_3 => rfl
  all_goals omega

/-- The class codes are 0 to 2 (R168). -/
theorem classOfCode_eq_none {n : Nat} (h : 3 ≤ n) : classOfCode n = none := by
  unfold classOfCode
  split
  case h_4 => rfl
  all_goals omega

/-- The partition modes are 1, 2 and 4 (R32). -/
theorem modeOfCode_eq_none {n : Nat} (h : n ≠ 1 ∧ n ≠ 2 ∧ n ≠ 4) : modeOfCode n = none := by
  unfold modeOfCode
  split
  case h_4 => rfl
  all_goals omega

/-- A format byte with a rate, a channel count or a width there is not (R168). -/
theorem formatOf_eq_none {b : BitVec 8} (h : (b.toNat / 16 < 1 ∨ 5 < b.toNat / 16) ∨
    (b.toNat / 4 % 4 < 1 ∨ 2 < b.toNat / 4 % 4) ∨ (b.toNat % 4 < 1 ∨ 2 < b.toNat % 4)) : formatOf b = none := by
  unfold formatOf
  split
  · next hr hc hw =>
    rcases h with h | h | h
    · cases (rateOfCode_eq_none h).symm.trans hr
    · cases (channelsOfCode_eq_none h).symm.trans hc
    · cases (widthOfCode_eq_none h).symm.trans hw
  · rfl

/-- A boot preset that is neither a preset nor none (R162). -/
theorem bootPresetOf_eq_none {b : BitVec 8} (h : 8 ≤ b.toNat ∧ b ≠ 0xFF) : bootPresetOf b = none := by
  rw [bootPresetOf, if_neg h.2, indexBelow_eq_none h.1]
  rfl

/-! ## Operands of several fields -/

/-- A context with a field out of range (R37). -/
theorem openContext_eq_none {id format priority ring : BitVec 8} {trim : Word32} {limit : BitVec 16}
    (h : formatOf format = none ∨ 4 ≤ priority.toNat ∨ (ring.toNat < 1 ∨ 64 < ring.toNat) ∨
      (trim.toInt < -2457600 ∨ 2457600 < trim.toInt) ∨ (limit.toNat < 10 ∨ 10000 < limit.toNat)) :
    openContext id format priority ring trim limit = none := by
  unfold openContext
  split
  · next hf hp hn ht hl =>
    rcases h with h | h | h | h | h
    · cases h.symm.trans hf
    · cases (indexBelow_eq_none h).symm.trans hp
    · cases (natIn_eq_none h).symm.trans hn
    · cases (trimOf_eq_none h).symm.trans ht
    · cases (natIn_eq_none h).symm.trans hl
  · rfl

/-- A route entry with a field out of range (R114). -/
theorem routeOfWord_eq_none {w : Word32} (h : 8 ≤ (w.extractLsb' 24 4).toNat ∨ 2 ≤ (w.extractLsb' 20 4).toNat ∨
    4 ≤ (w.extractLsb' 16 4).toNat) : routeOfWord w = none := by
  unfold routeOfWord Decode.field
  split
  · next hs hc hl =>
    rcases h with h | h | h
    · cases (indexBelow_eq_none h).symm.trans hs
    · cases (indexBelow_eq_none h).symm.trans hc
    · cases (indexBelow_eq_none h).symm.trans hl
  · rfl

/-- A cue's action, target or argument that R132's first check refuses. -/
theorem cueActionOf_eq_none {action target : BitVec 8} {argument : BitVec 16}
    (h : (action.toNat < 1 ∨ 7 < action.toNat) ∨ ((action = 1 ∨ action = 2) ∧ 8 ≤ target.toNat) ∨ (action = 3 ∧ 16 ≤ target.toNat) ∨
      (action = 4 ∧ (4 ≤ target.toNat ∨ 16384 < argument.toNat)) ∨ (action = 5 ∧ 8 ≤ argument.toNat) ∨
      (action = 6 ∧ 2 ≤ argument.toNat) ∨ (action = 7 ∧ 3 ≤ argument.toNat)) : cueActionOf action target argument = none := by
  rcases h with h | ⟨rfl | rfl, h⟩ | ⟨rfl, h⟩ | ⟨rfl, h⟩ | ⟨rfl, h⟩ | ⟨rfl, h⟩ | ⟨rfl, h⟩
  · unfold cueActionOf
    split
    case h_8 => rfl
    all_goals omega
  · simp [cueActionOf, indexBelow_eq_none h]
  · simp [cueActionOf, indexBelow_eq_none h]
  · simp [cueActionOf, indexBelow_eq_none h]
  · show (match indexBelow 4 target.toNat, natIn 0 16384 argument.toNat with | some l, some v => _ | _, _ => none) = none
    split
    · next hl hv =>
      rcases h with h | h
      · cases (indexBelow_eq_none h).symm.trans hl
      · cases (natIn_eq_none (.inr h)).symm.trans hv
    · rfl
  · simp [cueActionOf, indexBelow_eq_none h]
  · show (match argument.toNat with | 0 => _ | 1 => _ | _ => none) = none
    split
    case h_3 => rfl
    all_goals omega
  · show (match argument.toNat with | 0 => _ | 1 => _ | 2 => _ | _ => none) = none
    split
    case h_4 => rfl
    all_goals omega

/-- Clock settings with one out of range (R4, R5). -/
theorem clockSettingsOf_eq_none {m : BitVec 16} {source : BitVec 8} {limit link edge : BitVec 16} {gate window : Word32}
    (h : 2 ≤ source.toNat ∨ (limit.toNat < 1 ∨ 600 < limit.toNat) ∨ (gate.toNat < 246 ∨ 245760 < gate.toNat) ∨
      (window.toNat < 25 ∨ 24576 < window.toNat)) : clockSettingsOf m source limit link edge gate window = none := by
  unfold clockSettingsOf
  split
  · next hs hl hg hw =>
    rcases h with h | h | h | h
    · cases (sourceOfCode_eq_none h).symm.trans hs
    · cases (natIn_eq_none h).symm.trans hl
    · cases (natIn_eq_none h).symm.trans hg
    · cases (natIn_eq_none h).symm.trans hw
  · rfl

/-- Output settings with one out of range (R111). -/
theorem outputSettingsOf_eq_none {rate ko rt : Word32}
    (h : (rate.toNat ≠ 3 ∧ rate.toNat ≠ 5) ∨ 245760 < ko.toNat ∨ (rt.toNat < 2458 ∨ 983040 < rt.toNat)) :
    outputSettingsOf rate ko rt = none := by
  unfold outputSettingsOf
  split
  · next hr hk ht =>
    rcases h with h | h | h
    · cases (outputRateOfCode_eq_none h).symm.trans hr
    · cases (natIn_eq_none (.inr h)).symm.trans hk
    · cases (natIn_eq_none h).symm.trans ht
  · rfl

/-! ## Owners -/

/-- A command that names a slot there is not (R40, R41, R43, R44). -/
theorem onSlot_badarg {slot : BitVec 16} (h : 8 ≤ slot.toNat) (work : Fin 8 → State × Answer) (s : State) :
    onSlot slot work s = (s, refusal .badarg) := by
  simp only [onSlot, indexBelow_eq_none h]

theorem openOwner_badarg {slot : BitVec 16} {id format priority ring : BitVec 8} {trim : Word32} {limit : BitVec 16} (s : State)
    (h : 8 ≤ slot.toNat ∨ openContext id format priority ring trim limit = none) :
    openOwner slot id format priority ring trim limit s = (s, refusal .badarg) := by
  unfold openOwner
  split
  · next hi hc =>
    rcases h with h | h
    · cases (indexBelow_eq_none h).symm.trans hi
    · cases h.symm.trans hc
  · rfl

theorem trimOwner_badarg {slot : BitVec 16} {value : Word32} (s : State)
    (h : 8 ≤ slot.toNat ∨ (value.toInt < -2457600 ∨ 2457600 < value.toInt)) : trimOwner slot value s = (s, refusal .badarg) := by
  rcases h with h | h
  · exact onSlot_badarg h _ s
  · unfold trimOwner onSlot
    split
    · rfl
    · simp only [trimOf_eq_none h]

theorem partitionOwner_badarg {mode : BitVec 16} (s : State) (h : mode.toNat ≠ 1 ∧ mode.toNat ≠ 2 ∧ mode.toNat ≠ 4) :
    partitionOwner mode s = (s, refusal .badarg) := by simp only [partitionOwner, modeOfCode_eq_none h]

/-- The channel of an entry word against the stream open in the slot it names (R115). -/
theorem channelBeyond_of_word {s : State} {w : Word32} {r : Route} (hr : routeOfWord w = some r) {i : Fin 8} {x : Context}
    (hi : i.val = (w.extractLsb' 24 4).toNat) (hopen : (s.slot i).state ≠ .closed) (hx : (s.slot i).context = some x)
    (hc : x.channels.count ≤ (w.extractLsb' 20 4).toNat) : channelBeyond s r = true := by
  have hslot : r.slot = i ∧ r.channel.val = (w.extractLsb' 20 4).toNat := by
    unfold routeOfWord Decode.field at hr
    split at hr
    · next hs hch _ =>
      cases hr
      simp only [indexBelow, Option.dite_none_right_eq_some, Option.some.injEq] at hs hch
      obtain ⟨_, rfl⟩ := hs
      obtain ⟨_, rfl⟩ := hch
      exact ⟨Fin.ext hi.symm, rfl⟩
    · cases hr
  unfold channelBeyond
  rw [hslot.1, hx, hslot.2]
  split
  · next h => exact absurd h hopen
  · next h _ => cases h
  · next h _ => cases h; exact decide_eq_true hc

theorem routePutOwner_badarg {index : BitVec 16} {entry : Word32} (s : State)
    (h : 16 ≤ index.toNat ∨ routeOfWord entry = none ∨ ∀ r, routeOfWord entry = some r → channelBeyond s r = true) :
    routePutOwner index entry s = (s, refusal .badarg) := by
  unfold routePutOwner
  split
  · next hi hr =>
    rcases h with h | h | h
    · cases (indexBelow_eq_none h).symm.trans hi
    · cases h.symm.trans hr
    · rw [if_pos (h _ hr)]
  · rfl

theorem routeDropOwner_badarg {index : BitVec 16} (s : State) (h : 16 ≤ index.toNat) :
    routeDropOwner index s = (s, refusal .badarg) := by simp only [routeDropOwner, indexBelow_eq_none h]

theorem routeRecallOwner_badarg {preset : BitVec 16} (s : State) (h : 8 ≤ preset.toNat) :
    routeRecallOwner preset s = (s, refusal .badarg) := by simp only [routeRecallOwner, indexBelow_eq_none h]

theorem duckSetOwner_badarg {lane : BitVec 16} {level : Word32} (s : State) (h : 4 ≤ lane.toNat ∨ 16384 < level.toNat) :
    duckSetOwner lane level s = (s, refusal .badarg) := by
  unfold duckSetOwner
  split
  · next hl hv =>
    rcases h with h | h
    · cases (indexBelow_eq_none h).symm.trans hl
    · cases (natIn_eq_none (.inr h)).symm.trans hv
  · rfl

theorem outputSetOwner_badarg {rate ko rt : Word32} (s : State) (h : outputSettingsOf rate ko rt = none) :
    outputSetOwner rate ko rt s = (s, refusal .badarg) := by simp only [outputSetOwner, h]

theorem cueAddOwner_badarg {id : BitVec 16} (fire : Time) {action target : BitVec 8} {argument : BitVec 16} (s : State)
    (h : 256 ≤ id.toNat ∨ cueActionOf action target argument = none) :
    cueAddOwner id fire action target argument s = (s, refusal .badarg) := by
  unfold cueAddOwner
  split
  · next hi ha =>
    rcases h with h | h
    · cases (indexBelow_eq_none h).symm.trans hi
    · cases h.symm.trans ha
  · rfl

theorem cueCancelOwner_badarg {id : BitVec 16} (s : State) (h : 256 ≤ id.toNat) :
    cueCancelOwner id s = (s, refusal .badarg) := by simp only [cueCancelOwner, indexBelow_eq_none h]

theorem clockSetOwner_badarg {m : BitVec 16} {source : BitVec 8} {limit link edge : BitVec 16} {gate window : Word32} (s : State)
    (h : clockSettingsOf m source limit link edge gate window = none) :
    clockSetOwner m source limit link edge gate window s = (s, refusal .badarg) := by simp only [clockSetOwner, h]

theorem classSetOwner_badarg {kind cls : BitVec 8} (s : State) (h : 32 ≤ kind.toNat ∨ 3 ≤ cls.toNat) :
    classSetOwner kind cls s = (s, refusal .badarg) := by
  unfold classSetOwner
  split
  · next hk hc =>
    rcases h with h | h
    · cases (indexBelow_eq_none h).symm.trans hk
    · cases (classOfCode_eq_none h).symm.trans hc
  · rfl

theorem ackOwner_badarg {slot : BitVec 8} (sequence : BitVec 8) (s : State) (h : 8 ≤ slot.toNat) :
    ackOwner slot sequence s = (s, refusal .badarg) := by simp only [ackOwner, indexBelow_eq_none h]

theorem saveOwner_badarg {tag : BitVec 16} {boot : BitVec 8} (s : State) (h : tag = 0xFFFF ∨ (8 ≤ boot.toNat ∧ boot ≠ 0xFF)) :
    saveOwner tag boot s = (s, refusal .badarg) := by
  unfold saveOwner
  split
  · rfl
  · next hb =>
    rcases h with h | h
    · rw [if_pos h]
    · cases (bootPresetOf_eq_none h).symm.trans hb

theorem presetPutOwner_badarg {preset : BitVec 16} (s : State) (h : 8 ≤ preset.toNat) :
    presetPutOwner preset s = (s, refusal .badarg) := by simp only [presetPutOwner, indexBelow_eq_none h]

/-- A record that is taken and whose owner refuses it BADARG: nothing but the reply changes (R151). -/
theorem exec_badarg {i : Instr} {s : State} {owner : State → State × Answer} {code : BitVec 8} {n : Nat} (ht : Taken i s)
    (ho : owner s = (s, refusal .badarg)) (hs : recordShape i = some (code, n) := by rfl)
    (he : exec i s = .next (handOver i owner s) := by rfl) : exec i s = .next (s.reply code (refusal .badarg)) := by
  rw [he, handOver_next ht hs ho rfl]

/-- Settles O37: each owner refuses what its readers do not read, one line a record. -/
theorem argumentsOutOfRangeAreRefused : Obligations.ArgumentsOutOfRangeAreRefused := by
  intro s n m k l a b c d t v w u outside trimBad formatBad entryBad channelBeyond actionBad
  have hbeyond : channelBeyond → ∀ r, routeOfWord v = some r → Machine.channelBeyond s r = true := by
    rintro ⟨i, x, hi, hopen, hx, hc⟩ r hr
    exact channelBeyond_of_word hr hi hopen hx hc
  simp only [List.forall_mem_cons]
  refine ⟨fun h ht => exec_badarg ht (openOwner_badarg s (h.imp_right fun h => openContext_eq_none (h.imp_left formatOf_eq_none))),
    fun h ht => exec_badarg (owner := closeOwner n) ht (onSlot_badarg h _ s),
    fun h ht => exec_badarg (owner := endOwner n) ht (onSlot_badarg h _ s),
    fun h ht => exec_badarg (owner := cutOwner n) ht (onSlot_badarg h _ s),
    fun h ht => exec_badarg (owner := clearOwner n) ht (onSlot_badarg h _ s),
    fun h ht => exec_badarg ht (trimOwner_badarg s h),
    fun h ht => exec_badarg ht (partitionOwner_badarg s h),
    fun h ht => exec_badarg ht (routePutOwner_badarg s (h.imp_right (Or.imp routeOfWord_eq_none hbeyond))),
    fun h ht => exec_badarg ht (routeDropOwner_badarg s h),
    fun h ht => exec_badarg ht (routeRecallOwner_badarg s h),
    fun h ht => exec_badarg ht (duckSetOwner_badarg s h),
    fun h ht => exec_badarg ht (outputSetOwner_badarg s (outputSettingsOf_eq_none h)),
    fun h ht => exec_badarg ht (cueAddOwner_badarg t s (h.imp_right cueActionOf_eq_none)),
    fun h ht => exec_badarg ht (cueCancelOwner_badarg s h),
    fun h ht => exec_badarg ht (clockSetOwner_badarg s (clockSettingsOf_eq_none h)),
    fun h ht => exec_badarg ht (classSetOwner_badarg s h),
    fun h ht => exec_badarg ht (ackOwner_badarg b s h),
    fun h ht => exec_badarg ht (saveOwner_badarg s h),
    fun h ht => exec_badarg ht (presetPutOwner_badarg s h),
    fun _ h => by cases h⟩

end Sys2Proof.Machine
end

section
/-! SUPPORT. The moments of a link frame at the Link Port, the same for every row of the table (R50 to R53). -/

namespace Sys2Proof.Machine

/-! ## Rows of link frames -/

/-- A command that is a moment of a link frame of the kinds `row`: the Link Port's work, and at the select-rise of a frame that is
no READ and has bits left over the discard as RAGGED (R50, R51). -/
def LinkRow (c : Instr) (stage : LinkStage) (row : BitVec 8 → Bool) (s : State) : Prop :=
  ∃ rise : LinkFrame → State → State, exec c s = .next (linkMoment stage row rise s) ∧
    ∀ f t, f.isRead = false → f.tail ≠ 0 → rise f t = discardFrame .ragged (frameKind f) 0 t

/-- Bits left over are discarded before anything is parsed (R51). -/
theorem receive_ragged (parse : LinkFrame → State → State) {f : LinkFrame} (t : State) (h : f.tail ≠ 0) :
    receive parse f t = discardFrame .ragged (frameKind f) 0 t := if_pos h

/-- A moment of an audio frame with the rings located (log 16). -/
theorem audioMoment_located {stage : LinkStage} {kind : BitVec 8} {parse : LinkFrame → State → State} {s : State}
    (h : s.ringsLocated = true) :
    audioMoment stage kind parse s = .next (linkMoment stage (fun k => decide (k = kind)) (receive parse) s) := by
  simp [audioMoment, h]

section
variable {s : State} {stage : LinkStage}

theorem linkRow_audio (h : s.ringsLocated = true) : LinkRow (.audio stage) stage (fun k => decide (k = 0x01)) s :=
  ⟨receive parseAudio, audioMoment_located h, fun _ t _ => receive_ragged _ t⟩

theorem linkRow_cont (h : s.ringsLocated = true) : LinkRow (.cont stage) stage (fun k => decide (k = 0x02)) s :=
  ⟨receive parseCont, audioMoment_located h, fun _ t _ => receive_ragged _ t⟩

theorem linkRow_beacon : LinkRow (.beacon stage) stage (fun k => decide (k = 0x03)) s :=
  ⟨receive parseBeacon, rfl, fun _ t _ => receive_ragged _ t⟩

theorem linkRow_control : LinkRow (.control (.link stage)) stage (fun k => decide (k = 0x04)) s :=
  ⟨receive parseControl, rfl, fun _ t _ => receive_ragged _ t⟩

theorem linkRow_read : LinkRow (.read stage) stage (fun k => decide (k = 0x05)) s :=
  ⟨readEnded, rfl, fun _ t hr ht => (if_pos hr).trans (receive_ragged _ t ht)⟩

theorem linkRow_unknownKindFrame : LinkRow (.unknownKindFrame stage) stage (fun k => !inboundKinds.contains k) s :=
  ⟨receive fun f t => discardFrame .kind (frameKind f) 0 t, rfl, fun _ t _ => receive_ragged _ t⟩

/-- Each of the six rows of link frames. -/
theorem linkRow_of_mem {c : Instr} (h : s.ringsLocated = true)
    (hc : c ∈ [Instr.audio stage, .cont stage, .beacon stage, .read stage, .control (.link stage), .unknownKindFrame stage]) :
    ∃ row, LinkRow c stage row s := by
  simp only [List.mem_cons, List.not_mem_nil, or_false] at hc
  rcases hc with rfl | rfl | rfl | rfl | rfl | rfl
  · exact ⟨_, linkRow_audio h⟩
  · exact ⟨_, linkRow_cont h⟩
  · exact ⟨_, linkRow_beacon⟩
  · exact ⟨_, linkRow_read⟩
  · exact ⟨_, linkRow_control⟩
  · exact ⟨_, linkRow_unknownKindFrame⟩

end

/-! ## The moments, whatever the row -/

section
variable {c : Instr} {s : State} {row : BitVec 8 → Bool} {ws : List Word32} {tail : Nat} {f : LinkFrame}

theorem LinkRow.fall (h : LinkRow c .fall row s) : exec c s = .next (selectFall s) := by
  obtain ⟨_, he, _⟩ := h
  exact he

theorem LinkRow.shift (h : LinkRow c (.shift ws tail) row s) : exec c s = .next (shiftIn ws tail s) := by
  obtain ⟨_, he, _⟩ := h
  exact he

/-- A select-rise with no assembly (R53). -/
theorem LinkRow.rise_none (h : LinkRow c .rise row s) (hi : s.inbound = none) : exec c s = .next s := by
  obtain ⟨rise, he, _⟩ := h
  rw [he, linkMoment, selectRise, hi]

/-- The select-rise of an ignored frame or of one without a bit (R50). -/
theorem LinkRow.rise_nothing (h : LinkRow c .rise row s) (hi : s.inbound = some f) (hf : f.ignored = true ∨ f.isEmpty = true) :
    exec c s = .next (s.withInbound none) := by
  obtain ⟨rise, he, _⟩ := h
  simp only [he, linkMoment, selectRise, hi, if_pos hf]

/-- The select-rise of a frame of the row's kind that is no READ and has bits left over (R51). -/
theorem LinkRow.rise_ragged (h : LinkRow c .rise row s) (hi : s.inbound = some f) (hg : f.ignored = false) (ht : 0 < f.tail)
    (hr : f.isRead = false) (hrow : f.fits row = true) :
    exec c s = .next (discardFrame .ragged (frameKind f) 0 (s.withInbound none)) := by
  obtain ⟨rise, he, hragged⟩ := h
  have hn : ¬ (f.ignored = true ∨ f.isEmpty = true) := by simp [hg, LinkFrame.isEmpty, ht.ne']
  simp only [he, linkMoment, selectRise, hi, if_neg hn, if_pos hrow, hragged f _ hr ht.ne']

/-- The frame's kind is the row's. -/
theorem LinkFrame.fits_of_kind {k : BitVec 8} (hk : f.kindCode = some k) (hrow : row k = true) : f.fits row = true := by
  simp only [LinkFrame.fits, hk, hrow]

/-- The kind of a frame that is no READ. -/
theorem LinkFrame.isRead_of_kind {k : BitVec 8} (hk : f.kindCode = some k) (hne : k ≠ 0x05) : f.isRead = false := by
  rw [LinkFrame.isRead, hk]
  exact decide_eq_false fun h => hne (Option.some.inj h)

/-- As `rise_ragged`, by the frame's kind code. -/
theorem LinkRow.rise_ragged_kind {k : BitVec 8} (h : LinkRow c .rise row s) (hi : s.inbound = some f) (hg : f.ignored = false)
    (ht : 0 < f.tail) (hk : f.kindCode = some k) (hne : k ≠ 0x05) (hrow : row k = true) :
    exec c s = .next (discardFrame .ragged k 0 (s.withInbound none)) := by
  rw [h.rise_ragged hi hg ht (LinkFrame.isRead_of_kind hk hne) (LinkFrame.fits_of_kind hk hrow), frameKind, hk]
  rfl

/-- The kinds the part does not take (R54). -/
theorem inboundKinds_contains_eq_false {k : BitVec 8} (h : k.toNat = 0 ∨ 6 ≤ k.toNat) : inboundKinds.contains k = false := by
  have hne : ∀ i : BitVec 8, 1 ≤ i.toNat → i.toNat ≤ 5 → k ≠ i := by
    rintro i h1 h5 rfl
    omega
  simp [inboundKinds, hne]

/-! ## Bits clocked in (R50, R52) -/

/-- Bits clocked in with no assembly (R53). -/
theorem shiftIn_none (hi : s.inbound = none) : shiftIn ws tail s = s := by simp only [shiftIn, hi]

/-- Bits of an ignored frame (R50). -/
theorem shiftIn_ignored (hi : s.inbound = some f) (hg : f.ignored = true) : shiftIn ws tail s = s := by
  simp only [shiftIn, hi, if_pos hg]

/-- A frame that is no READ holds at most 384 words (R52). -/
theorem LinkFrame.shifted_eq {g : LinkFrame}
    (hg : g = { f with words := (f.words ++ ws).take 384, count := f.count + ws.length,
                       tail := if ws = [] then max f.tail tail else tail })
    (hr : g.isRead = false) : f.shifted ws tail = g := by
  subst hg
  exact if_neg (Bool.eq_false_iff.1 hr)

/-- Bits within 384 words join the assembly (R50). -/
theorem shiftIn_joins {g : LinkFrame} (hi : s.inbound = some f) (hn : f.ignored = false) (hg : f.shifted ws tail = g)
    (hr : g.isRead = false) (hfit : g.tooLong = false) : shiftIn ws tail s = s.withInbound (some g) := by
  simp [shiftIn, hi, hn, hg, hr, hfit]

/-- The first bit of a 385th word abandons the frame (R52). -/
theorem shiftIn_abandons {g : LinkFrame} (hi : s.inbound = some f) (hn : f.ignored = false) (hg : f.shifted ws tail = g)
    (hr : g.isRead = false) (hlong : g.tooLong = true) :
    shiftIn ws tail s =
      (discardFrame .tooLong (frameKind g) 0 s).withInbound (some { g with ignored := true, words := [] }) := by
  simp [shiftIn, hi, hn, hg, hr, hlong]

end

/-- Settles O20: every row is a `LinkRow`, so its moments are the Link Port's. -/
theorem linkPortScreensFrames : Obligations.LinkPortScreensFrames := by
  intro s ws tail hrings rows
  refine ⟨fun c hc => ?_, fun hi c hc => ?_, ?_⟩
  · obtain ⟨row, h⟩ := linkRow_of_mem hrings hc
    exact h.fall
  · rcases List.mem_append.1 hc with hc | hc
    · obtain ⟨row, h⟩ := linkRow_of_mem hrings hc
      rw [h.shift, shiftIn_none hi]
    · obtain ⟨row, h⟩ := linkRow_of_mem hrings hc
      exact h.rise_none hi
  intro f hi n left g
  refine ⟨fun hg => ⟨fun c hc => ?_, fun c hc => ?_⟩, fun hw ht c hc => ?_, fun hg hkind c hc => ?_, ?_⟩
  · obtain ⟨row, h⟩ := linkRow_of_mem hrings hc
    rw [h.shift, shiftIn_ignored hi hg]
  · obtain ⟨row, h⟩ := linkRow_of_mem hrings hc
    exact h.rise_nothing hi (.inl hg)
  · obtain ⟨row, h⟩ := linkRow_of_mem hrings hc
    exact h.rise_nothing hi (.inr (decide_eq_true ⟨hw, ht⟩))
  · obtain ⟨row, h⟩ := linkRow_of_mem hrings hc
    have hr : g.isRead = false := decide_eq_false hkind
    have hshift : f.shifted ws tail = g := LinkFrame.shifted_eq rfl hr
    refine ⟨fun hfit => ?_, fun hlong => ?_⟩
    · have hshort : g.tooLong = false := decide_eq_false (by show ¬ (384 < n ∨ (n = 384 ∧ 0 < left)); omega)
      rw [h.shift, shiftIn_joins hi hg hshift hr hshort]
      rfl
    · rw [h.shift, shiftIn_abandons hi hg hshift hr (decide_eq_true hlong)]
      rfl
  intro hg ht ragged
  refine ⟨fun hw c hc => ?_, ?_, fun k hk hkind => ?_⟩
  · obtain ⟨row, h⟩ := linkRow_of_mem hrings hc
    have hk : f.kindCode = none := by simp [LinkFrame.kindCode, hw]
    rw [h.rise_ragged hi hg ht (by simp [LinkFrame.isRead, hk]) (by simp [LinkFrame.fits, hk]), frameKind, hk]
    rfl
  · simp only [List.forall_mem_cons]
    exact ⟨fun hk => (linkRow_audio hrings).rise_ragged_kind hi hg ht hk (by decide) rfl,
      fun hk => (linkRow_cont hrings).rise_ragged_kind hi hg ht hk (by decide) rfl,
      fun hk => linkRow_beacon.rise_ragged_kind hi hg ht hk (by decide) rfl,
      fun hk => linkRow_control.rise_ragged_kind hi hg ht hk (by decide) rfl, fun _ h => by cases h⟩
  · have hne : k ≠ 0x05 := by
      rintro rfl
      exact absurd hk (by decide)
    have hrow : (!inboundKinds.contains k) = true := by rw [inboundKinds_contains_eq_false hk]; rfl
    exact linkRow_unknownKindFrame.rise_ragged_kind hi hg ht hkind hne hrow

end Sys2Proof.Machine
end

section
/-! SUPPORT. Sound states: every command is answered there, and what a step keeps makes soundness and the memory's form invariants. -/

namespace Sys2Proof.Machine

/-- With every ring in Sample Memory no command faults, and none is refused (R34, log 16). -/
theorem exec_answers {s : State} (h : s.ringsLocated = true) (i : Instr) : ∃ t, exec i s = .next t := by
  cases i
  case audio stage => exact ⟨_, audioMoment_located h⟩
  case cont stage => exact ⟨_, audioMoment_located h⟩
  case sampleStrobe stage => exact ⟨_, if_pos h⟩
  all_goals exact ⟨_, rfl⟩

/-- With every ring in Sample Memory the part goes on: by the front command, by work owed, or by a tick. -/
theorem step_answers {s : State} (h : s.ringsLocated = true) : ∃ t, step s = .next t := by
  cases hp : s.pending with
  | cons c rest => rw [step_cons hp]; exact exec_answers (s := { s with pending := rest }) h c
  | nil =>
    rw [step_nil hp, idle]
    cases owed s with
    | some i => exact exec_answers h i
    | none => exact ⟨_, rfl⟩

/-- The queue of waiting commands has no part in soundness. -/
theorem ringsSound_withPending {s : State} (h : ringsSound s) (rest : List Instr) : ringsSound { s with pending := rest } :=
  ⟨blocksSound_congr rfl rfl h.1, h.2⟩

/-- Settles O4: sound blocks put every ring in Sample Memory, so the step answers, and what it answers keeps the blocks and
start-up's rules. -/
theorem soundStepsGoOnSoundly : Obligations.SoundStepsGoOnSoundly := by
  intro s hs
  obtain ⟨t, hstep⟩ := step_answers (ringsLocated_of_blocksSound hs.1)
  obtain ⟨rest, keeps⟩ := step_keeps hstep
  exact ⟨t, hstep, keeps.rings (ringsSound_withPending hs rest)⟩

/-- Settles O5: samples are written by AUDIO and CONT alone, where `writeSamples_wf` answers for the form; `step_keeps` gathers it
with every other step's. -/
theorem stepsKeepMemoryForm : Obligations.StepsKeepMemoryForm := by
  intro s t hmemory hstep
  obtain ⟨rest, keeps⟩ := step_keeps hstep
  exact keeps.memory hmemory

end Sys2Proof.Machine
end

section
/-! SUPPORT. The records of the Stream Table: what each owner answers, by the slot's state (R36 to R46). -/

namespace Sys2Proof.Machine

/-- A record that is taken, by what its owner answers (R151). -/
theorem exec_taken {i : Instr} {s t : State} {owner : State → State × Answer} {a : Answer} {code : BitVec 8} {n : Nat}
    (ht : Taken i s) (ho : owner s = (t, a)) (hi : t.interp = s.interp := by rfl)
    (hs : recordShape i = some (code, n) := by rfl) (he : exec i s = .next (handOver i owner s) := by rfl) :
    exec i s = .next (t.reply code a) := by
  rw [he, handOver_next ht hs ho hi]

/-! ## OPEN (R37, R38) -/

/-- OPEN with a context in range: R37's checks from the second on, in order, then the opening. -/
def openChecked (i : Fin 8) (c : Context) (s : State) : State × Answer :=
  let r := regionOf s.partition c.streamId
  if (s.slot i).state ≠ .closed then (s, refusal .state)
  else if (lookupSlot s c.streamId).isSome then (s, refusal .duplicate)
  else if regionBlocks s.partition < c.ringSize then (s, refusal .badregion)
  else if s.freeLists[r.val].length < c.ringSize then (s, refusal .nospace)
  else (openIn i c s, done [natWord r.val, natWord (reservedWords (openIn i c s) r)])

/-- The OPEN record that names a context in range passes the first check. -/
theorem openOwner_inRange {c : Context} (h : contextInRange c) (i : Fin 8) (s : State) :
    openOwner (BitVec.ofNat 16 i.val) c.streamId (BitVec.ofNat 8 c.formatByte) (BitVec.ofNat 8 c.priority.val)
      (BitVec.ofNat 8 c.ringSize) (signedWord c.trim) (BitVec.ofNat 16 c.starveLimit) s = openChecked i c s := by
  simp only [openOwner, indexBelow_eight, openContext_of_inRange c h, openChecked]

/-- An OPEN that is taken, by what the checks answer. -/
theorem exec_openCommand {s t : State} {i : Fin 8} {c : Context} {a : Answer} (hc : contextInRange c)
    (ht : Taken (openCommand i c) s) (ho : openChecked i c s = (t, a)) (hi : t.interp = s.interp := by rfl) :
    exec (openCommand i c) s = .next (t.reply 0x10 a) :=
  exec_taken ht ((openOwner_inRange hc i s).trans ho) hi

/-- The words reserved in the stream's region once its ring is taken (R33). -/
theorem reservedWords_openIn (i : Fin 8) (c : Context) (s : State) :
    reservedWords (openIn i c s) (regionOf s.partition c.streamId) =
      512 * (regionBlocks s.partition - ((s.freeLists[(regionOf s.partition c.streamId).val]).length - c.ringSize)) := by
  simp [reservedWords, openIn]

/-- Settles O33: none of the checks refuses, and the opening takes the front of the region's free list, which the model keeps lowest
first (R33). -/
theorem openTakesLowestBlocks : Obligations.OpenTakesLowestBlocks := by
  intro s i c hc ht hclosed hnew r hregion hfree
  rw [← reservedWords_openIn i c s]
  refine exec_openCommand (t := openIn i c s) hc ht ?_
  rw [openChecked, if_neg (not_not.2 hclosed), if_neg (by simp [hnew]), if_neg (not_lt.2 hregion), if_neg (not_lt.2 hfree)]

/-- Settles O34: each clause stops at its own check. -/
theorem openRefusesInOrder : Obligations.OpenRefusesInOrder := by
  intro s i c hc ht
  refine ⟨fun hopen => ?state, fun hclosed hused => ?duplicate, fun hclosed hnew hregion => ?badregion,
    fun hclosed hnew hregion hfree => ?nospace⟩ <;> refine exec_openCommand hc ht ?_ <;> rw [openChecked]
  case state => rw [if_pos hopen]
  case duplicate => rw [if_neg (not_not.2 hclosed), if_pos (Option.isSome_iff_ne_none.2 hused)]
  case badregion => rw [if_neg (not_not.2 hclosed), if_neg (by simp [hnew]), if_pos hregion]
  case nospace =>
    rw [if_neg (not_not.2 hclosed), if_neg (by simp [hnew]), if_neg (not_lt.2 hregion), if_pos hfree]

/-! ## CLOSE and END (R39 to R41) -/

/-- A slot with a context closed: its blocks go to its region's free list (R39). -/
theorem releaseSlot_of_context {s : State} {i : Fin 8} {c : Context} (h : (s.slot i).context = some c) :
    releaseSlot i s = { s.setSlot i (Slot.closedWith (s.slot i).faultSequence) with
      freeLists := s.freeLists.set (regionOf s.partition c.streamId).val
        (returnBlocks (s.slot i).blocks (s.freeLists[(regionOf s.partition c.streamId).val])) (regionOf s.partition c.streamId).isLt } := by
  simp only [releaseSlot, h]

section
variable {s : State} {i : Fin 8}

theorem closeOwner_open (h : (s.slot i).state ≠ .closed) :
    closeOwner (BitVec.ofNat 16 i.val) s = (releaseSlot i s, done [natWord (s.slot i).state.code]) := by
  rw [closeOwner, onSlot_slot, if_neg h]
  rfl

theorem closeOwner_closed (h : (s.slot i).state = .closed) : closeOwner (BitVec.ofNat 16 i.val) s = (s, refusal .state) := by
  rw [closeOwner, onSlot_slot, if_pos h]

theorem endOwner_priming (h : (s.slot i).state = .priming) :
    endOwner (BitVec.ofNat 16 i.val) s = (releaseSlot i s, done [0]) := by
  simp only [endOwner, onSlot_slot, endSlot, h]
  rfl

theorem endOwner_running (h : (s.slot i).state = .playing ∨ (s.slot i).state = .starved) :
    endOwner (BitVec.ofNat 16 i.val) s = (s.setSlot i { s.slot i with state := .draining }, done [4]) := by
  rcases h with h | h <;> simp only [endOwner, onSlot_slot, endSlot, h] <;> rfl

theorem endOwner_draining (h : (s.slot i).state = .draining) : endOwner (BitVec.ofNat 16 i.val) s = (s, done [4]) := by
  simp only [endOwner, onSlot_slot, endSlot, h]
  rfl

theorem endOwner_refused (h : (s.slot i).state = .closed ∨ (s.slot i).state = .frozen) :
    endOwner (BitVec.ofNat 16 i.val) s = (s, refusal .state) := by
  rcases h with h | h <;> simp only [endOwner, onSlot_slot, h]

end

/-- Settles O35: by the slot's state, each the owner's answer there. -/
theorem closeAndEndLetStreamsGo : Obligations.CloseAndEndLetStreamsGo := by
  intro s i
  refine ⟨fun c hc => ⟨fun ht h => ?close, fun ht => ⟨fun h => ?priming, fun h => ?running, fun h => ?draining⟩⟩,
    fun ht h => exec_taken ht (closeOwner_closed h), fun ht h => exec_taken ht (endOwner_refused h)⟩
  case close => exact exec_taken ht (releaseSlot_of_context hc ▸ closeOwner_open h)
  case priming => exact exec_taken ht (releaseSlot_of_context hc ▸ endOwner_priming h)
  case running => exact exec_taken ht (endOwner_running h)
  case draining => exact exec_taken ht (endOwner_draining h)

/-! ## CUT, CLEAR and TRIM (R42 to R44, R46) -/

section
variable {s : State} {i : Fin 8}

theorem cutOwner_open (h : (s.slot i).state ≠ .closed) (hf : (s.slot i).state ≠ .frozen) :
    cutOwner (BitVec.ofNat 16 i.val) s = (cutSlot i s, done [natWord (s.slot i).state.code]) := by
  rw [cutOwner, onSlot_slot]
  cases hst : (s.slot i).state
  case closed => exact absurd hst h
  case frozen => exact absurd hst hf
  all_goals rfl

theorem cutOwner_refused (h : (s.slot i).state = .closed ∨ (s.slot i).state = .frozen) :
    cutOwner (BitVec.ofNat 16 i.val) s = (s, refusal .state) := by
  rcases h with h | h <;> simp only [cutOwner, onSlot_slot, h]

theorem clearOwner_frozen (h : (s.slot i).state = .frozen) :
    clearOwner (BitVec.ofNat 16 i.val) s = (clearSlot i s, done []) := by
  rw [clearOwner, onSlot_slot, if_pos h]

theorem clearOwner_refused (h : (s.slot i).state ≠ .frozen) :
    clearOwner (BitVec.ofNat 16 i.val) s = (s, refusal .state) := by
  rw [clearOwner, onSlot_slot, if_neg h]

theorem trimOwner_open {v : Int} {c : Context} (hv : -2457600 ≤ v ∧ v ≤ 2457600) (hc : (s.slot i).context = some c)
    (h : (s.slot i).state ≠ .closed) :
    trimOwner (BitVec.ofNat 16 i.val) (signedWord v) s =
      (s.setSlot i { s.slot i with context := some { c with trim := v } }, done [signedWord c.trim]) := by
  simp only [trimOwner, onSlot_slot, trimOf_signedWord v hv, hc, Slot.withTrim, Option.map_some]

theorem trimOwner_closed {v : Int} (hv : -2457600 ≤ v ∧ v ≤ 2457600) (h : (s.slot i).state = .closed) :
    trimOwner (BitVec.ofNat 16 i.val) (signedWord v) s = (s, refusal .state) := by
  simp only [trimOwner, onSlot_slot, trimOf_signedWord v hv, h]

/-- The nominal step of an open stream (R93). -/
theorem nominalOf_context {c : Context} {v : Slot} (h : v.context = some c) :
    s.nominalOf v = nominalStep c.rate s.output.rate := by simp only [State.nominalOf, h]

end

/-- Settles O36: by the slot's state; what CUT and CLEAR leave of the slot is `primed` with the stream's nominal step. -/
theorem cutClearAndTrimActOnOpenSlots : Obligations.CutClearAndTrimActOnOpenSlots := by
  intro s i
  refine ⟨fun ht h => exec_taken ht (cutOwner_refused h), fun ht h => exec_taken ht (clearOwner_refused h),
    fun v hv ht h => exec_taken ht (trimOwner_closed hv h), fun c hc => ⟨fun ht h hf => ?cut, fun ht h => ?clear,
      fun v hv ht h => exec_taken ht (trimOwner_open hv hc h)⟩⟩
  case cut =>
    rw [← nominalOf_context hc]
    exact exec_taken ht (cutOwner_open h hf)
  case clear =>
    rw [← nominalOf_context hc]
    exact exec_taken ht (clearOwner_frozen h)

/-! ## PARTITION (R36) -/

/-- A partition mode's number reads back as the mode (R32). -/
theorem modeOfCode_regions (m : PartitionMode) : modeOfCode (BitVec.ofNat 16 m.regions).toNat = some m := by cases m <;> rfl

theorem allClosed_iff (s : State) : s.allClosed = true ↔ ∀ i : Fin 8, (s.slot i).state = .closed := by
  simp [State.allClosed]

/-- Settles O38: by whether every slot is CLOSED. -/
theorem partitionNeedsAllClosed : Obligations.PartitionNeedsAllClosed := by
  intro s m ht
  refine ⟨fun hclosed => ?_, fun ⟨i, hopen⟩ => ?_⟩
  · refine exec_taken (owner := partitionOwner _) ht ?_
    simp only [partitionOwner, modeOfCode_regions, if_pos ((allClosed_iff s).2 hclosed)]
  · refine exec_taken (owner := partitionOwner _) ht ?_
    simp only [partitionOwner, modeOfCode_regions, if_neg (fun h => hopen ((allClosed_iff s).1 h i))]

end Sys2Proof.Machine
end

section
/-! SUPPORT. Audio frames at the parser: what a frame laid out by R58 reads as, and what its chunk leaves of the slot, the queue
and Sample Memory (R58 to R67, R73 to R86). -/

namespace Sys2Proof.Machine

/-! ## Frames that reach the parser -/

/-- The select-rise of an AUDIO frame that arrives. -/
theorem exec_audio_arrives {s : State} {f : LinkFrame} (h : Arrives 0x01 f s) (hr : s.ringsLocated = true) :
    exec (.audio .rise) s = .next (parseAudio f (s.withInbound none)) :=
  (audioMoment_located hr).trans (congrArg Host.Outcome.next (selectRise_arrives parseAudio h rfl))

/-- The select-rise of a CONT frame that arrives. -/
theorem exec_cont_arrives {s : State} {f : LinkFrame} (h : Arrives 0x02 f s) (hr : s.ringsLocated = true) :
    exec (.cont .rise) s = .next (parseCont f (s.withInbound none)) :=
  (audioMoment_located hr).trans (congrArg Host.Outcome.next (selectRise_arrives parseCont h rfl))

/-- A slot that takes traffic is open and not FROZEN (R29, R58). -/
theorem slotFor_state {f : LinkFrame} {s : State} {i : Fin 8} {c : Context} (h : slotFor f s = some (i, c)) :
    (s.slot i).state ≠ .closed ∧ (s.slot i).state ≠ .frozen := by
  unfold slotFor at h
  split at h
  · cases h
  · next j hj =>
    split at h
    · cases h
    · next hfrozen =>
      obtain ⟨d, -, he⟩ := Option.map_eq_some_iff.1 h
      cases he
      have hid := List.find?_some hj
      simp only [State.holdsId, Bool.and_eq_true, decide_eq_true_eq] at hid
      exact ⟨hid.1, hfrozen⟩

section
variable {s : State} {f : LinkFrame} {i : Fin 8} {c : Context} {k : Chunk} {o : Options}

/-- An AUDIO frame whose chunk is read (R58). -/
theorem parseAudio_chunk (hv : versionOne (frameWord f 0) = true) (hs : slotFor f s = some (i, c))
    (hk : readAudio f c = .chunk k o) : parseAudio f s = handAudio i c k o s := by
  simp [parseAudio, hv, hs, hk]

/-- A CONT frame whose chunk is read (R58). -/
theorem parseCont_chunk (hv : versionOne (frameWord f 0) = true) (hs : slotFor f s = some (i, c))
    (hk : readCont f (s.slot i) c = .chunk k o) : parseCont f s = handCont i c k s := by
  simp [parseCont, hv, hs, hk]

/-- A CONT frame out of sequence (R67). -/
theorem parseCont_broken {x : BitVec 16} (hv : versionOne (frameWord f 0) = true) (hs : slotFor f s = some (i, c))
    (hk : readCont f (s.slot i) c = .broken x) : parseCont f s = breakRun i x (sequenceOf f) s := by
  simp [parseCont, hv, hs, hk]

/-- A CONT frame that is discarded (R55). -/
theorem parseCont_discard {r : DiscardReason} (hv : versionOne (frameWord f 0) = true) (hs : slotFor f s = some (i, c))
    (hk : readCont f (s.slot i) c = .discard r) : parseCont f s = discardAudio r f i s := by
  simp [parseCont, hv, hs, hk]

end

/-! ## What a frame laid out reads as (R58 to R64, R66) -/

/-- The chunk that R58 makes of a frame laid out, for a slot `v` of context `c`: without samples where FORMAT is off (R60). -/
def frameChunk (cont : Bool) (f : LinkFrame) (v : Slot) (c : Context) (os : List (List Word32)) (payload : List Word32) : Chunk :=
  { pt := if cont then none else some (ptOf f)
    index := if cont then v.run.map fun r => r.start + r.count else none
    count := frameCount f
    sequence := sequenceOf f
    samples := if (formatOff c os).isSome then [] else payloadSamples c (frameCount f) payload
    bad := if (formatOff c os).isSome then false else checkOff os payload
    trace := (os.any fun o => decide (optionType o = 4)) || (cont && v.traceFlag)
    mismatch := formatOff c os }

/-- FORMAT is no option of a CONT frame, so it is never off there (R60). -/
theorem formatOff_cont {f : LinkFrame} {c : Context} {os : List (List Word32)} {payload : List Word32}
    (h : laidOut true f os payload) : formatOff c os = none := by
  obtain ⟨_, -, -, -, htaken, -⟩ := h
  have hnone : (os.find? fun o => decide (optionType o = 1)) = none := by
    rw [List.find?_eq_none]
    intro o ho htype
    obtain ⟨-, -, hformat, -⟩ := htaken o ho
    exact absurd (hformat (.inl (of_decide_eq_true htype))).2 (by decide)
  simp [formatOff, hnone]

/-- A frame laid out, as the parser takes it apart: it has all its header's words, the options are walked to their end, and the
payload follows them (R58 to R60). -/
theorem laidOut_reads {cont : Bool} {f : LinkFrame} {os : List (List Word32)} {payload : List Word32} {header : Nat}
    (hh : header = if cont then 2 else 4) (h : laidOut cont f os payload) :
    ¬ f.words.length < header + optionCount (frameWord f 0) ∧
    walkOptions cont 15 (optionWords f header) Options.none = some (Options.none.with os) ∧ payloadOf f header = payload := by
  obtain ⟨-, hpayload, hlong⟩ := laidOut_words h
  exact hh ▸ ⟨not_lt.2 hlong, laidOut_walk h, hpayload⟩

/-- The options of a frame, met from none. -/
theorem Options.none_with_trace (os : List (List Word32)) :
    (Options.none.with os).trace = os.any fun o => decide (optionType o = 4) := by simp [Options.with, Options.none]

theorem Options.none_with_run (os : List (List Word32)) :
    (Options.none.with os).run = os.any fun o => decide (optionType o = 2) := by simp [Options.with, Options.none]

section
variable {f : LinkFrame} {v : Slot} {c : Context} {os : List (List Word32)} {payload : List Word32}

/-- An AUDIO frame laid out, its payload of the right length or its FORMAT off, reads as its chunk (R58). -/
theorem readAudio_laidOut (h : laidOut false f os payload) (hfits : formatOff c os = none → payloadFits c (frameCount f) payload) :
    readAudio f c = .chunk (frameChunk false f v c os payload) (Options.none.with os) := by
  obtain ⟨hlong, hwalk, hpayload⟩ := laidOut_reads (header := 4) rfl h
  unfold readAudio
  rw [if_neg hlong, hwalk]
  dsimp only
  rw [mismatchOf_with]
  cases hoff : formatOff c os with
  | some d => simp [frameChunk, mismatchChunk, hoff, Options.none_with_trace]
  | none =>
    have hright := (lengthRight_iff c (frameCount f) payload).2 (hfits hoff)
    simp [hpayload, hright, frameChunk, goodChunk, hoff, checkFails_with, unpack_eq, Options.none_with_trace]

/-- A CONT frame laid out, its payload of the right length, is read by its slot's run (R66, R67). -/
theorem readCont_fits (h : laidOut true f os payload) (hfits : payloadFits c (frameCount f) payload) :
    readCont f v c = v.run.elim (.discard .orphan) fun r =>
      if sequenceOf f = r.sequence + 1 then .chunk (frameChunk true f v c os payload) (Options.none.with os)
      else .broken (r.sequence + 1) := by
  obtain ⟨hlong, hwalk, hpayload⟩ := laidOut_reads (header := 2) rfl h
  have hright := (lengthRight_iff c (frameCount f) payload).2 hfits
  simp only [readCont, if_neg hlong, hwalk, hpayload, hright, Bool.true_eq_false, if_false]
  cases hr : v.run with
  | none => rfl
  | some r =>
    by_cases hseq : sequenceOf f = r.sequence + 1
    · simp [hseq, frameChunk, goodChunk, hr, formatOff_cont h, checkFails_with, unpack_eq, Options.none_with_trace]
    · exact (if_pos hseq).trans (if_neg hseq).symm

/-- In sequence: its chunk (R66). -/
theorem readCont_inSequence (h : laidOut true f os payload) (hfits : payloadFits c (frameCount f) payload) {r : Run}
    (hr : v.run = some r) (hseq : sequenceOf f = r.sequence + 1) :
    readCont f v c = .chunk (frameChunk true f v c os payload) (Options.none.with os) := by
  rw [readCont_fits h hfits, hr]
  exact if_pos hseq

/-- Out of sequence: a broken run (R67). -/
theorem readCont_outOfSequence (h : laidOut true f os payload) (hfits : payloadFits c (frameCount f) payload) {r : Run}
    (hr : v.run = some r) (hseq : sequenceOf f ≠ r.sequence + 1) : readCont f v c = .broken (r.sequence + 1) := by
  rw [readCont_fits h hfits, hr]
  exact if_neg hseq

/-- Without a run: an orphan (R67). -/
theorem readCont_orphan (h : laidOut true f os payload) (hfits : payloadFits c (frameCount f) payload) (hr : v.run = none) :
    readCont f v c = .discard .orphan := by
  rw [readCont_fits h hfits, hr]
  rfl

/-- A CONT frame laid out whose payload does not fit is discarded (R61). -/
theorem readCont_misfit (h : laidOut true f os payload) (hfits : ¬ payloadFits c (frameCount f) payload) :
    readCont f v c = .discard .length := by
  obtain ⟨hlong, hwalk, hpayload⟩ := laidOut_reads (header := 2) rfl h
  have hwrong : lengthRight c (frameCount f) payload = false := Bool.eq_false_iff.2 fun hr => hfits ((lengthRight_iff _ _ _).1 hr)
  simp [readCont, hlong, hwalk, hpayload, hwrong]

/-- A CONT frame that is not laid out is discarded: too short, or its options are not walked to their end (R58 to R60). -/
theorem readCont_unparsed (h : ¬ ∃ os payload, laidOut true f os payload) : ∃ r, readCont f v c = .discard r := by
  unfold readCont
  split
  · exact ⟨_, rfl⟩
  · next hlong =>
    cases hwalk : walkOptions true 15 (optionWords f 2) Options.none with
    | none => exact ⟨_, rfl⟩
    | some o => exact absurd (laidOut_of_walk (cont := true) (not_lt.1 hlong) hwalk) h

end

/-! ## The insertion rule in the words of R75 to R86 -/

section
variable {s : State} {v : Slot} {c : Context} {k : Chunk} {start : Int}

/-- R79's cases for an open slot that is not FROZEN. -/
theorem fateOf_open (ho : v.state ≠ .closed) (hf : v.state ≠ .frozen) :
    fateOf s v c k start =
      if v.state = .draining then .refused .closing else if k.mismatch.isSome then .mismatch else fateOpen s v c k start := by
  unfold fateOf
  cases hs : v.state
  case closed => exact absurd hs ho
  case frozen => exact absurd hs hf
  case draining => rfl
  case priming | playing | starved => simp

/-- Before floor(F) (R82). -/
theorem isLate_iff (e : Int) : isLate v e = true ↔ ∃ p, (v.readPos.map fun p => p / 2 ^ 28) = some p ∧ e < p := by
  unfold isLate
  cases v.readPos with
  | none => simp
  | some p => exact decide_eq_true_iff.trans (by simp [floorF])

/-- A lead beyond eight seconds, or an index out of range (R83). -/
theorem isFar_iff {lead : Time → Int} (e : Int) (hl : leadOf s v c k start = (dueTime s c s.localCount).map lead) :
    isFar s v c k start e = true ↔
      (∃ d, dueTime s c s.localCount = some d ∧ 196608000 < lead d) ∨ start < -(2 ^ 47) ∨ 2 ^ 47 - 1 < e := by
  rw [isFar, Bool.or_eq_true, Bool.or_eq_true, decide_eq_true_iff, decide_eq_true_iff, or_assoc, hl]
  refine or_congr ?_ Iff.rfl
  cases dueTime s c s.localCount with
  | none => simp
  | some d => exact decide_eq_true_iff.trans (by simp [Config.farLead])

/-- Some record of a queue is of a kind (R84). -/
theorem any_record_iff (q : List ChunkRecord) (p : ChunkRecord → Prop) [DecidablePred p] :
    (q.any fun r => decide (p r)) = true ↔ ∃ r ∈ q, p r := by simp

/-- The end of the window the chunk asks for (R85). -/
theorem largestEnd_eq (q : List ChunkRecord) (e : Int) :
    largestEnd q e = (q.getLast?.map fun r => max e r.endIndex).getD e := by
  unfold largestEnd
  cases q.getLast? <;> rfl

/-- The base of that window (R85). -/
theorem testBase_eq (start : Int) : testBase v start =
    (v.readPos.map fun p => p / 2 ^ 28).getD ((v.queue.head?.map fun h => min start h.start).getD start) := by
  unfold testBase
  cases v.readPos <;> cases v.queue.head? <;> rfl

/-- Where a filed record begins (R86). -/
theorem filedStart_eq (start : Int) : filedStart v start = ((v.readPos.map fun p => p / 2 ^ 28).map (max start)).getD start := by
  unfold filedStart
  cases v.readPos <;> rfl

end

/-- A payload of the right length holds the frame count's samples (R61, R62). -/
theorem payloadSamples_length {c : Context} {n : Nat} {payload : List Word32} (h : payloadFits c n payload) :
    (payloadSamples c n payload).length = n * c.channels.count := by
  obtain ⟨-, hlen⟩ := h
  unfold payloadSamples
  cases hw : c.width
  case w24 => simpa [hw] using hlen
  case w16 =>
    simp only [hw] at hlen
    simp [List.length_flatMap]
    omega

/-! ## What the chunk leaves (R64 to R66, R86) -/

/-- A slot that a chunk is filed in: the record in its place, the origin set if it was absent (R75, R86). -/
def filedSlot (v : Slot) (k : Chunk) (start : Int) : Slot :=
  { v with queue := insertRecord (filedRecord v k start) v.queue, origin := if v.origin.isSome then v.origin else k.pt }

/-- Filing into a slot just written. -/
theorem fileChunk_setSlot (i : Fin 8) (c : Context) (k : Chunk) (start : Int) (v : Slot) (s : State) :
    fileChunk i c k start (s.setSlot i v) = { s.setSlot i (filedSlot v k start) with
      memory := writeSamples c v.blocks start (filedStart v start) 0 k.samples s.memory } := by
  simp only [fileChunk, slot_setSlot_same, setSlot_setSlot]
  rfl

/-- Filing, and then the slot written: of the filing the samples are left. -/
theorem setSlot_fileChunk (i : Fin 8) (c : Context) (k : Chunk) (start : Int) (v : Slot) (s : State) :
    (fileChunk i c k start s).setSlot i v = { s.setSlot i v with memory := (fileChunk i c k start s).memory } := by
  simp [fileChunk, State.setSlot]

/-- The slot after filing. -/
theorem slot_fileChunk (i : Fin 8) (c : Context) (k : Chunk) (start : Int) (s : State) :
    (fileChunk i c k start s).slot i = filedSlot (s.slot i) k start := slot_setSlot_same s i _

/-- A chunk of slot `i` handed over with its fate: run and trace flag follow the frame, a filed chunk is filed, and then the fate's
event is offered (R64 to R66, log 18). -/
def handChunk (i : Fin 8) (c : Context) (k : Chunk) (start : Int) (fate : Fate) (run : Option Run) (traced : Bool) (s : State) : State :=
  let left := s.setSlot i { s.slot i with run := run, traceFlag := traced }
  offerFate i (fateEvent c k fate) (if fate = .filed then fileChunk i c k start left else left)

section
variable {s : State} {i : Fin 8} {c : Context} {k : Chunk} {start : Int} {fate : Fate}

/-- Step 8 for an AUDIO frame; filing and the run do not meet (R65). -/
theorem handAudio_eq (o : Options) (hs : startIndex (s.slot i) c k = start) (hf : fateOf s (s.slot i) c k start = fate) :
    handAudio i c k o s =
      handChunk i c k start fate (runAfter k o (assignedIndex (s.slot i) k start fate)) o.trace s := by
  unfold handAudio handChunk insertChunk
  simp only [hs, hf]
  split
  · rw [setSlot_fileChunk, slot_fileChunk, fileChunk_setSlot]
    rfl
  · rfl

/-- Step 8 for a CONT frame (R66). -/
theorem handCont_eq {x : Int} (hx : k.index = some x) (hf : fateOf s (s.slot i) c k x = fate) :
    handCont i c k s =
      handChunk i c k x fate (some { sequence := k.sequence, start := x, count := k.count }) (s.slot i).traceFlag s := by
  unfold handCont handChunk insertChunk
  have hs : ∀ v : Slot, startIndex v c k = x := fun v => by simp [startIndex, hx]
  have hf' : ∀ r, fateOf (s.setSlot i { s.slot i with run := r }) { s.slot i with run := r } c k x = fate := fun _ => hf
  simp only [slot_setSlot_same, hs, hf', hx, Option.getD_some]

/-- A chunk whose FORMAT is off (R60). -/
theorem handChunk_mismatch {d : BitVec 8} (run : Option Run) (traced : Bool) (hd : k.mismatch = some d) :
    handChunk i c k start .mismatch run traced s =
      offerSlot .formatMismatch i (halvesWord 0 (d.toNat * 256 + c.formatByte))
        (s.setSlot i { s.slot i with run := run, traceFlag := traced }) := by
  simp [handChunk, fateEvent, offerFate, hd]

/-- A late chunk (R82). -/
theorem handChunk_late (run : Option Run) (traced : Bool) :
    handChunk i c k start .late run traced s = offerSlot .chunkLate i (k.sequence.setWidth 32)
      (s.setSlot i { s.slot i with run := run, traceFlag := traced }) := by
  simp [handChunk, fateEvent, offerFate]

/-- A refused chunk (R79). -/
theorem handChunk_refused (r : RefuseReason) (run : Option Run) (traced : Bool) :
    handChunk i c k start (.refused r) run traced s =
      offerSlot .chunkRefused i (natWord (r.code * 16777216 + k.sequence.toNat))
        (s.setSlot i { s.slot i with run := run, traceFlag := traced }) := by
  simp [handChunk, fateEvent, offerFate]

/-- A filed chunk (R86). -/
theorem handChunk_filed (run : Option Run) (traced : Bool) :
    handChunk i c k start .filed run traced s =
      let filed := fileChunk i c k start (s.setSlot i { s.slot i with run := run, traceFlag := traced })
      if k.bad = true then offerSlot .chunkBad i (k.sequence.setWidth 32) filed else filed := by
  unfold handChunk
  cases hb : k.bad <;> simp [fateEvent, offerFate, hb]

end

/-! ## CONT frames and their run (R66, R67) -/

/-- An offer at the end of a frame leaves the run, or freezes the slot and the run goes (R45). -/
theorem offerFate_run (i : Fin 8) (e : Option Event) (s : State) :
    ((offerFate i e s).slot i).run = (s.slot i).run ∨
      (((offerFate i e s).slot i).state = .frozen ∧ ((offerFate i e s).slot i).run = none) := by
  cases e with
  | none => exact .inl rfl
  | some e =>
    obtain ⟨-, st, r, p, q, hslot, hst⟩ := offerSlot_slots e.1 i e.2 s
    rw [offerFate, hslot]
    rcases hst with ⟨-, hrun⟩ | ⟨hfrozen, hrun, -, -⟩
    · exact .inl hrun
    · exact .inr ⟨hfrozen, hrun⟩

/-- A chunk handed over leaves its run, or its event freezes the slot (R45). -/
theorem handChunk_run (i : Fin 8) (c : Context) (k : Chunk) (start : Int) (fate : Fate) (run : Option Run) (traced : Bool) (s : State) :
    ((handChunk i c k start fate run traced s).slot i).run = run ∨
      (((handChunk i c k start fate run traced s).slot i).state = .frozen ∧
        ((handChunk i c k start fate run traced s).slot i).run = none) := by
  unfold handChunk
  refine (offerFate_run i _ _).imp_left fun hkept => hkept.trans ?_
  split
  · rw [slot_fileChunk, slot_setSlot_same]
    rfl
  · rw [slot_setSlot_same]

/-- Settles O26: by what the frame reads as. -/
theorem contMovesOrBreaksItsRun : Obligations.ContMovesOrBreaksItsRun := by
  intro s f i c harr hrings hver hslot n seq
  have hexec := exec_cont_arrives harr hrings
  have hslot' : slotFor f (s.withInbound none) = some (i, c) := hslot
  refine ⟨fun os payload hlaid hfits => ⟨fun r hr hseq => ?moves, fun r hr hseq => ?breaks, fun hr => ?orphan⟩,
    fun hbad => ?discarded⟩
  case moves =>
    rw [hexec, parseCont_chunk hver hslot' (readCont_inSequence (v := s.slot i) hlaid hfits hr hseq),
      handCont_eq (x := r.start + r.count) (by simp [frameChunk, hr]) rfl]
    exact ⟨_, rfl, handChunk_run _ _ _ _ _ _ _ _⟩
  case breaks =>
    rw [hexec, parseCont_broken hver hslot' (readCont_outOfSequence hlaid hfits hr hseq)]
    rfl
  case orphan =>
    have hkind : frameKind f = 0x02 := by rw [frameKind, harr.2.2.2.1]; rfl
    rw [hexec, parseCont_discard hver hslot' (readCont_orphan hlaid hfits hr), discardAudio, hkind]
    rfl
  case discarded =>
    have hread : ∃ d, readCont f (s.slot i) c = .discard d := by
      rcases hbad with hunparsed | ⟨os, payload, hlaid, hmisfit⟩
      · exact readCont_unparsed hunparsed
      · exact ⟨_, readCont_misfit hlaid hmisfit⟩
    obtain ⟨d, hd⟩ := hread
    exact ⟨_, hexec.trans (congrArg _ (parseCont_discard hver hslot' hd)), offerPart_slots _ _ _, (offerPart_eq _ _ _).2.1⟩

/-! ## The chunk of a frame, filed or not (R75 to R86) -/

section
variable {s : State} {f : LinkFrame} {i : Fin 8} {c : Context} {v : Slot} {os : List (List Word32)} {payload : List Word32}
  {start : Int} {fate : Fate}

/-- Where a frame's chunk starts: after the run's newest frame, or at its PT's index (R66, R75, R76). -/
theorem startIndex_frameChunk (cont : Bool) (hrun : cont = true → ∃ r, v.run = some r ∧ sequenceOf f = r.sequence + 1) :
    startIndex v c (frameChunk cont f v c os payload) =
      if cont = true then (v.run.map fun r => r.start + (r.count : Int)).getD 0
      else (v.origin.map fun o => (sdiff (ptOf f) o * c.rate.hz + 12288000) / 24576000).getD 0 := by
  cases cont with
  | true =>
    obtain ⟨r, hr, -⟩ := hrun rfl
    simp [startIndex, frameChunk, hr]
  | false => cases ho : v.origin <;> simp [startIndex, frameChunk, ho, indexOfPt]

/-- The lead of a frame's chunk against a due time (R77). -/
theorem leadOf_frameChunk (cont : Bool) : leadOf s v c (frameChunk cont f v c os payload) start =
    (dueTime s c s.localCount).map fun d =>
      if cont = true then roundHalfUp (start * 24576000) c.rate.hz - sdiff d (v.origin.getD 0) else sdiff (ptOf f) d := by
  cases cont <;> rfl

/-- The run that a frame leaves: a CONT frame's own, an AUDIO frame's where it carries RUN and an index was assigned (R65, R66). -/
def frameRun (cont : Bool) (f : LinkFrame) (v : Slot) (c : Context) (os : List (List Word32)) (start : Int) (fate : Fate) : Option Run :=
  if cont = true ∨ ((os.any fun o => decide (optionType o = 2)) = true ∧ formatOff c os = none ∧
      (v.origin.isSome ∨ fate = .filed)) then
    some { sequence := sequenceOf f, start := start, count := frameCount f }
  else none

/-- After an AUDIO frame (R65). -/
theorem runAfter_frameChunk : runAfter (frameChunk false f v c os payload) (Options.none.with os)
    (assignedIndex v (frameChunk false f v c os payload) start fate) = frameRun false f v c os start fate := by
  unfold runAfter assignedIndex frameRun
  rw [Options.none_with_run]
  cases hoff : formatOff c os <;> cases hcarries : os.any (fun o => decide (optionType o = 2)) <;>
    simp [frameChunk, hoff, Option.map_if]

/-- An AUDIO frame, or a CONT frame in sequence, hands its chunk over (R58, R66). -/
theorem exec_chunk (cont : Bool) (harr : Arrives (if cont then 0x02 else 0x01) f s) (hrings : s.ringsLocated = true)
    (hver : versionOne (frameWord f 0) = true) (hslot : slotFor f s = some (i, c)) (hlaid : laidOut cont f os payload)
    (hfits : formatOff c os = none → payloadFits c (frameCount f) payload)
    (hrun : cont = true → ∃ r, (s.slot i).run = some r ∧ sequenceOf f = r.sequence + 1)
    (hstart : startIndex (s.slot i) c (frameChunk cont f (s.slot i) c os payload) = start)
    (hfate : fateOf s (s.slot i) c (frameChunk cont f (s.slot i) c os payload) start = fate) :
    exec (if cont then .cont .rise else .audio .rise) s = .next (handChunk i c (frameChunk cont f (s.slot i) c os payload) start fate
      (frameRun cont f (s.slot i) c os start fate)
      (if cont = true then (s.slot i).traceFlag else os.any fun o => decide (optionType o = 4)) (s.withInbound none)) := by
  have hslot' : slotFor f (s.withInbound none) = some (i, c) := hslot
  cases cont with
  | false =>
    refine (exec_audio_arrives harr hrings).trans (congrArg _ ?_)
    rw [parseAudio_chunk hver hslot' (readAudio_laidOut (v := s.slot i) hlaid hfits), handAudio_eq (s := s.withInbound none) _ hstart hfate,
      Options.none_with_trace]
    exact congrArg (handChunk i c _ start fate · _ _) runAfter_frameChunk
  | true =>
    obtain ⟨r, hr, hseq⟩ := hrun rfl
    have hindex : (frameChunk true f (s.slot i) c os payload).index = some start := by
      rw [← hstart]
      simp [startIndex, frameChunk, hr]
    refine (exec_cont_arrives harr hrings).trans (congrArg _ ?_)
    rw [parseCont_chunk hver hslot' (readCont_inSequence (v := s.slot i) hlaid (hfits (formatOff_cont hlaid)) hr hseq),
      handCont_eq (s := s.withInbound none) hindex hfate]
    rfl

/-- The record of a frame's chunk filed from `front` on (R73, R86). -/
def frameRecord (cont : Bool) (f : LinkFrame) (v : Slot) (os : List (List Word32)) (payload : List Word32) (start front : Int) :
    ChunkRecord :=
  { start := front
    count := frameCount f - (front - start).toNat
    sequence := sequenceOf f
    bad := checkOff os payload
    trace := (os.any fun o => decide (optionType o = 4)) ||
      (if cont = true then v.traceFlag else os.any fun o => decide (optionType o = 4)) }

theorem filedRecord_frameChunk (cont : Bool) (hoff : formatOff c os = none) {w : Slot} {front : Int} (hfront : filedStart w start = front) :
    filedRecord w (frameChunk cont f v c os payload) start = frameRecord cont f v os payload start front := by
  subst hfront
  cases cont <;> simp [filedRecord, frameChunk, frameRecord, hoff]

/-- The origin after a frame's chunk is filed: an AUDIO frame's PT where there was none (R75). -/
theorem origin_frameChunk (cont : Bool) (o : Option Time) :
    (if o.isSome then o else (frameChunk cont f v c os payload).pt) = if o.isSome ∨ cont = true then o else some (ptOf f) := by
  cases cont <;> cases o <;> simp [frameChunk]

/-- A frame's chunk filed into a slot just written (R75, R86). -/
theorem fileChunk_frameChunk (cont : Bool) (hoff : formatOff c os = none) {w : Slot} {front : Int} (hfront : filedStart w start = front) :
    fileChunk i c (frameChunk cont f v c os payload) start (s.setSlot i w) =
      { s.setSlot i { w with
          queue := insertRecord (frameRecord cont f v os payload start front) w.queue
          origin := if w.origin.isSome ∨ cont = true then w.origin else some (ptOf f) } with
        memory := writeSamples c w.blocks start front 0 (payloadSamples c (frameCount f) payload) s.memory } := by
  have hsamples : (frameChunk cont f v c os payload).samples = payloadSamples c (frameCount f) payload := by simp [frameChunk, hoff]
  rw [fileChunk_setSlot, filedSlot, filedRecord_frameChunk cont hoff hfront, origin_frameChunk, hfront, hsamples]

/-- What a frame's chunk leaves that is filed: its samples, its record and the origin, and CHUNK_BAD for a bad one (R75, R86). -/
theorem handChunk_frameChunk (cont : Bool) (hoff : formatOff c os = none) {front : Int} (hfront : filedStart (s.slot i) start = front)
    (run : Option Run) (traced : Bool) :
    handChunk i c (frameChunk cont f v c os payload) start .filed run traced s =
      let w : Slot := { s.slot i with run := run, traceFlag := traced }
      let filed : State := { s.setSlot i { w with
          queue := insertRecord (frameRecord cont f v os payload start front) w.queue
          origin := if w.origin.isSome ∨ cont = true then w.origin else some (ptOf f) } with
        memory := writeSamples c w.blocks start front 0 (payloadSamples c (frameCount f) payload) s.memory }
      if checkOff os payload = true then offerSlot .chunkBad i ((sequenceOf f).setWidth 32) filed else filed := by
  have hbad : (frameChunk cont f v c os payload).bad = checkOff os payload := by simp [frameChunk, hoff]
  rw [handChunk_filed, hbad, fileChunk_frameChunk cont hoff (w := { s.slot i with run := run, traceFlag := traced }) hfront]
  rfl

/-- A chunk that is filed is of the stream's format and no longer than the ring (R79). -/
theorem fateOf_filed {k : Chunk} (ho : v.state ≠ .closed) (hf : v.state ≠ .frozen) (h : fateOf s v c k start = .filed) :
    k.mismatch = none ∧ k.count ≤ ringFrames c := by
  rw [fateOf_open ho hf] at h
  split at h
  · cases h
  · split at h
    · cases h
    · next hmatch =>
      unfold fateOpen at h
      dsimp only at h
      split at h
      · cases h
      · next hsize => exact ⟨by simpa using hmatch, not_lt.1 hsize⟩

end

/-- Settles O24: the frame reads as `frameChunk`, whose fate is the statement's by one lemma a case; what each fate leaves is
`handChunk`'s, and the samples of a filed chunk are `writeSamples_reads`. -/
theorem audioFilesItsChunk : Obligations.AudioFilesItsChunk := by
  intro s f cont i c os payload harr hrings hver hslot hlaid cmd v n seq pt carries off hfits hrun start last now front base furthest
    frames due lead fate traced run left
  obtain ⟨hopen, hunfrozen⟩ := slotFor_state hslot
  have hstart : startIndex v c (frameChunk cont f v c os payload) = start := startIndex_frameChunk cont hrun
  have hfate : fateOf s v c (frameChunk cont f v c os payload) start = fate := by
    rw [fateOf_open hopen hunfrozen, fateOpen]
    refine if_congr Iff.rfl rfl (if_congr Iff.rfl rfl (if_congr Iff.rfl rfl (if_congr (isLate_iff _) rfl
      (if_congr (isFar_iff _ (leadOf_frameChunk cont)) rfl (if_congr (any_record_iff _ _) rfl (if_congr (any_record_iff _ _) rfl
        (if_congr Iff.rfl rfl (if_congr ?noSpace rfl rfl))))))))
    rw [largestEnd_eq, testBase_eq]
    rfl
  have hexec : ∀ x, fate = x → exec cmd s =
      .next (handChunk i c (frameChunk cont f v c os payload) start x run traced (s.withInbound none)) := by
    rintro _ rfl
    exact exec_chunk cont harr (ringsLocated_of_blocksSound hrings.1) hver hslot hlaid hfits hrun hstart hfate
  refine ⟨fun hmismatch d hd => ?_, fun hlate => ?_, fun r hrefused => ?_, fun hfiled => ?_⟩
  · exact (hexec _ hmismatch).trans (congrArg _ (handChunk_mismatch run traced hd))
  · exact (hexec _ hlate).trans (congrArg _ (handChunk_late run traced))
  · exact (hexec _ hrefused).trans (congrArg _ (handChunk_refused r run traced))
  · intro record samples word kept
    obtain ⟨hmatch, hcount⟩ := fateOf_filed hopen hunfrozen (hfate.trans hfiled)
    have hoff : off = none := hmatch
    have hsamples : samples.length = n * c.channels.count := payloadSamples_length (hfits hoff)
    obtain ⟨before, after, hqueue, hinsert, hbefore, hafter⟩ := insertRecord_split record v.queue
    obtain ⟨hreads, hkeeps⟩ := writeSamples_reads hrings.1 i c (slotFor_context hslot) start front n samples s.memory hsamples hcount
    have hslot_left : left.slot i = { v with run := run, traceFlag := traced } := slot_setSlot_same s i _
    have hset_left : ∀ w, left.setSlot i w = (s.withInbound none).setSlot i w := fun w => setSlot_setSlot (s.withInbound none) i _ w
    refine ⟨before, after, _, hqueue, hbefore, hafter, ?_, hreads, hkeeps⟩
    rw [hexec _ hfiled, ← hinsert, hslot_left, hset_left]
    exact congrArg _ (handChunk_frameChunk cont hoff (filedStart_eq start) run traced)

end Sys2Proof.Machine
end

section
/-! SUPPORT. The frame in hand: the bound of its reply, which every step keeps; and the frame finished, by what one piece of it
leaves, why the pieces come to an end, and that they are the records' own commands in order (R53, R68 to R70, R149 to R152). -/

namespace Sys2Proof.Machine

/-! ## The reply buffer (R68, R70, R152) -/

/-- Settles O9: the frame in hand, the reply buffer and the outbound frame change in CONTROL, READ and the records alone; what a step
keeps gathers them, and a bounded reply with its two head words fits one frame. -/
theorem stepsKeepReplyBuffer : Obligations.StepsKeepReplyBuffer := by
  intro s t hstep
  obtain ⟨rest, keeps⟩ := step_keeps hstep
  refine ⟨keeps.reply, fun hb => ?_⟩
  have bounded : replyBounded t := keeps.bound hb
  refine ⟨bounded, fun r hr => ?_⟩
  have records : recordsWords r.records ≤ 382 := bounded.2.1 r hr
  rw [replyWords_length]
  omega

/-! ## A piece of the frame in hand -/

/-- An owner that touches neither the frame in hand nor, where none is being assembled, the inbound assembly. -/
def LeavesFrames (owner : State → State × Answer) (s : State) : Prop :=
  (owner s).1.interp = s.interp ∧ (s.inbound = none → (owner s).1.inbound = none)

/-- Inner work touches no frame. -/
theorem leavesFrames_of_inner {owner : State → State × Answer} {s : State} (h : Inner s (owner s).1) : LeavesFrames owner s :=
  ⟨h.interp, h.inbound⟩

/-- OPEN touches no frame (R38). -/
theorem leavesFrames_openOwner (sl : BitVec 16) (id' fm pr rg : BitVec 8) (tr : Word32) (lm : BitVec 16) (s : State) :
    LeavesFrames (openOwner sl id' fm pr rg tr lm) s := by
  unfold LeavesFrames openOwner
  split
  · dsimp only
    repeat' split
    all_goals exact ⟨rfl, id⟩
  · exact ⟨rfl, id⟩

/-- Every record but RESTART and MALFORMED is handed to an owner that touches no frame (R151). -/
theorem dealRecord_handsOver {i : Instr} (hs : (recordShape i).isSome = true) (hrestart : i ≠ .restart)
    (hmalformed : ∀ code, i ≠ .malformed code) (s : State) :
    ∃ owner, dealRecord i s = handOver i owner s ∧ LeavesFrames owner s := by
  have hands : ∀ owner, dealRecord i s = handOver i owner s → Inner s (owner s).1 →
      ∃ owner, dealRecord i s = handOver i owner s ∧ LeavesFrames owner s :=
    fun owner he h => ⟨owner, he, leavesFrames_of_inner h⟩
  cases i
  case restart => exact absurd rfl hrestart
  case malformed code => exact absurd rfl (hmalformed code)
  case openSlot => exact ⟨_, rfl, leavesFrames_openOwner _ _ _ _ _ _ _ s⟩
  case identify => exact hands identifyOwner rfl (Inner.refl s)
  case clockHistory => exact hands clockHistoryOwner rfl (Inner.refl s)
  case unknown => exact hands (fun t => (t, unknownAnswer)) rfl (Inner.refl s)
  case snapshot => exact hands _ rfl (inner_finishStrobe s)
  case closeSlot => exact hands _ rfl (inner_closeOwner _ s)
  case endStream => exact hands _ rfl (inner_endOwner _ s)
  case cut => exact hands _ rfl (inner_cutOwner _ s)
  case clear => exact hands _ rfl (inner_clearOwner _ s)
  case trim => exact hands _ rfl (inner_trimOwner _ _ s)
  case partition => exact hands _ rfl (inner_partitionOwner _ s)
  case routePut => exact hands _ rfl (inner_routePutOwner _ _ s)
  case routeDrop => exact hands _ rfl (inner_routeDropOwner _ s)
  case routeRecall => exact hands _ rfl (inner_routeRecallOwner _ s)
  case duckSet => exact hands _ rfl (inner_duckSetOwner _ _ s)
  case outputSet => exact hands _ rfl (inner_outputSetOwner _ _ _ s)
  case cueAdd => exact hands _ rfl (inner_cueAddOwner _ _ _ _ _ s)
  case cueCancel => exact hands _ rfl (inner_cueCancelOwner _ s)
  case clockSet => exact hands _ rfl (inner_clockSetOwner _ _ _ _ _ _ _ s)
  case classSet => exact hands _ rfl (inner_classSetOwner _ _ s)
  case ack => exact hands _ rfl (inner_ackOwner _ _ s)
  case save => exact hands _ rfl (inner_saveOwner _ _ s)
  case presetPut => exact hands _ rfl (inner_presetPutOwner _ s)
  all_goals cases hs

/-- What a piece of the frame in hand `p` leaves: no frame in hand, the frame stopped by a last reply record, or, at a record whose
bounds can be trusted, the place moved on past it (R149 to R152); and nothing joins the inbound assembly. -/
structure Dealt (p : Interp) (s t : State) : Prop where
  interp : t.interp = none ∨ (∃ code a, t.interp = some (p.stopped code a)) ∨
    ((∀ code, p.next ≠ .record (.malformed code)) ∧ ∃ code a, t.interp = some (p.answered code a))
  inbound : s.inbound = none → t.inbound = none

section
variable {s : State} {p : Interp}

theorem dealt_lastReply (hp : s.interp = some p) (code : BitVec 8) (a : Answer) : Dealt p s (s.lastReply code a) :=
  ⟨.inr (.inl ⟨code, a, by simp [State.lastReply, hp]⟩), id⟩

theorem dealt_placeReply (hp : s.interp = some p) : Dealt p s (placeReply s) := by
  unfold placeReply
  rw [hp]
  exact ⟨.inl rfl, id⟩

/-- RESTART in hand (R157). -/
theorem dealt_restartRecord (hp : s.interp = some p) (hn : p.next = .record .restart) : Dealt p s (restartRecord s) := by
  have hh : s.handing .restart = true := by simp [State.handing, hp, hn]
  rw [restartRecord, if_pos hh]
  split
  · exact ⟨.inl rfl, fun _ => rfl⟩
  · exact dealt_lastReply hp _ _

/-- A record in hand that is handed to its owner (R151, R152). -/
theorem dealt_handOver {i : Instr} {owner : State → State × Answer} (hp : s.interp = some p) (hn : p.next = .record i)
    (hs : (recordShape i).isSome = true) (hmalformed : ∀ code, i ≠ .malformed code) (ho : LeavesFrames owner s) :
    Dealt p s (handOver i owner s) := by
  have hh : s.handing i = true := by simp [State.handing, hp, hn]
  obtain ⟨⟨code, n⟩, hshape⟩ := Option.isSome_iff_exists.1 hs
  obtain ⟨hinterp, hinbound⟩ := ho
  have hbounds : ∀ c, p.next ≠ .record (.malformed c) := fun c hc => hmalformed c (by rw [hn] at hc; cases hc; rfl)
  cases hroom : s.replyRoom n with
  | false =>
    rw [handOver_full hh hshape hroom]
    exact dealt_lastReply hp _ _
  | true =>
    rw [handOver_taken (.inr ⟨hh, code, n, hshape, hroom⟩) hshape hinterp]
    exact ⟨.inr (.inr ⟨hbounds, code, (owner s).2, by simp [State.reply, hinterp, hp]⟩), hinbound⟩

/-- The command that a record in hand spells is a record's (R150, R151). -/
theorem recordShape_of_next {n : Nat} {ws : List Word32} {i : Instr} (h : Decode.next n ws = .record i) :
    (recordShape i).isSome = true := by
  have hcommand : ∀ {code arg w1 w2 w3 w4}, Decode.commandOf code arg w1 w2 w3 w4 = some i → (recordShape i).isSome = true := by
    intro code arg w1 w2 w3 w4 hi
    unfold Decode.commandOf at hi
    split at hi <;> cases hi <;> rfl
  unfold Decode.next at h
  split at h
  · cases h
  · split at h
    · cases h; rfl
    · dsimp only at h
      split at h
      · cases h; rfl
      · split at h
        · cases h; rfl
        · split at h
          · cases h
          · split at h
            · next hi => cases h; exact hcommand hi
            · cases h; rfl

/-- The record in hand dealt with. -/
theorem dealt_dealRecord {i : Instr} (hp : s.interp = some p) (hn : p.next = .record i) : Dealt p s (dealRecord i s) := by
  have hshape : (recordShape i).isSome = true := recordShape_of_next hn
  by_cases hrestart : i = .restart
  · subst hrestart
    exact dealt_restartRecord hp hn
  · by_cases hmalformed : ∃ code, i = .malformed code
    · obtain ⟨code, rfl⟩ := hmalformed
      have hh : s.handing (.malformed code) = true := by simp [State.handing, hp, hn]
      rw [dealRecord, malformedRecord, if_pos hh]
      exact dealt_lastReply hp _ _
    · rw [not_exists] at hmalformed
      obtain ⟨owner, he, ho⟩ := dealRecord_handsOver hshape hrestart hmalformed s
      rw [he]
      exact dealt_handOver hp hn hshape hmalformed ho

/-- The interpreter going on by itself: the reply placed, or a record of wrong length answered (R149, R151). -/
theorem dealt_proceed (hp : s.interp = some p) (hn : ∀ i, p.next ≠ .record i) : Dealt p s (proceed s) := by
  unfold proceed
  rw [hp]
  dsimp only
  split
  · exact dealt_placeReply hp
  · next code _ =>
    split
    · exact ⟨.inr (.inr ⟨fun _ => hn _, code, refusal .badarg, by simp [State.reply, hp]⟩), id⟩
    · exact dealt_lastReply hp _ _
  · next i hi => exact absurd hi (hn i)

/-- One piece of the frame in hand. -/
theorem dealt_dealStep (hp : s.interp = some p) : Dealt p s (dealStep s) := by
  unfold dealStep
  rw [hp]
  dsimp only
  split
  · next hn => exact dealt_dealRecord hp hn
  · next hn => exact dealt_proceed hp fun i hi => by rw [hn] at hi; cases hi
  · next hn => exact dealt_proceed hp fun i hi => by rw [hn] at hi; cases hi

end

/-! ## The pieces come to an end -/

/-- How many pieces a frame in hand takes at most: the placing of its reply, and before it a piece for each word and one more, for
the record that its words run out on (R149, R150). -/
def Interp.pieces (p : Interp) : Nat := if p.remaining = 0 then 1 else p.words.length + 2

/-- How many pieces are in hand at most. -/
def State.pieces (s : State) : Nat := s.interp.elim 0 Interp.pieces

theorem Interp.pieces_pos (p : Interp) : 0 < p.pieces := by
  unfold Interp.pieces
  split <;> omega

/-- A record whose bounds can be trusted has at least its header (R150). -/
theorem next_bounded {n : Nat} {ws : List Word32} (h0 : n ≠ 0) (h : ∀ code, Decode.next n ws ≠ .record (.malformed code)) :
    ∃ w rest, ws = w :: rest ∧ (Decode.field w 16 8).toNat ≠ 0 := by
  unfold Decode.next at h
  rw [if_neg h0] at h
  cases ws with
  | nil => exact absurd rfl (h 0)
  | cons w rest =>
    refine ⟨w, rest, rfl, fun hlen => ?_⟩
    dsimp only at h
    rw [if_pos (.inl hlen)] at h
    exact h _ rfl

/-- A frame stopped has its reply's placing left alone (R150, R152). -/
theorem Interp.pieces_stopped {p : Interp} (h : p.remaining ≠ 0) (code : BitVec 8) (a : Answer) :
    (p.stopped code a).pieces < p.pieces := by
  simp [Interp.pieces, Interp.stopped, h]

/-- The place moved on past a record takes at least one word of the frame (R149). -/
theorem Interp.pieces_answered {p : Interp} (h : p.remaining ≠ 0) (hb : ∀ code, p.next ≠ .record (.malformed code)) (code : BitVec 8)
    (a : Answer) : (p.answered code a).pieces < p.pieces := by
  obtain ⟨w, rest, hw, hlen⟩ := next_bounded h hb
  have hshorter : (p.answered code a).words.length + 1 ≤ p.words.length := by
    simp only [Interp.answered, hw, List.head?_cons, Option.map_some, Option.getD_some, List.length_drop, List.length_cons]
    omega
  unfold Interp.pieces
  rw [if_neg h]
  split <;> omega

/-- With no record left the interpreter places the reply (R149). -/
theorem dealStep_finished {s : State} {p : Interp} (hp : s.interp = some p) (h : p.remaining = 0) : (dealStep s).interp = none := by
  have hn : p.next = .finished := by simp [Interp.next, Decode.next, h]
  simp [dealStep, proceed, placeReply, hp, hn]

/-- Each piece leaves fewer. -/
theorem pieces_dealStep {s : State} (h : s.interp ≠ none) : (dealStep s).pieces < s.pieces := by
  obtain ⟨p, hp⟩ := Option.ne_none_iff_exists'.1 h
  have hs : s.pieces = p.pieces := by simp [State.pieces, hp]
  have hnone : (dealStep s).interp = none → (dealStep s).pieces < s.pieces := fun hi => by
    rw [hs]
    simpa [State.pieces, hi] using p.pieces_pos
  by_cases h0 : p.remaining = 0
  · exact hnone (dealStep_finished hp h0)
  · rcases (dealt_dealStep hp).interp with hi | ⟨code, a, hi⟩ | ⟨hb, code, a, hi⟩
    · exact hnone hi
    · simpa [State.pieces, hi, hp] using p.pieces_stopped h0 code a
    · simpa [State.pieces, hi, hp] using p.pieces_answered h0 hb code a

/-! ## The pieces are the records' own commands -/

/-- With no frame in hand nothing is handed. -/
theorem handing_none {s : State} (h : s.interp = none) (i : Instr) : s.handing i = false := by simp [State.handing, h]

/-- One piece of the frame in hand, and then what finishes the rest (R53, R149). -/
theorem finishes_dealStep {s u : State} (h : s.interp ≠ none) (hrest : Finishes (dealStep s) u) : Finishes s u := by
  obtain ⟨p, hp⟩ := Option.ne_none_iff_exists'.1 h
  have hgoesOn : (∀ i, p.next ≠ .record i) → dealStep s = proceed s → Finishes s u := fun hn he =>
    .goesOn h (fun i => by simp [State.handing, hp, hn i]) rfl (he ▸ hrest)
  cases hn : p.next with
  | record i =>
    have hdeal : dealStep s = dealRecord i s := by simp [dealStep, hp, hn]
    exact .record i (by simp [State.handing, hp, hn]) (exec_record (recordShape_of_next hn) s) (hdeal ▸ hrest)
  | finished => exact hgoesOn (fun i => by simp [hn]) (by simp [dealStep, hp, hn])
  | wrongLength code => exact hgoesOn (fun i => by simp [hn]) (by simp [dealStep, hp, hn])

/-- As many pieces as are in hand finish the frame. -/
theorem finishes_dealSteps {n : Nat} {s : State} (h : s.pieces ≤ n) : Finishes s (dealSteps n s) := by
  induction n generalizing s with
  | zero =>
    refine .ended (Decidable.byContradiction fun hi => ?_)
    have := pieces_dealStep hi
    omega
  | succ n ih =>
    rw [dealSteps]
    split
    · next hi => exact .ended hi
    · next hi =>
      have := pieces_dealStep hi
      exact finishes_dealStep hi (ih (by omega))

/-- The part finishes the frame in hand before the next is begun (R53). -/
theorem finishes_finishFrame (s : State) : Finishes s (finishFrame s) := by
  unfold finishFrame
  split
  · next hi => exact .ended hi
  · next p hp =>
    refine finishes_dealSteps ?_
    simp only [State.pieces, hp, Option.elim_some, Interp.pieces]
    split <;> omega

/-- Then no frame is in hand. -/
theorem Finishes.interp_none {s u : State} (h : Finishes s u) : u.interp = none := by
  induction h with
  | ended hi => exact hi
  | record _ _ _ _ ih => exact ih
  | goesOn _ _ _ _ ih => exact ih

/-- Nothing joins the inbound assembly meanwhile. -/
theorem inbound_dealSteps (n : Nat) {s : State} (h : s.inbound = none) : (dealSteps n s).inbound = none := by
  induction n generalizing s with
  | zero => exact h
  | succ n ih =>
    rw [dealSteps]
    split
    · exact h
    · next hi =>
      obtain ⟨p, hp⟩ := Option.ne_none_iff_exists'.1 hi
      exact ih ((dealt_dealStep hp).inbound h)

theorem inbound_finishFrame {s : State} (h : s.inbound = none) : (finishFrame s).inbound = none := by
  unfold finishFrame
  split
  · exact h
  · exact inbound_dealSteps _ h

end Sys2Proof.Machine
end

section
/-! SUPPORT. Frames handed to the Frame Parser: by which row, what one leaves that arrives with a frame in hand, and the discards of
BEACON, CONTROL, AUDIO and CONT in the parser's order (R53 to R61). -/

namespace Sys2Proof.Machine

/-! ## Rows that hand a frame to the parser -/

/-- A command that is the select-rise of frames of kind `k` and hands them to `parse` (R51, R53). -/
def HandsTo (c : Instr) (k : BitVec 8) (parse : LinkFrame → State → State) (s : State) : Prop :=
  ∃ row : BitVec 8 → Bool, row k = true ∧ exec c s = .next (selectRise row (receive parse) s)

section
variable {s : State}

theorem handsTo_audio (h : s.ringsLocated = true) : HandsTo (.audio .rise) 0x01 parseAudio s := ⟨_, rfl, audioMoment_located h⟩

theorem handsTo_cont (h : s.ringsLocated = true) : HandsTo (.cont .rise) 0x02 parseCont s := ⟨_, rfl, audioMoment_located h⟩

theorem handsTo_beacon : HandsTo (.beacon .rise) 0x03 parseBeacon s := ⟨fun k => decide (k = 0x03), rfl, rfl⟩

theorem handsTo_control : HandsTo (.control (.link .rise)) 0x04 parseControl s := ⟨fun k => decide (k = 0x04), rfl, rfl⟩

/-- A frame of a kind the part does not take is handed over to be discarded (R54). -/
theorem handsTo_unknownKindFrame {k : BitVec 8} (h : k.toNat = 0 ∨ 6 ≤ k.toNat) :
    HandsTo (.unknownKindFrame .rise) k (fun f t => discardFrame .kind (frameKind f) 0 t) s :=
  ⟨fun k => !inboundKinds.contains k, congrArg not (inboundKinds_contains_eq_false h), rfl⟩

end

/-- The assembly replaced and ended. -/
theorem withInbound_withInbound (s : State) (f g : Option LinkFrame) : (s.withInbound f).withInbound g = s.withInbound g := rfl

/-- With no assembly there is none to end. -/
theorem withInbound_none {s : State} (h : s.inbound = none) : s.withInbound none = s := by
  cases s
  cases h
  rfl

section
variable {c : Instr} {k : BitVec 8} {parse : LinkFrame → State → State} {s : State} {f : LinkFrame}

/-- A frame that arrives is parsed. -/
theorem HandsTo.arrives (h : HandsTo c k parse s) (harr : Arrives k f s) : exec c s = .next (parse f (s.withInbound none)) := by
  obtain ⟨row, hrow, hexec⟩ := h
  rw [hexec, selectRise_arrives parse harr hrow]

/-- A frame's kind, where its word 0 is in. -/
theorem frameKind_eq (h : f.kindCode = some k) : frameKind f = k := by rw [frameKind, h]; rfl

/-- A frame that arrives and that the parser discards: its reason, its kind, and nothing else changed (R55). -/
theorem HandsTo.discards {r : DiscardReason} (h : HandsTo c k parse s) (harr : Arrives k f s)
    (hparse : parse f (s.withInbound none) = discardFrame r (frameKind f) 0 (s.withInbound none)) :
    exec c s = .next (offerPart .frameDiscarded (bytesWord r.code k.toNat 0 0) (s.withInbound none)) := by
  have hkind : frameKind f = k := by
    obtain ⟨-, -, -, hk, -⟩ := harr
    exact frameKind_eq hk
  rw [h.arrives harr, hparse, hkind]
  rfl

/-- A frame that comes with another in hand: that one is finished, and then this one is parsed as one that arrives, or is abandoned
where a RESTART came first (R53). -/
theorem exec_waits (h : ∀ t, t.ringsLocated = true → HandsTo c k parse t) (hi : s.inbound = some f) (hg : f.ignored = false)
    (ht : f.tail = 0) (hk : f.kindCode = some k) (hrings : ringsSound s) :
    let u := finishFrame (s.withInbound none)
    exec c s = if u.run = .running then exec c (u.withInbound (some f)) else .next u := by
  intro u
  have hfinished : ringsSound (u.withInbound (some f)) :=
    (((keeps_withInbound s none).trans (keeps_finishFrame _)).trans (keeps_withInbound u _)).rings hrings
  have hu : u.withInbound none = u := withInbound_none (inbound_finishFrame rfl)
  have hself : exec c s = .next (receive parse f (s.withInbound none)) := by
    obtain ⟨row, hrow, hexec⟩ := h s (ringsLocated_of_blocksSound hrings.1)
    rw [hexec, selectRise_fits _ hi hg hk hrow]
  rw [hself, receive, if_neg (not_not.2 ht)]
  by_cases hrun : u.run = .running
  · have harr : Arrives k f (u.withInbound (some f)) := ⟨rfl, hg, ht, hk, hrun, (finishes_finishFrame _).interp_none⟩
    rw [if_pos hrun, if_pos hrun, (h _ (ringsLocated_of_blocksSound hfinished.1)).arrives harr, withInbound_withInbound, hu]
  · rw [if_neg hrun, if_neg hrun]

end

/-! ## CONTROL frames (R54, R57) -/

section
variable {s : State} {f : LinkFrame}

/-- A CONTROL frame of another version (R54). -/
theorem parseControl_version (hv : versionOne (frameWord f 0) = false) :
    parseControl f s = discardFrame .version (frameKind f) 0 s := if_pos hv

/-- A CONTROL frame with options (R57). -/
theorem parseControl_option (hv : versionOne (frameWord f 0) = true) (ho : optionCount (frameWord f 0) ≠ 0) :
    parseControl f s = discardFrame .option (frameKind f) 0 s := by simp [parseControl, hv, ho]

/-- A CONTROL frame for another speaker (R57). -/
theorem parseControl_foreign (hv : versionOne (frameWord f 0) = true) (ho : optionCount (frameWord f 0) = 0)
    (htag : ¬ (kindField (frameWord f 0) = s.deviceTag ∨ kindField (frameWord f 0) = 0xFFFF)) : parseControl f s = s := by
  have : tagTaken s (kindField (frameWord f 0)) = false := decide_eq_false htag
  simp [parseControl, hv, ho, this]

/-- A CONTROL frame for this part, by the reply buffer and its length (R57). -/
theorem parseControl_ours (hv : versionOne (frameWord f 0) = true) (ho : optionCount (frameWord f 0) = 0)
    (htag : kindField (frameWord f 0) = s.deviceTag ∨ kindField (frameWord f 0) = 0xFFFF) :
    parseControl f s =
      if s.replyBuffer ≠ .empty then discardFrame .overrun (frameKind f) 0 s
      else if f.words.length < 2 then discardFrame .length (frameKind f) 0 s
      else takeControl f s := by
  have : tagTaken s (kindField (frameWord f 0)) = true := decide_eq_true htag
  simp [parseControl, hv, ho, this]

/-! ## BEACON frames (R54, R56) -/

/-- A BEACON of another version (R54). -/
theorem parseBeacon_version (hv : versionOne (frameWord f 0) = false) :
    parseBeacon f s = discardFrame .version (frameKind f) 0 s := if_pos hv

/-- A BEACON with options (R56). -/
theorem parseBeacon_option (hv : versionOne (frameWord f 0) = true) (ho : optionCount (frameWord f 0) ≠ 0) :
    parseBeacon f s = discardFrame .option (frameKind f) 0 s := by simp [parseBeacon, hv, ho]

/-- A BEACON that is not four words long (R56). -/
theorem parseBeacon_length (hv : versionOne (frameWord f 0) = true) (ho : optionCount (frameWord f 0) = 0) (hl : f.words.length ≠ 4) :
    parseBeacon f s = discardFrame .length (frameKind f) 0 s := by simp [parseBeacon, hv, ho, hl]

end

/-! ## AUDIO and CONT frames (R58 to R61) -/

/-- An AUDIO frame, or a CONT frame, at the parser. -/
def parseStream (cont : Bool) : LinkFrame → State → State := if cont then parseCont else parseAudio

/-- Steps 2 to 7 of R58 for an AUDIO frame, or for a CONT frame of slot `v`. -/
def readStream (cont : Bool) (f : LinkFrame) (v : Slot) (c : Context) : Parsed := if cont then readCont f v c else readAudio f c

theorem handsTo_stream (cont : Bool) {s : State} (h : s.ringsLocated = true) :
    HandsTo (if cont then .cont .rise else .audio .rise) (if cont then 0x02 else 0x01) (parseStream cont) s := by
  cases cont
  · exact handsTo_audio h
  · exact handsTo_cont h

section
variable {s : State} {f : LinkFrame} {v : Slot} {i : Fin 8} {c : Context} (cont : Bool)

/-- One of another version (R54). -/
theorem parseStream_version (hv : versionOne (frameWord f 0) = false) :
    parseStream cont f s = discardFrame .version (frameKind f) 0 s := by
  cases cont
  · exact if_pos hv
  · exact if_pos hv

/-- One for no open slot that is not FROZEN (R58). -/
theorem parseStream_slotless (hv : versionOne (frameWord f 0) = true) (hs : slotFor f s = none) : parseStream cont f s = s := by
  cases cont
  · simp [parseStream, parseAudio, hv, hs]
  · simp [parseStream, parseCont, hv, hs]

/-- One that is discarded, ORPHAN aside (R55). -/
theorem parseStream_discard {r : DiscardReason} (hr : r ≠ .orphan) (hv : versionOne (frameWord f 0) = true)
    (hs : slotFor f s = some (i, c)) (hread : readStream cont f (s.slot i) c = .discard r) :
    parseStream cont f s = discardFrame r (frameKind f) 0 s := by
  have hslot : discardAudio r f i s = discardFrame r (frameKind f) 0 s := by rw [discardAudio, if_neg hr]
  rw [← hslot]
  cases cont
  · have hread' : readAudio f c = .discard r := hread
    simp [parseStream, parseAudio, hv, hs, hread']
  · exact parseCont_discard hv hs hread

/-- No slot takes a frame where every open slot of its stream id is FROZEN (R58). -/
theorem slotFor_eq_none (h : ∀ (j : Fin 8) (c : Context), (s.slot j).state ≠ .closed → (s.slot j).context = some c →
    c.streamId = (frameWord f 0).extractLsb' 0 8 → (s.slot j).state = .frozen) : slotFor f s = none := by
  unfold slotFor
  split
  · rfl
  · next j hj =>
    have hid := List.find?_some hj
    simp only [State.holdsId, Bool.and_eq_true, decide_eq_true_eq, beq_iff_eq, Option.map_eq_some_iff] at hid
    obtain ⟨hopen, d, hd, hstream⟩ := hid
    rw [if_pos (h j d hopen hd hstream)]

/-- Shorter than its header and options (R58). -/
theorem readStream_short (h : f.words.length < (if cont then 2 else 4) + optionCount (frameWord f 0)) :
    readStream cont f v c = .discard .length := by
  cases cont
  · exact if_pos h
  · exact if_pos h

/-- Long enough, but its options are not walked to their end (R59, R60). -/
theorem readStream_unparsed (hlong : (if cont then 2 else 4) + optionCount (frameWord f 0) ≤ f.words.length)
    (h : ¬ ∃ os payload, laidOut cont f os payload) : readStream cont f v c = .discard .option := by
  have hwalk : walkOptions cont 15 (optionWords f (if cont then 2 else 4)) Options.none = none :=
    Option.eq_none_iff_forall_ne_some.2 fun o ho => h (laidOut_of_walk hlong ho)
  cases cont
  · have hlong' : ¬ f.words.length < 4 + optionCount (frameWord f 0) := not_lt.2 hlong
    have hwalk' : walkOptions false 15 (optionWords f 4) Options.none = none := hwalk
    simp [readStream, readAudio, hlong', hwalk']
  · have hlong' : ¬ f.words.length < 2 + optionCount (frameWord f 0) := not_lt.2 hlong
    have hwalk' : walkOptions true 15 (optionWords f 2) Options.none = none := hwalk
    simp [readStream, readCont, hlong', hwalk']

/-- Laid out, of its stream's format, but its frame count or payload does not fit (R61). -/
theorem readStream_misfit {os : List (List Word32)} {payload : List Word32} (h : laidOut cont f os payload) (hoff : formatOff c os = none)
    (hfits : ¬ payloadFits c (frameCount f) payload) : readStream cont f v c = .discard .length := by
  cases cont
  · obtain ⟨hlong, hwalk, hpayload⟩ := laidOut_reads (header := 4) rfl h
    have hwrong : lengthRight c (frameCount f) payload = false := Bool.eq_false_iff.2 fun hr => hfits ((lengthRight_iff _ _ _).1 hr)
    have hformat : mismatchOf c (Options.none.with os) = none := (mismatchOf_with c os).trans hoff
    simp [readStream, readAudio, hlong, hwalk, hformat, hpayload, hwrong]
  · exact readCont_misfit h hfits

end

/-! ## The statements about what the parser discards and what it makes of a CONTROL frame -/

/-- Settles O21: what each row hands to the parser, and the parser's tests in their order. -/
theorem parserDiscardsByReason : Obligations.ParserDiscardsByReason := by
  intro s f ended w discard
  refine ⟨fun k hk harr => (handsTo_unknownKindFrame hk).discards (r := .kind) harr rfl, fun harr => ?beacon,
    fun harr => ?control, ?stream⟩
  case beacon =>
    exact ⟨fun hv => handsTo_beacon.discards (r := .version) harr (parseBeacon_version hv),
      fun hv ho => handsTo_beacon.discards (r := .option) harr (parseBeacon_option hv ho),
      fun hv ho hl => handsTo_beacon.discards (r := .length) harr (parseBeacon_length hv ho hl)⟩
  case control =>
    refine ⟨fun hv => handsTo_control.discards (r := .version) harr (parseControl_version hv),
      fun hv ho => handsTo_control.discards (r := .option) harr (parseControl_option hv ho),
      fun hv ho htag hempty hl => handsTo_control.discards (r := .length) harr ?_⟩
    exact (parseControl_ours (s := ended) hv ho htag).trans ((if_neg (not_not.2 hempty)).trans (if_pos hl))
  case stream =>
    intro cont harr hrings i kind header
    have hkind : (if cont then 0x02 else 0x01 : BitVec 8).toNat = kind := by cases cont <;> rfl
    have hands := handsTo_stream cont hrings
    have discards : ∀ r : DiscardReason, parseStream cont f ended = discardFrame r (frameKind f) 0 ended →
        exec i s = discard r.code kind :=
      fun r hparse => (hands.discards (r := r) harr hparse).trans (congrArg (discard r.code) hkind)
    refine ⟨fun hv => discards .version (parseStream_version cont hv), fun hv => ⟨fun hfrozen => ?_, fun j c hslot => ?_⟩⟩
    · exact (hands.arrives harr).trans (congrArg _ (parseStream_slotless (s := ended) cont hv (slotFor_eq_none hfrozen)))
    · have read : ∀ r : DiscardReason, r ≠ .orphan → readStream cont f (s.slot j) c = .discard r →
          exec i s = discard r.code kind := fun r hr hread => discards r (parseStream_discard cont hr hv hslot hread)
      exact ⟨fun hshort => read .length (by decide) (readStream_short cont hshort),
        fun hlong hunparsed => read .option (by decide) (readStream_unparsed cont hlong hunparsed),
        fun os payload hlaid hoff hfits => read .length (by decide) (readStream_misfit cont hlaid hoff hfits)⟩

/-- The select-rise of a READ of another version is discarded once the frame in hand is finished (R54, R70). -/
theorem exec_read_version {s : State} {f : LinkFrame} (hi : s.inbound = some f) (hg : f.ignored = false)
    (hk : f.kindCode = some 0x05) (hv : versionOne (frameWord f 0) = false) :
    exec (.read .rise) s = .next (readDiscarded { s with inbound := none, outbound := none }) := by
  have hread : f.isRead = true := decide_eq_true hk
  have hrise : exec (.read .rise) s = .next (readEnded f (s.withInbound none)) :=
    congrArg Host.Outcome.next (selectRise_fits _ hi hg hk rfl)
  rw [hrise, readEnded, if_neg (by simp [hread]), if_pos hv]
  rfl

/-- Settles O22: with a frame in hand by finishing it, piece by piece; with none, the parser's tests in their order. -/
theorem controlFrameMeetsReplyBuffer : Obligations.ControlFrameMeetsReplyBuffer := by
  refine ⟨?inHand, fun s f w0 w1 rest harr hw hv ho => ?arrives⟩
  case inHand =>
    intro s f hi hg _ _ hrings rows
    refine ⟨fun c ht ⟨k, hk, hc⟩ => ⟨_, finishes_finishFrame (s.withInbound none), ?_⟩,
      fun hk hv => ⟨_, finishes_finishFrame _, exec_read_version hi hg hk hv⟩⟩
    have waits : ∀ {parse}, (∀ t, t.ringsLocated = true → HandsTo c k parse t) → _ :=
      fun h => exec_waits h hi hg ht hk hrings
    rcases hc with hrow | ⟨hkind, rfl⟩
    · simp only [rows, List.mem_cons, Prod.mk.injEq, List.not_mem_nil, or_false] at hrow
      rcases hrow with ⟨rfl, rfl⟩ | ⟨rfl, rfl⟩ | ⟨rfl, rfl⟩ | ⟨rfl, rfl⟩
      · exact waits fun _ h => handsTo_audio h
      · exact waits fun _ h => handsTo_cont h
      · exact waits fun _ _ => handsTo_beacon
      · exact waits fun _ _ => handsTo_control
    · exact waits fun _ _ => handsTo_unknownKindFrame hkind
  case arrives =>
    have hw0 : frameWord f 0 = w0 := by rw [frameWord, hw]; rfl
    have hw1 : frameWord f 1 = w1 := by rw [frameWord, hw]; rfl
    have hlen : ¬ f.words.length < 2 := by rw [hw]; simp
    rw [← hw0] at hv ho ⊢
    refine ⟨fun htag hempty => ?_, fun htag hfull => ?_, fun hother => ?_⟩
    · have hbuffer : ¬ (s.withInbound none).replyBuffer ≠ .empty := not_not.2 hempty
      rw [handsTo_control.arrives harr, parseControl_ours (s := s.withInbound none) hv ho htag, if_neg hbuffer, if_neg hlen,
        takeControl, hw1, hw]
      rfl
    · exact handsTo_control.discards (r := .overrun) harr ((parseControl_ours (s := s.withInbound none) hv ho htag).trans (if_pos hfull))
    · rw [handsTo_control.arrives harr, parseControl_foreign (s := s.withInbound none) hv ho (not_or.2 hother)]
      rfl

end Sys2Proof.Machine
end

section
/-! SUPPORT. READ frames: the words that come in, the outbound frame's choice at word 0, and what the select-rise removes (R70, R71). -/

namespace Sys2Proof.Machine

section
variable {s : State} {f g : LinkFrame} {w : Word32} {ws rest : List Word32} {tail : Nat}

/-- A frame is a READ by the kind code of its word 0 (R54). -/
theorem LinkFrame.isRead_of_word0 (hw : f.words = w :: rest) (hk : w.extractLsb' 24 8 = 0x05) : f.isRead = true := by
  refine decide_eq_true ?_
  rw [LinkFrame.kindCode, hw]
  exact congrArg some hk

/-- Of a READ word 0 alone is held, however many words have come in (R71). -/
theorem LinkFrame.shifted_read (hw : f.words ++ ws = w :: rest) (hk : w.extractLsb' 24 8 = 0x05) :
    f.shifted ws tail = { f with words := [w], count := f.count + ws.length, tail := if ws = [] then max f.tail tail else tail } := by
  have hread : LinkFrame.isRead { f with
      words := (f.words ++ ws).take Config.frameWords, count := f.count + ws.length,
      tail := if ws = [] then max f.tail tail else tail } = true :=
    LinkFrame.isRead_of_word0 (congrArg (List.take Config.frameWords) hw) hk
  rw [LinkFrame.shifted, if_pos hread]
  dsimp only
  rw [List.take_take, hw]
  rfl

/-- Bits of a READ clocked in (R50, R70). -/
theorem exec_read_shift (hi : s.inbound = some f) (hg : f.ignored = false) (hf : f.shifted ws tail = g) (hr : g.isRead = true) :
    exec (.read (.shift ws tail)) s = .next ((chosenAt f g s).withInbound (some g)) := by
  have hshift : shiftIn ws tail s = (chosenAt f g s).withInbound (some g) := by simp [shiftIn, hi, hg, hf, hr]
  exact congrArg Host.Outcome.next hshift

/-- With the word 0 of a READ of version 1 the outbound frame is chosen (R70). -/
theorem chosenAt_word0 (hf : f.words = []) (hv : versionOne (frameWord g 0) = true) :
    chosenAt f g s = { s with outbound := some (chooseOutbound s) } := if_pos ⟨hf, hv⟩

/-- A READ of another version has nothing chosen (R70). -/
theorem chosenAt_version (hv : versionOne (frameWord g 0) = false) : chosenAt f g s = s :=
  if_neg fun ⟨_, h⟩ => by rw [hv] at h; cases h

/-- The choice is made once (R70). -/
theorem chosenAt_later (hf : f.words ≠ []) : chosenAt f g s = s := if_neg fun ⟨h, _⟩ => hf h

/-- The select-rise of a READ whose word 0 is in (R70, R71). -/
theorem exec_read_rise (hi : s.inbound = some f) (hg : f.ignored = false) (hw : f.words = [w]) (hk : w.extractLsb' 24 8 = 0x05) :
    exec (.read .rise) s = .next (readEnded f (s.withInbound none)) := by
  have hkind : f.kindCode = some 0x05 := of_decide_eq_true (LinkFrame.isRead_of_word0 hw hk)
  exact congrArg Host.Outcome.next (selectRise_fits _ hi hg hkind rfl)

/-- The end of a READ of version 1 that carried a frame (R71). -/
theorem readEnded_carried {o : Outbound} (hr : f.isRead = true) (hv : versionOne (frameWord f 0) = true) (ho : s.outbound = some o) :
    readEnded f s = if f.clockedOut o then removeContent o.content { s with outbound := none } else { s with outbound := none } := by
  simp [readEnded, hr, hv, ho]

/-- A READ of another version with no frame in hand (R54). -/
theorem readDiscarded_idle (hrun : s.run = .running) (hn : s.interp = none) :
    readDiscarded s = offerPart .frameDiscarded (bytesWord 4 5 0 0) s := by
  rw [readDiscarded, finishFrame_idle hn, if_pos hrun]
  rfl

end

/-- Settles O23: the shift that completes word 0 chooses, later ones do not, and the select-rise removes by what was clocked out. -/
theorem readChoosesAndRemoves : Obligations.ReadChoosesAndRemoves := by
  intro s f w ws tail hi hg hk
  refine ⟨fun hempty => ?word0, fun hw => ⟨fun hmore => ?later, fun hv o ho => ?ends, fun hv hrun hn => ?version⟩⟩
  case word0 =>
    intro g
    have hshift : f.shifted (w :: ws) tail = g := LinkFrame.shifted_read (by rw [hempty]; rfl) hk
    have hexec := exec_read_shift hi hg hshift (LinkFrame.isRead_of_word0 rfl hk)
    refine ⟨fun hv => ?_, fun hv => ?_⟩
    · rw [hexec, chosenAt_word0 (g := g) hempty hv]
      rfl
    · rw [hexec, chosenAt_version (g := g) hv]
      rfl
  case later =>
    have hshift : f.shifted ws tail = { f with count := f.count + ws.length, tail := tail } := by
      rw [LinkFrame.shifted_read (by rw [hw]; rfl) hk, if_neg hmore, hw]
    rw [exec_read_shift hi hg hshift (LinkFrame.isRead_of_word0 hw hk), chosenAt_later (by simp [hw])]
    rfl
  case ends =>
    intro ended
    have hv' : versionOne (frameWord f 0) = true := by rw [frameWord, hw]; exact hv
    have hexec : exec (.read .rise) s = .next (if f.clockedOut o then removeContent o.content ended else ended) :=
      (exec_read_rise hi hg hw hk).trans (congrArg _ (readEnded_carried (LinkFrame.isRead_of_word0 hw hk) hv' ho))
    refine ⟨fun hout => ?_, fun hleft => ?_⟩
    · have hclocked : f.clockedOut o = true := decide_eq_true hout
      rw [hexec, if_pos hclocked]
      refine ⟨fun hc => ?_, fun n hc => ?_, fun hc => ?_⟩
      all_goals
        rw [hc]
        rfl
    · have hclocked : ¬ f.clockedOut o = true := fun h => by
        have := of_decide_eq_true h
        omega
      rw [hexec, if_neg hclocked]
  case version =>
    have hv' : versionOne (frameWord f 0) = false := by rw [frameWord, hw]; exact hv
    have hkind : f.kindCode = some 0x05 := of_decide_eq_true (LinkFrame.isRead_of_word0 hw hk)
    exact (exec_read_version hi hg hkind hv').trans (congrArg _ (readDiscarded_idle hrun hn))

end Sys2Proof.Machine
end

section
/-! SUPPORT. The playout queue's indices: the start index that R76 gives to a PT which its source rounded to a whole tick. -/

namespace Sys2Proof.Machine

theorem rate_hz_bounds (fs : Rate) : 32000 ≤ fs.hz ∧ fs.hz ≤ 96000 := by cases fs <;> decide

/-- A span within 2^47 of zero is read back from the time it leads to (R2). -/
theorem sdiff_addSpan (origin : Time) {d : Int} (hlo : -2 ^ 47 ≤ d) (hhi : d < 2 ^ 47) : sdiff (addSpan origin d) origin = d := by
  rw [sdiff, addSpan, add_sub_cancel_left, BitVec.toInt_ofInt]
  exact Int.bmod_eq_of_le (by omega) (by omega)

/-- A quotient rounded half up is off by half the divisor at most. -/
theorem roundHalfUp_mul_near (n : Int) {d : Int} (h : 0 < d) : -d ≤ 2 * (roundHalfUp n d * d - n) ∧ 2 * (roundHalfUp n d * d - n) ≤ d := by
  have hdiv : roundHalfUp n d * d + (n + d / 2) % d = n + d / 2 := by rw [roundHalfUp, Int.ediv_mul_add_emod]
  have hlo := Int.emod_nonneg (n + d / 2) h.ne'
  have hhi := Int.emod_lt_of_pos (n + d / 2) h
  omega

/-- Settles O25: the rounded PT is off by half a tick at most, which at every rate is less than half a sample. -/
theorem roundedPtMeetsItsIndex : Obligations.RoundedPtMeetsItsIndex := by
  intro fs origin k hlo hhi
  obtain ⟨hmin, hmax⟩ := rate_hz_bounds fs
  obtain ⟨hbelow, habove⟩ := roundHalfUp_mul_near (k * 24576000) (d := fs.hz) (by omega)
  have hspan : sdiff (addSpan origin (roundHalfUp (k * 24576000) fs.hz)) origin = roundHalfUp (k * 24576000) fs.hz := by
    refine sdiff_addSpan origin ?_ ?_ <;> nlinarith
  rw [indexOfPt, hspan]
  omega

end Sys2Proof.Machine
end

section
/-! SUPPORT. A strobe's rendering, slot by slot: how a stream moves by its state, what it hands and how it advances (R88 to R109). -/

namespace Sys2Proof.Machine

/-! ## A slot after events of its own -/

/-- What events of a slot leave of it: its stream, ring, queue and place, and its state unless they freeze it (R143, R144, R45). -/
structure Told (v w : Slot) : Prop where
  context : w.context = v.context
  blocks : w.blocks = v.blocks
  queue : w.queue = v.queue
  readPos : w.readPos = v.readPos
  state : w.state = v.state ∨ w.state = .frozen

theorem Told.refl (v : Slot) : Told v v := ⟨rfl, rfl, rfl, rfl, .inl rfl⟩

theorem told_offerSlot (k : EventKind) (i : Fin 8) (d : Word32) (s : State) (v : Slot) :
    Told v ((offerSlot k i d (s.setSlot i v)).slot i) := by
  obtain ⟨-, st, r, p, q, hslot, hst⟩ := offerSlot_slots k i d (s.setSlot i v)
  rw [slot_setSlot_same] at hslot hst
  rw [hslot]
  exact ⟨rfl, rfl, rfl, rfl, hst.imp (fun ⟨h, _⟩ => h) (fun ⟨h, _⟩ => h)⟩

theorem told_offerEach (k : EventKind) (i : Fin 8) (ds : List Word32) (s : State) (v : Slot) :
    Told v ((offerEach k i ds (s.setSlot i v)).slot i) := by
  obtain ⟨st, r, p, q, hslot⟩ := offerEach_slot k i ds (s.setSlot i v)
  have hst := offerEach_state k i ds (s.setSlot i v)
  rw [slot_setSlot_same] at hslot hst
  rw [hslot] at hst ⊢
  exact ⟨rfl, rfl, rfl, rfl, hst⟩

/-- An advance leaves the stream of its slot. -/
theorem context_advanceSlot (i : Fin 8) (f : Int) (s : State) : ((advanceSlot i f s).slot i).context = (s.slot i).context :=
  (told_offerEach _ _ _ _ _).context

/-- An advance leaves the state of its slot, unless a CHUNK_TRACE freezes it (R45). -/
theorem state_advanceSlot (i : Fin 8) (f : Int) (s : State) :
    ((advanceSlot i f s).slot i).state = (s.slot i).state ∨ ((advanceSlot i f s).slot i).state = .frozen :=
  (told_offerEach _ _ _ _ _).state

/-! ## The values handed (R98, R99) -/

/-- The sample of index `j` in a queue: 0 where its record is BAD, `hold` where no record holds it (R98). -/
def storedSample (m : Memory) (blocks : List Nat) (c : Context) (q : List ChunkRecord) (j : Int) (ch : Nat) (hold : Int) : Int :=
  match q.find? fun r => decide (r.start ≤ j ∧ j ≤ r.endIndex) with
  | some r => if r.bad = true then 0 else sampleAt m (ringAddress blocks (ringWord c j ch))
  | none => hold

theorem sampleOf_eq (s : State) (v : Slot) (c : Context) (ch : Nat) (j hold : Int) :
    sampleOf s v c ch j hold = storedSample s.memory v.blocks c v.queue j ch hold := by
  rw [storedSample, ← findIndex_found, sampleOf]
  cases findIndex v.queue j <;> rfl

/-- The value of channel `ch` at the place `f`: the samples on either side of it, joined in the ratio of its fraction (R99). -/
def strobeValue (m : Memory) (blocks : List Nat) (c : Context) (q : List ChunkRecord) (f : Int) (ch : Nat) : Int :=
  let s0 := storedSample m blocks c q (f / 2 ^ 28) ch 0
  let s1 := storedSample m blocks c q (f / 2 ^ 28 + 1) ch s0
  s0 + ((s1 - s0) * ((f - f / 2 ^ 28 * 2 ^ 28) / 4096) + 32768) / 65536

theorem channelValue_eq (s : State) (v : Slot) (c : Context) (f : Int) (ch : Nat) :
    channelValue s v c f ch = strobeValue s.memory v.blocks c v.queue f ch := by
  simp only [channelValue, sampleOf_eq]
  rfl

/-- One value for each channel of a stream at the place `f`. -/
def strobeValues (m : Memory) (blocks : List Nat) (c : Context) (q : List ChunkRecord) (f : Int) : Option (List Int) :=
  some ((List.range c.channels.count).map (strobeValue m blocks c q f))

section
variable {u : State} {v w : Slot} {c : Context} {f : Int}

/-- A PLAYING or DRAINING slot hands its values. -/
theorem handedBy_values (hw : Told v w) (hst : w.state = .playing ∨ w.state = .draining) (hc : v.context = some c)
    (hf : v.readPos = some f) : handedBy u w = strobeValues u.memory v.blocks c v.queue f := by
  have hmap : (List.range c.channels.count).map (channelValue u w c f) =
      (List.range c.channels.count).map (strobeValue u.memory v.blocks c v.queue f) := by
    rw [← hw.blocks, ← hw.queue]
    exact congrArg (List.map · _) (funext (channelValue_eq u w c f))
  rcases hst with hst | hst <;> simp only [handedBy, hw.context, hw.readPos, hc, hf, hst, hmap, strobeValues]

/-- A STARVED slot hands zeros. -/
theorem handedBy_starved (hw : Told v w) (hst : w.state = .starved) (hc : v.context = some c) (hf : v.readPos = some f) :
    handedBy u w = some (List.replicate c.channels.count 0) := by
  simp only [handedBy, hw.context, hw.readPos, hc, hf, hst]

/-- A slot in another state hands nothing. -/
theorem handedBy_silent (hst : w.state = .closed ∨ w.state = .priming ∨ w.state = .frozen) : handedBy u w = none := by
  unfold handedBy
  rcases hst with hst | hst | hst <;> rw [hst] <;> cases w.context <;> cases w.readPos <;> rfl

end

/-! ## The head of a queue (R88, R89) -/

/-- A record that begins before `floor` raised to it, its end index kept. -/
def raised (floor : Int) (r : ChunkRecord) : ChunkRecord :=
  if r.start < floor then { r with start := floor, count := r.count - (floor - r.start).toNat } else r

theorem trimHead_eq (floor : Int) (q : List ChunkRecord) :
    trimHead floor q = match q with
      | r :: rest => raised floor r :: rest
      | [] => [] := by
  cases q with
  | nil => rfl
  | cons r rest =>
    simp only [trimHead, raised]
    split <;> rfl

theorem keptRecords_keptRecords (q : List ChunkRecord) (floor : Int) :
    keptRecords (keptRecords q floor) floor = keptRecords q floor := by simp [keptRecords]

/-- The queue of a stream that starts: its late records are gone, and its head has come due (R89, R96). -/
theorem rebase_due (c : Context) {q rest : List ChunkRecord} {r : ChunkRecord} {due : Int} (hq : keptRecords q due = r :: rest)
    (hr : r.start ≤ due) : rebase c (some r.start) due (r :: rest) = raised due r :: rest := by
  have hkept : keptRecords (r :: rest) due = r :: rest := by rw [← hq, keptRecords_keptRecords]
  simp only [rebase, retireTo, hkept, trimHead_eq, if_neg (not_lt.2 hr)]

/-! ## What the rendering leaves of one slot (R92, R113) -/

/-- The rendering leaves slot `i` as `u` holds it and hands `handed` for it; where no other slot is at work the report queue is
that of `u`. -/
def Renders (s : State) (i : Fin 8) (u : State) (handed : Option (List Int)) : Prop :=
  (renderAll s).slot i = u.slot i ∧ ((renderAll s).contributions[i.val]).values = handed ∧
    ((∀ j, j ≠ i → (s.slot j).state = .closed ∨ (s.slot j).state = .frozen) →
      (renderAll s).reports = u.reports ∧ (renderAll s).lostMark = u.lostMark)

/-- A slot moved to `u` by an event: it advances and hands `handed` where the event left it in `st`, and goes no further where the
event froze it (R45). -/
def RendersPlaying (s : State) (i : Fin 8) (u : State) (st : SlotState) (f : Int) (handed : Option (List Int)) : Prop :=
  if (u.slot i).state = st then Renders s i (advanceSlot i f u) handed else Renders s i u none

section
variable {s u : State} {i : Fin 8} {v w : Slot} {c : Context} {f : Int} {st : SlotState} {handed : Option (List Int)}

/-- The report queue and the slot are all that counts of `u`. -/
theorem Renders.alike {u' : State} (h : Renders s i u handed) (ha : Alike true i u u') : Renders s i u' handed := by
  obtain ⟨hslot, hvalues, hreports⟩ := h
  obtain ⟨hslot', -, -, -, -, -, hreports'⟩ := ha
  obtain ⟨hq, hm⟩ := hreports' rfl
  rw [Renders, hslot', hq, hm]
  exact ⟨hslot, hvalues, hreports⟩

/-- A slot that its moves leave CLOSED, PRIMING or FROZEN hands nothing and does not advance. -/
theorem renders_silent (hm : moveSlot i s = u) (hst : (u.slot i).state = .closed ∨ (u.slot i).state = .priming ∨ (u.slot i).state = .frozen) :
    Renders s i u none := by
  have hplay : ∀ b, playSlot i b u = u := fun b => by
    unfold playSlot
    rcases hst with hst | hst | hst <;> rw [hst]
  refine renderAll_slot ?_ (.inl rfl)
  simp only [renderSlot, hm, hplay, handedBy_silent hst]

theorem context_countStarved (b : Bool) : ((countStarved i b u).slot i).context = (u.slot i).context := by
  unfold countStarved
  split
  · rw [slot_setSlot_same]
  · rfl

/-- A slot that its moves leave PLAYING, STARVED or DRAINING hands its values, advances and counts (R98 to R100, R107). -/
theorem renders_sounding (hm : moveSlot i s = u)
    (hst : (u.slot i).state = .playing ∨ (u.slot i).state = .starved ∨ (u.slot i).state = .draining)
    (hc : (u.slot i).context = some c) (hf : (u.slot i).readPos = some f) :
    Renders s i (countStarved i (decide ((s.slot i).state = .starved)) (advanceSlot i f u)) (handedBy u (u.slot i)) := by
  have hplay : ∀ b, playSlot i b u = countStarved i b (advanceSlot i f u) := fun b => by
    rcases hst with hst | hst | hst <;> simp only [playSlot, hst, hf]
  refine renderAll_slot ?_ (.inr ?_)
  · simp only [renderSlot, hm, hplay]
  · rw [context_countStarved, context_advanceSlot]
    exact Option.isSome_of_eq_some hc

/-- The count rises only where the slot was STARVED before the strobe and an advance of it, STARVED, leaves it so (R107, log 34). -/
theorem countStarved_advanceSlot (b : Bool) (h : ¬ (b = true ∧ (u.slot i).state = .starved)) :
    countStarved i b (advanceSlot i f u) = advanceSlot i f u :=
  if_neg fun ⟨hwas, his⟩ => h ⟨hwas, by
    rcases state_advanceSlot i f u with hst | hst
    · rwa [← hst]
    · rw [hst] at his
      cases his⟩

/-- A slot that its moves leave PLAYING or DRAINING, or STARVED for the first strobe, advances by its state after the event. -/
theorem rendersPlaying_of_move (hm : moveSlot i s = u) (hw : Told w (u.slot i)) (hst : w.state = st)
    (hsound : st = .playing ∨ st = .starved ∨ st = .draining) (hfirst : ¬ ((s.slot i).state = .starved ∧ st = .starved))
    (hc : w.context = some c) (hf : w.readPos = some f) (hh : (u.slot i).state = st → handedBy u (u.slot i) = handed) :
    RendersPlaying s i u st f handed := by
  unfold RendersPlaying
  split
  · next hstays =>
    have hsounds := renders_sounding hm (by rwa [hstays]) (hw.context.trans hc) (hw.readPos.trans hf)
    rw [countStarved_advanceSlot _ (by rwa [hstays, decide_eq_true_iff]), hh hstays] at hsounds
    exact hsounds
  · next hleft =>
    have hfrozen := hw.state.resolve_left fun h => hleft (h.trans hst)
    exact renders_silent hm (.inr (.inr hfrozen))

/-! ## The moves of a stream with its place (R106, R107, R109) -/

theorem isBeyond_iff (hst : (s.slot i).state = st) (hf : (s.slot i).readPos = some f) :
    isBeyond s i st = true ↔ ∀ r ∈ (s.slot i).queue, r.endIndex < f / 2 ^ 28 := by
  rw [← findIndex_beyond, isBeyond, findingNow, hst, hf, decide_eq_true rfl, Bool.true_and]
  show _ ↔ findIndex (s.slot i).queue (floorF f) = .beyond
  cases h : findIndex (s.slot i).queue (floorF f) <;> simp [h]

theorem resumesNow_iff (hst : (s.slot i).state = .starved) (hf : (s.slot i).readPos = some f) :
    resumesNow s i = true ↔ ∃ r ∈ (s.slot i).queue, r.start ≤ f / 2 ^ 28 ∧ f / 2 ^ 28 ≤ r.endIndex := by
  rw [← findIndex_held, resumesNow, findingNow, hst, hf, decide_eq_true rfl, Bool.true_and]
  rfl

/-- A PLAYING or DRAINING stream that is not beyond every record stays as it is, hands its values and advances. -/
theorem renders_reading (hst : (s.slot i).state = .playing ∨ (s.slot i).state = .draining) (hc : (s.slot i).context = some c)
    (hf : (s.slot i).readPos = some f) (hin : ¬ ∀ r ∈ (s.slot i).queue, r.endIndex < f / 2 ^ 28) :
    Renders s i (advanceSlot i f s) (strobeValues s.memory (s.slot i).blocks c (s.slot i).queue f) := by
  have hm : moveSlot i s = s := by
    rcases hst with hst | hst <;> simp only [moveSlot, hst] <;> exact if_neg (mt (isBeyond_iff hst hf).1 hin)
  have hplays := rendersPlaying_of_move hm (Told.refl _) rfl (hst.imp_right .inr) (by rcases hst with hst | hst <;> simp [hst]) hc hf
    (fun _ => handedBy_values (Told.refl _) hst hc hf)
  exact (if_pos rfl).mp hplays

/-- A PLAYING stream that is beyond every record is STARVED, and hands zeros (R106). -/
theorem renders_starving (hst : (s.slot i).state = .playing) (hc : (s.slot i).context = some c) (hf : (s.slot i).readPos = some f)
    (hbeyond : ∀ r ∈ (s.slot i).queue, r.endIndex < f / 2 ^ 28) :
    RendersPlaying s i (offerSlot .streamStarved i (clamp32 (f / 2 ^ 28)) (s.setSlot i { s.slot i with state := .starved })) .starved f
      (some (List.replicate c.channels.count 0)) := by
  have hm : moveSlot i s = starveStream i s := by simp only [moveSlot, hst, if_pos ((isBeyond_iff hst hf).2 hbeyond)]
  rw [starveStream, hf] at hm
  have hw := told_offerSlot .streamStarved i (clamp32 (f / 2 ^ 28)) s { s.slot i with state := .starved }
  exact rendersPlaying_of_move hm hw rfl (.inr (.inl rfl)) (by simp [hst]) hc hf fun hstays => handedBy_starved hw hstays hc hf

/-- A STARVED stream whose index is held is PLAYING again, and hands its values (R107). -/
theorem renders_resuming (hst : (s.slot i).state = .starved) (hc : (s.slot i).context = some c) (hf : (s.slot i).readPos = some f)
    (hheld : ∃ r ∈ (s.slot i).queue, r.start ≤ f / 2 ^ 28 ∧ f / 2 ^ 28 ≤ r.endIndex) :
    RendersPlaying s i
      (offerSlot .streamResumed i (natWord (s.slot i).starveCount) (s.setSlot i { s.slot i with state := .playing, starveCount := 0 }))
      .playing f (strobeValues s.memory (s.slot i).blocks c (s.slot i).queue f) := by
  have hm : moveSlot i s = resumeStream i s := by simp only [moveSlot, hst, if_pos ((resumesNow_iff hst hf).2 hheld)]
  have hw := told_offerSlot .streamResumed i (natWord (s.slot i).starveCount) s { s.slot i with state := .playing, starveCount := 0 }
  refine rendersPlaying_of_move hm hw rfl (.inl rfl) (by simp) hc hf fun hstays => ?_
  rw [handedBy_values hw (.inl hstays) hc hf, offerSlot_memory]
  rfl

/-- A STARVED stream whose index is not held hands zeros, and counts the strobe unless its advance froze it (R107). -/
theorem renders_waiting (hst : (s.slot i).state = .starved) (hc : (s.slot i).context = some c) (hf : (s.slot i).readPos = some f)
    (hgap : ¬ ∃ r ∈ (s.slot i).queue, r.start ≤ f / 2 ^ 28 ∧ f / 2 ^ 28 ≤ r.endIndex) :
    let u := advanceSlot i f s
    Renders s i
      (if (u.slot i).state = .starved then u.setSlot i { u.slot i with starveCount := (u.slot i).starveCount + 1 } else u)
      (some (List.replicate c.channels.count 0)) := by
  intro u
  have hm : moveSlot i s = s := by simp only [moveSlot, hst, if_neg (mt (resumesNow_iff hst hf).1 hgap)]
  have hsounds := renders_sounding hm (.inr (.inl hst)) hc hf
  rw [handedBy_starved (Told.refl _) hst hc hf] at hsounds
  simpa only [countStarved, hst, decide_true, true_and] using hsounds

/-- A slot's release is alike to the closing of the slot alone: its blocks go to a free list, which no slot's work at a strobe reads
(R39). -/
theorem alike_releaseSlot (i : Fin 8) (s : State) :
    Alike true i (releaseSlot i s) (s.setSlot i (Slot.closedWith (s.slot i).faultSequence)) := by
  have hslot : (releaseSlot i s).slot i = Slot.closedWith (s.slot i).faultSequence := by
    unfold releaseSlot
    split
    · exact slot_setSlot_same _ _ _
    · exact slot_setSlot_same s _ _
  refine ⟨by rw [hslot, slot_setSlot_same], ?_⟩
  unfold releaseSlot
  split <;> exact ⟨rfl, rfl, rfl, rfl, rfl, fun _ => ⟨rfl, rfl⟩⟩

/-- A DRAINING stream that is beyond every record is closed, and hands nothing (R109). -/
theorem renders_drained (hst : (s.slot i).state = .draining) (hf : (s.slot i).readPos = some f)
    (hbeyond : ∀ r ∈ (s.slot i).queue, r.endIndex < f / 2 ^ 28) :
    Renders s i (offerSlot .streamDrained i (clamp32 (f / 2 ^ 28)) (s.setSlot i (Slot.closedWith (s.slot i).faultSequence))) none := by
  have hm : moveSlot i s = drainStream i s := by simp only [moveSlot, hst, if_pos ((isBeyond_iff hst hf).2 hbeyond)]
  rw [drainStream, hf] at hm
  have halike := (alike_releaseSlot i s).offerSlot .streamDrained (clamp32 (f / 2 ^ 28))
  have hclosed := (told_offerSlot .streamDrained i (clamp32 (f / 2 ^ 28)) s (Slot.closedWith (s.slot i).faultSequence)).state
  rw [halike.1] at hclosed
  exact (renders_silent hm (hclosed.imp_right .inr)).alike halike

/-! ## The work of a PRIMING stream (R90, R95, R96) -/

theorem moveSlot_priming (hst : (s.slot i).state = .priming) : moveSlot i s = primingWork i s := by simp only [moveSlot, hst]

theorem dueOf_eq {lc o h : Time} (hc : (s.slot i).context = some c) (ho : (s.slot i).origin = some o) (hh : translate s.clock lc = some h) :
    dueOf s i lc = some (c, o, addSpan (addSpan h s.output.ko) (-c.trim)) := by
  simp only [dueOf, hc, ho, dueTime, hh, Option.map_some]

theorem dueOf_eq_none {lc : Time} (h : (s.slot i).origin = none ∨ translate s.clock lc = none) : dueOf s i lc = none := by
  rcases h with h | h
  · cases hc : (s.slot i).context <;> simp only [dueOf, hc, h]
  · simp only [dueOf, dueTime, h, Option.map_none]
    split <;> rfl

/-- Without a due time it does nothing (R95). -/
theorem renders_undue (hst : (s.slot i).state = .priming) (hdue : dueOf s i s.localCount = none) : Renders s i s none :=
  renders_silent (by rw [moveSlot_priming hst, primingWork, hdue]) (.inr (.inl hst))

section
variable {o d : Time}

/-- Past the span limit it is cut (R95). -/
theorem renders_spent (hst : (s.slot i).state = .priming) (hdue : dueOf s i s.localCount = some (c, o, d)) (hspan : 2 ^ 46 ≤ sdiff d o) :
    Renders s i (spanCut i s) none := by
  have hspent : spanExceeded o d = true := decide_eq_true hspan
  refine renders_silent (by simp only [moveSlot_priming hst, primingWork, hdue, hspent, if_true]) (.inr ?_)
  exact (told_offerSlot .spanLimit i 0 s (primed (s.slot i) (s.nominalOf (s.slot i)))).state

/-- Short of it the late records leave, then the start gate decides (R95, R96). -/
theorem moveSlot_unspent (hst : (s.slot i).state = .priming) (hdue : dueOf s i s.localCount = some (c, o, d))
    (hspan : sdiff d o < 2 ^ 46) : moveSlot i s = primeOn i c o d s := by
  have hshort : ¬ spanExceeded o d = true := fun h => not_le.2 hspan (of_decide_eq_true h)
  simp only [moveSlot_priming hst, primingWork, hdue, if_neg hshort]

/-- The late discard takes records of its slot's queue, and its events tell on the slot (R90). -/
theorem told_lateDiscard (i : Fin 8) (due : Int) (s : State) :
    Told { s.slot i with queue := keptRecords (s.slot i).queue due } ((lateDiscard i due s).slot i) := told_offerEach _ _ _ _ _

theorem onlySlot_lateDiscard (i : Fin 8) (due : Int) (s : State) : OnlySlot i s (lateDiscard i due s) :=
  (onlySlot_setSlot _ _ _).trans (onlySlot_offerEach _ _ _ _)

/-- The start gate after the late discard: the slot not frozen by it, the clock in step, the head come due (R96). -/
theorem startGate_lateDiscard_iff (due : Int) : startGate (lateDiscard i due s) ((lateDiscard i due s).slot i) due = true ↔
    ((lateDiscard i due s).slot i).state = .priming ∧ (s.clock.state = .locked ∨ s.clock.state = .holdover) ∧
      ∃ r, (keptRecords (s.slot i).queue due).head? = some r ∧ r.start ≤ due := by
  obtain ⟨-, -, -, -, -, hclock, -, -⟩ := onlySlot_lateDiscard i due s
  rw [startGate, hclock, (told_lateDiscard i due s).queue]
  cases (keptRecords (s.slot i).queue due).head? <;> simp [and_assoc]

/-- Its gate shut, it waits without its late records (R90, R96). -/
theorem renders_gated (hst : (s.slot i).state = .priming) (hdue : dueOf s i s.localCount = some (c, o, d)) (hspan : sdiff d o < 2 ^ 46)
    (hgate : ¬ startGate (lateDiscard i (dueIndex c.rate o d) s) ((lateDiscard i (dueIndex c.rate o d) s).slot i) (dueIndex c.rate o d) = true) :
    Renders s i (lateDiscard i (dueIndex c.rate o d) s) none := by
  refine renders_silent ((moveSlot_unspent hst hdue hspan).trans (if_neg hgate)) (.inr ?_)
  have hstate := (told_lateDiscard i (dueIndex c.rate o d) s).state
  rwa [hst] at hstate

/-- The start of a stream whose head `r` has come due (R96). -/
def startedSlot (s : State) (v : Slot) (c : Context) (position : Int) (r : ChunkRecord) (rest : List ChunkRecord) : Slot :=
  { v with
    state := .playing, readPos := some (position * 4096), queue := raised (position / 65536) r :: rest
    step := nominalStep c.rate s.output.rate + clockTerm (nominalStep c.rate s.output.rate) s.clock.epsilon, phase := 0, starveCount := 0 }

theorem startStream_eq {position : Int} {r : ChunkRecord} {rest : List ChunkRecord} (hpos : (s.slot i).readPos = none)
    (hqueue : (s.slot i).queue = r :: rest) (hkept : keptRecords (r :: rest) (position / 65536) = r :: rest)
    (hr : r.start ≤ position / 65536) :
    startStream i c position s =
      offerSlot .streamStarted i (clamp32 (position / 65536)) (s.setSlot i (startedSlot s (s.slot i) c position r rest)) := by
  have hfloor : floorF (position * 4096) = position / 65536 := by
    rw [floorF]
    omega
  have hbase : baseOf (s.slot i) = some r.start := by simp only [baseOf, hpos, hqueue, List.head?_cons, Option.map_some]
  simp only [startStream, hfloor, hbase, hqueue, rebase_due c hkept hr, startedSlot]

/-- Its gate open, it is PLAYING from the due position, and hands its values (R96). -/
theorem renders_starting {r : ChunkRecord} {rest : List ChunkRecord} (hst : (s.slot i).state = .priming)
    (hpos : (s.slot i).readPos = none) (hc : (s.slot i).context = some c) (hdue : dueOf s i s.localCount = some (c, o, d))
    (hspan : sdiff d o < 2 ^ 46) (hclock : s.clock.state = .locked ∨ s.clock.state = .holdover)
    (hleft : keptRecords (s.slot i).queue (dueIndex c.rate o d) = r :: rest) (hr : r.start ≤ dueIndex c.rate o d)
    (hprimed : ((lateDiscard i (dueIndex c.rate o d) s).slot i).state = .priming) :
    let s1 := lateDiscard i (dueIndex c.rate o d) s
    let position := duePosition c.rate o d
    RendersPlaying s i (offerSlot .streamStarted i (clamp32 (dueIndex c.rate o d))
        (s1.setSlot i (startedSlot s (s1.slot i) c position r rest)))
      .playing (position * 4096)
      (strobeValues s.memory (s.slot i).blocks c (raised (dueIndex c.rate o d) r :: rest) (position * 4096)) := by
  intro s1 position
  have htold := told_lateDiscard i (dueIndex c.rate o d) s
  obtain ⟨-, -, hmemory, -, houtput, hclocks, -, -⟩ := onlySlot_lateDiscard i (dueIndex c.rate o d) s
  have hqueue : (s1.slot i).queue = r :: rest := htold.queue.trans hleft
  have hgate : startGate s1 (s1.slot i) (dueIndex c.rate o d) = true :=
    (startGate_lateDiscard_iff _).2 ⟨hprimed, hclock, r, by rw [hleft, List.head?_cons], hr⟩
  have hkept : keptRecords (r :: rest) (dueIndex c.rate o d) = r :: rest := by rw [← hleft, keptRecords_keptRecords]
  have hstarted : startedSlot s1 (s1.slot i) c position r rest = startedSlot s (s1.slot i) c position r rest := by
    rw [startedSlot, houtput, hclocks]
    rfl
  have hm : moveSlot i s = offerSlot .streamStarted i (clamp32 (dueIndex c.rate o d))
      (s1.setSlot i (startedSlot s (s1.slot i) c position r rest)) :=
    calc moveSlot i s
      _ = startStream i c position s1 := (moveSlot_unspent hst hdue hspan).trans (if_pos hgate)
      _ = _ := by rw [startStream_eq (htold.readPos.trans hpos) hqueue hkept hr, hstarted]; rfl
  have hw := told_offerSlot .streamStarted i (clamp32 (dueIndex c.rate o d)) s1 (startedSlot s (s1.slot i) c position r rest)
  have hcontext : (s1.slot i).context = some c := htold.context.trans hc
  refine rendersPlaying_of_move hm hw rfl (.inl rfl) (by simp) hcontext rfl fun hstays => ?_
  rw [handedBy_values hw (.inl hstays) hcontext rfl, offerSlot_memory, State.setSlot_memory, hmemory]
  exact congrArg (strobeValues s.memory · c _ _) htold.blocks

end

end

/-! ## The statement -/

theorem exec_sampleStrobe_render {s : State} (hrings : s.ringsLocated = true) (hdue : s.strobeDue = true) :
    exec (.sampleStrobe .render) s = .next (renderAll s) := by
  have hself : exec (.sampleStrobe .render) s = execSampleStrobe .render s := rfl
  simp only [hself, execSampleStrobe, hrings, hdue, if_true]

/-- Settles O39: the work of one slot is what the rendering leaves of it, by the slot's state and what its queue finds. -/
theorem strobeAdvancesStreams : Obligations.StrobeAdvancesStreams := by
  intro s hrings hdue
  obtain ⟨hstrobed, hmix, hmemory, hlanes, hclock, houtput⟩ := renderAll_parts s
  refine ⟨renderAll s, exec_sampleStrobe_render hrings hdue, hstrobed, hmix, hmemory, hlanes, hclock, houtput,
    fun i hstill => ?still, fun i c hc => ?streams⟩
  case still =>
    obtain ⟨hslot, hvalues, -⟩ := renderAll_slot (renderSlot_still hstill) (.inl rfl)
    exact ⟨hslot, hvalues⟩
  case streams =>
    intro v stored value values zeros advanced gives plays
    have hadvanced : ∀ u f, advanced u f = advanceSlot i f u := fun u f => by
      rw [advanceSlot, retireTo, trimHead_eq]
      rfl
    have hplays : ∀ u st f handed, RendersPlaying s i u st f handed → plays u st f handed := fun u st f handed h => by
      change if _ then gives (advanced u f) handed else _
      rw [hadvanced]
      exact h
    refine ⟨fun f hf => ?placed, fun hst hpos => ?priming⟩
    case placed =>
      refine ⟨fun hst hin => ?_, fun hst hbeyond => hplays _ _ _ _ (renders_starving hst hc hf hbeyond),
        fun hst hheld => hplays _ _ _ _ (renders_resuming hst hc hf hheld), fun hst hgap => ?_, fun hst hin => ?_,
        fun hst hbeyond => renders_drained hst hf hbeyond⟩
      · rw [hadvanced]
        exact renders_reading (.inl hst) hc hf hin
      · rw [hadvanced]
        exact renders_waiting hst hc hf hgap
      · rw [hadvanced]
        exact renders_reading (.inr hst) hc hf hin
    case priming =>
      refine ⟨fun hnone => renders_undue hst (dueOf_eq_none hnone), fun o h ho hh => ?_⟩
      have hd := dueOf_eq hc ho hh
      intro d position due nominal late left primed
      refine ⟨fun hspan => ?_, fun hspan => ⟨fun hshut => ?_, fun hprimed hclocks r rest hleft hr => ?_⟩⟩
      · have hspent := renders_spent hst hd hspan
        rw [spanCut, cutSlot, nominalOf_context hc] at hspent
        exact hspent
      · refine renders_gated hst hd hspan fun hgate => ?_
        obtain ⟨hprimed, hclocks, r, hhead, hr⟩ := (startGate_lateDiscard_iff _).1 hgate
        rcases hshut with hfrozen | hunlocked | hnil | ⟨r', hhead', hr'⟩
        · exact absurd (hprimed.symm.trans hfrozen) (by decide)
        · exact hclocks.elim hunlocked.1 hunlocked.2
        · exact absurd (hhead.symm.trans (congrArg List.head? hnil)) (by simp)
        · cases hhead.symm.trans hhead'
          exact not_le.2 hr' hr
      · exact hplays _ _ _ _ (renders_starting hst hpos hc hd hspan hclocks hleft hr hprimed)

end Sys2Proof.Machine
end

section
/-! SUPPORT. An event of a slot, by the class its kind holds: what the offer leaves of the slot and of the report queue (R139 to R145). -/

namespace Sys2Proof.Machine

/-! ## The report queue with room (R141, R142) -/

section
variable {r : Report} {s : State}

theorem queueNote_slots (r : Report) (s : State) : (queueNote r s).slots = s.slots := by
  unfold queueNote
  split <;> rfl

theorem queueFault_slots (r : Report) (s : State) : (queueFault r s).slots = s.slots := by rw [queueFault_parts]

theorem queueNote_of_room (h : s.reports.length < 16) : queueNote r s = joinReport r s := if_pos h

theorem queueFault_of_room (h : s.reports.length < 16) : queueFault r s = joinReport r s := if_pos h

end

/-! ## Offers by class (R139, R143 to R145) -/

/-- What a fault leaves of a slot that is neither CLOSED nor FROZEN: a first one is counted and pending, a second one freezes it. -/
def faulted (v : Slot) : Slot :=
  if v.faultPending then { v with state := .frozen, run := none }
  else { v with faultSequence := v.faultSequence + 1, faultPending := true }

section
variable {s : State} {i : Fin 8} {k : EventKind} {d : Word32}

theorem freezeSlot_of_open (hclosed : (s.slot i).state ≠ .closed) (hfrozen : (s.slot i).state ≠ .frozen) :
    freezeSlot i s = s.setSlot i { s.slot i with state := .frozen, run := none } := by
  unfold freezeSlot
  cases hst : (s.slot i).state with
  | closed => exact absurd hst hclosed
  | frozen => exact absurd hst hfrozen
  | priming | playing | starved | draining => rfl

theorem offerSlot_ignore (h : s.classOf k = .ignore) : offerSlot k i d s = s := by
  simp only [offerSlot, takeOffer, reportOf, h]

theorem offerSlot_note (h : s.classOf k = .note) : offerSlot k i d s = queueNote (reportOf k (some i) d none s) s := by
  simp only [offerSlot, takeOffer, reportOf, h]

/-- The record of a fault carries the sequence that the fault leaves the slot, and the frozen mark of a second one (R143, R144). -/
theorem offerSlot_fault (h : s.classOf k = .fault) (hclosed : (s.slot i).state ≠ .closed) (hfrozen : (s.slot i).state ≠ .frozen) :
    offerSlot k i d s = queueFault { reportOf k (some i) d none s with
        isFault := true, faultSequence := some (faulted (s.slot i)).faultSequence, frozen := (s.slot i).faultPending }
      (s.setSlot i (faulted (s.slot i))) := by
  have htake : offerSlot k i d s = takeFault (reportOf k (some i) d none s) i s := by
    simp only [offerSlot, takeOffer, reportOf, h]
  rw [htake, takeFault, if_neg hclosed, faulted]
  cases hpending : (s.slot i).faultPending with
  | true => simp [secondFault, freezeSlot_of_open hclosed hfrozen, hpending]
  | false => simp [firstFault, reportOf]

/-- An event of a CLOSED slot changes no slot, whatever its class (R145). -/
theorem offerSlot_slots_of_closed (h : (s.slot i).state = .closed) : (offerSlot k i d s).slots = s.slots := by
  cases hcls : s.classOf k with
  | ignore => rw [offerSlot_ignore hcls]
  | note => rw [offerSlot_note hcls, queueNote_slots]
  | fault =>
    have hnote : offerSlot k i d s = queueNote (reportOf k (some i) d none s) s := by
      simp only [offerSlot, takeOffer, reportOf, hcls, takeFault, h, if_true]
    rw [hnote, queueNote_slots]

/-- Of a class other than IGNORE the record joins a queue with room, and takes the lost mark with it (R141 to R144). -/
theorem offerSlot_reports_of_room (h : s.classOf k ≠ .ignore) (hclosed : (s.slot i).state ≠ .closed)
    (hfrozen : (s.slot i).state ≠ .frozen) (hroom : s.reports.length < 16) :
    (offerSlot k i d s).lostMark = false ∧ (offerSlot k i d s).reports = s.reports ++ [{ reportOf k (some i) d none s with
      isFault := decide (s.classOf k = .fault), lost := s.lostMark
      faultSequence := if s.classOf k = .fault then some (faulted (s.slot i)).faultSequence else none
      frozen := decide (s.classOf k = .fault) && (s.slot i).faultPending }] := by
  cases hcls : s.classOf k with
  | ignore => exact absurd hcls h
  | note =>
    rw [offerSlot_note hcls, queueNote_of_room hroom]
    exact ⟨rfl, rfl⟩
  | fault =>
    rw [offerSlot_fault hcls hclosed hfrozen, queueFault_of_room (s := s.setSlot i _) hroom]
    exact ⟨rfl, rfl⟩

end

end Sys2Proof.Machine
end

section
/-! SUPPORT. The rows that move one stream at a strobe: the start, the resumption, the drain, the cuts at the starve and span limits, and
the correction point (R90 to R109). -/

namespace Sys2Proof.Machine

/-! ## Slots as these rows leave them -/

theorem setSlot_slot (s : State) (i : Fin 8) : s.setSlot i (s.slot i) = s := by simp [State.setSlot, State.slot]

section
variable {s : State} {i : Fin 8} {v : Slot} {c : Context} {k : EventKind} {w : Word32}

theorem cutSlot_of_context (h : (s.slot i).context = some c) :
    cutSlot i s = s.setSlot i (primed (s.slot i) (nominalStep c.rate s.output.rate)) := by
  rw [cutSlot, nominalOf_context h]

/-- A slot's new state and its stream, noted for the mix after an event of the slot (R113, log 5). -/
theorem noteState_offerSlot (h : v.context = some c) :
    let t := offerSlot k i w (s.setSlot i v)
    t.noteState i = { t with
      contributions := s.contributions.set i.val {
        state := (t.slot i).state, priority := c.priority, channels := c.channels.count
        values := (s.contributions[i.val]).values } i.isLt } := by
  intro t
  have hcontext : (t.slot i).context = some c := (told_offerSlot k i w s v).context.trans h
  have hcontributions : t.contributions = s.contributions := by
    simp only [t]
    rw [offerOnly_offerSlot, State.setSlot_contributions]
  simp only [State.noteState, State.withContribution, contributionOf, hcontext, hcontributions]

end

/-! ## The span and the start (R90, R95, R96) -/

theorem spanExceeded_iff {o d : Time} : spanExceeded o d = true ↔ 2 ^ 46 ≤ sdiff d o := decide_eq_true_iff

theorem not_spanExceeded {o d : Time} (h : sdiff d o < 2 ^ 46) : spanExceeded o d = false :=
  Bool.eq_false_iff.2 fun hspan => not_le.2 h (spanExceeded_iff.1 hspan)

section
variable {s : State} {i : Fin 8} {c : Context} {o d : Time} {f : Int}

/-- No record wholly late, the late discard does nothing (R90). -/
theorem lateDiscard_of_none_late {due : Int} (h : ∀ r ∈ (s.slot i).queue, due ≤ r.endIndex) : lateDiscard i due s = s := by
  have hpassed : passedRecords (s.slot i).queue due = [] :=
    List.filter_eq_nil_iff.2 fun r hr => by simpa using h r hr
  have hkept : keptRecords (s.slot i).queue due = (s.slot i).queue :=
    List.filter_eq_self.2 fun r hr => by simpa using h r hr
  simp only [lateDiscard, hpassed, hkept, List.map_nil]
  exact setSlot_slot s i

/-- The start gate of a PRIMING stream whose head has come due, the clock in step (R96). -/
theorem startGate_of_due {v : Slot} {h : ChunkRecord} {rest : List ChunkRecord} {due : Int} (hst : v.state = .priming)
    (hclock : s.clock.state = .locked ∨ s.clock.state = .holdover) (hq : v.queue = h :: rest) (hdue : h.start ≤ due) :
    startGate s v due = true := by
  simp [startGate, hst, hclock, hq, hdue]

/-! ## Resuming and draining (R107, R109) -/

theorem resumesNow_of_held {r : ChunkRecord} (hst : (s.slot i).state = .starved) (hf : (s.slot i).readPos = some f)
    (hheld : findIndex (s.slot i).queue (floorF f) = .held r) : resumesNow s i = true :=
  (resumesNow_iff hst hf).2 ((findIndex_held _ (floorF f)).1 (by rw [hheld]))

theorem isBeyond_of_beyond {st : SlotState} (hst : (s.slot i).state = st) (hf : (s.slot i).readPos = some f)
    (hbeyond : findIndex (s.slot i).queue (floorF f) = .beyond) : isBeyond s i st = true :=
  (isBeyond_iff hst hf).2 ((findIndex_beyond _ _).1 hbeyond)

/-- A drained slot is CLOSED, with its fault sequence, for its event finds it so (R39, R109, R145). -/
theorem slot_drainStream (i : Fin 8) (s : State) : (drainStream i s).slot i = Slot.closedWith (s.slot i).faultSequence := by
  obtain ⟨hreleased, -⟩ := alike_releaseSlot i s
  rw [slot_setSlot_same] at hreleased
  rw [drainStream, slot_congr (offerSlot_slots_of_closed (hreleased ▸ rfl)), ← hreleased]

theorem onlySlot_drainStream (i : Fin 8) (s : State) : OnlySlot i s (drainStream i s) :=
  (onlySlot_releaseSlot i s).trans (onlySlot_offerSlot _ _ _ _)

/-! ## The starve limit (R108) -/

theorem starveSpent_iff (hst : (s.slot i).state = .starved) (hc : (s.slot i).context = some c) :
    starveSpent s i = true ↔ starveStrobes c s.output.rate ≤ (s.slot i).starveCount := by
  simp [starveSpent, hst, hc]

/-! ## The span limit (R95, R105) -/

/-- The cut at the span limit, the stream's context at hand (R42, R95, R105). -/
theorem spanCut_of_context (h : (s.slot i).context = some c) :
    spanCut i s = offerSlot .spanLimit i 0 (s.setSlot i (primed (s.slot i) (nominalStep c.rate s.output.rate))) := by
  rw [spanCut, cutSlot_of_context h]

theorem primingSpent_iff (hst : (s.slot i).state = .priming) (hdue : dueOf s i s.localCount = some (c, o, d)) :
    primingSpent s i = true ↔ 2 ^ 46 ≤ sdiff d o := by
  simp only [primingSpent, hst, hdue, decide_true, Bool.true_and, spanExceeded_iff]

theorem not_primingSpent (hst : (s.slot i).state ≠ .priming) : ¬ primingSpent s i = true := by simp [primingSpent, hst]

theorem correctionSpent_iff (howed : correctionOwed s i = true) (hst : (s.slot i).state = .playing)
    (hdue : dueOf s i (nextStrobeCount s) = some (c, o, d)) : correctionSpent s i = true ↔ 2 ^ 46 ≤ sdiff d o := by
  simp only [correctionSpent, howed, hst, hdue, decide_true, Bool.true_and, spanExceeded_iff]

theorem not_correctionSpent (hst : (s.slot i).state ≠ .playing) : ¬ correctionSpent s i = true := by simp [correctionSpent, hst]

/-- A PLAYING stream whose phase has returned to 0 is owed its correction: no starve limit stands before it (R100). -/
theorem correctionOwed_of_playing (hst : (s.slot i).state = .playing) (hdue : (s.slot i).correctionDue = true) :
    correctionOwed s i = true := by
  simp [correctionOwed, starveSpent, hst, hdue]

/-! ## The correction point (R101 to R104) -/

/-- A correction point that does not cut its stream steers it (R101, R105). -/
theorem exec_correctionPoint_steers (hmix : s.mixDue = true) (howed : correctionOwed s i = true) (hf : (s.slot i).readPos = some f)
    (hdue : dueOf s i (nextStrobeCount s) = some (c, o, d)) (hspan : (s.slot i).state = .playing → sdiff d o < 2 ^ 46) :
    exec (.correctionPoint i) s = .next ((steer i c o d f (s.correctionMade i)).noteState i) := by
  have hkept : ¬ correctionSpent s i = true := fun hspent =>
    if hst : (s.slot i).state = .playing then not_le.2 (hspan hst) ((correctionSpent_iff howed hst hdue).1 hspent)
    else not_correctionSpent hst hspent
  have hcorrect : correctSlot i s = steer i c o d f (s.correctionMade i) := by
    simp only [correctSlot, if_neg hkept, hdue, hf]
  rw [← hcorrect]
  exact congrArg Host.Outcome.next (if_pos ⟨hmix, howed⟩)

/-- The event of a realign storm: four realigns held, the oldest within a second (R104). -/
theorem stormEvent_four (w x y z d : Time) :
    stormEvent [w, x, y, z] d = if |sdiff d w| ≤ 24576000 then some (signedWord (sdiff d w)) else none := by
  simp [stormEvent, Config.oneSecond]

theorem stormEvent_of_not_four {history : List Time} (h : ∀ w x y z, history ≠ [w, x, y, z]) (d : Time) :
    stormEvent history d = none := by
  match history with
  | [] | [_] | [_, _] | [_, _, _] | _ :: _ :: _ :: _ :: _ :: _ => simp [stormEvent]
  | [w, x, y, z] => exact absurd rfl (h w x y z)

end

/-! ## The statements -/

/-- Settles O41: no record is late, the gate is open, and the row does the start's work. -/
theorem streamStartsWhenDue : Obligations.StreamStartsWhenDue := by
  intro s i c o d h rest hstrobe hst hclock hdue hspan hpos hqueue hlate hhead f n
  have hdiscard : lateDiscard i (dueIndex c.rate o d) s = s := lateDiscard_of_none_late (hqueue ▸ hlate)
  have hgate : startGate s (s.slot i) (dueIndex c.rate o d) = true := startGate_of_due hst hclock hqueue hhead
  have hstarts : startsNow s i = true := by
    simp only [startsNow, hst, hdue, not_spanExceeded hspan, hdiscard, hgate, decide_true, Bool.not_false, Bool.and_self]
  have hbase : baseOf (s.slot i) = some h.start := by simp only [baseOf, hpos, hqueue, List.head?_cons, Option.map_some]
  have hwork : primingWork i s = startStream i c (duePosition c.rate o d) s := by
    rw [← moveSlot_priming hst, moveSlot_unspent hst hdue hspan, primeOn, hdiscard]
    exact if_pos hgate
  calc exec (.streamStarted i) s
    _ = .next (primingWork i s).openPass := congrArg Host.Outcome.next (if_pos ⟨hstrobe, hstarts⟩)
    _ = .next (startStream i c (duePosition c.rate o d) s).openPass := by rw [hwork]
    _ = _ := by simp only [startStream, hbase, hqueue]; rfl

/-- Settles O42: each row's condition is what its stream's state and the queue's finding say. -/
theorem starvedResumesDrainedCloses : Obligations.StarvedResumesDrainedCloses := by
  intro s i f hstrobe hf
  refine ⟨fun r hst hheld => ?resumes, fun hst hbeyond => ?drains⟩
  case resumes => exact congrArg Host.Outcome.next (if_pos ⟨hstrobe, resumesNow_of_held hst hf hheld⟩)
  case drains =>
    have hexec : exec (.streamDrained i) s = .next (drainStream i s).openPass :=
      congrArg Host.Outcome.next (if_pos ⟨hstrobe, isBeyond_of_beyond hst hf hbeyond⟩)
    obtain ⟨hothers, -, hmemory, -⟩ := onlySlot_drainStream i s
    refine ⟨⟨_, hexec, slot_drainStream i s, hothers, hmemory⟩, fun c hc => ?_⟩
    rw [hexec, drainStream, releaseSlot_of_context hc, hf]
    rfl

/-- Settles O43: the row at the limit and short of it, and then the event by its class, the cut slot being PRIMING. -/
theorem starveLimitCuts : Obligations.StarveLimitCuts := by
  intro s i c hmix hst hc v limit cut t cls
  have hcut : cutSlot i s = s.setSlot i cut := cutSlot_of_context hc
  have hslot : (s.setSlot i cut).slot i = cut := slot_setSlot_same s i cut
  have hclosed : ((s.setSlot i cut).slot i).state ≠ .closed := by rw [hslot]; exact SlotState.noConfusion
  have hfrozen : ((s.setSlot i cut).slot i).state ≠ .frozen := by rw [hslot]; exact SlotState.noConfusion
  have hsequence : (faulted cut).faultSequence = if v.faultPending = true then v.faultSequence else v.faultSequence + 1 := by
    rw [faulted]
    split <;> rfl
  refine ⟨fun hshort => ?short, fun hlimit => ?limit, fun hcls => offerSlot_ignore hcls, fun hcls => ?note, fun hcls => ?fault,
    fun hcls hroom => ?joins⟩
  case short =>
    have hleft : ¬ starveSpent s i = true := fun hspent => not_le.2 hshort ((starveSpent_iff hst hc).1 hspent)
    exact congrArg Host.Outcome.next (if_neg fun ⟨_, hspent⟩ => hleft hspent)
  case limit =>
    have hspent : starveSpent s i = true := (starveSpent_iff hst hc).2 hlimit
    have hexec : exec (.starveLimit i) s = .next ((starveCut i s).noteState i) := congrArg Host.Outcome.next (if_pos ⟨hmix, hspent⟩)
    rw [hexec, starveCut, hcut]
    exact congrArg Host.Outcome.next (noteState_offerSlot hc)
  case note => exact (congrArg State.slots (offerSlot_note (s := s.setSlot i cut) hcls)).trans (queueNote_slots _ _)
  case fault =>
    refine (congrArg State.slots (offerSlot_fault (s := s.setSlot i cut) hcls hclosed hfrozen)).trans ((queueFault_slots _ _).trans ?_)
    rw [hslot, setSlot_setSlot]
    rfl
  case joins =>
    obtain ⟨hmark, hreports⟩ := offerSlot_reports_of_room (s := s.setSlot i cut) (d := natWord v.starveCount) hcls hclosed hfrozen hroom
    refine ⟨hmark, hreports.trans ?_⟩
    rw [hslot, hsequence]
    rfl

/-- Settles O44: the error on either side of the resync limit; a realign tells its storm by the four times held. -/
theorem correctionSlewsStep : Obligations.CorrectionSlewsStep := by
  intro s i c o d f hmix howed hf hdue hspan v p err n clock
  have hexec := exec_correctionPoint_steers hmix howed hf hdue hspan
  have hslot : (s.correctionMade i).slot i = { v with correctionDue := false } := slot_setSlot_same _ _ _
  refine ⟨fun hwithin => ?slews, fun hbeyond => ?realigns⟩
  case slews =>
    have hsteer : steer i c o d f (s.correctionMade i) =
        s.setSlot i { v with correctionDue := false, step := n + clockTerm n s.clock.epsilon + slewOf n err } := by
      refine (if_neg (not_lt.2 hwithin)).trans ?_
      rw [hslot]
      exact setSlot_setSlot _ _ _ _
    rw [hsteer] at hexec
    exact ⟨_, hexec, slot_setSlot_same _ _ _, fun j hj => slot_setSlot_of_ne _ _ _ _ hj, rfl, rfl⟩
  case realigns =>
    intro realigned after
    have hfirst : steer i c o d f (s.correctionMade i) =
        (stormEvent v.realigns d).elim realigned fun w => offerSlot .realignStorm i w realigned := by
      refine (if_pos hbeyond).trans ?_
      rw [realignStream, hslot, State.correctionMade, setSlot_setSlot]
      cases stormEvent v.realigns d <;> rfl
    have hafter : steer i c o d f (s.correctionMade i) = after := by
      rw [hfirst]
      simp only [after]
      split
      · next w x y z h =>
        rw [h, stormEvent_four]
        split <;> rfl
      · next h => rw [stormEvent_of_not_four h, Option.elim_none]
    rw [hafter] at hexec
    exact ⟨_, hexec, rfl⟩

/-- Settles O45: of the row's two conditions the slot's state leaves one, and that one is the span. -/
theorem spanLimitCuts : Obligations.SpanLimitCuts := by
  intro s i c o d cut t
  refine ⟨fun hstrobe hst hdue => ?priming, fun hmix hst howed hdue => ?playing⟩
  case priming =>
    have hspent := primingSpent_iff hst hdue
    have hc : (s.slot i).context = some c := dueOf_context hdue
    refine ⟨fun hspan => ?_, fun hspan => ?_⟩
    · have hexec : exec (.spanLimit i) s = .next (spanCut i s).openPass :=
        congrArg Host.Outcome.next (if_pos ⟨hstrobe, hspent.2 hspan⟩)
      rw [hexec, spanCut_of_context hc]
      rfl
    · refine congrArg Host.Outcome.next ((if_neg fun ⟨_, h⟩ => not_le.2 hspan (hspent.1 h)).trans (if_neg fun ⟨_, h⟩ => ?_))
      exact not_correctionSpent (by simp [hst]) h
  case playing =>
    have hnot : ¬ (s.strobeDue = true ∧ primingSpent s i = true) := fun ⟨_, h⟩ => not_primingSpent (by simp [hst]) h
    have hspent := correctionSpent_iff (correctionOwed_of_playing hst howed) hst hdue
    have hc : (s.slot i).context = some c := dueOf_context hdue
    refine ⟨fun hspan => ?_, fun hspan => ?_⟩
    · have hexec : exec (.spanLimit i) s = .next ((spanCut i s).noteState i) :=
        congrArg Host.Outcome.next ((if_neg hnot).trans (if_pos ⟨hmix, hspent.2 hspan⟩))
      rw [hexec, spanCut_of_context hc]
      exact congrArg Host.Outcome.next (noteState_offerSlot hc)
    · exact congrArg Host.Outcome.next ((if_neg hnot).trans (if_neg fun ⟨_, h⟩ => not_le.2 hspan (hspent.1 h)))

end Sys2Proof.Machine
end

section
/-! SUPPORT. The records of the Lane Mixer and the Output Port, and the end of a preset read: what each owner answers, by its arguments
in range and by the state of the Image Port (R112 to R117, R121, R134, R135, R165, R166). -/

namespace Sys2Proof.Machine

/-! ## The duck gains and levels (R120, R121, R127) -/

/-- Settles O8: gains move in the mix alone, where `moveGain_le` and `duckTarget_le` hold them, and levels change in DUCK-SET and in a
DUCK cue, both read in range; `step_keeps` gathers them. -/
theorem stepsKeepLaneRanges : Obligations.StepsKeepLaneRanges := by
  intro s t hlanes hstep
  obtain ⟨rest, keeps⟩ := step_keeps hstep
  exact keeps.lanes hlanes

/-! ## Operands read back (R168) -/

/-- A number below 2^32 reads back from its word. -/
theorem toNat_natWord {n : Nat} (h : n < 2 ^ 32) : (natWord n).toNat = n := by
  rw [natWord, BitVec.toNat_ofNat, Nat.mod_eq_of_lt h]

/-- An output rate's code reads back. -/
theorem outputRateOfCode_code (r : OutputRate) : outputRateOfCode (natWord r.code).toNat = some r := by cases r <;> rfl

/-- Output settings in range read back from an OUTPUT-SET's words (R111). -/
theorem outputSettingsOf_words {x : OutputSettings} (hko : x.ko ≤ 245760) (hrt : 2458 ≤ x.rt ∧ x.rt ≤ 983040) :
    outputSettingsOf (natWord x.rate.code) (natWord x.ko) (natWord x.rt) = some x := by
  have hkoWord : (natWord x.ko).toNat = x.ko := toNat_natWord (by omega)
  have hrtWord : (natWord x.rt).toNat = x.rt := toNat_natWord (by omega)
  simp only [outputSettingsOf, outputRateOfCode_code, hkoWord, hrtWord, natIn_of_le (Nat.zero_le _) hko, natIn_of_le hrt.1 hrt.2]

/-! ## ROUTE-PUT and ROUTE-DROP (R115, R116) -/

section
variable {s : State} {e : Fin 16} {r : Route}

/-- The second check of R115: the stream open in the slot, if any, has the channel. -/
theorem channelBeyond_eq_false_iff : channelBeyond s r = false ↔
    ∀ c, (s.slot r.slot).state ≠ .closed → (s.slot r.slot).context = some c → r.channel.val < c.channels.count := by
  unfold channelBeyond
  split
  · next hclosed => simp [hclosed]
  · next hnone _ => simp [hnone]
  · next c hc hopen => simp [hc, show (s.slot r.slot).state ≠ .closed from hopen]

/-- The third check of R115: another entry has the slot, channel and lane. -/
theorem routeTaken_iff : routeTaken s e r = true ↔
    ∃ x : Fin 16, x ≠ e ∧ ∃ q, s.routes[x.val] = some q ∧ q.slot = r.slot ∧ q.channel = r.channel ∧ q.lane = r.lane := by
  simp only [routeTaken, List.any_eq_true, List.mem_finRange, true_and, Bool.and_eq_true, decide_eq_true_eq]
  refine exists_congr fun x => and_congr_right fun _ => ?_
  cases s.routes[x.val] <;> simp

/-- ROUTE-PUT of an entry in range: its checks from the second on, in order, then the writing (R115). -/
theorem routePutOwner_inRange (s : State) (e : Fin 16) (r : Route) :
    routePutOwner (BitVec.ofNat 16 e.val) (routeWord (some r)) s =
      if channelBeyond s r then (s, refusal .badarg)
      else if routeTaken s e r then (s, refusal .duplicate)
      else (s.setRoute e (some r), done [routeWord s.routes[e.val]]) := by
  simp only [routePutOwner, indexBelow_sixteen, routeOfWord_routeWord]

/-- ROUTE-DROP of an unused entry (R116). -/
theorem routeDropOwner_unused (h : s.routes[e.val] = none) :
    routeDropOwner (BitVec.ofNat 16 e.val) s = (s, refusal .notfound) := by
  simp only [routeDropOwner, indexBelow_sixteen, h]

/-- ROUTE-DROP of a used one (R116). -/
theorem routeDropOwner_used (h : s.routes[e.val] = some r) :
    routeDropOwner (BitVec.ofNat 16 e.val) s = (s.setRoute e none, done [routeWord (some r)]) := by
  simp only [routeDropOwner, indexBelow_sixteen, h]

end

/-- Settles O46: ROUTE-PUT stops at the first check that refuses, and ROUTE-DROP goes by what its entry holds. -/
theorem routePutAndDropEditEntries : Obligations.RoutePutAndDropEditEntries := by
  intro s e
  refine ⟨fun r ht => ?put, fun ht => ⟨fun h => exec_taken ht (routeDropOwner_unused h), fun r h => exec_taken ht (routeDropOwner_used h)⟩⟩
  intro channelFits alike
  have hput := routePutOwner_inRange s e r
  have hbeyond : channelBeyond s r = false ↔ channelFits := channelBeyond_eq_false_iff
  have htaken : routeTaken s e r = true ↔ alike := routeTaken_iff
  refine ⟨fun hfits => ?badarg, fun hfits halike => ?duplicate, fun hfits halike => ?writes⟩ <;> refine exec_taken ht (hput.trans ?_)
  case badarg => rw [if_pos (by_contra fun h => hfits (hbeyond.1 (Bool.eq_false_iff.2 h)))]
  case duplicate => rw [if_neg (by simp [hbeyond.2 hfits]), if_pos (htaken.2 halike)]
  case writes => rw [if_neg (by simp [hbeyond.2 hfits]), if_neg (htaken.not.2 halike)]; rfl

/-! ## DUCK-SET and OUTPUT-SET (R112, R121) -/

/-- Settles O48: lane and level read back. -/
theorem duckSetReplacesLevel : Obligations.DuckSetReplacesLevel := by
  intro s l v hv ht
  have hword : (natWord v).toNat = v := toNat_natWord (by omega)
  refine exec_taken (owner := duckSetOwner _ _) ht ?_
  simp only [duckSetOwner, indexBelow_four, hword, natIn_of_le (Nat.zero_le v) hv, setDuckLevel]

/-- OUTPUT-SET of settings in range: a change of rate with a slot open is refused (R112). -/
theorem outputSetOwner_inRange {x : OutputSettings} (hko : x.ko ≤ 245760) (hrt : 2458 ≤ x.rt ∧ x.rt ≤ 983040) (s : State) :
    outputSetOwner (natWord x.rate.code) (natWord x.ko) (natWord x.rt) s =
      if x.rate ≠ s.output.rate ∧ s.allClosed = false then (s, refusal .state)
      else (setOutput x s, done [natWord s.output.rate.code, natWord s.output.ko, natWord s.output.rt]) := by
  simp only [outputSetOwner, outputSettingsOf_words hko hrt]

/-- Settles O49: the settings read back, and what is refused is a change of rate while a slot is open. -/
theorem outputSetReplacesSettings : Obligations.OutputSetReplacesSettings := by
  intro s x hko hrt i ht
  have hset := outputSetOwner_inRange hko hrt s
  refine ⟨fun hfree => ?taken, fun hrate ⟨j, hopen⟩ => ?refused⟩ <;> refine exec_taken ht (hset.trans ?_)
  case taken =>
    have hallowed : ¬ (x.rate ≠ s.output.rate ∧ s.allClosed = false) := by
      rintro ⟨hrate, hopen⟩
      rcases hfree with hsame | hclosed
      · exact hrate hsame
      · rw [(allClosed_iff s).2 hclosed] at hopen
        cases hopen
    exact if_neg hallowed
  case refused =>
    have hnot : s.allClosed = false := Bool.eq_false_iff.2 fun h => hopen ((allClosed_iff s).1 h j)
    exact if_pos ⟨hrate, hnot⟩

/-! ## ROUTE-RECALL (R117, R165, R166) -/

/-- The Image Port takes no read but in IDLE and WRITING (R165, R166). -/
theorem requestRead_busy {r : PresetRead} {s : State} (hidle : s.port ≠ .idle) (hwriting : ∀ w, s.port ≠ .writing w) :
    requestRead r s = none := by
  unfold requestRead
  split
  · next h => exact absurd h hidle
  · next w h => exact absurd h (hwriting w)
  all_goals rfl

/-- ROUTE-RECALL of a preset there is: ACCEPTED where the Image Port takes the read, else BUSY (R117). -/
theorem routeRecallOwner_preset (p : Fin 8) (s : State) :
    routeRecallOwner (BitVec.ofNat 16 p.val) s =
      (requestRead { preset := p, dest := .live } s).elim (s, busyAnswer) fun t => (t, acceptedWith []) := by
  simp only [routeRecallOwner, indexBelow_eight]
  cases requestRead { preset := p, dest := .live } s <;> rfl

/-- Settles O47: by whether the Image Port takes the read. -/
theorem routeRecallBeginsRead : Obligations.RouteRecallBeginsRead := by
  intro s p i read begun ht
  have hrecall := routeRecallOwner_preset p s
  have begins : ∀ port, requestRead read s = some (s.withPort port [.statusPoll]) → exec i s = .next (begun port) :=
    fun port hread => exec_taken (t := s.withPort port [.statusPoll]) ht (hrecall.trans (by rw [hread]; rfl))
  refine ⟨fun hidle => begins _ ?_, fun w hw => begins _ ?_, fun hidle hwriting => exec_taken ht (hrecall.trans ?_)⟩
  · simp only [requestRead, hidle]
  · simp only [requestRead, hw]
  · rw [requestRead_busy hidle hwriting]; rfl

/-! ## The end of a preset read (R117, R134, R135, R165, R166) -/

/-- A good preset given to its requester (R117, R134). -/
theorem readEnd_good (p : Fin 8) (d : ReadDest) (t : RouteTable) (s : State) :
    readEnd { preset := p, dest := d } (.good t) s =
      match d with
      | .live => { s with routes := t }
      | .staged => { s with staged := if s.staged = .filling then .ready t else s.staged } := by
  cases d
  · rfl
  · cases hs : s.staged <;> simp only [readEnd, stagedReadEnd, hs, reduceCtorEq, if_true, if_false] <;> rw [← hs]

/-- A bad preset given to its requester: a RECALL whose staged table is FILLING leaves the cue table (R117, R135). -/
theorem readEnd_bad (p : Fin 8) (d : ReadDest) (c : Cause) (s : State) :
    readEnd { preset := p, dest := d } (.bad c) s =
      if d = .staged ∧ s.staged = .filling then { s with staged := .free, cues := s.cues.filter (fun c => !c.isRecall) } else s := by
  cases d
  · rfl
  · cases hs : s.staged <;> simp only [readEnd, stagedReadEnd, hs, reduceCtorEq, true_and, if_true, if_false]

/-- Neither the requester's part in a preset read's end nor its event takes local time. -/
theorem readEvent_readEnd_localCount (r : PresetRead) (o : PresetOutcome) (s : State) :
    (readEvent r o (readEnd r o s)).localCount = s.localCount := by
  have hend : (readEnd r o s).localCount = s.localCount := by
    unfold readEnd liveReadEnd stagedReadEnd
    repeat' split
    all_goals rfl
  unfold readEvent
  split <;> rw [offerOnly_offerPart] <;> exact hend

/-- The write beneath a read going on, as one change of the Image Port (R166). -/
theorem resumeWrite_eq (w : SectorWrite) (el : Int) (issued : Bool) (s : State) :
    resumeWrite w el issued s = { s with
      port := .writing { w with since := if issued then s.localCount else addSpan s.localCount (-el) }
      flashOut := if issued then [.resume, .statusPoll] else if w.step = .readBack then [] else [.statusPoll] } := by
  cases issued <;> rfl

/-- Settles O18: the outcome goes to its requester and its event is offered; from SUSPENDED the write goes on, at the count it had. -/
theorem recallReadReplacesRoutes : Obligations.RecallReadReplacesRoutes := by
  intro s ws p d r detail given spared
  have hgood : ∀ t x, readEvent r (.good t) (readEnd r (.good t) x) = offerPart .flashDone (detail 0) (given t x) :=
    fun t x => congrArg (offerPart .flashDone (detail 0)) (readEnd_good p d t x)
  have hbad : ∀ c x, readEvent r (.bad c) (readEnd r (.bad c) x) = offerPart .flashFailed (detail c.code) (spared x) :=
    fun c x => congrArg (offerPart .flashFailed (detail c.code)) (readEnd_bad p d c x)
  refine ⟨fun hp => ?reading, fun w el issued hp => ?suspended⟩
  case reading =>
    have hexec : ∀ o, judgePreset ws = o →
        exec (.presetReadEnd ws) s = .next (readEvent r o (readEnd r o { s with port := .idle })) := by
      rintro o rfl
      show execPresetReadEnd ws s = _
      simp only [execPresetReadEnd, hp]
      rfl
    exact ⟨fun t ht => by rw [hexec _ ht, hgood], fun c hc => by rw [hexec _ hc, hbad]⟩
  case suspended =>
    intro goesOn
    have hexec : ∀ o, judgePreset ws = o → exec (.presetReadEnd ws) s = .next (goesOn (readEvent r o (readEnd r o s))) := by
      rintro o rfl
      show execPresetReadEnd ws s = _
      simp only [execPresetReadEnd, hp, resumeWrite_eq, readEvent_readEnd_localCount, goesOn]
    exact ⟨fun t ht => by rw [hexec _ ht, hgood], fun c hc => by rw [hexec _ hc, hbad]⟩

end Sys2Proof.Machine
end

section
/-! SUPPORT. The mix of a strobe: what it reads of the owed work's end, the live entries of a lane, and the lane's ceiling, duck target
and value (R118 to R123). -/

namespace Sys2Proof.Machine

/-! ## What the work still owed leaves the mix (R100, R113) -/

/-- The cuts at the span and starve limits and a realign write their slot and offer events (R95, R103, R105, R108). -/
theorem offerOnly_spanCut (i : Fin 8) (s : State) : OfferOnly s (spanCut i s) :=
  (offerOnly_setSlot s i _).trans (offerOnly_offerSlot _ _ _ _)

theorem offerOnly_starveCut (i : Fin 8) (s : State) : OfferOnly s (starveCut i s) :=
  (offerOnly_setSlot s i _).trans (offerOnly_offerSlot _ _ _ _)

theorem offerOnly_realignStream (i : Fin 8) (c : Context) (d : Time) (p e : Int) (s : State) :
    OfferOnly s (realignStream i c d p e s) := by
  have realigned := fun v => (offerOnly_setSlot s i v).trans (offerOnly_offerSlot .realign i (clamp32 e) _)
  unfold realignStream
  dsimp only
  split
  · exact realigned _
  · exact (realigned _).trans (offerOnly_offerSlot _ _ _ _)

/-- A correction point works on its slot and offers events (R101 to R105). -/
theorem offerOnly_correctSlot (i : Fin 8) (s : State) : OfferOnly s (correctSlot i s) := by
  have made : OfferOnly s (s.correctionMade i) := offerOnly_setSlot s i _
  unfold correctSlot steer
  split
  · exact offerOnly_spanCut i s
  · split
    · dsimp only
      split
      · exact made.trans (offerOnly_realignStream _ _ _ _ _ _)
      · exact made.trans (offerOnly_setSlot _ _ _)
    · exact made

/-- An offer leaves the route table alone. -/
theorem OfferOnly.routes {s t : State} (h : OfferOnly s t) : t.routes = s.routes := by rw [h]

/-- What is owed to a slot after its advance leaves the route table alone. -/
theorem settleSlot_routes (i : Fin 8) (s : State) : (settleSlot i s).routes = s.routes := by
  have hnoted : ∀ t : State, (t.noteState i).routes = t.routes := fun _ => rfl
  have hstarve : (starveCut i s).routes = s.routes := (offerOnly_starveCut i s).routes
  have hcorrect : ∀ t, (correctSlot i t).routes = t.routes := fun t => (offerOnly_correctSlot i t).routes
  unfold settleSlot
  dsimp only
  split <;> split <;> simp only [hnoted, hcorrect, hstarve]

/-- So it does for every slot. -/
theorem settleAll_routes (s : State) : (settleAll s).routes = s.routes := by
  unfold settleAll
  generalize List.finRange 8 = slots
  induction slots generalizing s with
  | nil => rfl
  | cons i rest ih => exact (ih _).trans (settleSlot_routes i s)

/-! ## Live entries and priorities (R118, R119) -/

/-- The live entries of a lane as a choice among the used ones (R118). -/
theorem liveRoutes_eq (s : State) (l : Fin 4) :
    liveRoutes s l = s.routes.toList.filterMap fun e => e.filter fun r =>
      decide (r.lane = l ∧ (s.contributions[r.slot.val]).state ≠ .closed ∧ r.channel.val < (s.contributions[r.slot.val]).channels) := by
  refine List.filterMap_congr fun e _ => ?_
  cases e with
  | none => rfl
  | some r => simp [isLive, Option.filter]

/-- A live entry's slot is not CLOSED (R118). -/
theorem state_ne_closed_of_live {s : State} {l : Fin 4} {r : Route} (h : r ∈ liveRoutes s l) :
    (s.contributions[r.slot.val]).state ≠ .closed := by
  rw [liveRoutes_eq, List.mem_filterMap] at h
  obtain ⟨e, -, he⟩ := h
  rw [Option.filter_eq_some_iff] at he
  exact (of_decide_eq_true he.2).2.1

/-- Streams of every state but CLOSED and FROZEN can be ducked (R118). -/
theorem duckable_iff (x : SlotState) : x.duckable = true ↔ x ≠ .closed ∧ x ≠ .frozen := by cases x <;> simp [SlotState.duckable]

/-- The model's greatest priority is the list's maximum. -/
theorem highest_eq_max? (ps : List (Fin 4)) : highest ps = ps.max? := by
  induction ps with
  | nil => rfl
  | cons p ps ih =>
    rw [highest, ih, List.max?_cons]
    cases ps.max? <;> rfl

/-- The lane priority, the greatest among the PLAYING live entries' (R119). -/
theorem lanePriority_eq (s : State) (l : Fin 4) :
    lanePriority s l = (((liveRoutes s l).filter fun r => decide ((s.contributions[r.slot.val]).state = .playing)).map
      fun r => (s.contributions[r.slot.val]).priority).max? := by
  rw [lanePriority, highest_eq_max?, ← List.filterMap_eq_map', List.filterMap_filter]
  simp only [decide_eq_true_eq]

/-! ## Ducking (R119, R120) -/

/-- A stream lies below the ceiling, where there is one (R119, R122). -/
def belowCeiling (s : State) (ceiling : Option (Fin 4)) (r : Route) : Bool :=
  ceiling.any fun p => decide ((s.contributions[r.slot.val]).priority < p)

/-- The duck target: the lane's level where the lane priority is the ceiling and a live entry's stream that is not FROZEN lies below
it (R119). -/
theorem duckTarget_eq (s : State) (l : Fin 4) :
    duckTarget s l =
      if lanePriority s l = ceilingNow s l ∧
          ∃ r ∈ liveRoutes s l, (s.contributions[r.slot.val]).state ≠ .frozen ∧ belowCeiling s (ceilingNow s l) r = true then
        (s.lanes[l.val]).level
      else 16384 := by
  unfold duckTarget
  by_cases hp : lanePriority s l = ceilingNow s l
  · rw [if_pos hp]
    cases hc : ceilingNow s l with
    | none => simp [belowCeiling]
    | some p =>
      have hlower : hasLower s l p = true ↔
          ∃ r ∈ liveRoutes s l, (s.contributions[r.slot.val]).state ≠ .frozen ∧ belowCeiling s (some p) r = true := by
        simp only [hasLower, List.any_eq_true, Bool.and_eq_true, duckable_iff, belowCeiling, Option.any_some]
        exact exists_congr fun r => and_congr_right fun hr => by
          simp [state_ne_closed_of_live hr]
      simp only [hp.trans hc, true_and, hlower]
  · rw [if_neg hp, if_neg fun h => hp h.1]

/-- The duck gain moves by at most 16 (R120). -/
theorem moveGain_near (gain target : Nat) : moveGain gain target ≤ gain + 16 ∧ gain ≤ moveGain gain target + 16 := by
  unfold moveGain
  split
  · omega
  · split <;> omega

/-! ## The mix (R122, R123) -/

/-- An entry's contribution, as one choice between a stream below the ceiling and another (R122). -/
theorem contributionValue_eq (s : State) (ceiling : Option (Fin 4)) (gain : Nat) (r : Route) :
    contributionValue s ceiling gain r = (s.contributions[r.slot.val]).values.map fun vs =>
      let v := scaleBy (vs.getD r.channel.val 0) r.gain.toNat
      if belowCeiling s ceiling r = true then scaleBy v gain else v := by
  unfold contributionValue
  cases (s.contributions[r.slot.val]).values with
  | none => rfl
  | some vs =>
    cases ceiling with
    | none => rfl
    | some p => simp only [belowCeiling, Option.any_some, decide_eq_true_eq, Option.map_some, apply_ite some]

@[simp] theorem mixLanes_mixDue (s : State) : (mixLanes s).mixDue = false := rfl

@[simp] theorem mixLanes_memory (s : State) : (mixLanes s).memory = s.memory := rfl

/-- Each lane is mixed by itself (R122). -/
theorem mixLanes_lane (s : State) (l : Fin 4) : (mixLanes s).lanes[l.val] = mixedLane s l := by fin_cases l <;> rfl

/-- Settles O40: what is still owed leaves routes and lanes alone, and each part of a lane is the mix's own by its lemma. -/
theorem mixFormsLaneValues : Obligations.MixFormsLaneValues := by
  intro s hlocated hmix
  have hexec : exec (.sampleStrobe .mix) s = .next (mixLanes (settleAll s)) := by
    show execSampleStrobe .mix s = _
    rw [execSampleStrobe, if_pos hlocated]
    exact congrArg Host.Outcome.next (if_pos hmix)
  obtain ⟨hlanes, hmemory⟩ := settleAll_frame s
  have hroutes := settleAll_routes s
  refine ⟨_, hexec, mixLanes_mixDue _, (mixLanes_memory _).trans hmemory, fun l => ?_⟩
  generalize settleAll s = settled at hlanes hroutes ⊢
  intro handed live priority old new ceiling below target gain sum
  have hold : settled.lanes[l.val] = old := by simp only [hlanes, old]
  have hnew : new = mixedLane settled l := mixLanes_lane settled l
  have hlive : liveRoutes settled l = live := by rw [liveRoutes_eq, hroutes]
  have hpriority : lanePriority settled l = priority := by rw [lanePriority_eq, hlive]
  have hceiling : ceilingNow settled l = ceiling := by rw [ceilingNow, hold, hpriority]
  have htarget : duckTarget settled l = target := by rw [duckTarget_eq, hpriority, hceiling, hlive, hold]; rfl
  have hgain : moveGain old.gain target = gain := rfl
  have hvalue : laneValue settled l ceiling gain = max (-8388608) (min 8388607 sum) := by
    rw [laneValue, hlive]
    simp only [contributionValue_eq]
    rfl
  rw [hnew]
  simp only [mixedLane, hold, hceiling, htarget, hgain, hvalue, true_and]
  exact moveGain_near old.gain target

end Sys2Proof.Machine
end

section
/-! SUPPORT. The Cue Unit: CUE-ADD by its checks and the table's order, CUE-CANCEL, and the firing of a strobe's pass (R125 to R134). -/

namespace Sys2Proof.Machine

/-! ## The table by id and by time (R125) -/

/-- The entry of an id that one entry alone has. -/
theorem find_id_unique {cues : List Cue} {c : Cue} {id : BitVec 8} (hc : c ∈ cues) (hid : c.id = id)
    (hone : ∀ d ∈ cues, d.id = id → d = c) : cues.find? (fun d => decide (d.id = id)) = some c := by
  cases hfind : cues.find? fun d => decide (d.id = id) with
  | none => exact absurd (decide_eq_true hid) (List.find?_eq_none.1 hfind c hc)
  | some d =>
    have hd : d.id = id := by simpa using List.find?_some hfind
    rw [hone d (List.mem_of_find?_eq_some hfind) hd]

/-- Times near one instant differ by the difference of their distances to it (R2). -/
theorem sdiff_of_near {a t u : Time} (ht : |sdiff t a| ≤ 2 ^ 45) (hu : |sdiff u a| ≤ 2 ^ 45) :
    sdiff t u = sdiff t a - sdiff u a := by
  have hsub : sdiff t u = (sdiff t a - sdiff u a).bmod (2 ^ 48) := by
    rw [sdiff, ← sub_sub_sub_cancel_right t u a, BitVec.toInt_sub]
    rfl
  obtain ⟨ht1, ht2⟩ := abs_le.1 ht
  obtain ⟨hu1, hu2⟩ := abs_le.1 hu
  rw [hsub]
  exact Int.bmod_eq_of_le (by omega) (by omega)

theorem timesNear_subset {l m : List Cue} (hsub : l ⊆ m) (h : timesNear m) : timesNear l :=
  h.imp fun _ near c hc => near c (hsub hc)

/-- Near one instant, a front later than a time has only later entries after it. -/
theorem later_of_head_later {x : Cue} {after : List Cue} (hnear : timesNear (x :: after))
    (hord : after.Pairwise fun c d => sdiff c.fireTime d.fireTime ≤ 0)
    (hhead : ∀ c, after.head? = some c → 0 < sdiff c.fireTime x.fireTime) : ∀ c ∈ after, 0 < sdiff c.fireTime x.fireTime := by
  cases after with
  | nil => simp
  | cons h rest =>
    have hfront := hhead h rfl
    intro c hc
    obtain rfl | hrest := List.mem_cons.1 hc
    · exact hfront
    · obtain ⟨a, near⟩ := hnear
      have hxa := near x (by simp)
      have hha := near h (by simp)
      have hca := near c (by simp [hrest])
      have hle := List.rel_of_pairwise_cons hord hrest
      rw [sdiff_of_near hha hxa] at hfront
      rw [sdiff_of_near hha hca] at hle
      rw [sdiff_of_near hca hxa]
      omega

/-- An entry put between those at or before its time and those after it keeps an ordered table of near times ordered (R125). -/
theorem ordered_insert {x : Cue} {before after : List Cue} (hnear : timesNear (x :: (before ++ after)))
    (hord : (before ++ after).Pairwise fun c d => sdiff c.fireTime d.fireTime ≤ 0)
    (hbefore : ∀ c ∈ before, sdiff c.fireTime x.fireTime ≤ 0) (hafter : ∀ c ∈ after, 0 < sdiff c.fireTime x.fireTime) :
    (before ++ x :: after).Pairwise fun c d => sdiff c.fireTime d.fireTime ≤ 0 := by
  obtain ⟨hb, ha, hba⟩ := List.pairwise_append.1 hord
  obtain ⟨a, near⟩ := hnear
  have hx : ∀ c ∈ after, sdiff x.fireTime c.fireTime ≤ 0 := by
    intro c hc
    have hxa := near x (by simp)
    have hca := near c (by simp [hc])
    have hlater := hafter c hc
    rw [sdiff_of_near hca hxa] at hlater
    rw [sdiff_of_near hxa hca]
    omega
  refine List.pairwise_append.2 ⟨hb, List.pairwise_cons.2 ⟨hx, ha⟩, fun c hc d hd => ?_⟩
  obtain rfl | hd := List.mem_cons.1 hd
  · exact hbefore c hc
  · exact hba c hc d hd

/-! ## CUE-ADD (R132, R134) -/

/-- The action, target and argument of a CUE-ADD that reads as `act`; `u` and `w` stand in the fields that the action leaves unused. -/
def cueFields (u : BitVec 8) (w : BitVec 16) : CueAction → BitVec 8 × BitVec 8 × BitVec 16
  | .cut i => (1, BitVec.ofNat 8 i.val, w)
  | .ending i => (2, BitVec.ofNat 8 i.val, w)
  | .gain e g => (3, BitVec.ofNat 8 e.val, g)
  | .duck l v => (4, BitVec.ofNat 8 l.val, BitVec.ofNat 16 v)
  | .recall p => (5, u, BitVec.ofNat 16 p.val)
  | .mute b => (6, u, if b then 1 else 0)
  | .mark m => (7, u, match m with | .low => 0 | .high => 1 | .toggle => 2)

/-- An index of `k` at most 256 reads back from a target byte. -/
theorem indexBelow_target {k : Nat} (hk : k ≤ 256) (i : Fin k) : indexBelow k (BitVec.ofNat 8 i.val).toNat = some i := by
  have hi : (BitVec.ofNat 8 i.val).toNat = i.val := by rw [BitVec.toNat_ofNat]; omega
  rw [hi]
  exact dif_pos i.isLt

/-- Every action whose level is in range reads back from its fields (R132, R169). -/
theorem cueActionOf_cueFields (u : BitVec 8) (w : BitVec 16) {act : CueAction} (hlevel : ∀ l v, act = .duck l v → v ≤ 16384) :
    cueActionOf (cueFields u w act).1 (cueFields u w act).2.1 (cueFields u w act).2.2 = some act := by
  match act, hlevel with
  | .cut i, _ | .ending i, _ => exact congrArg (Option.map _) (indexBelow_target (by omega) i)
  | .gain e g, _ => exact congrArg (Option.map _) (indexBelow_target (by omega) e)
  | .duck l v, hlevel =>
    have hv : v ≤ 16384 := hlevel l v rfl
    have hword : (BitVec.ofNat 16 v).toNat = v := by rw [BitVec.toNat_ofNat]; omega
    show (match indexBelow 4 (BitVec.ofNat 8 l.val).toNat, natIn 0 16384 (BitVec.ofNat 16 v).toNat with
      | some l, some v => some (CueAction.duck l v) | _, _ => none) = _
    rw [indexBelow_target (by omega), hword, natIn_of_le (Nat.zero_le v) hv]
  | .recall p, _ => exact congrArg (Option.map _) (indexBelow_eight p)
  | .mute b, _ => cases b <;> rfl
  | .mark m, _ => cases m <;> rfl

theorem cueFar_iff {fire : Time} {s : State} : cueFar fire s = true ↔ ∃ a, s.acousticTime = some a ∧ 2 ^ 40 < sdiff fire a := by
  unfold cueFar
  cases s.acousticTime <;> simp

theorem cueLateMark_eq (fire : Time) (s : State) : cueLateMark fire s = s.acousticTime.any fun a => decide (sdiff fire a ≤ 0) := by
  unfold cueLateMark
  cases s.acousticTime <;> rfl

/-- CUE-ADD past its checks: the entry joins, a RECALL where none is held and the Image Port takes its read (R132, R134). -/
def joinCue (x : Cue) (s : State) : State × Answer :=
  match x.action with
  | .recall p =>
    if s.cues.any Cue.isRecall then (s, busyAnswer)
    else (requestRead { preset := p, dest := .staged } s).elim (s, busyAnswer) fun t =>
      ({ addCue x t with staged := .filling }, acceptedWith (cueCount (addCue x t)))
  | .cut _ | .ending _ | .gain _ _ | .duck _ _ | .mute _ | .mark _ => (addCue x s, done (cueCount (addCue x s)))

section
variable {s : State} {x : Cue}

/-- CUE-ADD of arguments in range: its checks from the second on, in order, then the joining (R132). -/
theorem cueAddOwner_inRange {action target : BitVec 8} {argument : BitVec 16}
    (hread : cueActionOf action target argument = some x.action) (hlate : x.late = cueLateMark x.fireTime s) :
    cueAddOwner (x.id.setWidth 16) x.fireTime action target argument s =
      if s.cues.any (fun c => decide (c.id = x.id)) then (s, refusal .duplicate)
      else if 16 ≤ s.cues.length then (s, refusal .full)
      else if cueFar x.fireTime s then (s, refusal .far)
      else joinCue x s := by
  obtain ⟨id, fire, act, late⟩ := x
  obtain rfl : late = cueLateMark fire s := hlate
  simp only [cueAddOwner, indexBelow_cueId, hread, cueId_setWidth]
  match act with
  | .recall p =>
    simp only [joinCue]
    cases requestRead { preset := p, dest := .staged } s <;> rfl
  | .cut _ | .ending _ | .gain _ _ | .duck _ _ | .mute _ | .mark _ => rfl

theorem joinCue_plain (h : x.isRecall = false) : joinCue x s = (addCue x s, done [natWord (s.cues.length + 1)]) := by
  have hcount : cueCount (addCue x s) = [natWord (s.cues.length + 1)] := by rw [cueCount, addCue, insertCue_length]
  rw [← hcount]
  obtain ⟨id, fire, act, late⟩ := x
  match act, h with
  | .recall _, h => cases h
  | .cut _, _ | .ending _, _ | .gain _ _, _ | .duck _ _, _ | .mute _, _ | .mark _, _ => rfl

theorem joinCue_recall_held {p : Fin 8} (hx : x.action = .recall p) (h : ∃ c ∈ s.cues, c.isRecall = true) :
    joinCue x s = (s, busyAnswer) := by
  simp only [joinCue, hx, List.any_eq_true.2 h, if_true]

theorem joinCue_recall_refused {p : Fin 8} (hx : x.action = .recall p) (h : requestRead { preset := p, dest := .staged } s = none) :
    joinCue x s = (s, busyAnswer) := by
  simp only [joinCue, hx, h, Option.elim_none, ite_self]

theorem joinCue_recall_begins {p : Fin 8} {t : State} (hx : x.action = .recall p) (hfree : ∀ c ∈ s.cues, c.isRecall = false)
    (h : requestRead { preset := p, dest := .staged } s = some t) :
    joinCue x s = ({ addCue x t with staged := .filling }, acceptedWith (cueCount (addCue x t))) := by
  have hnone : s.cues.any Cue.isRecall = false := List.any_eq_false.2 fun c hc => by simp [hfree c hc]
  simp only [joinCue, hx, hnone, h, Bool.false_eq_true, if_false, Option.elim_some]

end

/-- Settles O50: the checks in order; an entry that passes them joins where `insertCue_split` puts it, which keeps near times in order,
and a RECALL by what the Image Port is at. -/
theorem cueAddKeepsTableOrder : Obligations.CueAddKeepsTableOrder := by
  intro s id u w fire act x coded i held far ht hlevel
  have hcoded : coded = cueFields u w act := by cases act <;> rfl
  have hread : cueActionOf coded.1 coded.2.1 coded.2.2 = some act := by
    rw [hcoded]
    exact cueActionOf_cueFields u w fun l v hact => by subst hact; exact hlevel
  have howner := cueAddOwner_inRange (x := x) (s := s) hread (cueLateMark_eq fire s).symm
  have hheld : s.cues.any (fun c => decide (c.id = id)) = true ↔ held := by simp [held]
  have hfar : cueFar fire s = true ↔ far := cueFar_iff
  refine ⟨fun h => ?duplicate, fun h hfull => ?full, fun h hroom hf => ?far, fun h hroom hf => ?joins⟩
  case duplicate => exact exec_taken ht (howner.trans (if_pos (hheld.2 h)))
  case full => exact exec_taken ht (howner.trans ((if_neg (hheld.not.2 h)).trans (if_pos hfull)))
  case far =>
    exact exec_taken ht (howner.trans ((if_neg (hheld.not.2 h)).trans ((if_neg (not_le.2 hroom)).trans (if_pos (hfar.2 hf)))))
  case joins =>
    have hjoin := howner.trans ((if_neg (hheld.not.2 h)).trans ((if_neg (not_le.2 hroom)).trans (if_neg (hfar.not.2 hf))))
    obtain ⟨before, after, hsplit, hinsert, hbefore, hhead⟩ := insertCue_split x s.cues
    refine ⟨before, after, hsplit, hbefore, hhead, ?_⟩
    intro added count
    have hadded : addCue x s = added := by simp only [addCue, hinsert, added]
    refine ⟨fun hord hnear => ?order, fun hplain => ?plain, fun p hact => ?reads⟩
    case order =>
      rw [cuesOrdered, hsplit] at hord
      rw [hsplit] at hnear
      have hnearAfter : timesNear (x :: after) := timesNear_subset (List.cons_subset_cons x (List.subset_append_right before after)) hnear
      have hlater := later_of_head_later hnearAfter (List.pairwise_append.1 hord).2.1 hhead
      exact ⟨hlater, ordered_insert hnear hord hbefore hlater⟩
    case plain => exact exec_taken ht (hjoin.trans (hadded ▸ joinCue_plain hplain))
    case reads =>
      intro read begun
      have begins : (∀ c ∈ s.cues, c.isRecall = false) → ∀ port,
          requestRead read s = some (s.withPort port [.statusPoll]) → exec i s = .next (begun port) := by
        intro hfree port hrequest
        have hcount : cueCount (addCue x (s.withPort port [.statusPoll])) = count := by
          rw [cueCount, addCue, insertCue_length, State.withPort_cues]
        have hstate : { addCue x (s.withPort port [.statusPoll]) with staged := .filling } =
            { added with staged := .filling, port := port, flashOut := [.statusPoll] } := by rw [← hadded]; rfl
        exact exec_taken ht (hjoin.trans ((joinCue_recall_begins hact hfree hrequest).trans (by rw [hcount, hstate])))
      have busy : requestRead read s = none → exec i s = .next (s.reply 0x30 busyAnswer) := fun hrequest =>
        exec_taken ht (hjoin.trans (joinCue_recall_refused hact hrequest))
      refine ⟨fun hrecall => exec_taken ht (hjoin.trans (joinCue_recall_held hact hrecall)), fun hfree =>
        ⟨fun hidle => begins hfree _ ?_, fun wr hw => begins hfree _ ?_, fun r ph hr => busy ?_, fun wr el b r ph hr => busy ?_⟩⟩
      · simp only [requestRead, hidle]
      · simp only [requestRead, hw]
      · simp only [requestRead, hr]
      · simp only [requestRead, hr]

/-! ## CUE-CANCEL (R133, R134) -/

/-- Settles O51: by whether the id is found, and then the one entry that has it. -/
theorem cueCancelRemovesEntry : Obligations.CueCancelRemovesEntry := by
  intro s id ht
  refine ⟨fun hnone => exec_taken ht (owner := cueCancelOwner _) ?notfound, fun c hc hid hone =>
    exec_taken ht (owner := cueCancelOwner _) ?removed⟩
  case notfound =>
    have hfind : s.cues.find? (fun c => decide (c.id = id)) = none := List.find?_eq_none.2 fun c hc => by simp [hnone c hc]
    simp only [cueCancelOwner, indexBelow_cueId, cueId_setWidth, hfind]
  case removed =>
    subst hid
    simp only [cueCancelOwner, indexBelow_cueId, cueId_setWidth, find_id_unique hc rfl hone, withoutId]

/-! ## Firing (R126 to R130) -/

section
variable {s : State} {i : Fin 8}

theorem endSlot_priming (h : (s.slot i).state = .priming) : endSlot i s = releaseSlot i s := by simp only [endSlot, h]

theorem endSlot_running (h : (s.slot i).state = .playing ∨ (s.slot i).state = .starved) :
    endSlot i s = s.setSlot i { s.slot i with state := .draining } := by
  rcases h with h | h <;> simp only [endSlot, h]

theorem endSlot_draining (h : (s.slot i).state = .draining) : endSlot i s = s := by simp only [endSlot, h]

theorem stagedReady_of_ready {t : RouteTable} (h : s.staged = .ready t) : s.stagedReady = true := by simp only [State.stagedReady, h]

/-- The pass of a strobe that is due, where none is open (R129). -/
theorem cueWork_of_strobeDue {a : Time} (hpass : s.cuePass = none) (hdue : s.strobeDue = true) (ha : s.acousticTime = some a) :
    s.cueWork = some { acoustic := a, due := dueList a s.stagedReady s.cues } := by
  simp only [State.cueWork, hpass, hdue, if_true, State.newPass, ha, Option.map_some]

/-- No pass in FREE (R129). -/
theorem cueWork_of_free (hpass : s.cuePass = none) (ha : s.acousticTime = none) : s.cueWork = none := by
  simp only [State.cueWork, hpass, State.newPass, ha, Option.map_none, ite_self]

theorem cueStep_of_no_work (h : s.cueWork = none) : cueStep s = s := by simp only [cueStep, State.nextCue, h]

theorem cueStep_of_none_left {a : Time} (h : s.cueWork = some { acoustic := a, due := [] }) : cueStep s = s := by
  simp only [cueStep, State.nextCue, h, nextFiring, Option.map_none]

/-- An id in front whose entry is held, and READY if it is a RECALL, is the one that fires (R129). -/
theorem cueStep_fires {a : Time} {c : Cue} {ids : List (BitVec 8)} (h : s.cueWork = some { acoustic := a, due := c.id :: ids })
    (hc : c ∈ s.cues) (hone : ∀ d ∈ s.cues, d.id = c.id → d = c) (hready : c.isRecall = true → s.stagedReady = true) :
    cueStep s = fireCue a c ids s := by
  have hfits : ¬ (c.isRecall = true ∧ s.stagedReady = false) := fun ⟨hr, hn⟩ => by simp [hready hr] at hn
  simp only [cueStep, State.nextCue, h, nextFiring, find_id_unique hc rfl hone, if_neg hfits, Option.map_some]

theorem cueLate_iff {c : Cue} {a : Time} {fo : OutputRate} :
    cueLate c a fo = true ↔ c.late = true ∨ sdiff c.fireTime a ≤ -(fo.divider : Int) := by
  simp only [cueLate, Bool.or_eq_true, decide_eq_true_eq]

end

/-- Settles O52: the pass by what `cueWork` is, and the entry in front by `fireCue`, its action then by its kind. -/
theorem dueCueActs : Obligations.DueCueActs := by
  intro s
  refine ⟨fun hpass hdue a ha => ?pass, fun hpass ha => congrArg Host.Outcome.next (cueStep_of_no_work (cueWork_of_free hpass ha)),
    fun a h => congrArg Host.Outcome.next (cueStep_of_none_left h), fun a c ids hwork hc hone hstaged => ?fires⟩
  case pass =>
    rw [cueWork_of_strobeDue hpass hdue ha]
    cases hst : s.staged <;> simp [dueList, State.stagedReady, hst]
  case fires =>
    intro void late base
    have hready : c.isRecall = true → s.stagedReady = true := fun hr => (hstaged hr).elim fun _ => stagedReady_of_ready
    have hvoid : cueVoid c.action base = void := by
      simp only [void]
      cases c.action <;> rfl
    have hexec : exec .cueFire s = .next (fireCue a c ids s) := congrArg Host.Outcome.next (cueStep_fires hwork hc hone hready)
    refine ⟨if void = true then base else applyCue c.action base, ?_, fun h => if_pos h, fun h => ?acts⟩
    · rw [hexec, ← hvoid]
      simp only [late, ← cueLate_iff]
      rfl
    case acts =>
      rw [if_neg (by simp [h])]
      match c.action with
      | .mute _ | .gain _ _ | .duck _ _ => rfl
      | .mark m => cases m <;> rfl
      | .recall _ =>
        intro r hr
        have hbase : base.staged = .ready r := hr
        simp only [applyCue, hbase]
      | .cut i => exact fun k hk => cutSlot_of_context (s := base) hk
      | .ending i => exact ⟨endSlot_running (s := base), endSlot_draining (s := base), fun hst k hk =>
          (endSlot_priming (s := base) hst).trans (releaseSlot_of_context (s := base) hk)⟩

end Sys2Proof.Machine
end

section
/-! SUPPORT. Faults and reports: the bounds that every step keeps, an offer by its class and the state of its slot, the report queue with
room and full, and the records of the Report Unit (R137 to R146). -/

namespace Sys2Proof.Machine

/-! ## The bounds of the tables and queues (R74, R78, R114, R125, R134, R140) -/

/-- Settles O6: `exec_keeps` goes through the rows and `step_keeps` gathers them. A fault record joins a full queue only where a NOTE
leaves (`inner_queueFault`); a chunk that is filed keeps the playout queue in its rules (`queueFits_filed`), and so does F moving
forward (`QueueOk.retireTo`), for which the drift clamp is needed: a step is then never negative (`step_nonneg`). -/
theorem stepsKeepTableBounds : Obligations.StepsKeepTableBounds := by
  intro s t hstep
  obtain ⟨rest, keeps⟩ := step_keeps hstep
  exact ⟨keeps.reports, keeps.cues, keeps.tables, keeps.queues⟩

/-! ## Offers of class FAULT to a slot (R143 to R145) -/

section
variable {s : State} {k : EventKind} {i : Fin 8} {d : Word32}

theorem offerSlot_eq_takeFault (h : s.classOf k = .fault) :
    offerSlot k i d s = takeFault (reportOf k (some i) d none s) i s := by
  simp only [offerSlot, takeOffer, reportOf, h]

/-- A FAULT-class event of a CLOSED slot is noted (R145). -/
theorem offerSlot_of_closed (h : s.classOf k = .fault) (hclosed : (s.slot i).state = .closed) :
    offerSlot k i d s = queueNote (reportOf k (some i) d none s) s := by
  rw [offerSlot_eq_takeFault h, takeFault, if_pos hclosed]

/-- With no fault pending a fault is the first one, in a FROZEN slot too (R143). -/
theorem offerSlot_of_noPending (h : s.classOf k = .fault) (hopen : (s.slot i).state ≠ .closed)
    (hnone : (s.slot i).faultPending = false) : offerSlot k i d s = firstFault (reportOf k (some i) d none s) i s := by
  rw [offerSlot_eq_takeFault h, takeFault, if_neg hopen, if_neg (by simp [hnone])]

/-- With a fault pending another is a second one (R144). -/
theorem offerSlot_of_pending (h : s.classOf k = .fault) (hopen : (s.slot i).state ≠ .closed)
    (hpending : (s.slot i).faultPending = true) : offerSlot k i d s = secondFault (reportOf k (some i) d none s) i s := by
  rw [offerSlot_eq_takeFault h, takeFault, if_neg hopen, if_pos hpending]

/-- A FROZEN slot is frozen already (R45). -/
theorem freezeSlot_of_frozen (h : (s.slot i).state = .frozen) : freezeSlot i s = s := by
  simp only [freezeSlot, h]

end

/-- Settles O53. -/
theorem firstFaultIsNumbered : Obligations.FirstFaultIsNumbered := by
  intro s k i d hclass hopen hnone
  rw [offerSlot_of_noPending hclass hopen hnone]
  rfl

/-- Settles O54: by whether the slot is FROZEN already; either way the slot that the record is made from is FROZEN. -/
theorem secondFaultFreezes : Obligations.SecondFaultFreezes := by
  intro s k i d hclass hpending
  refine ⟨fun hopen hfrozen => ?freezes, fun hfrozen => ?frozen⟩
  case freezes =>
    rw [offerSlot_of_pending hclass hopen hpending, secondFault, freezeSlot_of_open hopen hfrozen]
    simp [reportOf]
  case frozen =>
    have hopen : (s.slot i).state ≠ .closed := by simp [hfrozen]
    rw [offerSlot_of_pending hclass hopen hpending, secondFault, freezeSlot_of_frozen hfrozen]
    simp [reportOf, hfrozen]

/-! ## Offers of a part event and of a cue event (R139) -/

section
variable {s : State} {r : Report}

theorem takeOffer_ignore (h : s.classOf r.kind = .ignore) : takeOffer r s = s := by simp only [takeOffer, h]

/-- An event that is bound to no slot is noted, be its class NOTE or FAULT (R139). -/
theorem takeOffer_unbound (h : s.classOf r.kind ≠ .ignore) (hslot : r.slot = none) : takeOffer r s = queueNote r s := by
  cases hclass : s.classOf r.kind with
  | ignore => exact absurd hclass h
  | note => simp only [takeOffer, hclass]
  | fault => simp only [takeOffer, hclass, hslot]

end

/-! ## A fault record offered to a full queue (R142) -/

section
variable {r : Report} {s : State}

theorem queueFault_replaces {before after : List Report} {note : Report} (hfull : s.reports.length = 16)
    (hsplit : s.reports.drop 8 = before ++ note :: after) (hnote : note.isFault = false) (hafter : ∀ q ∈ after, q.isFault = true) :
    queueFault r s = joinReport r { s with reports := s.reports.take 8 ++ (before ++ after), lostMark := true } := by
  rw [queueFault, if_neg (by omega), hsplit, dropNewestNote_split note hnote after hafter before]

theorem queueFault_drops (hfull : s.reports.length = 16) (hfaults : ∀ q ∈ s.reports.drop 8, q.isFault = true) :
    queueFault r s = { s with lostMark := true } := by
  rw [queueFault, if_neg (by omega), (dropNewestNote_eq_none _).2 hfaults]

end

/-- Settles O55: an offer by its class, and a fault record by whether the queue has room and by what stands in positions 9 to 16. -/
theorem faultSparesOldestReports : Obligations.FaultSparesOldestReports := by
  refine ⟨fun s k i c d => ⟨fun hignore => ?ignored, fun hnoted => ?noted, fun hclass => ?unbound⟩, fun r s =>
    ⟨queueFault_of_room, fun hfull => ⟨fun before after note hsplit hnote hafter => ?replaces, queueFault_drops hfull⟩⟩⟩
  case ignored => exact ⟨takeOffer_ignore hignore, takeOffer_ignore hignore, takeOffer_ignore hignore⟩
  case noted =>
    rcases hnoted with hnote | ⟨hfault, hclosed⟩
    · exact offerSlot_note hnote
    · exact offerSlot_of_closed hfault hclosed
  case unbound => exact ⟨takeOffer_unbound hclass rfl, takeOffer_unbound hclass rfl⟩
  case replaces =>
    rw [queueFault_replaces hfull hsplit hnote hafter]
    simp [joinReport]

/-! ## CLASS-SET and ACK (R138, R146) -/

/-- A number in range reads back from a field wide enough for it. -/
theorem indexBelow_ofNat {n w : Nat} (h : n ≤ 2 ^ w) (i : Fin n) : indexBelow n (BitVec.ofNat w i.val).toNat = some i := by
  have hval : (BitVec.ofNat w i.val).toNat = i.val := by
    rw [BitVec.toNat_ofNat, Nat.mod_eq_of_lt (i.isLt.trans_le h)]
  rw [hval, indexBelow, dif_pos i.isLt]

/-- A class reads back from its code in a byte (R138). -/
theorem classOfCode_byte (c : EventClass) : classOfCode (BitVec.ofNat 8 c.code).toNat = some c := by cases c <;> rfl

/-- CLASS-SET of a kind and a class there are (R138). -/
theorem classSetOwner_inRange (k : Fin 32) (c : EventClass) (s : State) :
    classSetOwner (BitVec.ofNat 8 k.val) (BitVec.ofNat 8 c.code) s =
      (s.setClass k c, done [natWord (s.classes[k.val]).code]) := by
  simp only [classSetOwner, indexBelow_ofNat (by decide : 32 ≤ 2 ^ 8), classOfCode_byte]

/-- ACK for a slot there is: the flag is cleared where the sequence is the pending one (R146). -/
theorem ackOwner_slot (i : Fin 8) (q : BitVec 8) (s : State) :
    ackOwner (BitVec.ofNat 8 i.val) q s =
      if (s.slot i).faultPending = true ∧ (s.slot i).faultSequence = q then
        (s.setSlot i { s.slot i with faultPending := false }, done [stateWord (s.slot i).state])
      else (s, refusedWith .notfound [natWord (flagBit (s.slot i).faultPending 1), natWord (s.slot i).faultSequence.toNat]) := by
  simp only [ackOwner, indexBelow_ofNat (by decide : 8 ≤ 2 ^ 8)]

/-- A flag as a result word. -/
theorem natWord_flagBit (p : Bool) : natWord (flagBit p 1) = if p then 1 else 0 := by cases p <;> rfl

/-- A byte as a result word. -/
theorem natWord_toNat (q : BitVec 8) : natWord q.toNat = q.setWidth 32 := by
  rw [natWord, BitVec.ofNat_toNat]

/-- Settles O56: CLASS-SET by its operands read back, ACK by whether its sequence is the pending one. -/
theorem classSetAndAckAnswer : Obligations.ClassSetAndAckAnswer := by
  intro s k c i q
  refine ⟨fun ht => exec_taken (owner := classSetOwner _ _) ht (classSetOwner_inRange k c s), fun ht => ?ack⟩
  case ack =>
    have hack := ackOwner_slot i q s
    split
    · next hpending => exact exec_taken ht (hack.trans (if_pos hpending))
    · next hother =>
      rw [← natWord_flagBit, ← natWord_toNat]
      exact exec_taken ht (hack.trans (if_neg hother))

end Sys2Proof.Machine
end

section
/-! SUPPORT. The Command Interpreter: the record in hand, RESTART, the records it answers by itself, and the owners' refusals
(R149 to R152, R157). -/

namespace Sys2Proof.Machine

/-! ## The record in hand and its reply (R149, R152) -/

section
variable {s : State} {p : Interp}

theorem handing_iff {i : Instr} (hp : s.interp = some p) : s.handing i = true ↔ p.next = .record i := by
  simp [State.handing, hp]

theorem replyRoom_eq (hp : s.interp = some p) (n : Nat) : s.replyRoom n = p.hasRoom n := by
  simp [State.replyRoom, hp]

theorem reply_eq (hp : s.interp = some p) (code : BitVec 8) (a : Answer) :
    s.reply code a = { s with interp := some (p.answered code a) } := by simp [State.reply, hp]

theorem lastReply_eq (hp : s.interp = some p) (code : BitVec 8) (a : Answer) :
    s.lastReply code a = { s with interp := some (p.stopped code a) } := by simp [State.lastReply, hp]

theorem placeReply_eq (hp : s.interp = some p) :
    placeReply s = { s with interp := none, replyBuffer := .full { sequence := p.sequence, records := p.records } } := by
  simp [placeReply, hp]

/-- A record in hand with room for its reply is taken (R151). -/
theorem taken_of_room {i : Instr} {code : BitVec 8} {n : Nat} (hp : s.interp = some p) (hh : s.handing i = true)
    (hs : recordShape i = some (code, n)) (hroom : p.hasRoom n = true) : Taken i s :=
  .inr ⟨hh, code, n, hs, (replyRoom_eq hp n).trans hroom⟩

/-- With no frame in hand a RUNNING part takes a record alone (log 4). -/
theorem standsAlone_of_running (hrun : s.run = .running) (hn : s.interp = none) : s.standsAlone = true := by
  simp [State.standsAlone, hrun, hn]

end

/-! ## RESTART (R157) -/

/-- Settles O11: in hand, RESTART's reply is placed before the part restarts; alone, the reply to a frame of it is. -/
theorem restartKeepsCountAndReply : Obligations.RestartKeepsCountAndReply := by
  intro s after
  refine ⟨fun p hp hh hroom => congrArg Host.Outcome.next ?inHand, fun hrun hn => congrArg Host.Outcome.next ?alone⟩
  case inHand =>
    rw [restartRecord, if_pos hh, if_pos ((replyRoom_eq hp 1).trans hroom), lastReply_eq hp, placeReply_eq rfl]
    rfl
  case alone =>
    rw [restartRecord, if_neg (by simp [handing_none hn]), if_pos (standsAlone_of_running hrun hn)]
    rfl

/-! ## What the interpreter answers by itself (R149 to R151) -/

/-- A record that is read as UNKNOWN has its length in its header: no command is read as it (R151). -/
theorem length_of_next_unknown {n : Nat} {ws : List Word32} {code length : BitVec 8}
    (h : Decode.next n ws = .record (.unknown code length)) : ∃ w rest, ws = w :: rest ∧ Decode.field w 16 8 = length := by
  have hcommand : ∀ {c arg w1 w2 w3 w4}, Decode.commandOf c arg w1 w2 w3 w4 ≠ some (.unknown code length) := by
    intro c arg w1 w2 w3 w4 hc
    unfold Decode.commandOf at hc
    split at hc <;> cases hc
  unfold Decode.next at h
  split at h
  · cases h
  · split at h
    · cases h
    · next w rest =>
      refine ⟨w, rest, rfl, ?_⟩
      dsimp only at h
      split at h
      · cases h
      · split at h
        · cases h; rfl
        · split at h
          · cases h
          · split at h
            · next hc => cases h; exact absurd hc hcommand
            · cases h; rfl

/-- An UNKNOWN record answered: the place moves on by the length in its header (R151). -/
theorem answered_unknown {p : Interp} {code length : BitVec 8} (h : p.next = .record (.unknown code length)) (a : Answer) :
    p.answered code a = { p with
      remaining := p.remaining - 1, words := p.words.drop length.toNat, records := p.records ++ [{ code := code, answer := a }] } := by
  obtain ⟨w, rest, hw, hlen⟩ := length_of_next_unknown h
  simp [Interp.answered, hw, hlen]

/-- Settles O58: each answer by what stands next in the frame. -/
theorem interpreterAnswersByItself : Obligations.InterpreterAnswersByItself := by
  intro s p hp
  refine ⟨fun code length hh hroom => ?unknown, fun code hh => congrArg Host.Outcome.next ?malformed,
    fun code hn hroom => congrArg Host.Outcome.next ?wrongLength, fun h0 => congrArg Host.Outcome.next ?finished⟩
  case unknown =>
    rw [exec_taken (owner := fun t => (t, unknownAnswer)) (taken_of_room hp hh rfl hroom) rfl, reply_eq hp,
      answered_unknown ((handing_iff hp).1 hh)]
    rfl
  case malformed =>
    rw [malformedRecord, if_pos hh, lastReply_eq hp]
    rfl
  case wrongLength => simp only [proceed, hp, hn, hroom, if_true]
  case finished =>
    have hn : p.next = .finished := by simp [Interp.next, Decode.next, h0]
    simp only [proceed, hp, hn, placeReply_eq hp]

/-! ## Owners that do not carry a record out (R151) -/

/-- An owner's outcome that is DONE or ACCEPTED, or leaves the state as it was. -/
def RefusesOrActs (s : State) (r : State × Answer) : Prop :=
  r.1 = s ∨ r.2.status = .done ∨ r.2.status = .accepted

section
variable {s t : State}

theorem RefusesOrActs.refuses (a : Answer) : RefusesOrActs s (s, a) := .inl rfl

theorem RefusesOrActs.done (ws : List Word32) : RefusesOrActs s (t, done ws) := .inr (.inl rfl)

theorem RefusesOrActs.accepted (ws : List Word32) : RefusesOrActs s (t, acceptedWith ws) := .inr (.inr rfl)

theorem RefusesOrActs.ite {c : Prop} [Decidable c] {r q : State × Answer} (hr : RefusesOrActs s r) (hq : RefusesOrActs s q) :
    RefusesOrActs s (if c then r else q) := by
  split
  · exact hr
  · exact hq

theorem RefusesOrActs.onSlot {work : Fin 8 → State × Answer} (slot : BitVec 16) (h : ∀ i, RefusesOrActs s (work i)) :
    RefusesOrActs s (onSlot slot work s) := by
  unfold Machine.onSlot
  split
  · exact .refuses _
  · exact h _

end

section
variable (s : State)

theorem refusesOrActs_openOwner (slot : BitVec 16) (id format priority ring : BitVec 8) (trim : Word32) (limit : BitVec 16) :
    RefusesOrActs s (openOwner slot id format priority ring trim limit s) := by
  unfold openOwner
  split
  · exact .ite (.refuses _) (.ite (.refuses _) (.ite (.refuses _) (.ite (.refuses _) (.done _))))
  · exact .refuses _

theorem refusesOrActs_closeOwner (slot : BitVec 16) : RefusesOrActs s (closeOwner slot s) :=
  .onSlot slot fun _ => .ite (.refuses _) (.done _)

theorem refusesOrActs_endOwner (slot : BitVec 16) : RefusesOrActs s (endOwner slot s) := by
  refine .onSlot slot fun i => ?_
  cases (s.slot i).state with
  | closed | frozen => exact .refuses _
  | priming | playing | starved | draining => exact .done _

theorem refusesOrActs_cutOwner (slot : BitVec 16) : RefusesOrActs s (cutOwner slot s) := by
  refine .onSlot slot fun i => ?_
  cases (s.slot i).state with
  | closed | frozen => exact .refuses _
  | priming | playing | starved | draining => exact .done _

theorem refusesOrActs_clearOwner (slot : BitVec 16) : RefusesOrActs s (clearOwner slot s) :=
  .onSlot slot fun _ => .ite (.done _) (.refuses _)

theorem refusesOrActs_trimOwner (slot : BitVec 16) (value : Word32) : RefusesOrActs s (trimOwner slot value s) := by
  refine .onSlot slot fun i => ?_
  split
  · exact .refuses _
  · split
    · exact .refuses _
    · exact .refuses _
    · exact .done _

theorem refusesOrActs_partitionOwner (mode : BitVec 16) : RefusesOrActs s (partitionOwner mode s) := by
  unfold partitionOwner
  split
  · exact .refuses _
  · exact .ite (.done _) (.refuses _)

theorem refusesOrActs_routePutOwner (index : BitVec 16) (entry : Word32) : RefusesOrActs s (routePutOwner index entry s) := by
  unfold routePutOwner
  split
  · exact .ite (.refuses _) (.ite (.refuses _) (.done _))
  · exact .refuses _

theorem refusesOrActs_routeDropOwner (index : BitVec 16) : RefusesOrActs s (routeDropOwner index s) := by
  unfold routeDropOwner
  split
  · exact .refuses _
  · split
    · exact .refuses _
    · exact .done _

theorem refusesOrActs_routeRecallOwner (preset : BitVec 16) : RefusesOrActs s (routeRecallOwner preset s) := by
  unfold routeRecallOwner
  split
  · exact .refuses _
  · split
    · exact .refuses _
    · exact .accepted _

theorem refusesOrActs_duckSetOwner (lane : BitVec 16) (level : Word32) : RefusesOrActs s (duckSetOwner lane level s) := by
  unfold duckSetOwner
  split
  · exact .done _
  · exact .refuses _

theorem refusesOrActs_outputSetOwner (rate ko rt : Word32) : RefusesOrActs s (outputSetOwner rate ko rt s) := by
  unfold outputSetOwner
  split
  · exact .refuses _
  · exact .ite (.refuses _) (.done _)

theorem refusesOrActs_cueAddOwner (id : BitVec 16) (fire : Time) (action target : BitVec 8) (argument : BitVec 16) :
    RefusesOrActs s (cueAddOwner id fire action target argument s) := by
  unfold cueAddOwner
  split
  · refine .ite (.refuses _) (.ite (.refuses _) (.ite (.refuses _) ?_))
    split
    · refine .ite (.refuses _) ?_
      split
      · exact .refuses _
      · exact .accepted _
    all_goals exact .done _
  · exact .refuses _

theorem refusesOrActs_cueCancelOwner (id : BitVec 16) : RefusesOrActs s (cueCancelOwner id s) := by
  unfold cueCancelOwner
  split
  · exact .refuses _
  · split
    · exact .refuses _
    · exact .done _

theorem refusesOrActs_clockSetOwner (master : BitVec 16) (source : BitVec 8) (limit link edge : BitVec 16) (gate window : Word32) :
    RefusesOrActs s (clockSetOwner master source limit link edge gate window s) := by
  unfold clockSetOwner
  split
  · exact .refuses _
  · exact .done _

theorem refusesOrActs_classSetOwner (kind cls : BitVec 8) : RefusesOrActs s (classSetOwner kind cls s) := by
  unfold classSetOwner
  split
  · exact .done _
  · exact .refuses _

theorem refusesOrActs_ackOwner (slot sequence : BitVec 8) : RefusesOrActs s (ackOwner slot sequence s) := by
  unfold ackOwner
  split
  · exact .refuses _
  · exact .ite (.done _) (.refuses _)

theorem refusesOrActs_saveOwner (tag : BitVec 16) (boot : BitVec 8) : RefusesOrActs s (saveOwner tag boot s) := by
  unfold saveOwner
  split
  · exact .refuses _
  · exact .ite (.refuses _) (.ite (.accepted _) (.refuses _))

theorem refusesOrActs_presetPutOwner (preset : BitVec 16) : RefusesOrActs s (presetPutOwner preset s) := by
  unfold presetPutOwner
  split
  · exact .refuses _
  · exact .ite (.accepted _) (.refuses _)

end

/-- Every record but RESTART and MALFORMED is handed to an owner that leaves the frame in hand alone and, unless its answer is DONE or
ACCEPTED, everything (R151). -/
theorem dealRecord_refusesOrActs {i : Instr} (hs : (recordShape i).isSome = true) (hrestart : i ≠ .restart)
    (hmalformed : ∀ code, i ≠ .malformed code) (s : State) :
    ∃ owner, dealRecord i s = handOver i owner s ∧ (owner s).1.interp = s.interp ∧ RefusesOrActs s (owner s) := by
  have hands : ∀ owner, dealRecord i s = handOver i owner s → Inner s (owner s).1 → RefusesOrActs s (owner s) →
      ∃ owner, dealRecord i s = handOver i owner s ∧ (owner s).1.interp = s.interp ∧ RefusesOrActs s (owner s) :=
    fun owner he hinner hacts => ⟨owner, he, hinner.interp, hacts⟩
  cases i
  case restart => exact absurd rfl hrestart
  case malformed code => exact absurd rfl (hmalformed code)
  case openSlot =>
    exact ⟨_, rfl, (leavesFrames_openOwner _ _ _ _ _ _ _ s).1, refusesOrActs_openOwner s _ _ _ _ _ _ _⟩
  case identify => exact hands identifyOwner rfl (Inner.refl s) (.refuses _)
  case clockHistory => exact hands clockHistoryOwner rfl (Inner.refl s) (.refuses _)
  case unknown => exact hands (fun t => (t, unknownAnswer)) rfl (Inner.refl s) (.refuses _)
  case snapshot => exact hands _ rfl (inner_finishStrobe s) (.done _)
  case closeSlot => exact hands _ rfl (inner_closeOwner _ s) (refusesOrActs_closeOwner s _)
  case endStream => exact hands _ rfl (inner_endOwner _ s) (refusesOrActs_endOwner s _)
  case cut => exact hands _ rfl (inner_cutOwner _ s) (refusesOrActs_cutOwner s _)
  case clear => exact hands _ rfl (inner_clearOwner _ s) (refusesOrActs_clearOwner s _)
  case trim => exact hands _ rfl (inner_trimOwner _ _ s) (refusesOrActs_trimOwner s _ _)
  case partition => exact hands _ rfl (inner_partitionOwner _ s) (refusesOrActs_partitionOwner s _)
  case routePut => exact hands _ rfl (inner_routePutOwner _ _ s) (refusesOrActs_routePutOwner s _ _)
  case routeDrop => exact hands _ rfl (inner_routeDropOwner _ s) (refusesOrActs_routeDropOwner s _)
  case routeRecall => exact hands _ rfl (inner_routeRecallOwner _ s) (refusesOrActs_routeRecallOwner s _)
  case duckSet => exact hands _ rfl (inner_duckSetOwner _ _ s) (refusesOrActs_duckSetOwner s _ _)
  case outputSet => exact hands _ rfl (inner_outputSetOwner _ _ _ s) (refusesOrActs_outputSetOwner s _ _ _)
  case cueAdd => exact hands _ rfl (inner_cueAddOwner _ _ _ _ _ s) (refusesOrActs_cueAddOwner s _ _ _ _ _)
  case cueCancel => exact hands _ rfl (inner_cueCancelOwner _ s) (refusesOrActs_cueCancelOwner s _)
  case clockSet => exact hands _ rfl (inner_clockSetOwner _ _ _ _ _ _ _ s) (refusesOrActs_clockSetOwner s _ _ _ _ _ _ _)
  case classSet => exact hands _ rfl (inner_classSetOwner _ _ s) (refusesOrActs_classSetOwner s _ _)
  case ack => exact hands _ rfl (inner_ackOwner _ _ s) (refusesOrActs_ackOwner s _ _)
  case save => exact hands _ rfl (inner_saveOwner _ _ s) (refusesOrActs_saveOwner s _ _)
  case presetPut => exact hands _ rfl (inner_presetPutOwner _ s) (refusesOrActs_presetPutOwner s _)
  all_goals cases hs

/-- One reply record of code `code` joins the reply of the frame `p` in hand, and unless its status is DONE or ACCEPTED the rest of the
part is as it was. -/
def AnswersOnly (code : BitVec 8) (p : Interp) (s t : State) : Prop :=
  ∃ (q : Interp) (a : Answer), t.interp = some q ∧ q.records = p.records ++ [{ code := code, answer := a }] ∧
    (a.status ≠ .done → a.status ≠ .accepted → t = { s with interp := some q })

section
variable {s : State} {p : Interp}

theorem answersOnly_lastReply (hp : s.interp = some p) (code : BitVec 8) (a : Answer) : AnswersOnly code p s (s.lastReply code a) :=
  ⟨p.stopped code a, a, by rw [lastReply_eq hp], rfl, fun _ _ => lastReply_eq hp code a⟩

/-- A record handed to an owner that leaves the frame in hand alone (R151, R152). -/
theorem answersOnly_handOver {i : Instr} {owner : State → State × Answer} {code : BitVec 8} {n : Nat} (hp : s.interp = some p)
    (hh : s.handing i = true) (hs : recordShape i = some (code, n)) (hinterp : (owner s).1.interp = s.interp)
    (hacts : RefusesOrActs s (owner s)) : AnswersOnly code p s (handOver i owner s) := by
  cases hroom : s.replyRoom n with
  | false =>
    rw [handOver_full hh hs hroom]
    exact answersOnly_lastReply hp code _
  | true =>
    rw [handOver_taken (.inr ⟨hh, code, n, hs, hroom⟩) hs hinterp, reply_eq (hinterp.trans hp)]
    refine ⟨_, (owner s).2, rfl, rfl, fun hdone haccepted => ?_⟩
    rcases hacts with hsame | h | h
    · rw [hsame]
    · exact absurd h hdone
    · exact absurd h haccepted

end

/-- Settles O59: MALFORMED is the interpreter's own, and any other record goes to an owner that acts or leaves everything alone. -/
theorem refusedRecordsChangeNothing : Obligations.RefusedRecordsChangeNothing := by
  intro s t i p code n hp hh hs hrestart hexec
  have hshape : (recordShape i).isSome = true := by rw [hs]; rfl
  rw [exec_record hshape] at hexec
  cases hexec
  by_cases hmalformed : ∃ c, i = .malformed c
  · obtain ⟨c, rfl⟩ := hmalformed
    cases hs
    rw [dealRecord, malformedRecord, if_pos hh]
    exact answersOnly_lastReply hp code malformedAnswer
  · rw [not_exists] at hmalformed
    obtain ⟨owner, hdeal, hinterp, hacts⟩ := dealRecord_refusesOrActs hshape hrestart hmalformed s
    rw [hdeal]
    exact answersOnly_handOver hp hh hs hinterp hacts

/-- Settles O60: RESTART tests the room itself, and any other record is handed over with the test of R152. -/
theorem fullReplyStopsFrame : Obligations.FullReplyStopsFrame := by
  intro s i p code n hp hh hs hroom hmalformed
  have hshape : (recordShape i).isSome = true := by rw [hs]; rfl
  have hfull : s.replyRoom n = false := (replyRoom_eq hp n).trans hroom
  have hdeal : dealRecord i s = s.lastReply code (refusal .full) := by
    by_cases hrestart : i = .restart
    · subst hrestart
      cases hs
      rw [dealRecord, restartRecord, if_pos hh, if_neg (by simp [hfull])]
    · obtain ⟨owner, hdeal, _⟩ := dealRecord_handsOver hshape hrestart hmalformed s
      rw [hdeal, handOver_full hh hs hfull]
  rw [exec_record hshape, hdeal, lastReply_eq hp]
  rfl

end Sys2Proof.Machine
end

section
/-! SUPPORT. IDENTIFY, CLOCK-HISTORY and SNAPSHOT, and the strobe in progress that a SNAPSHOT finishes first (R16, R154 to R156). -/

namespace Sys2Proof.Machine

/-! ## The words of the answers (R16, R155, R170) -/

/-- The 54 words slot by slot. -/
theorem snapshotWords_eq (s : State) :
    snapshotWords s = [bytesWord s.clock.state.code 0 0 (flagBit s.houseTime.isSome 1), signedWord s.clock.epsilon]
      ++ timeWords s.localCount ++ timeWords (s.houseTime.getD 0) ++ slotWords (s.slot 0) ++ slotWords (s.slot 1)
      ++ slotWords (s.slot 2) ++ slotWords (s.slot 3) ++ slotWords (s.slot 4) ++ slotWords (s.slot 5) ++ slotWords (s.slot 6)
      ++ slotWords (s.slot 7) := by
  have hslots : (List.finRange 8).flatMap (fun i => slotWords (s.slot i)) = slotWords (s.slot 0) ++ (slotWords (s.slot 1)
      ++ (slotWords (s.slot 2) ++ (slotWords (s.slot 3) ++ (slotWords (s.slot 4) ++ (slotWords (s.slot 5)
      ++ (slotWords (s.slot 6) ++ (slotWords (s.slot 7) ++ []))))))) := rfl
  simp only [snapshotWords, hslots, optTimeWords, List.append_assoc, List.append_nil]

/-- The words of a CLOSED slot and of an open one. -/
theorem slotWords_eq (v : Slot) :
    slotWords v = if v.state = .closed then [bytesWord 0 0 0 0, 0, 0, 0, 0, 0]
      else [bytesWord v.state.code v.queue.length 0 (flagBit v.readPos.isSome 4 + flagBit v.queue.head?.isSome 2 + 1)]
        ++ signedWords ((v.readPos.map fun f => f / 2 ^ 28).getD 0) ++ signedWords ((v.queue.head?.map (·.start)).getD 0)
        ++ [signedWord v.step] := by
  unfold slotWords
  split
  · next h => rw [h]; rfl
  · rfl

/-! ## A firing (R129) -/

section
variable {s : State}

/-- A cue's action touches neither the cue table nor the pass (R126 to R128). -/
theorem applyCue_cues (a : CueAction) (s : State) : (applyCue a s).cues = s.cues ∧ (applyCue a s).cuePass = s.cuePass := by
  match a with
  | .cut _ | .gain _ _ | .duck _ _ | .mute _ | .mark _ => exact ⟨rfl, rfl⟩
  | .recall _ =>
    simp only [applyCue]
    split <;> exact ⟨rfl, rfl⟩
  | .ending i =>
    have hrelease : (releaseSlot i s).cues = s.cues ∧ (releaseSlot i s).cuePass = s.cuePass := by
      unfold releaseSlot
      split <;> exact ⟨rfl, rfl⟩
    simp only [applyCue, endSlot]
    split
    · exact hrelease
    all_goals exact ⟨rfl, rfl⟩

/-- A firing takes its entry off the table and goes on with the pass (R129). -/
theorem fireCue_cues (a : Time) (c : Cue) (rest : List (BitVec 8)) (s : State) :
    (fireCue a c rest s).cues = withoutId c.id s.cues ∧ (fireCue a c rest s).cuePass = some { acoustic := a, due := rest } := by
  have hoffer : ∀ k d t, (offerCue k c d t).cues = t.cues ∧ (offerCue k c d t).cuePass = t.cuePass := fun k d t => by
    rw [offerOnly_offerCue k c d t]
    exact ⟨rfl, rfl⟩
  unfold fireCue
  dsimp only
  split <;> split <;> simp only [hoffer, applyCue_cues, and_self]

/-- A firing leaves fewer entries. -/
theorem withoutId_length_lt {c : Cue} {cues : List Cue} (h : c ∈ cues) : (withoutId c.id cues).length < cues.length :=
  List.length_filter_lt_length_iff_exists.2 ⟨c, h, by simp⟩

theorem cueStep_of_nextCue_none (h : s.nextCue = none) : cueStep s = s := by simp only [cueStep, h]

/-! ## The rest of a pass (R129, R156) -/

/-- The rest of a pass is so many firings. -/
theorem cueSteps_eq_iterate (n : Nat) (s : State) : ∃ m, cueSteps n s = cueStep^[m] s := by
  induction n generalizing s with
  | zero => exact ⟨0, rfl⟩
  | succ n ih =>
    rw [cueSteps]
    split
    · exact ⟨0, rfl⟩
    · obtain ⟨m, hm⟩ := ih (cueStep s)
      exact ⟨m + 1, hm⟩

theorem cueSteps_of_noPass (n : Nat) (h : s.cuePass = none) : cueSteps n s = s := by
  cases n with
  | zero => rfl
  | succ n => rw [cueSteps, if_pos h]

theorem cueSteps_of_nextCue_none (n : Nat) (h : s.nextCue = none) : cueSteps n s = s := by
  induction n with
  | zero => rfl
  | succ n ih => rw [cueSteps, cueStep_of_nextCue_none h, ih, ite_self]

/-- More firings than entries leave none to fire: each takes an entry off the table. -/
theorem nextCue_cueSteps {n : Nat} (hpass : s.cuePass.isSome = true) (hn : s.cues.length < n) : (cueSteps n s).nextCue = none := by
  induction n generalizing s with
  | zero => omega
  | succ n ih =>
    cases hnext : s.nextCue with
    | none => rw [cueSteps_of_nextCue_none _ hnext, hnext]
    | some next =>
      obtain ⟨a, c, rest⟩ := next
      have hfire : cueStep s = fireCue a c rest s := by simp only [cueStep, hnext]
      obtain ⟨hcues, hopen⟩ := fireCue_cues a c rest s
      have hfewer := withoutId_length_lt (nextCue_mem hnext).1
      rw [cueSteps, if_neg (Option.isSome_iff_ne_none.1 hpass), hfire]
      refine ih (by rw [hopen]; rfl) ?_
      rw [hcues]
      omega

end

/-! ## The work before the pass (R113, R156) -/

/-- What is owed to the slots after the advance leaves the pass alone. -/
theorem settleSlot_cuePass (i : Fin 8) (s : State) : (settleSlot i s).cuePass = s.cuePass := by
  have hnoted : ∀ {t u : State}, OfferOnly t u → (u.noteState i).cuePass = t.cuePass := fun h => by rw [h]; rfl
  have hstarve : (if starveSpent s i = true then (starveCut i s).noteState i else s).cuePass = s.cuePass := by
    split
    · exact hnoted (offerOnly_starveCut i s)
    · rfl
  unfold settleSlot
  dsimp only
  generalize (if starveSpent s i = true then (starveCut i s).noteState i else s) = starved at hstarve
  split
  · exact (hnoted (offerOnly_correctSlot i starved)).trans hstarve
  · exact hstarve

theorem settleAll_cuePass (s : State) : (settleAll s).cuePass = s.cuePass := by
  unfold settleAll
  generalize List.finRange 8 = slots
  induction slots generalizing s with
  | nil => rfl
  | cons i rest ih => exact (ih _).trans (settleSlot_cuePass i s)

/-- So does the mix. -/
theorem finishMix_cuePass (s : State) : (finishMix s).cuePass = s.cuePass := by
  have hmix : ∀ t, (mixLanes t).cuePass = t.cuePass := fun _ => rfl
  rw [finishMix, hmix, settleAll_cuePass]

/-- The Renderer's work keeps a pass that is open. -/
theorem renderAll_cuePass {s : State} (h : s.cuePass.isSome = true) : (renderAll s).cuePass = s.cuePass := by
  obtain ⟨p, hp⟩ := Option.isSome_iff_exists.1 h
  simp only [renderAll, State.openPass, hp]

/-- The state once the Renderer has done its work for a strobe that is begun. -/
def rendered (s : State) : State := if s.strobeBegun = true then renderAll s else s

/-- The state once the Lane Mixer has done its work too. -/
def mixed (s : State) : State := if (rendered s).mixDue = true then finishMix (rendered s) else rendered s

theorem finishStrobe_eq (s : State) : finishStrobe s = cueSteps 17 (mixed s) := rfl

theorem inner_rendered (s : State) : Inner s (rendered s) := by
  unfold rendered
  split
  · exact inner_renderAll s
  · exact Inner.refl s

theorem inner_mixed (s : State) : Inner s (mixed s) := by
  refine (inner_rendered s).trans ?_
  unfold mixed
  split
  · exact inner_finishMix _
  · exact Inner.refl _

theorem mixed_mixDue (s : State) : (mixed s).mixDue = false := by
  unfold mixed
  split
  · rfl
  · next h => simpa using h

/-- An open pass stays open till the cues are fired. -/
theorem mixed_cuePass {s : State} (h : s.cuePass.isSome = true) : (mixed s).cuePass = s.cuePass := by
  have hrendered : (rendered s).cuePass = s.cuePass := by
    unfold rendered
    split
    · exact renderAll_cuePass h
    · rfl
  unfold mixed
  split
  · rw [finishMix_cuePass, hrendered]
  · exact hrendered

/-- With sound blocks SAMPLE_STROBE's rendering does what the Renderer owes a strobe that is begun. -/
theorem exec_render_begun {s : State} (h : ringsSound s) (hbegun : s.strobeBegun = true) :
    exec (.sampleStrobe .render) s = .next (rendered s) := by
  have hdue : s.strobeDue = true := (Bool.and_eq_true_iff.1 hbegun).1
  rw [exec_sampleStrobe_render (ringsLocated_of_blocksSound h.1) hdue, rendered, if_pos hbegun]

/-- With sound blocks SAMPLE_STROBE's mix does what the Lane Mixer owes. -/
theorem exec_mix_rendered {s : State} (h : ringsSound s) : exec (.sampleStrobe .mix) (rendered s) = .next (mixed s) := by
  have hblocks : blocksSound (rendered s) := ((inner_rendered s).blocks h.1).1
  show execSampleStrobe .mix (rendered s) = _
  rw [execSampleStrobe, if_pos (ringsLocated_of_blocksSound hblocks)]
  rfl

/-- Between strobes there is nothing to finish (R156). -/
theorem finishStrobe_between {s : State} (hmix : s.mixDue = false) (hpass : s.cuePass = none) : finishStrobe s = s := by
  have hrendered : rendered s = s := by simp [rendered, State.strobeBegun, hpass]
  have hmixed : mixed s = s := by simp [mixed, hrendered, hmix]
  rw [finishStrobe_eq, hmixed, cueSteps_of_noPass 17 hpass]

/-- A finished strobe has no entry left to fire (R129, R156). -/
theorem nextCue_finishStrobe {s : State} (hpass : s.cuePass.isSome = true) (hcues : cuesBounded s) :
    (finishStrobe s).nextCue = none := by
  have hbound : (mixed s).cues.length ≤ 16 := (inner_mixed s).cues hcues
  rw [finishStrobe_eq]
  exact nextCue_cueSteps (by rw [mixed_cuePass hpass]; exact hpass) (by omega)

/-- SNAPSHOT reads the state that the finished strobe leaves (R155, R156). -/
theorem exec_snapshot_taken {s : State} (h : Taken .snapshot s) :
    exec .snapshot s = .next ((finishStrobe s).reply 0x02 (done (snapshotWords (finishStrobe s)))) :=
  exec_taken (owner := snapshotOwner) h rfl (inner_finishStrobe s).interp

/-- Settles O57: the words as the owners form them, and the strobe's work by what `finishStrobe` does. -/
theorem queriesChangeNothing : Obligations.QueriesChangeNothing := by
  intro s flag record c master slot reading
  have hreading : ∀ u, reading u = snapshotWords u := fun u => by
    rw [snapshotWords_eq]
    simp only [slotWords_eq]
    rfl
  have hrecord : CaptureRecord.words = record := funext fun r => by
    simp only [CaptureRecord.words, natWord, BitVec.ofNat_toNat]
    rfl
  refine ⟨fun ht => exec_taken (owner := identifyOwner) ht rfl, fun ht => ?history, fun ht hmix hpass => ?between, fun ht hrings => ?mid⟩
  case history =>
    rw [← hrecord]
    exact exec_taken (owner := clockHistoryOwner) ht rfl
  case between =>
    rw [hreading, exec_snapshot_taken ht, finishStrobe_between hmix hpass]
    exact ⟨snapshotWords_length s, rfl⟩
  case mid =>
    intro fire
    obtain ⟨n, hfired⟩ := cueSteps_eq_iterate 17 (mixed s)
    refine ⟨rendered s, mixed s, finishStrobe s, n, mixed_mixDue s, ?rendered, exec_mix_rendered hrings, hfired,
      by rw [hreading]; exact exec_snapshot_taken ht,
      fun hpass hcues => congrArg Host.Outcome.next (cueStep_of_nextCue_none (nextCue_finishStrobe hpass hcues))⟩
    split
    · next hbegun => exact exec_render_begun hrings hbegun
    · next hbegun => exact if_neg hbegun

end Sys2Proof.Machine
end

section
/-! SUPPORT. The line reset, the waits of the Image Port with the reports and the bound that end them, sector writes, and how SAVE and
PRESET-PUT begin (R158, R160 to R167). -/

namespace Sys2Proof.Machine

/-! ## The line reset (R160) -/

/-- Settles O10: LINE_RESET answers the reset state, whose fields are those of the reset tables. -/
theorem lineResetStartsAfresh : Obligations.LineResetStartsAfresh := by
  intro s
  have hslots : ∀ i : Fin 8, State.reset.slot i = Slot.closedWith 0 := fun i => Vector.getElem_replicate _
  have hroutes : ∀ e : Fin 16, State.reset.routes[e.val] = none := fun e => Vector.getElem_replicate _
  have hlanes : ∀ l : Fin 4, State.reset.lanes[l.val] = Lane.reset := fun l => Vector.getElem_replicate _
  refine ⟨rfl, rfl, rfl, rfl, rfl, rfl, rfl, hslots, hroutes, fun l => ?_, rfl, rfl, rfl, rfl, rfl, rfl, rfl, rfl, rfl⟩
  rw [hlanes l]
  exact ⟨rfl, rfl, rfl⟩

/-! ## Reports met by a wait (R158) -/

/-- STATUS_POLL always ends in a next state (R158). -/
theorem exec_statusPoll (busy suspended : Bool) (s : State) :
    exec (.statusPoll busy suspended) s = .next (statusPollStep busy suspended s) := rfl

section
variable {s : State} {b : Bool} {t : Time} {p : Fin 8} {r : PresetRead} {w : SectorWrite} {el : Int} {issued : Bool}

/-- Start-up's wait before the image's read: a flash reported suspended is resumed once (R167). -/
theorem statusPollStep_startImage (h : s.port = .startImage (.waiting b t)) (busy suspended : Bool) :
    statusPollStep busy suspended s =
      if suspended = true ∧ b = false then
        { s with port := .startImage (.waiting true s.localCount), flashOut := [.resume, .statusPoll] }
      else if busy = false ∧ suspended = false then { s with port := .startImage .clocking, flashOut := [.read 0 92] }
      else { s with flashOut := [.statusPoll] } := by
  simp only [statusPollStep, h]
  rfl

/-- Start-up's wait before the boot preset's read (R161). -/
theorem statusPollStep_startPreset (h : s.port = .startPreset p (.waiting b t)) (busy suspended : Bool) :
    statusPollStep busy suspended s =
      if busy = false ∧ suspended = false then { s with port := .startPreset p .clocking, flashOut := [presetReadOp p] }
      else { s with flashOut := [.statusPoll] } := by
  simp only [statusPollStep, h]
  rfl

/-- The wait before a read made from IDLE (R165). -/
theorem statusPollStep_reading (h : s.port = .reading r (.waiting b t)) (busy suspended : Bool) :
    statusPollStep busy suspended s =
      if busy = false ∧ suspended = false then { s with port := .reading r .clocking, flashOut := [presetReadOp r.preset] }
      else { s with flashOut := [.statusPoll] } := by
  simp only [statusPollStep, h]
  rfl

/-- The wait for a flash asked to suspend: not busy ends it, suspended or not (R158, R166). -/
theorem statusPollStep_suspending (h : s.port = .suspended w el issued r (.suspending t)) (busy suspended : Bool) :
    statusPollStep busy suspended s =
      if busy = false then { s with port := .suspended w el issued r .clocking, flashOut := [presetReadOp r.preset] }
      else { s with flashOut := [.statusPoll] } := by
  simp only [statusPollStep, h, pollSuspended]
  rfl

/-- The report that decides whether to suspend (R166, log 13). -/
theorem statusPollStep_deciding (h : s.port = .suspended w el issued r (.deciding t)) (busy suspended : Bool) :
    statusPollStep busy suspended s =
      if busy = false then { s with port := .suspended w el issued r .clocking, flashOut := [presetReadOp r.preset] }
      else { s with port := .suspended w el true r (.suspending s.localCount), flashOut := [.suspend, .statusPoll] } := by
  simp only [statusPollStep, h, pollSuspended]
  cases busy <;> rfl

end

/-! ## The bound of a wait (R158) -/

section
variable {s : State} {t : Time}

/-- A wait at its bound ends (R158). -/
theorem exec_flashWaitTimeout_expired (h : waitStart s.port = some t) (hbound : 49152000 ≤ sdiff s.localCount t) :
    exec .flashWaitTimeout s = .next (waitTimeout s) := by
  have hexpired : s.waitExpired = true := by simp only [State.waitExpired, h]; exact decide_eq_true hbound
  exact congrArg Host.Outcome.next (if_pos hexpired)

/-- Nothing happens while no wait has reached its bound (R158). -/
theorem exec_flashWaitTimeout_idle (h : ∀ t, waitStart s.port = some t → sdiff s.localCount t < 49152000) :
    exec .flashWaitTimeout s = .next s := by
  have hidle : s.waitExpired = false := by
    unfold State.waitExpired
    split
    · rfl
    · next t ht => exact decide_eq_false (not_le.2 (h t ht))
  exact congrArg Host.Outcome.next (if_neg (by simp [hidle]))

/-- The two ends of a wait begun at `t`, as one rule. -/
theorem exec_flashWaitTimeout_wait (h : waitStart s.port = some t) {u : State} (hu : waitTimeout s = u) :
    (49152000 ≤ sdiff s.localCount t → exec .flashWaitTimeout s = .next u) ∧
    (¬ 49152000 ≤ sdiff s.localCount t → exec .flashWaitTimeout s = .next s) := by
  subst hu
  refine ⟨exec_flashWaitTimeout_expired h, fun hbound => exec_flashWaitTimeout_idle fun t' ht' => ?_⟩
  cases h.symm.trans ht'
  exact not_le.1 hbound

end

section
variable {s : State} {ph : ReadPhase} {p : Fin 8} {r : PresetRead} {w : SectorWrite} {el : Int} {issued : Bool} {sp : SuspendPhase}

/-! What fails at the bound, by the wait (R164 to R167). -/

theorem waitTimeout_startImage (h : s.port = .startImage ph) : waitTimeout s = defaulted .timeout s := by
  simp only [waitTimeout, h]

theorem waitTimeout_startPreset (h : s.port = .startPreset p ph) : waitTimeout s = finishStartup (.failed .timeout) s := by
  simp only [waitTimeout, h]

theorem waitTimeout_reading (h : s.port = .reading r ph) : waitTimeout s = failRead r { s with port := .idle } := by
  simp only [waitTimeout, h]
  rfl

theorem waitTimeout_writing (h : s.port = .writing w) : waitTimeout s = failWrite w.job .timeout { s with port := .idle } := by
  simp only [waitTimeout, h]
  rfl

theorem waitTimeout_suspended (h : s.port = .suspended w el issued r sp) :
    waitTimeout s = failWrite w.job .timeout (failRead r { s with port := .idle }) := by
  simp only [waitTimeout, h]
  rfl

end

/-- Defaults at the end of start-up, with their cause (R160, R161). -/
theorem defaulted_eq (c : Cause) (s : State) :
    defaulted c s = { offerPart .imageStatus (bytesWord 2 c.code 0 0) { s with imageStatus := .defaulted, defaultCause := some c } with
      port := .idle, run := .running } := rfl

/-- The end of a start-up that took an image (R161). -/
theorem finishStartup_loaded {s : State} (hloaded : s.imageStatus = .loaded) (hcause : s.defaultCause = none) (b : BootOutcome) :
    finishStartup b s = { offerPart .imageStatus (bytesWord 1 0 (match b with | .absent => 0 | .loaded => 1 | .failed _ => 2)
      (match b with | .absent => 0 | .loaded => 0 | .failed c => c.code)) s with port := .idle, run := .running } := by
  simp only [finishStartup, imageStatusDetail, hloaded, hcause]
  rfl

/-- Settles O16: each wait by what a report and its bound do there; a read fails at its requester as `readEnd_bad` says. -/
theorem readWaitEnds : Obligations.ReadWaitEnds := by
  intro s b t p d r read spared failed bound
  have hfailed : failRead r { s with port := .idle } = failed := by
    rw [failRead, readEnd_bad p d .timeout]
    show offerPart _ _ _ = offerPart _ _ { spared with port := .idle }
    by_cases h : d = .staged ∧ s.staged = .filling
    · rw [if_pos h, show spared = _ from if_pos h]; rfl
    · rw [if_neg h, show spared = _ from if_neg h]; rfl
  refine ⟨fun hp => ?image, fun hp => ?preset, fun hp => ?reading,
    fun w el issued busy suspended => ⟨fun hp => ?suspending, fun hp => ?deciding, fun hp => ?bounded⟩⟩
  case image =>
    refine ⟨fun busy suspended => congrArg Host.Outcome.next (statusPollStep_startImage hp busy suspended), ?_⟩
    exact exec_flashWaitTimeout_wait (by rw [hp]; rfl) ((waitTimeout_startImage hp).trans (defaulted_eq .timeout s))
  case preset =>
    refine ⟨fun busy suspended => congrArg Host.Outcome.next (statusPollStep_startPreset hp busy suspended), ?_⟩
    have hends := exec_flashWaitTimeout_wait (s := s) (t := t) (by rw [hp]; rfl) (waitTimeout_startPreset hp)
    exact ⟨fun hbound hloaded hcause => by rw [hends.1 hbound, finishStartup_loaded hloaded hcause]; rfl, hends.2⟩
  case reading =>
    refine ⟨fun busy suspended => congrArg Host.Outcome.next (statusPollStep_reading hp busy suspended), ?_⟩
    exact exec_flashWaitTimeout_wait (by rw [hp]; rfl) ((waitTimeout_reading hp).trans hfailed)
  case suspending => exact congrArg Host.Outcome.next (statusPollStep_suspending hp busy suspended)
  case deciding => exact congrArg Host.Outcome.next (statusPollStep_deciding hp busy suspended)
  case bounded =>
    have hwait : waitStart s.port = some t := by rcases hp with hp | hp <;> rw [hp] <;> rfl
    refine exec_flashWaitTimeout_wait hwait ?_
    rw [hp.elim waitTimeout_suspended waitTimeout_suspended, hfailed]
    rfl

/-! ## A sector write (R158, R164) -/

section
variable {s : State} {w : SectorWrite} {busy suspended : Bool}

/-- A report met by a sector write (R164). -/
theorem exec_statusPoll_writing (h : s.port = .writing w) (busy suspended : Bool) :
    exec (.statusPoll busy suspended) s = .next (pollWrite w busy suspended s) := by
  simp only [exec_statusPoll, statusPollStep, h]

/-- A report that does not end the wait is followed by another status-poll (R158). -/
theorem exec_statusPoll_writing_stays (h : s.port = .writing w) (hwait : w.step ≠ .readBack)
    (hstays : waitEnds w.step busy suspended = false) :
    exec (.statusPoll busy suspended) s = .next { s with flashOut := [.statusPoll] } := by
  simp only [exec_statusPoll_writing h, pollWrite, hstays, if_neg hwait, ← h]
  rfl

/-- A report that ends one wait of a write: the step after it begins at the present count (R164). -/
theorem exec_statusPoll_writing_moves (h : s.port = .writing w) (hends : waitEnds w.step busy suspended = true)
    (hone : suspended = true ∨ (w.step ≠ .erasing ∧ w.step ≠ .programming)) {x : WriteStep} {ops : List FlashOp}
    (hnext : nextWriteStep w = (x, ops)) : exec (.statusPoll busy suspended) s = .next { s with
      port := .writing { w with step := x, since := s.localCount }, flashOut := ops } := by
  have hstep : pollWrite w busy suspended s = stepWrite w s := by
    rw [pollWrite, if_pos hends]
    split
    · next he => rw [if_pos (hone.resolve_right fun hn => hn.1 he)]
    · next hp => rw [if_pos (hone.resolve_right fun hn => hn.2 hp)]
    all_goals rfl
  rw [exec_statusPoll_writing h, hstep, stepWrite, hnext]
  rfl

/-- A report of neither busy nor suspended after an erase or a program ends the wait before the next operation too (log 13). -/
theorem exec_statusPoll_writing_movesTwice (h : s.port = .writing w) (hwork : w.step = .erasing ∨ w.step = .programming)
    {x : WriteStep} {ops : List FlashOp} (hnext : nextWriteStep { w with step := (nextWriteStep w).1 } = (x, ops)) :
    exec (.statusPoll false false) s = .next { s with
      port := .writing { w with step := x, since := s.localCount }, flashOut := ops } := by
  have hstep : pollWrite w false false s = stepWrite { w with step := (nextWriteStep w).1 } s := by
    rcases hwork with hwork | hwork <;> simp [pollWrite, waitEnds, hwork]
  rw [exec_statusPoll_writing h, hstep, stepWrite, hnext]
  rfl

/-- The wait of a write is its own, but for the read-back, which is no wait (R158). -/
theorem waitStart_writing (h : s.port = .writing w) : waitStart s.port = if w.step = .readBack then none else some w.since := by
  rw [h]
  rfl

/-- The end of a read-back (R164). -/
theorem exec_sectorWriteEnd_readBack (h : s.port = .writing w) (hstep : w.step = .readBack) (words : List Word32) :
    exec (.sectorWriteEnd words) s = .next (
      if words = w.content then offerPart .flashDone (writeDetail w.job 0) { s with port := .idle }
      else failWrite w.job .verify { s with port := .idle }) := by
  show execSectorWriteEnd words s = _
  simp only [execSectorWriteEnd, h, if_pos hstep]
  rfl

end

/-- Settles O17: what each step of a write does is `nextWriteStep`, and which reports end its wait is `waitEnds`. -/
theorem writeGoesInOrder : Obligations.WriteGoesInOrder := by
  intro s w hp a moved program readBack detail
  have ends : ∀ {u : Bool}, waitEnds w.step false u = true → (u = true ∨ (w.step ≠ .erasing ∧ w.step ≠ .programming)) →
      ∀ {x ops}, nextWriteStep w = (x, ops) → exec (.statusPoll false u) s = .next (moved x ops) :=
    fun hends hone _ _ hnext => exec_statusPoll_writing_moves hp hends hone hnext
  have stays : ∀ {b u : Bool}, w.step ≠ .readBack → waitEnds w.step b u = false →
      exec (.statusPoll b u) s = .next { s with flashOut := [.statusPoll] } := exec_statusPoll_writing_stays hp
  have twice : w.step = .erasing ∨ w.step = .programming → ∀ {x ops},
      nextWriteStep { w with step := (nextWriteStep w).1 } = (x, ops) → exec (.statusPoll false false) s = .next (moved x ops) :=
    fun hwork _ _ hnext => exec_statusPoll_writing_movesTwice hp hwork hnext
  refine ⟨fun h => ?beforeErase, fun h => ⟨?erased, ?erasedFree⟩, fun h => ?beforeProgram, fun h => ⟨?programmed, ?programmedFree⟩,
    fun h => ?beforeReadBack, fun h b => ?busy, fun h => ?suspended, fun h hbound => ?timeout, fun h => ?within, fun h words => ?readBack⟩
  case beforeErase | beforeProgram | beforeReadBack =>
    exact ends (by rw [h]; rfl) (.inr (by simp [h])) (by rw [nextWriteStep, h]; rfl)
  case erased | programmed => exact ends (by rw [h]; rfl) (.inl rfl) (by rw [nextWriteStep, h])
  case erasedFree => exact twice (.inl h) (by simp only [nextWriteStep, h]; rfl)
  case programmedFree => exact twice (.inr h) (by simp only [nextWriteStep, h]; rfl)
  case busy => exact stays h (by cases w.step <;> rfl)
  case suspended => rcases h with h | h | h <;> exact stays (by simp [h]) (by rw [h]; rfl)
  case timeout =>
    rw [exec_flashWaitTimeout_expired ((waitStart_writing hp).trans (if_neg h)) hbound, waitTimeout_writing hp]
    rfl
  case within =>
    refine exec_flashWaitTimeout_idle fun t ht => ?_
    rw [waitStart_writing hp, Option.ite_none_left_eq_some] at ht
    obtain ⟨hstep, ht⟩ := ht
    cases ht
    exact h.resolve_left hstep
  case readBack => exact exec_sectorWriteEnd_readBack hp h words

/-! ## SAVE and PRESET-PUT (R162, R163) -/

/-- The boot preset byte of a SAVE reads back: 0xFF for none (R162). -/
theorem bootPresetOf_byte (b : Option (Fin 8)) :
    bootPresetOf (match b with | some q => BitVec.ofNat 8 q.val | none => 0xFF) = some b := by
  cases b with
  | none => rfl
  | some q => revert q; decide

/-- SAVE with its arguments in range: taken from IDLE (R162). -/
theorem saveOwner_inRange {tag : BitVec 16} (htag : tag ≠ 0xFFFF) {boot : BitVec 8} {b : Option (Fin 8)} (hb : bootPresetOf boot = some b)
    (s : State) : saveOwner tag boot s =
      if s.port = .idle then (beginWrite .save (imageWords (settingsInForce tag b s)) s, acceptedWith []) else (s, busyAnswer) := by
  simp only [saveOwner, hb, if_neg htag]

/-- PRESET-PUT of a preset there is: taken from IDLE (R163). -/
theorem presetPutOwner_preset (p : Fin 8) (s : State) : presetPutOwner (BitVec.ofNat 16 p.val) s =
      if s.port = .idle then (beginWrite (.presetPut p) (presetWords s.routes) s, acceptedWith []) else (s, busyAnswer) := by
  simp only [presetPutOwner, indexBelow_eight]

/-- Settles O19: by whether the Image Port is IDLE. -/
theorem writesBeginFromIdle : Obligations.WritesBeginFromIdle := by
  intro s tag b p htag save image
  have hsave := saveOwner_inRange htag (bootPresetOf_byte b) s
  have hput := presetPutOwner_preset p s
  by_cases hidle : s.port = .idle
  · simp only [if_pos hidle] at hsave hput ⊢
    exact ⟨fun ht => exec_taken ht hsave, fun ht => exec_taken ht hput⟩
  · simp only [if_neg hidle] at hsave hput ⊢
    exact ⟨fun ht => exec_taken ht hsave, fun ht => exec_taken ht hput⟩

end Sys2Proof.Machine
end

section
/-! SUPPORT. Stored sectors: a preset and an image written and read back, what each reader of a setting reads, and the end of start-up's
image read (R159 to R163, R171). -/

namespace Sys2Proof.Machine

/-! ## A stored preset read back (R159, R163) -/

/-- Every word of a preset but its check word reads back as its entry (R168). -/
theorem presetEntry_presetWords (t : RouteTable) (i : Nat) (hi : i < 16) : presetEntry ((presetWords t).getD i 0) = some t[i] := by
  have hword : (presetWords t).getD i 0 = routeWord t[i] := by
    simp [presetWords, List.getElem?_append_left, hi]
  rw [hword, presetEntry_routeWord]

/-- A preset's table reads back (R171). -/
theorem presetTable_presetWords {t : RouteTable} {ws : Vector Word32 17} (hws : ws.toList = presetWords t) : presetTable ws = some t := by
  have hentry : ∀ (i : Nat) (hi : i < 16), presetEntry (ws.toList.getD i 0) = some t[i] := hws ▸ presetEntry_presetWords t
  simp (disch := decide) only [presetTable, hentry]
  rw [← vector_sixteen t]

/-- A check word read from its word's lower half (R63). -/
theorem field_onesSum (ws : List Word32) : (Decode.field (natWord (onesSum ws)) 0 16).toNat = onesSum ws := by
  have h := onesSum_lt ws
  rw [field_natWord _ _ _ (by omega)]
  omega

/-- Settles O15: the check word is the sum of the entries' words, and each of those reads back as its entry. -/
theorem storedPresetReadsBack : Obligations.StoredPresetReadsBack := by
  intro t ws hws hdistinct
  have hbody : ws.toList.take 16 = t.toList.map routeWord := by
    rw [hws]; exact List.take_left' (by simp)
  have hcheck : ws[16] = natWord (onesSum (t.toList.map routeWord)) := by
    have hlast : ws.toList.getD 16 0 = natWord (onesSum (t.toList.map routeWord)) := by
      rw [hws]; simp [presetWords]
    rw [← hlast]; simp
  rw [judgePreset, if_neg (by rw [hbody, hcheck, field_onesSum]; simp), presetTable_presetWords hws]
  simp only [hdistinct, if_true]

/-! ## Codes read (R168, R171) -/

/-! A reader gives what has the code it read. -/

theorem sourceOfCode_eq_some_iff {n : Nat} {x : CaptureSource} : sourceOfCode n = some x ↔ x.code = n := by
  constructor
  · intro h; unfold sourceOfCode at h; split at h <;> cases h <;> rfl
  · rintro rfl; cases x <;> rfl

theorem outputRateOfCode_eq_some_iff {n : Nat} {x : OutputRate} : outputRateOfCode n = some x ↔ x.code = n := by
  constructor
  · intro h; unfold outputRateOfCode at h; split at h <;> cases h <;> rfl
  · rintro rfl; cases x <;> rfl

theorem modeOfCode_eq_some_iff {n : Nat} {x : PartitionMode} : modeOfCode n = some x ↔ x.regions = n := by
  constructor
  · intro h; unfold modeOfCode at h; split at h <;> cases h <;> rfl
  · rintro rfl; cases x <;> rfl

theorem classOfCode_eq_some_iff {n : Nat} {x : EventClass} : classOfCode n = some x ↔ x.code = n := by
  constructor
  · intro h; unfold classOfCode at h; split at h <;> cases h <;> rfl
  · rintro rfl; cases x <;> rfl

/-- A number read within its range is the number itself. -/
theorem eq_of_natIn {lo hi n m : Nat} (h : natIn lo hi n = some m) : m = n := by
  simp only [natIn, Option.ite_none_right_eq_some, Option.some.injEq] at h
  exact h.2.symm

/-- A signed word read within its range is its value. -/
theorem eq_of_signedIn {lo hi x : Int} {w : Word32} (h : signedIn lo hi w = some x) : x = w.toInt := by
  simp only [signedIn, Option.ite_none_right_eq_some, Option.some.injEq] at h
  exact h.2.symm

/-- The settings read from a CLOCK-SET's or an image's fields (R4, R5). -/
theorem clockSettings_of_fields {m : BitVec 16} {source : BitVec 8} {limit link edge : BitVec 16} {gate window : Word32}
    {x : ClockSettings} (h : clockSettingsOf m source limit link edge gate window = some x) :
    x.masterId = m ∧ x.source.code = source.toNat ∧ x.holdoverLimit = limit.toNat ∧ x.linkLatency = link ∧ x.edgeLatency = edge ∧
      x.gate = gate.toNat ∧ x.window = window.toNat := by
  unfold clockSettingsOf at h
  split at h
  · next hs hl hg hw =>
    cases h
    exact ⟨rfl, sourceOfCode_eq_some_iff.1 hs, eq_of_natIn hl, rfl, rfl, eq_of_natIn hg, eq_of_natIn hw⟩
  · cases h

/-- The output settings read from an image's or an OUTPUT-SET's words (R111). -/
theorem outputSettings_of_fields {rate ko rt : Word32} {x : OutputSettings} (h : outputSettingsOf rate ko rt = some x) :
    x.rate.code = rate.toNat ∧ x.ko = ko.toNat ∧ x.rt = rt.toNat := by
  unfold outputSettingsOf at h
  split at h
  · next hr hk ht =>
    cases h
    exact ⟨outputRateOfCode_eq_some_iff.1 hr, eq_of_natIn hk, eq_of_natIn ht⟩
  · cases h

/-- The boot preset read from its byte (R171). -/
theorem bootPreset_of_byte {x : BitVec 8} {b : Option (Fin 8)} (h : bootPresetOf x = some b) :
    x.toNat = (b.map (·.val)).getD 0xFF := by
  unfold bootPresetOf at h
  split at h
  · next hx => cases h; rw [hx]; rfl
  · simp only [indexBelow, Option.map_eq_some_iff, Option.dite_none_right_eq_some, Option.some.injEq] at h
    obtain ⟨p, ⟨hp, rfl⟩, rfl⟩ := h
    rfl

/-! ## What can be read (R4, R32, R111, R137) -/

theorem exists_source {n : Nat} (h : n ≤ 1) : ∃ x, sourceOfCode n = some x := by
  interval_cases n <;> exact ⟨_, rfl⟩

theorem exists_outputRate {n : Nat} (h : n = 3 ∨ n = 5) : ∃ x, outputRateOfCode n = some x := by
  rcases h with rfl | rfl <;> exact ⟨_, rfl⟩

/-- Clock settings are read where each is in its range (R4). -/
theorem exists_clockSettings_iff {m : BitVec 16} {source : BitVec 8} {limit link edge : BitVec 16} {gate window : Word32} :
    (∃ x, clockSettingsOf m source limit link edge gate window = some x) ↔
      source.toNat ≤ 1 ∧ (1 ≤ limit.toNat ∧ limit.toNat ≤ 600) ∧ (246 ≤ gate.toNat ∧ gate.toNat ≤ 245760) ∧
        (25 ≤ window.toNat ∧ window.toNat ≤ 24576) := by
  constructor
  · rintro ⟨x, hx⟩
    by_contra hout
    rw [clockSettingsOf_eq_none (by omega)] at hx
    cases hx
  · rintro ⟨hsource, hlimit, hgate, hwindow⟩
    obtain ⟨src, hsrc⟩ := exists_source hsource
    simp only [clockSettingsOf, hsrc, natIn_of_le hlimit.1 hlimit.2, natIn_of_le hgate.1 hgate.2, natIn_of_le hwindow.1 hwindow.2]
    exact ⟨_, rfl⟩

/-- Output settings are read where each is in its range (R111). -/
theorem exists_outputSettings_iff {rate ko rt : Word32} :
    (∃ x, outputSettingsOf rate ko rt = some x) ↔
      (rate.toNat = 3 ∨ rate.toNat = 5) ∧ ko.toNat ≤ 245760 ∧ (2458 ≤ rt.toNat ∧ rt.toNat ≤ 983040) := by
  constructor
  · rintro ⟨x, hx⟩
    by_contra hout
    rw [outputSettingsOf_eq_none (by omega)] at hx
    cases hx
  · rintro ⟨hrate, hko, hrt⟩
    obtain ⟨r, hr⟩ := exists_outputRate hrate
    simp only [outputSettingsOf, hr, natIn_of_le (Nat.zero_le _) hko, natIn_of_le hrt.1 hrt.2]
    exact ⟨_, rfl⟩

theorem exists_signedIn_iff {lo hi : Int} {w : Word32} : (∃ x, signedIn lo hi w = some x) ↔ lo ≤ w.toInt ∧ w.toInt ≤ hi := by
  simp [signedIn]

theorem exists_mode_iff {x : BitVec 8} : (∃ m, modeOfCode x.toNat = some m) ↔ x = 1 ∨ x = 2 ∨ x = 4 := by
  simp only [modeOfCode_eq_some_iff, ← BitVec.toNat_inj]
  constructor
  · rintro ⟨m, hm⟩
    rw [← hm]
    cases m <;> decide
  · rintro (h | h | h) <;> rw [h]
    · exact ⟨.one, rfl⟩
    · exact ⟨.two, rfl⟩
    · exact ⟨.four, rfl⟩

theorem exists_bootPreset_iff {x : BitVec 8} : (∃ b, bootPresetOf x = some b) ↔ x.toNat ≤ 7 ∨ x = 0xFF := by
  constructor
  · rintro ⟨b, hb⟩
    by_contra hout
    rw [bootPresetOf_eq_none ⟨by omega, fun h => hout (.inr h)⟩] at hb
    cases hb
  · intro h
    by_cases hnone : x = 0xFF
    · exact ⟨none, if_pos hnone⟩
    · have hlt : x.toNat < 8 := by have := h.resolve_right hnone; omega
      exact ⟨some ⟨_, hlt⟩, by rw [bootPresetOf, if_neg hnone, indexBelow, dif_pos hlt]; rfl⟩

/-! ## The class table's words (R171) -/

/-- The four class codes of a word, the first in bits 31..24. -/
def classBytes (w : Word32) : List Nat :=
  [(w.extractLsb' 24 8).toNat, (w.extractLsb' 16 8).toNat, (w.extractLsb' 8 8).toNat, (w.extractLsb' 0 8).toNat]

/-- The class code of kind `k` in the words of a class table. -/
def classByte (ws : List Word32) (k : Nat) : Nat := ((ws.getD (k / 4) 0).extractLsb' (24 - 8 * (k % 4)) 8).toNat

/-- The code of each kind stands at its place among the words' bytes. -/
theorem getD_flatMap_classBytes (ws : List Word32) (k : Nat) : (ws.flatMap classBytes).getD k 0 = classByte ws k := by
  induction ws generalizing k with
  | nil => simp [classByte]
  | cons w ws ih =>
    match k with
    | 0 | 1 | 2 | 3 => rfl
    | j + 4 =>
      have hdiv : (j + 4) / 4 = j / 4 + 1 := by omega
      have hmod : (j + 4) % 4 = j % 4 := by omega
      rw [classByte, hdiv, hmod]
      exact ih j

theorem length_flatMap_classBytes (ws : List Word32) : (ws.flatMap classBytes).length = 4 * ws.length := by
  simp [List.length_flatMap, classBytes, Nat.mul_comm]

/-- Classes are read from words where their codes are the words' bytes (R171). -/
theorem classesOfWords_eq_some_iff {ws : List Word32} {l : List EventClass} :
    classesOfWords ws = some l ↔ l.map EventClass.code = ws.flatMap classBytes := by
  induction ws generalizing l with
  | nil => simp [classesOfWords, eq_comm]
  | cons w ws ih =>
    constructor
    · intro h
      unfold classesOfWords classesOfWord at h
      split at h
      · next hword hrest =>
        split at hword
        · next h1 h2 h3 h4 =>
          cases hword
          cases h
          simp only [List.map_append, ih.1 hrest, List.map_cons, List.map_nil, classOfCode_eq_some_iff.1 h1, classOfCode_eq_some_iff.1 h2,
            classOfCode_eq_some_iff.1 h3, classOfCode_eq_some_iff.1 h4]
          rfl
        · cases hword
      · cases h
    · intro h
      match l, h with
      | a :: b :: c :: d :: l, h =>
        simp only [List.map_cons, List.flatMap_cons, classBytes, List.cons_append, List.nil_append, List.cons.injEq] at h
        obtain ⟨h1, h2, h3, h4, hrest⟩ := h
        simp only [classesOfWords, classesOfWord_of h1.symm h2.symm h3.symm h4.symm, ih.2 hrest]
        rfl
      | [], h | [_], h | [_, _], h | [_, _, _], h => simp [classBytes] at h

/-- The class table of eight words, kind by kind (R171). -/
theorem classesOfWords_eq_table_iff {ws : List Word32} (hlen : ws.length = 8) {v : Vector EventClass 32} :
    classesOfWords ws = some v.toList ↔ ∀ k : Fin 32, (v[k.val]).code = classByte ws k.val := by
  have hbytes : (ws.flatMap classBytes).length = 32 := by rw [length_flatMap_classBytes, hlen]
  simp only [classesOfWords_eq_some_iff, ← getD_flatMap_classBytes]
  constructor
  · intro h k
    rw [← h]
    simp
  · intro h
    refine List.ext_getElem (by simp [hbytes]) fun k hk hk' => ?_
    have hcode := h ⟨k, by omega⟩
    simpa [List.getElem?_eq_getElem hk'] using hcode

/-- A class table is read where every byte is a class code (R137). -/
theorem exists_classTable_iff {ws : List Word32} (hlen : ws.length = 8) :
    (∃ v : Vector EventClass 32, classesOfWords ws = some v.toList) ↔ ∀ k : Fin 32, classByte ws k.val ≤ 2 := by
  simp only [classesOfWords_eq_table_iff hlen]
  constructor
  · rintro ⟨v, hv⟩ k
    rw [← hv k]
    cases v[k.val] <;> decide
  · intro h
    have hclass : ∀ k : Fin 32, ∃ c : EventClass, c.code = classByte ws k.val := by
      intro k
      have hk := h k
      generalize classByte ws k.val = n at hk
      interval_cases n
      · exact ⟨.ignore, rfl⟩
      · exact ⟨.note, rfl⟩
      · exact ⟨.fault, rfl⟩
    choose c hc using hclass
    exact ⟨Vector.ofFn c, fun k => by simpa using hc k⟩

/-! ## The image's settings, word by word (R159, R171) -/

section
variable {ws : Vector Word32 23} {x : Image}

/-- The class table takes the last eight words of an image (R171). -/
theorem imageClassWords_length (ws : Vector Word32 23) : (ws.toList.drop 15).length = 8 := by simp

/-- The image read from the words, setting by setting. -/
theorem imageOf_eq_some_iff : imageOf ws = some x ↔
    (Decode.field ws[4] 0 16 ≠ 0xFFFF ∧ x.deviceTag = Decode.field ws[4] 0 16) ∧
    clockSettingsOf (Decode.field ws[5] 0 16) (Decode.field ws[6] 24 8) (Decode.field ws[6] 0 16)
      (Decode.field ws[7] 16 16) (Decode.field ws[7] 0 16) ws[8] ws[9] = some x.settings ∧
    signedIn (-Config.driftLimit) Config.driftLimit ws[10] = some x.nominalDrift ∧
    outputSettingsOf ws[11] ws[12] ws[13] = some x.output ∧
    modeOfCode (Decode.field ws[14] 0 8).toNat = some x.partition ∧
    bootPresetOf (Decode.field ws[14] 8 8) = some x.bootPreset ∧
    classesOfWords (ws.toList.drop 15) = some x.classes.toList := by
  constructor
  · intro h
    unfold imageOf at h
    split at h
    · next cs nd out bp m cl hcs hnd hout hbp hm hcl =>
      split at h
      · cases h
      · next htag =>
        cases h
        have hlen : cl.length = 32 := by
          have hcodes := congrArg List.length (classesOfWords_eq_some_iff.1 hcl)
          rwa [List.length_map, length_flatMap_classBytes, imageClassWords_length] at hcodes
        have htable : (Vector.ofFn fun i : Fin 32 => cl.getD i.val .ignore).toList = cl :=
          List.ext_getElem (by simp [hlen]) fun k hk hk' => by simp [List.getElem?_eq_getElem hk']
        exact ⟨⟨htag, rfl⟩, hcs, hnd, hout, hm, hbp, by rw [htable]; exact hcl⟩
    · cases h
  · rintro ⟨⟨htag, hx⟩, hcs, hnd, hout, hm, hbp, hcl⟩
    simp only [imageOf, hcs, hnd, hout, hbp, hm, hcl, if_neg htag, ofFn_getD]
    rw [← hx]

/-- The image's settings are there where each can be read (R159). -/
theorem exists_image_iff : (∃ x, imageOf ws = some x) ↔
    Decode.field ws[4] 0 16 ≠ 0xFFFF ∧
    (∃ cs, clockSettingsOf (Decode.field ws[5] 0 16) (Decode.field ws[6] 24 8) (Decode.field ws[6] 0 16)
      (Decode.field ws[7] 16 16) (Decode.field ws[7] 0 16) ws[8] ws[9] = some cs) ∧
    (∃ nd, signedIn (-Config.driftLimit) Config.driftLimit ws[10] = some nd) ∧
    (∃ out, outputSettingsOf ws[11] ws[12] ws[13] = some out) ∧
    (∃ m, modeOfCode (Decode.field ws[14] 0 8).toNat = some m) ∧
    (∃ b, bootPresetOf (Decode.field ws[14] 8 8) = some b) ∧
    ∃ v : Vector EventClass 32, classesOfWords (ws.toList.drop 15) = some v.toList := by
  constructor
  · rintro ⟨x, hx⟩
    obtain ⟨⟨htag, -⟩, hcs, hnd, hout, hm, hbp, hcl⟩ := imageOf_eq_some_iff.1 hx
    exact ⟨htag, ⟨_, hcs⟩, ⟨_, hnd⟩, ⟨_, hout⟩, ⟨_, hm⟩, ⟨_, hbp⟩, ⟨_, hcl⟩⟩
  · rintro ⟨htag, ⟨cs, hcs⟩, ⟨nd, hnd⟩, ⟨out, hout⟩, ⟨m, hm⟩, ⟨b, hbp⟩, ⟨v, hcl⟩⟩
    exact ⟨{ deviceTag := _, settings := cs, nominalDrift := nd, output := out, partition := m, bootPreset := b, classes := v },
      imageOf_eq_some_iff.2 ⟨⟨htag, rfl⟩, hcs, hnd, hout, hm, hbp, hcl⟩⟩

/-- A good image is what its words hold (R159). -/
theorem judgeImage_eq_good_iff : judgeImage ws = .good x ↔
    (ws[0] = 0x54313801 ∧ ws[1] = 1 ∧ ws[2] = 19) ∧ onesSum (ws.toList.drop 4) = (Decode.field ws[3] 0 16).toNat ∧
      imageOf ws = some x := by
  constructor
  · intro h
    unfold judgeImage at h
    split_ifs at h with h0 h1 h2 h3
    split at h
    · cases h
    · next hx =>
      cases h
      exact ⟨⟨not_not.1 h0, not_not.1 h1, not_not.1 h2⟩, not_not.1 h3, hx⟩
  · rintro ⟨⟨h0, h1, h2⟩, h3, hx⟩
    simp only [judgeImage, h0, h1, h2, h3, hx, ne_eq, not_true_eq_false, if_false]

end

/-! ## A saved image read back (R159, R162) -/

/-- A drift in range reads back from its word. -/
theorem signedIn_signedWord {x : Int} (h : -Config.driftLimit ≤ x ∧ x ≤ Config.driftLimit) :
    signedIn (-Config.driftLimit) Config.driftLimit (signedWord x) = some x := by
  have hword : (signedWord x).toInt = x := by
    unfold Config.driftLimit at h
    rw [signedWord, BitVec.toInt_ofInt]
    exact Int.bmod_eq_of_le (by omega) (by omega)
  rw [signedIn, hword, if_pos h]

/-- A 16-bit number reads back from the lower half of its word. -/
theorem field_natWord_half (b : BitVec 16) : Decode.field (natWord b.toNat) 0 16 = b := by
  apply BitVec.eq_of_toNat_eq
  have := b.isLt
  rw [field_natWord _ _ _ (by omega)]
  omega

/-- The first byte of a word put together from bytes, whatever the others. -/
theorem field_bytesWord_high (a b c d : Nat) (ha : a < 256) : (Decode.field (bytesWord a b c d) 24 8).toNat = a := by
  rw [bytesWord, field_natWord _ _ _ (by omega)]
  omega

/-- The clock settings of an image read back from its words 5 to 9. -/
theorem clockSettingsOf_words {x : ClockSettings} (hlimit : 1 ≤ x.holdoverLimit ∧ x.holdoverLimit ≤ 600)
    (hgate : 246 ≤ x.gate ∧ x.gate ≤ 245760) (hwindow : 25 ≤ x.window ∧ x.window ≤ 24576) :
    let word6 := bytesWord x.source.code 0 (x.holdoverLimit / 256) x.holdoverLimit
    let word7 := halvesWord x.linkLatency.toNat x.edgeLatency.toNat
    clockSettingsOf (Decode.field (natWord x.masterId.toNat) 0 16) (Decode.field word6 24 8) (Decode.field word6 0 16)
      (Decode.field word7 16 16) (Decode.field word7 0 16) (natWord x.gate) (natWord x.window) = some x := by
  intro word6 word7
  have hcode : x.source.code < 256 := by cases x.source <;> decide
  have hsource : Decode.field word6 24 8 = BitVec.ofNat 8 x.source.code := by
    apply BitVec.eq_of_toNat_eq
    rw [field_bytesWord_high _ _ _ _ hcode, BitVec.toNat_ofNat, Nat.mod_eq_of_lt hcode]
  have hlow : Decode.field word6 0 16 = BitVec.ofNat 16 x.holdoverLimit := by
    apply BitVec.eq_of_toNat_eq
    rw [field_bytesWord_half _ _ _ hcode (by omega) (by omega), BitVec.toNat_ofNat, Nat.mod_eq_of_lt (by omega)]
  obtain ⟨hlink, hedge⟩ := field_halvesWord x.linkLatency.toNat x.edgeLatency.toNat x.linkLatency.isLt x.edgeLatency.isLt
  rw [field_natWord_half, hsource, hlow, BitVec.eq_of_toNat_eq hlink, BitVec.eq_of_toNat_eq hedge]
  exact clockSettingsOf_fields hlimit hgate hwindow

/-- Settles O14: `imageOf` reads each setting back from its word, and the check word is the sum of the body. -/
theorem savedImageReadsBack : Obligations.SavedImageReadsBack := by
  intro x ws hws htag hlimit hgate hwindow hdrift hko hrt
  have hword : ∀ (i : Nat) (hi : i < 23), ws[i] = (imageWords x).getD i 0 := fun i hi => by rw [← hws]; simp [hi]
  have hfield := field_natWord_half x.deviceTag
  have hcheck : onesSum (ws.toList.drop 4) = (Decode.field ws[3] 0 16).toNat := by
    rw [hws, hword 3 (by decide)]
    exact (field_onesSum (imageBody x)).symm
  have himage : imageOf ws = some x := by
    rw [imageOf_eq_some_iff, hws, hword 4 (by decide), hword 5 (by decide), hword 6 (by decide), hword 7 (by decide),
      hword 8 (by decide), hword 9 (by decide), hword 10 (by decide), hword 11 (by decide), hword 12 (by decide), hword 13 (by decide), hword 14 (by decide)]
    exact ⟨⟨fun h => htag (hfield.symm.trans h), hfield.symm⟩, clockSettingsOf_words hlimit hgate hwindow, signedIn_signedWord hdrift,
      outputSettingsOf_words hko hrt, modeOfCode_bootWord x.bootPreset x.partition, bootPresetOf_bootWord x.bootPreset x.partition,
      classesOfWords_classWords _ (by simp)⟩
  exact judgeImage_eq_good_iff.2 ⟨⟨hword 0 (by decide), hword 1 (by decide), hword 2 (by decide)⟩, hcheck, himage⟩

/-! ## The end of the image's read (R160, R161) -/

section
variable {s : State} {ws : Vector Word32 23}

/-- IMAGE_READ_END with a good image, while it is being read (R160). -/
theorem exec_imageReadEnd_good (hp : s.port = .startImage .clocking) {x : Image} (h : judgeImage ws = .good x) :
    exec (.imageReadEnd ws) s = .next (afterImage (takeImage x s)) := by
  show execImageReadEnd ws s = _
  simp only [execImageReadEnd, hp, h]

/-- IMAGE_READ_END with a bad one (R160). -/
theorem exec_imageReadEnd_bad (hp : s.port = .startImage .clocking) {c : Cause} (h : judgeImage ws = .bad c) :
    exec (.imageReadEnd ws) s = .next (defaulted c s) := by
  show execImageReadEnd ws s = _
  simp only [execImageReadEnd, hp, h]

/-- After an image without a boot preset the part runs (R161). -/
theorem afterImage_withoutPreset (hboot : s.bootPreset = none) : afterImage s = finishStartup .absent s := by
  simp only [afterImage, hboot]

/-- After one with a boot preset its read is waited for (R161). -/
theorem afterImage_withPreset {p : Fin 8} (hboot : s.bootPreset = some p) :
    afterImage s = s.withPort (.startPreset p (.waiting false s.localCount)) [.statusPoll] := by
  simp only [afterImage, hboot]

end

/-- A class's byte in an image, counted from the image's first word (R171). -/
theorem classByte_drop (ws : List Word32) (k : Nat) :
    classByte (ws.drop 15) k = ((ws.getD (15 + k / 4) 0).extractLsb' (24 - 8 * (k % 4)) 8).toNat := by
  simp [classByte]

/-- Settles O12: `judgeImage` tests magic, version, length and check word, then what `exists_image_iff` asks of each setting; a good image
is read setting by setting, and start-up goes on by its boot preset. -/
theorem imageReadEndsStartUp : Obligations.ImageReadEndsStartUp := by
  intro s ws hp
  refine ⟨?causes, fun x hgood => ?good, fun c hbad => ?bad⟩
  case causes =>
    intro sum folded within header checked ranged
    have hcheck : onesSum (ws.toList.drop 4) = (Decode.field ws[3] 0 16).toNat ↔ checked := by
      rw [onesSum_eq]; exact Iff.rfl
    have hrange : (∃ x, imageOf ws = some x) ↔ ranged := by
      rw [exists_image_iff, exists_clockSettings_iff, exists_signedIn_iff, exists_outputSettings_iff, exists_mode_iff,
        exists_bootPreset_iff, exists_classTable_iff (imageClassWords_length ws)]
      simp only [classByte_drop, and_assoc, ranged, within]
      exact Iff.rfl
    refine ⟨fun h0 => ?magic, fun h0 h1 => ?version, fun h0 h1 h2 => ?length, fun ⟨h0, h1, h2⟩ hc => ?check,
      fun ⟨h0, h1, h2⟩ hc hr => ?range, fun hheader hc hr => ?allRight⟩
    case magic => exact if_pos h0
    case version => rw [judgeImage, if_neg (not_not.2 h0), if_pos h1]
    case length => rw [judgeImage, if_neg (not_not.2 h0), if_neg (not_not.2 h1), if_pos h2]
    case check =>
      rw [judgeImage, if_neg (not_not.2 h0), if_neg (not_not.2 h1), if_neg (not_not.2 h2), if_pos (hcheck.not.2 hc)]
    case range =>
      have hnone : imageOf ws = none := Option.eq_none_iff_forall_ne_some.2 fun x hx => hr (hrange.1 ⟨x, hx⟩)
      rw [judgeImage, if_neg (not_not.2 h0), if_neg (not_not.2 h1), if_neg (not_not.2 h2), if_neg (not_not.2 (hcheck.2 hc)), hnone]
    case allRight =>
      obtain ⟨x, hx⟩ := hrange.2 hr
      exact ⟨x, judgeImage_eq_good_iff.2 ⟨hheader, hcheck.2 hc, hx⟩⟩
  case good =>
    intro taken
    have hexec : exec (.imageReadEnd ws) s = .next (afterImage taken) := exec_imageReadEnd_good hp hgood
    obtain ⟨-, -, himage⟩ := judgeImage_eq_good_iff.1 hgood
    obtain ⟨⟨-, htag⟩, hcs, hnd, hout, hm, hbp, hcl⟩ := imageOf_eq_some_iff.1 himage
    obtain ⟨hmaster, hsource, hlimit, hlink, hedge, hgate, hwindow⟩ := clockSettings_of_fields hcs
    obtain ⟨hrate, hko, hrt⟩ := outputSettings_of_fields hout
    have hdrift : x.nominalDrift = ws[10].toInt := eq_of_signedIn hnd
    have hclasses := (classesOfWords_eq_table_iff (imageClassWords_length ws)).1 hcl
    simp only [classByte_drop] at hclasses
    have hboot := bootPreset_of_byte hbp
    refine ⟨⟨htag, hmaster, hlimit, hlink, hedge, hgate, hwindow, hdrift, hrate, hko, hrt,
      modeOfCode_eq_some_iff.1 hm, hsource, ?_, hclasses⟩,
      fun hnone => ?withoutPreset, fun p hsome => ?withPreset⟩
    · rw [show (ws[14].extractLsb' 8 8).toNat = _ from hboot]
      cases x.bootPreset <;> rfl
    case withoutPreset =>
      rw [hexec, afterImage_withoutPreset hnone, finishStartup_loaded rfl rfl]
      rfl
    case withPreset => exact hexec.trans (congrArg Host.Outcome.next (afterImage_withPreset hsome))
  case bad => exact (exec_imageReadEnd_bad hp hbad).trans (congrArg Host.Outcome.next (defaulted_eq c s))

end Sys2Proof.Machine
end
